-- ==== Sys2Proof/Word.lean ====
section
/-! DEFINITION. The words of the S412: the fixed-width values the manual treats as bits, and the
structure that holds one item for each of the four bays. -/

namespace Sys2Proof

/-- One byte of a frame body or of the configuration image (R162, R181). -/
abbrev Byte := BitVec 8

/-- A belt position: an unsigned 32-bit count of encoder pulses that wraps (00_scope.md 4.1, R1). -/
abbrev Pos := BitVec 32

/-- A lot number, 0 to 65,535; lot 0 means no lot (00_scope.md 4.2). -/
abbrev Lot := BitVec 16

/-- A category code, 0 to 255 (00_scope.md 4.2). -/
abbrev Code := BitVec 8

/-- A handover sequence number; it wraps from 255 to 0 (R54, R85). -/
abbrev Seq := BitVec 8

/-- A local piece number, 0 to 255 (R59). -/
abbrev LocalNo := BitVec 8

/-- The number of a stacker bay, in belt order from the entry eye (08_stacker_bays.md). -/
inductive BayNo where
  | b1 | b2 | b3 | b4
  deriving DecidableEq, Repr

/-- The bay's number as the manual writes it, 1 to 4. -/
def BayNo.num : BayNo → Nat
  | .b1 => 1
  | .b2 => 2
  | .b3 => 3
  | .b4 => 4

/-- The four bays in number order. -/
def BayNo.all : List BayNo := [.b1, .b2, .b3, .b4]

/-- One item for each of the four bays. -/
structure Four (α : Type) where
  b1 : α
  b2 : α
  b3 : α
  b4 : α
  deriving DecidableEq, Repr

/-- The item of one bay. -/
def Four.get {α : Type} (f : Four α) : BayNo → α
  | .b1 => f.b1
  | .b2 => f.b2
  | .b3 => f.b3
  | .b4 => f.b4

/-- The same four items with one bay's replaced. -/
def Four.set {α : Type} (f : Four α) (b : BayNo) (x : α) : Four α :=
  match b with
  | .b1 => { f with b1 := x }
  | .b2 => { f with b2 := x }
  | .b3 => { f with b3 := x }
  | .b4 => { f with b4 := x }

/-- The same item four times. -/
def Four.all {α : Type} (x : α) : Four α := ⟨x, x, x, x⟩

/-- Every item changed by one function. -/
def Four.map {α β : Type} (g : α → β) (f : Four α) : Four β := ⟨g f.b1, g f.b2, g f.b3, g f.b4⟩

end Sys2Proof
end

