-- ==== Sys2Proof/Config.lean ====
section
/-! DEFINITION. What is fixed in the part (constants of the chapters), and the FREE VALUES: constants
without a body, for what the manual leaves open. -/

namespace Sys2Proof

/-- The characters of the fixed decoder of the display (R177). -/
inductive Glyph where
  | digit (d : Nat)
  | blank
  | dash
  | letterE
  | letterS
  | letterC
  | letterF
  | letterB
  deriving DecidableEq, Repr

/-- The order in which one encoder pulse reaches the three units that hold position keys: the entry
channel with the planner (N), the exit channel (X) and the action schedule (S). R2, R70 and R117 leave
the order open. -/
inductive PulseOrder where
  | nxs | nsx | xns | xsn | snx | sxn
  deriving DecidableEq, Repr, Inhabited

/-- FREE VALUE (log 7): the order taken at the n-th encoder pulse. R70: an event that falls together
with a planning "is taken either before the whole planning or after it". -/
opaque Config.pulseOrder : Nat → PulseOrder

/-- FREE VALUE (log 9): the segments a (bit 0) to g (bit 6) that the fixed decoder lights for a
character; R177 names the characters and gives no patterns. -/
opaque Config.glyphPattern : Glyph → BitVec 7

/-- Speed counts are held at 4,095 (R5). -/
def Config.maxCount : Nat := 4095

/-- Rearm run, in window ends (R9, R12). -/
def Config.rearmRun : Nat := 25

/-- Stall grace, in window ends (R10). -/
def Config.stallGrace : Nat := 10

/-- Most records in the track list (R50). -/
def Config.maxRecords : Nat := 24

/-- Most ON_BELT records in the track list (R50). -/
def Config.maxOnBelt : Nat := 12

/-- Places of the transmit queue (R165). -/
def Config.queuePlaces : Nat := 12

/-- The purge hold, in ms (R153). -/
def Config.purgeHoldTime : Nat := 2000

/-- The button and bay filters: a change is recognised after 16 ms (R34). -/
def Config.inputFilterTime : Nat := 16

/-- A tally counter holds at 16,777,215 (R175). -/
def Config.maxCounter : Nat := 16777215

/-- Lengths, gaps and use counts saturate at 65,535 (R44, R94). -/
def Config.max16 : Nat := 65535

/-- The gap asked upstream is limited to 5,000 mm (R157). -/
def Config.maxPace : Nat := 5000

/-- Crowding: 9 or more ON_BELT records (R156). -/
def Config.crowdedBelt : Nat := 9

/-- Crowding: 8 or more kept frames pending (R156). -/
def Config.crowdedQueue : Nat := 8

/-- The largest step of the sequence taken as a gap (R54). -/
def Config.maxGap : Nat := 8

/-- Most entries a resolution visits (R42). -/
def Config.maxVisits : Nat := 4

end Sys2Proof
end

