-- ==== Sys2Proof/Syntax.lean ====
section
/-! DEFINITION. The commands of the S412: one constructor of `Instr` for each row of
spec/opcode_table.json, with the operands the rules give the event. -/

namespace Sys2Proof

/-- The two photo-eyes (02_entry_and_exit_eyes.md). -/
inductive Eye where
  | entry | exit
  deriving DecidableEq, Repr

/-- The level of an eye (R18). -/
inductive EyeLevel where
  | clear | covered
  deriving DecidableEq, Repr

/-- The two fold jets (07, section 7.1). -/
inductive Jet where
  | a | b
  deriving DecidableEq, Repr

/-- The four panel buttons (00_scope.md 2.1). -/
inductive Button where
  | stop | run | select | close
  deriving DecidableEq, Repr

/-- The two inputs of a bay (08_stacker_bays.md). -/
inductive BayInput where
  | high | clear
  deriving DecidableEq, Repr

/-- An input conditioned by the 16 ms filter of R34. -/
inductive Input where
  | button (b : Button)
  | bay (i : BayInput) (b : BayNo)
  deriving DecidableEq, Repr

/-- A frame's kind with its body (R162), for each of the nine kinds. -/
inductive FrameBody where
  | stop (reason : Byte)
  | run
  | start (upstream downstream : Byte)
  | announce (seq : Seq) (lot : Lot) (code : Code) (length : BitVec 16) (flags : Byte)
  | lotEnd (seq : Seq) (lot : Lot)
  | pace (gap : BitVec 16)
  | stack (bay : Byte) (lot : Lot) (code : Code) (count reason : Byte)
  | tallyQuery (target item index : Byte)
  | tally (item index : Byte) (value : BitVec 32) (flags : Byte)
  deriving DecidableEq, Repr

/-- The commands: what the surroundings, and the part's own timers, do to the part. -/
inductive Instr where
  /-- RESET: reset from the pin or at power-up (R182). -/
  | reset
  /-- LOAD_COMPLETE: the loader has read the configuration memory; `image` is what it read (R182). -/
  | loadComplete (image : List Byte)
  /-- ENCODER_PULSE: one pulse of belt travel (R1). -/
  | encoderPulse
  /-- WINDOW_END: the end of a 20 ms speed window (R6). -/
  | windowEnd
  /-- EYE_RAW_CHANGE: the raw input of an eye goes to a level (R19). -/
  | eyeRawChange (eye : Eye) (level : EyeLevel)
  /-- EDGE_RECOGNITION: the filter timer of an eye expires (R20). -/
  | edgeRecognition (eye : Eye)
  /-- CONDITIONED_INPUT_RAW_CHANGE: the raw level of a button or bay input changes (R34). -/
  | conditionedInputRawChange (input : Input) (asserted : Bool)
  /-- STOP_PRESS: a recognised press of STOP (R148). -/
  | stopPress
  /-- RUN_PRESS: a recognised press of RUN (R149). -/
  | runPress
  /-- SELECT_PRESS: a recognised press of SELECT (R180). -/
  | selectPress
  /-- CLOSE_PRESS: a recognised press of CLOSE (R136). -/
  | closePress
  /-- BUTTON_RELEASE: a recognised release of a button (R153). -/
  | buttonRelease (button : Button)
  /-- BAY_HIGH_RISE: a recognised rise of a bay-high input (R134). -/
  | bayHighRise (bay : BayNo)
  /-- BAY_CLEAR_RISE: a recognised rise of a bay-clear input (R141, R142). -/
  | bayClearRise (bay : BayNo)
  /-- BAY_INPUT_FALL: a recognised fall of a bay input (R143). -/
  | bayInputFall (bay : BayNo) (input : BayInput)
  /-- PURGE_HOLD_EXPIRY: the purge hold timer expires (R153). -/
  | purgeHoldExpiry
  /-- TIME_BASE_TICK: a tick of the 1 ms time base (R57). -/
  | timeBaseTick
  /-- GHOST: the window of an unseen record has run out (R58). -/
  | ghost
  /-- JET_PULSE_EXPIRY: a jet's pulse timer expires (R118). -/
  | jetPulseExpiry (jet : Jet)
  /-- SETTLE_TIMER_EXPIRY: a bay's settle timer expires (R137). -/
  | settleTimerExpiry (bay : BayNo)
  /-- DISCHARGE_TIMEOUT: a bay's discharge timer expires (R141). -/
  | dischargeTimeout (bay : BayNo)
  /-- PUSHER_PULSE_EXPIRY: a pusher's pulse timer expires (R139). -/
  | pusherPulseExpiry (bay : BayNo)
  /-- STOP_FRAME: a STOP frame is received (R150). -/
  | stopFrame (sender : BitVec 5) (reason : Byte)
  /-- RUN_FRAME: a RUN frame is received (R150). -/
  | runFrame (sender : BitVec 5)
  /-- START_FRAME: a START frame is received (R151). -/
  | startFrame (sender : BitVec 5) (upstream downstream : Byte)
  /-- ANNOUNCE_FRAME: an ANNOUNCE frame is received (R52). -/
  | announceFrame (sender : BitVec 5) (seq : Seq) (lot : Lot) (code : Code) (length : BitVec 16) (flags : Byte)
  /-- LOT_END_FRAME: a LOT_END frame is received (R53). -/
  | lotEndFrame (sender : BitVec 5) (seq : Seq) (lot : Lot)
  /-- PACE_FRAME: a PACE frame is received (R155). -/
  | paceFrame (sender : BitVec 5) (gap : BitVec 16)
  /-- TALLY_QUERY: a TALLY_QUERY frame is received (R170). -/
  | tallyQuery (sender : BitVec 5) (target item index : Byte)
  /-- FRAME_PASSED_OVER: a well-formed frame that the acceptance filter passes over (R169). -/
  | framePassedOver (sender : BitVec 5) (body : FrameBody)
  /-- DAMAGED_FRAME: a frame that fails a judgement of R168; `bits` are the line levels from the start
  bit on (dominant = false = bit value 0, R159). -/
  | damagedFrame (bits : List Bool)
  /-- TRANSMIT_START: the next bit time on an idle line (R163). -/
  | transmitStart
  /-- ARBITRATION_LOST: a recessive bit of kind or sender was read dominant (R163). -/
  | arbitrationLost
  /-- BIT_ERROR: a mismatched bit after arbitration (R164). -/
  | bitError
  /-- FRAME_SENT: the end field was sent and read back dominant (R164). -/
  | frameSent
  /-- DISPLAY_DIGIT_REFRESH: the next digit is selected (R177). -/
  | displayDigitRefresh
  /-- LINE_IDLE: the line was seen recessive for 10 bit times (R160). -/
  | lineIdle
  deriving DecidableEq, Repr

end Sys2Proof
end

