-- ==== Sys2Proof/Decode.lean ====
section
/-! DEFINITION. The decoder of the command table. No row of spec/opcode_table.json gives bits (every
row's "fields" is empty), so no word spells a command (log 3). -/

namespace Sys2Proof

/-- The command a word spells by the table's bits: none, for the table gives no bits (log 3). -/
def decodeTableWord (_nbits _w : Nat) : Option Instr := none

end Sys2Proof
end

