-- ==== Sys2Proof/Machine/State.lean ====
section
/-! DEFINITION. The state of the S412 as plain data, and the machine right after reset. Every block of
the chapters has its own structure; `State` gathers them with the queue of waiting commands. -/

namespace Sys2Proof.Machine

/-- No command of the S412 stops the machine, so there is no fault (INVENTORY.md, Faults). Nobody raises
one: safe. -/
inductive Fault where
  deriving DecidableEq, Repr

/-- Refusals. -/
inductive Refusal where
  /-- Raised by an arm of `exec` whose command has no meaning yet: safe (the run stops). -/
  | notModelled (mnemonic : String)
  deriving DecidableEq, Repr

/-- The three station states (00_scope.md section 6); FAULT holds its code (R49, R182). -/
inductive Station where
  | loading
  | active
  | fault (code : Nat)
  deriving DecidableEq, Repr

/-- The settings of the image in force (R181); distances stand converted to pulses (R93), times in the
units of the image. All zero while none is in force (log 6). -/
structure Settings where
  station : Nat
  upstream : Nat
  downstream : Nat
  bayCount : Nat
  entryFilter : Nat        -- two filter periods of the entry eye, ms
  exitFilter : Nat         -- two filter periods of the exit eye, ms
  tol : Nat
  k : Nat
  jetA : Nat               -- p(D_A), 0 = absent
  jetB : Nat
  gate : Four Nat          -- p(D_G1) to p(D_G4)
  reject : Nat             -- p(D_R)
  exitDist : Nat           -- p(D_X)
  mergeGap : Nat
  lateMargin : Nat
  closeMargin : Nat
  exitTol : Nat
  jamLength : Nat
  jetGuard : Nat
  tA : Nat                 -- 0.1 ms
  tB : Nat
  tG : Nat
  jetPulse : Nat           -- ms
  settle : Nat             -- ms
  pusherPulse : Nat        -- ms
  dischargeTimeout : Nat   -- s
  transferWindow : Nat     -- ms
  paceGap : Nat            -- mm
  lowThreshold : Nat
  highThreshold : Nat
  deriving DecidableEq, Repr

/-- No settings in force: LOADING and FAULT (R93; log 6). -/
def Settings.blank : Settings :=
  { station := 0, upstream := 0, downstream := 0, bayCount := 0, entryFilter := 0, exitFilter := 0,
    tol := 0, k := 0, jetA := 0, jetB := 0, gate := Four.all 0, reject := 0, exitDist := 0,
    mergeGap := 0, lateMargin := 0, closeMargin := 0, exitTol := 0, jamLength := 0, jetGuard := 0,
    tA := 0, tB := 0, tG := 0, jetPulse := 0, settle := 0, pusherPulse := 0, dischargeTimeout := 0,
    transferWindow := 0, paceGap := 0, lowThreshold := 0, highThreshold := 0 }

/-- The belt position unit (R17). -/
structure BeltUnit where
  position : Pos
  windowCount : Nat
  windowSaturated : Bool
  v : Nat
  speedSaturated : Bool
  highArmed : Bool
  highRearm : Nat
  speedHigh : Bool
  lowArmed : Bool
  lowRearm : Nat
  grace : Nat
  run : Bool               -- the belt-run output
  deriving DecidableEq, Repr

/-- The pending change of an eye (R19). -/
structure PendingEdge where
  level : EyeLevel
  latched : Pos
  timer : Nat              -- ms
  deriving DecidableEq, Repr

/-- What both eye channels hold (02, section 2.1), with the raw input pin. -/
structure EyeChannel where
  raw : EyeLevel
  level : EyeLevel
  pendingEdge : Option PendingEdge
  mergePending : Option Pos
  coveredSince : Option Pos
  jamRequested : Bool
  deriving DecidableEq, Repr

/-- Who owns the covering at the exit eye (R29). -/
inductive ExitOwner where
  | piece (n : LocalNo)
  | ignored
  deriving DecidableEq, Repr

/-- The eye inputs: two channels, the untracked flag (R26) and the exit owner (R29). -/
structure Eyes where
  entry : EyeChannel
  exit : EyeChannel
  untracked : Bool
  exitOwner : Option ExitOwner
  deriving DecidableEq, Repr

/-- The pending change of a button or bay input (R34). -/
structure PendingLevel where
  level : Bool
  timer : Nat              -- ms
  deriving DecidableEq, Repr

/-- A conditioned input: raw pin, debounced level, pending change (R34). -/
structure CondInput where
  raw : Bool
  level : Bool
  pendingLevel : Option PendingLevel
  deriving DecidableEq, Repr

/-- The fold of a plan: the jet and the fraction f in 1/256 (R37). -/
structure PlanFold where
  jet : Jet
  fraction : Nat
  deriving DecidableEq, Repr

/-- The route of a piece no bay takes (R40). -/
inductive Alternate where
  | pass | reject
  deriving DecidableEq, Repr

/-- The fields of a PLAN entry (03, section 3.1). -/
structure PlanFields where
  fold : Option PlanFold
  minLen : Nat
  maxLen : Nat
  allowed : Four Bool
  alternate : Alternate
  target : Nat
  deriving DecidableEq, Repr

/-- The kind of an entry with its fields (R36, R37). -/
inductive EntryKind where
  | link (target : Code)
  | plan (p : PlanFields)
  deriving DecidableEq, Repr

/-- An entry of the category table with its use count (R35, R44). -/
structure CategoryEntry where
  code : Code
  uses : Nat
  kind : EntryKind
  deriving DecidableEq, Repr

/-- The three flags of an ANNOUNCE (R162). -/
structure AnnounceFlags where
  reject : Bool
  unknown : Bool
  disagree : Bool
  deriving DecidableEq, Repr

/-- The route of a planned piece (05, section 5.1). -/
inductive Route where
  | exit
  | bay (b : BayNo)
  | reject
  deriving DecidableEq, Repr

/-- Why a piece is rejected (05, section 5.1). -/
inductive RejectReason where
  | short | long | late | jetBusy | double | noRoute | upstreamReject
  deriving DecidableEq, Repr

/-- The fold field of an ON_BELT record: jet, fold offset a in pulses, jet due position (R75). -/
structure Fold where
  jet : Jet
  offset : Nat
  due : Pos
  deriving DecidableEq, Repr

/-- What an ON_BELT record holds beyond its identity (05, section 5.1). -/
structure BeltInfo where
  localNo : LocalNo
  pLead : Pos
  pTrail : Option Pos
  lengthP : Option Nat     -- L_p, kept with the record (R71)
  lengthMm : Option Nat    -- L_mm
  planCode : Option Code
  fold : Option Fold
  route : Option Route
  rejectReason : Option RejectReason
  orphan : Bool
  disagree : Bool
  exitLength : Option Nat  -- L_x
  exitPos : Option Pos     -- E_x
  exitSeen : Bool
  deriving DecidableEq, Repr

/-- The stage of a PIECE record (04, section 4.1): the unseen stages with the window remaining in ms,
and ON_BELT. -/
inductive Stage where
  | announced (window : Nat)
  | placeholder (window : Nat)
  | onBelt (info : BeltInfo)
  deriving DecidableEq, Repr

/-- The identity of a PIECE record and its stage (04, section 4.1). -/
structure Piece where
  seq : Option Seq
  lot : Lot
  code : Code
  announcedLen : Option Nat
  flags : AnnounceFlags
  stage : Stage
  deriving DecidableEq, Repr

/-- A record of the track list (04, section 4.1). -/
inductive Record where
  | piece (p : Piece)
  | marker (seq : Seq) (lot : Lot)
  deriving DecidableEq, Repr

/-- A gate output (07, section 7.1). -/
inductive Gate where
  | bay (b : BayNo)
  | reject
  deriving DecidableEq, Repr

/-- The kind of a schedule entry with its output (07, section 7.1). -/
inductive Action where
  | jetFire (j : Jet)
  | gateOpen (g : Gate)
  | gateClose (g : Gate)
  | exitCheck
  deriving DecidableEq, Repr

/-- A schedule entry (07, section 7.1). `serial` is the number of its insertion (log 18), `fresh` says
that it was stored at the present encoder pulse and waits for the next (R2; log 8). -/
structure SchedEntry where
  due : Pos
  action : Action
  pieces : List LocalNo
  serial : Nat
  fresh : Bool
  deriving DecidableEq, Repr

/-- An output with a pulse timer in ms: a jet or a pusher (R118, R139). -/
structure PulseOut where
  on : Bool
  timer : Option Nat
  deriving DecidableEq, Repr

/-- The actuator outputs (07, section 7.1). -/
structure Outputs where
  jetA : PulseOut
  jetB : PulseOut
  gates : Four Bool        -- true = open
  reject : Bool
  deriving DecidableEq, Repr

/-- The states of a bay (08, section 8.1). -/
inductive BayState where
  | empty | filling | closing | discharging | blocked
  deriving DecidableEq, Repr

/-- Why a stack was closed (08, section 8.1). -/
inductive CloseReason where
  | target | height | lotEnd | forced
  deriving DecidableEq, Repr

/-- A bay record (08, section 8.1). -/
structure Bay where
  state : BayState
  lot : Option Lot
  planCode : Option Code
  landed : Nat
  reserved : Nat
  target : Option Nat
  reason : Option CloseReason
  settle : Option Nat      -- ms
  discharge : Option Nat   -- s
  stackQueued : Bool
  deriving DecidableEq, Repr

/-- The six own stop reasons (09, section 9.1). -/
inductive StopReason where
  | operator | stall | overrun | jamEntry | jamExit | restart
  deriving DecidableEq, Repr

/-- The own reasons set: each reason present or not (R146). -/
structure ReasonSet where
  operator : Bool
  stall : Bool
  overrun : Bool
  jamEntry : Bool
  jamExit : Bool
  restart : Bool
  deriving DecidableEq, Repr

/-- The line stop unit: own reasons set and others' stop set, the latter as station numbers rising with
no repeats (R146, R150). -/
structure Stops where
  own : ReasonSet
  others : List Nat
  deriving DecidableEq, Repr

/-- The pace unit, gaps in mm (R155 to R157). -/
structure Pace where
  paceIn : Nat
  paceOwn : Nat
  paceOut : Nat
  deriving DecidableEq, Repr

/-- A frame of the transmit queue with its age, the number of its joining (R165, R166; log 18). -/
structure QFrame where
  body : FrameBody
  age : Nat
  deriving DecidableEq, Repr

/-- How the station takes the line (R160, R163, R172): not followed (LOADING, FAULT); busy until 10
recessive bit times are seen; idle; sending its own frame; following the frame that won arbitration. -/
inductive LineView where
  | notFollowed | busy | idle | sending | following
  deriving DecidableEq, Repr

/-- The link controller (10_the_line_link.md): queue, frame in flight, view of the line, the two
sequence numbers. -/
structure Link where
  queue : List QFrame
  nextAge : Nat
  inFlight : Option QFrame
  line : LineView
  ownSeq : Seq
  expectedSeq : Option Seq
  deriving DecidableEq, Repr

/-- The events a configurable counter may count, in the order of their codes 1 to 18 (R174). -/
inductive TallyEvent where
  | passed | stacked | rejected | lost | purged | orphan | ghost | lengthDisagree | skipAhead
  | seqGap | syncLoss | expectOverflow | chainFault | late | jetBusy | stray | linkCheck | linkDrop
  deriving DecidableEq, Repr

/-- A last-lot latch (R176). -/
structure Latch where
  value : Nat
  saturated : Bool
  lot : Lot
  deriving DecidableEq, Repr

/-- A configurable counter: its set-up and what it holds (R174 to R176). `event` none: unused. -/
structure Counter where
  event : Option TallyEvent
  perLot : Bool
  oneCode : Option Code
  value : Nat
  saturated : Bool
  countingLot : Option Lot
  latch : Option Latch
  deriving DecidableEq, Repr

/-- An unused counter (R174, R175). -/
def Counter.unused : Counter :=
  { event := none, perLot := false, oneCode := none, value := 0, saturated := false,
    countingLot := none, latch := none }

/-- The twelve fixed counts (R173). -/
structure FixedCounts where
  entered : BitVec 32
  passed : BitVec 32
  stacked : BitVec 32
  rejected : BitVec 32
  lost : BitVec 32
  purged : BitVec 32
  orphan : BitVec 32
  ghost : BitVec 32
  overrun : BitVec 32
  stray : BitVec 32
  linkCheck : BitVec 32
  linkDrop : BitVec 32
  deriving DecidableEq, Repr

/-- The tally unit (R173, R174). -/
structure Tally where
  counts : FixedCounts
  counters : List Counter  -- counters 0 to 3
  deriving DecidableEq, Repr

/-- The running purge hold: time in ms, and the belt-run output when the hold began (R153). -/
structure PurgeHold where
  timer : Nat
  runNoted : Bool
  deriving DecidableEq, Repr

/-- The panel: buttons, selection, lamp, display and purge hold (11; R153, R177 to R180). -/
structure Panel where
  stop : CondInput
  run : CondInput
  select : CondInput
  close : CondInput
  selected : Option BayNo
  lamp : Bool
  digit : Option (Fin 4)           -- the digit select line that is on, digit 1 = 0
  lines : BitVec 8                 -- the segment lines
  segmentMap : List (Option Nat)   -- segments a to g
  purgeHold : Option PurgeHold
  awaitStop : Bool                 -- STOP is to be released before a further purge (R153; log 31)
  awaitRun : Bool                  -- RUN is to be released before a further purge (R153; log 31)
  deriving DecidableEq, Repr

/-- The whole S412, with the queue of waiting commands. `openCount` and `nextSerial` are the model's own
(logs 7 and 18). -/
structure State where
  station : Station
  settings : Settings
  belt : BeltUnit
  eyes : Eyes
  table : List CategoryEntry
  tracks : List Record
  nextLocal : LocalNo
  schedule : List SchedEntry
  nextSerial : Nat
  outputs : Outputs
  bays : Four Bay
  pushers : Four PulseOut
  bayHigh : Four CondInput
  bayClear : Four CondInput
  stops : Stops
  pace : Pace
  link : Link
  tally : Tally
  panel : Panel
  openCount : Nat
  pending : List Instr
  deriving DecidableEq, Repr

/-- The belt position unit after reset (R17). -/
def BeltUnit.reset : BeltUnit :=
  { position := 0#32, windowCount := 0, windowSaturated := false, v := 0, speedSaturated := false,
    highArmed := true, highRearm := 0, speedHigh := false, lowArmed := true, lowRearm := 0,
    grace := Config.stallGrace, run := false }

/-- An eye channel after reset, over a raw level (R18). -/
def EyeChannel.reset (raw : EyeLevel) : EyeChannel :=
  { raw := raw, level := .clear, pendingEdge := none, mergePending := none, coveredSince := none,
    jamRequested := false }

/-- A conditioned input after reset, over a raw level (R34). -/
def CondInput.reset (raw : Bool) : CondInput := { raw := raw, level := false, pendingLevel := none }

/-- An output that is off with its timer stopped (R110, R126). -/
def PulseOut.off : PulseOut := { on := false, timer := none }

/-- The actuator outputs after reset (R110). -/
def Outputs.off : Outputs :=
  { jetA := PulseOut.off, jetB := PulseOut.off, gates := Four.all false, reject := false }

/-- A bay in EMPTY with every field cleared (R126). -/
def Bay.cleared : Bay :=
  { state := .empty, lot := none, planCode := none, landed := 0, reserved := 0, target := none,
    reason := none, settle := none, discharge := none, stackQueued := false }

/-- No own reason (R146). -/
def ReasonSet.none : ReasonSet :=
  { operator := false, stall := false, overrun := false, jamEntry := false, jamExit := false,
    restart := false }

/-- Every fixed count at 0 (R173). -/
def FixedCounts.zero : FixedCounts :=
  { entered := 0#32, passed := 0#32, stacked := 0#32, rejected := 0#32, lost := 0#32, purged := 0#32,
    orphan := 0#32, ghost := 0#32, overrun := 0#32, stray := 0#32, linkCheck := 0#32,
    linkDrop := 0#32 }

/-- The link controller after reset (R172). -/
def Link.reset : Link :=
  { queue := [], nextAge := 0, inFlight := none, line := .notFollowed, ownSeq := 0#8,
    expectedSeq := none }

/-- The tally unit after reset: counts 0, four unused counters (R173, R175). -/
def Tally.reset : Tally :=
  { counts := FixedCounts.zero, counters := [.unused, .unused, .unused, .unused] }

/-- The fixed segment map: a to line 0, b to line 1, and so on to g at line 6 (R178). -/
def fixedSegmentMap : List (Option Nat) :=
  [some 0, some 1, some 2, some 3, some 4, some 5, some 6]

/-- The panel after reset (R153, R178 to R180). The raw levels stand clear: log 5. No bay is selected
before the entry to ACTIVE: log 30. Before a load the segment map is the fixed one: R178 gives it for a
FAULT only (DESIGN CHOICE, log 33). -/
def Panel.reset : Panel :=
  { stop := CondInput.reset false, run := CondInput.reset false, select := CondInput.reset false,
    close := CondInput.reset false, selected := none, lamp := false, digit := none, lines := 0#8,
    segmentMap := fixedSegmentMap, purgeHold := none, awaitStop := false, awaitRun := false }

/-- The machine right after reset (R182): LOADING, every block in its after-reset state, the input pins
at the levels log 5 names, no command waiting. -/
def State.reset : State :=
  { station := .loading
    settings := Settings.blank
    belt := BeltUnit.reset
    eyes :=
      { entry := EyeChannel.reset .clear, exit := EyeChannel.reset .clear, untracked := false,
        exitOwner := none }
    table := []
    tracks := []
    nextLocal := 0#8
    schedule := []
    nextSerial := 0
    outputs := Outputs.off
    bays := Four.all Bay.cleared
    pushers := Four.all PulseOut.off
    bayHigh := Four.all (CondInput.reset false)
    bayClear := Four.all (CondInput.reset false)
    stops := { own := ReasonSet.none, others := [] }
    pace := { paceIn := 0, paceOwn := 0, paceOut := 0 }
    link := Link.reset
    tally := Tally.reset
    panel := Panel.reset
    openCount := 0
    pending := [] }

end Sys2Proof.Machine
end

