-- ==== Sys2Proof/Machine/Arith.lean ====
section
/-! DEFINITION. The integer arithmetic of Chapter 6 and the comparison of belt positions (R2): pure
functions, every rounding step written as the manual's floor. -/

namespace Sys2Proof.Machine

/-- The signed difference y − x of two belt positions, modulo 2³² (R2). -/
def posDiff (y x : Pos) : Int := (y - x).toInt

/-- A position key is reached when (belt position − key) is 0 or greater (R2). -/
def reached (position key : Pos) : Bool := decide (0 ≤ posDiff position key)

/-- A position `n` pulses further on, modulo 2³². -/
def posAdd (x : Pos) (n : Nat) : Pos := x + BitVec.ofNat 32 n

/-- A position `n` pulses back, modulo 2³². -/
def posSub (x : Pos) (n : Nat) : Pos := x - BitVec.ofNat 32 n

/-- p(d) = floor((d × K + 500) / 1000) (R93). -/
def toPulses (k d : Nat) : Nat := (d * k + 500) / 1000

/-- mm(n) = floor((n × 1000 + floor(K/2)) / K), held at 65,535 (R94). -/
def toMm (k n : Nat) : Nat := min Config.max16 ((n * 1000 + k / 2) / k)

/-- The high threshold in effect: a configured 0 selects 4,095 (R7). -/
def effectiveHigh (c : Settings) : Nat :=
  if c.highThreshold = 0 then Config.maxCount else c.highThreshold

/-- v_c, the smaller of the last speed and the effective high threshold (R97). -/
def clampedSpeed (c : Settings) (v : Nat) : Nat := min v (effectiveHigh c)

/-- lead = floor((v_c × T + 100) / 200) (R98). -/
def lead (vc t : Nat) : Nat := (vc * t + 100) / 200

/-- a = floor((f × L_p + 128) / 256) (R99). -/
def foldOffset (f lp : Nat) : Nat := (f * lp + 128) / 256

/-- L_p: the signed difference P_trail − P_lead, a difference of 0 or less taken as 0 (R96). -/
def measuredLength (pTrail pLead : Pos) : Nat := (posDiff pTrail pLead).toNat

/-- The distance of a jet in pulses (R93). -/
def jetDist (c : Settings) : Jet → Nat
  | .a => c.jetA
  | .b => c.jetB

/-- The valve lead time of a jet, in 0.1 ms (R98). -/
def jetTime (c : Settings) : Jet → Nat
  | .a => c.tA
  | .b => c.tB

/-- The distance of a gate in pulses (R93). -/
def gateDist (c : Settings) : Gate → Nat
  | .bay b => c.gate.get b
  | .reject => c.reject

/-- A due position is late when it lies less than the late margin ahead of P_now (R100, R104, R105). -/
def isLate (c : Settings) (due pNow : Pos) : Bool := decide (posDiff due pNow < (c.lateMargin : Int))

/-- The planning position P_now = P_trail + p(merge gap) (R95). -/
def planningPos (c : Settings) (pTrail : Pos) : Pos := posAdd pTrail c.mergeGap

/-- The jet fire due: P_lead + a + p(D_J) − lead_J (R100). -/
def jetDue (c : Settings) (v : Nat) (j : Jet) (pLead : Pos) (a : Nat) : Pos :=
  posSub (posAdd pLead (a + jetDist c j)) (lead (clampedSpeed c v) (jetTime c j))

/-- The gate open due: P_lead + a + p(D_G) − lead_G (R103). -/
def gateOpenDue (c : Settings) (v : Nat) (g : Gate) (pLead : Pos) (a : Nat) : Pos :=
  posSub (posAdd pLead (a + gateDist c g)) (lead (clampedSpeed c v) c.tG)

/-- L_x: the larger flap of a folded piece, the measured length of an unfolded one (R101). -/
def exitLengthOf (folded : Bool) (a lp : Nat) : Nat := if folded then max a (lp - a) else lp

/-- E_x = P_lead + a + p(D_X) (R101). -/
def exitPosOf (c : Settings) (pLead : Pos) (a : Nat) : Pos := posAdd pLead (a + c.exitDist)

/-- The exit check due: E_x + p(exit tolerance), or P_now + 1 when that is not after P_now (R102). -/
def exitCheckDue (c : Settings) (ex pNow : Pos) : Pos :=
  if 0 < posDiff (posAdd ex c.exitTol) pNow then posAdd ex c.exitTol else posAdd pNow 1

/-- The later of two positions by signed difference (R106). -/
def laterOf (x y : Pos) : Pos := if 0 ≤ posDiff x y then x else y

/-- The gate close due: P_lead + a + L_x + p(D_G) + p(gate close margin), raised to 2 after the later
of the open due and the belt position when it lies less than 2 after it (R106). -/
def gateCloseDue (c : Settings) (g : Gate) (pLead : Pos) (a lx : Nat) (openDue position : Pos) : Pos :=
  let formed := posAdd pLead (a + lx + gateDist c g + c.closeMargin)
  let floor := laterOf openDue position
  if posDiff formed floor < 2 then posAdd floor 2 else formed

/-- The distance between two lengths. -/
def lengthGap (x y : Nat) : Nat := (x - y) + (y - x)

/-- The disagreement test: |L_mm − A| × 64 > tol × A (R108). -/
def disagrees (tol lmm a : Nat) : Bool := decide (tol * a < lengthGap lmm a * 64)

/-- The double test: L_mm × 64 ≥ (128 − tol) × A (R109). -/
def isDouble (tol lmm a : Nat) : Bool := decide ((128 - tol) * a ≤ lmm * 64)

/-- The jet guard between two dues: the signed difference lies strictly between −guard and +guard
(R114). -/
def withinGuard (guard : Nat) (x y : Pos) : Bool := decide ((posDiff x y).natAbs < guard)

end Sys2Proof.Machine
end

