-- ==== Sys2Proof/Machine/Operands.lean ====
section
/-! DEFINITION. What the operands of the commands spell: the bits and the check of a link frame (R159 to
R162), the judgement of a received frame (R168), and the flags byte of an ANNOUNCE. -/

namespace Sys2Proof.Machine

/-- The bits of a field, most significant first (R160). -/
def bitsMsb {w : Nat} (x : BitVec w) : List Bool := (List.range w).map fun i => x.getMsbD i

/-- The number a run of bits spells, most significant first. -/
def ofBits (bs : List Bool) : Nat := bs.foldl (fun n b => 2 * n + b.toNat) 0

/-- One bit shifted into the check register, generator x¹⁶ + x¹² + x⁵ + 1 (R161). -/
def crcBit (r : BitVec 16) (b : Bool) : BitVec 16 :=
  if r.msb != b then (r <<< 1) ^^^ 0x1021#16 else r <<< 1

/-- The check over a run of bits: the register starts at all ones (R161). -/
def crcBits (bs : List Bool) : BitVec 16 := bs.foldl crcBit 0xFFFF#16

/-- The check over a run of bytes, most significant bit of each first (R181, R182). -/
def crcBytes (bs : List Byte) : BitVec 16 :=
  bs.foldl (fun r x => (bitsMsb x).foldl crcBit r) 0xFFFF#16

/-- The kind code (R162). -/
def frameKind : FrameBody → BitVec 4
  | .stop _ => 1#4
  | .run => 2#4
  | .start _ _ => 3#4
  | .announce _ _ _ _ _ => 4#4
  | .lotEnd _ _ => 5#4
  | .pace _ => 6#4
  | .stack _ _ _ _ _ => 7#4
  | .tallyQuery _ _ _ => 8#4
  | .tally _ _ _ _ => 9#4

/-- The more significant byte of two. -/
def hiByte (x : BitVec 16) : Byte := x.extractLsb' 8 8

/-- The less significant byte of two. -/
def loByte (x : BitVec 16) : Byte := x.extractLsb' 0 8

/-- Two bytes as one value, most significant first (R160). -/
def twoBytes (hi lo : Byte) : BitVec 16 := hi ++ lo

/-- The body bytes in order (R162). -/
def bodyBytes : FrameBody → List Byte
  | .stop reason => [reason]
  | .run => []
  | .start up down => [up, down]
  | .announce seq lot code len flags => [seq, hiByte lot, loByte lot, code, hiByte len, loByte len, flags]
  | .lotEnd seq lot => [seq, hiByte lot, loByte lot]
  | .pace gap => [hiByte gap, loByte gap]
  | .stack bay lot code count reason => [bay, hiByte lot, loByte lot, code, count, reason]
  | .tallyQuery target item index => [target, item, index]
  | .tally item index value flags =>
    [item, index, value.extractLsb' 24 8, value.extractLsb' 16 8, value.extractLsb' 8 8,
      value.extractLsb' 0 8, flags]

/-- The body a kind and its bytes spell; none for a kind 0 or 10 to 15, and for a body length that is
not the length for the kind (R162, R168). -/
def parseBody (kind : BitVec 4) (bytes : List Byte) : Option FrameBody :=
  match kind.toNat, bytes with
  | 1, [reason] => some (.stop reason)
  | 2, [] => some .run
  | 3, [up, down] => some (.start up down)
  | 4, [seq, lh, ll, code, nh, nl, flags] => some (.announce seq (twoBytes lh ll) code (twoBytes nh nl) flags)
  | 5, [seq, lh, ll] => some (.lotEnd seq (twoBytes lh ll))
  | 6, [gh, gl] => some (.pace (twoBytes gh gl))
  | 7, [bay, lh, ll, code, count, reason] => some (.stack bay (twoBytes lh ll) code count reason)
  | 8, [target, item, index] => some (.tallyQuery target item index)
  | 9, [item, index, v3, v2, v1, v0, flags] => some (.tally item index (v3 ++ v2 ++ v1 ++ v0) flags)
  | _, _ => none

/-- Kind, sender, body length and body as bits: what the check is formed over (R160, R161). -/
def headerBodyBits (sender : BitVec 5) (body : FrameBody) : List Bool :=
  bitsMsb (frameKind body) ++ bitsMsb sender ++ bitsMsb (BitVec.ofNat 4 (bodyBytes body).length) ++
    (bodyBytes body).flatMap bitsMsb

/-- The content bits of a frame, the check last (R160). -/
def contentBits (sender : BitVec 5) (body : FrameBody) : List Bool :=
  headerBodyBits sender body ++ bitsMsb (crcBits (headerBodyBits sender body))

/-- A dominant mark after every 8th content bit; `n` bits stand since the last mark (R160). -/
def addMarks : Nat → List Bool → List Bool
  | _, [] => []
  | n, b :: bs => if n = 7 then b :: false :: addMarks 0 bs else b :: addMarks (n + 1) bs

/-- A whole frame on the line: start bit, content with marks, end field (R160). -/
def frameBits (sender : BitVec 5) (body : FrameBody) : List Bool :=
  false :: (addMarks 0 (contentBits sender body) ++ [false])

/-- Read `count` content bits and test and remove the marks between them. Where no station drives it
the line reads recessive, so bits beyond the list are recessive (R159; log 16). None at a mark read
recessive. The answer holds the bits, how many stand since the last mark, and the rest. -/
def readContent : Nat → Nat → List Bool → Option (List Bool × Nat × List Bool)
  | 0, n, bs => some ([], n, bs)
  | count + 1, n, bs =>
    let b := bs.headD true
    let rest := bs.drop 1
    if n = 7 then
      if rest.headD true then none
      else (readContent count 0 (rest.drop 1)).map fun (xs, m, r) => (b :: xs, m, r)
    else (readContent count (n + 1) rest).map fun (xs, m, r) => (b :: xs, m, r)

/-- Runs of 8 bits as bytes. -/
def bytesOfBits : Nat → List Bool → List Byte
  | 0, _ => []
  | n + 1, bs => BitVec.ofNat 8 (ofBits (bs.take 8)) :: bytesOfBits n (bs.drop 8)

/-- The outcome of judging a frame (R168). -/
inductive Judgement where
  | linkFormat
  | linkCheck
  | wellFormed (sender : BitVec 5) (body : FrameBody)
  deriving DecidableEq, Repr

/-- A sender is a valid address: 1 to 30 (R162, R168). -/
def validSender (sender : BitVec 5) : Bool := decide (1 ≤ sender.toNat ∧ sender.toNat ≤ 30)

/-- The judgement of header, body and check of a frame whose end field was read dominant (R168). -/
def judgeContent (header body : List Bool) (n : Nat) (check : List Bool) : Judgement :=
  if bitsMsb (crcBits (header ++ body)) ≠ check then .linkCheck
  else
    let sender := BitVec.ofNat 5 (ofBits ((header.drop 4).take 5))
    match parseBody (BitVec.ofNat 4 (ofBits (header.take 4))) (bytesOfBits n body) with
    | some b => if validSender sender then .wellFormed sender b else .linkFormat
    | none => .linkFormat

/-- The judgement of a received frame from the bits after its start bit, at the point where it fails
(R168). -/
def judgeBits (bits : List Bool) : Judgement :=
  match readContent 13 0 bits with
  | none => .linkCheck
  | some (header, n, rest) =>
    let len := ofBits (header.drop 9)
    if 13 ≤ len then .linkFormat
    else
      match readContent (8 * len + 16) n rest with
      | none => .linkCheck
      | some (bodyCheck, _, last) =>
        if last.headD true then .linkCheck
        else judgeContent header (bodyCheck.take (8 * len)) len (bodyCheck.drop (8 * len))

/-- The flags byte of an ANNOUNCE: REJECT, UNKNOWN and DISAGREE from the least significant bit; the
other bits are not read (R162). -/
def flagsOfByte (x : Byte) : AnnounceFlags :=
  { reject := x.getLsbD 0, unknown := x.getLsbD 1, disagree := x.getLsbD 2 }

/-- The flags byte the S412 sends, its other bits 0 (R162). -/
def flagsToByte (f : AnnounceFlags) : Byte :=
  BitVec.ofNat 8 (f.reject.toNat + 2 * f.unknown.toNat + 4 * f.disagree.toNat)

/-- No upstream flag (R54, R61). -/
def noFlags : AnnounceFlags := { reject := false, unknown := false, disagree := false }

/-- The flags byte of a TALLY: ABSENT, SATURATED, STACK_QUEUED from the least significant bit (R162). -/
def tallyFlags (absent saturated stackQueued : Bool) : Byte :=
  BitVec.ofNat 8 (absent.toNat + 2 * saturated.toNat + 4 * stackQueued.toNat)

end Sys2Proof.Machine
end

