-- ==== Sys2Proof/Machine/Image.lean ====
section
/-! DEFINITION. The configuration image: its layout (R181) and the loader's checks in their order (R182,
R183, R46 to R48, R184). `loadImage` is the whole of it, a function of the bytes the loader read. -/

namespace Sys2Proof.Machine

/-- One byte of the image. A memory that does not answer reads as all ones (R182; log 4). -/
def imageByte (img : List Byte) (i : Nat) : Byte := img.getD i 0xFF#8

/-- One byte of the image as a number. -/
def imageNat (img : List Byte) (i : Nat) : Nat := (imageByte img i).toNat

/-- A value of two bytes, most significant byte first (R181). -/
def imageWord (img : List Byte) (i : Nat) : Nat := imageNat img i * 256 + imageNat img (i + 1)

/-- The header of the image as it stands there, in the image's units (R181). -/
structure Header where
  station : Nat
  upstream : Nat
  downstream : Nat
  bayCount : Nat
  entryCount : Nat
  entryFilter : Nat
  exitFilter : Nat
  tol : Nat
  k : Nat
  dA : Nat
  dB : Nat
  dG : Four Nat
  dR : Nat
  dX : Nat
  mergeGap : Nat
  lateMargin : Nat
  closeMargin : Nat
  exitTol : Nat
  jamLength : Nat
  jetGuard : Nat
  tA : Nat
  tB : Nat
  tG : Nat
  jetPulse : Nat
  settle : Nat
  pusherPulse : Nat
  dischargeTimeout : Nat
  transferWindow : Nat
  paceGap : Nat
  low : Nat
  high : Nat
  deriving DecidableEq, Repr

/-- The header's fields from its bytes; of the thresholds the low 12 bits are read (R181). -/
def readHeader (img : List Byte) : Header :=
  { station := imageNat img 0, upstream := imageNat img 1, downstream := imageNat img 2,
    bayCount := imageNat img 3, entryCount := imageNat img 4, entryFilter := imageNat img 5,
    exitFilter := imageNat img 6, tol := imageNat img 7, k := imageWord img 8,
    dA := imageWord img 10, dB := imageWord img 12,
    dG := ⟨imageWord img 14, imageWord img 16, imageWord img 18, imageWord img 20⟩,
    dR := imageWord img 22, dX := imageWord img 24, mergeGap := imageNat img 26,
    lateMargin := imageWord img 27, closeMargin := imageWord img 29, exitTol := imageWord img 31,
    jamLength := imageWord img 33, jetGuard := imageWord img 35, tA := imageWord img 37,
    tB := imageWord img 39, tG := imageWord img 41, jetPulse := imageNat img 43,
    settle := imageWord img 44, pusherPulse := imageWord img 46,
    dischargeTimeout := imageNat img 48, transferWindow := imageWord img 49,
    paceGap := imageWord img 51, low := imageWord img 53 % 4096, high := imageWord img 55 % 4096 }

/-- The bays 1 to the bay count (R39). -/
def baysUpTo (count : Nat) : List BayNo := BayNo.all.filter fun b => decide (b.num ≤ count)

/-- The gate distances of the configured bays, in number order; those of other bays are not read
(R183). -/
def Header.bayDists (h : Header) : List Nat := (baysUpTo h.bayCount).map h.dG.get

/-- The distances that are present, that is, not 0 (R183). -/
def present (ds : List Nat) : List Nat := ds.filter fun d => d != 0

/-- The present gate distances of the configured bays and the reject gate (R183). -/
def Header.gateDists (h : Header) : List Nat := present (h.bayDists ++ [h.dR])

/-- The distances rise strictly along the list (R183, check 22). -/
def rising : List Nat → Bool
  | [] => true
  | [_] => true
  | x :: y :: rest => decide (x < y) && rising (y :: rest)

/-- Check 17: every other header value, except the entry count, lies in its range (R181, R183). -/
def Header.inRange (h : Header) : Bool :=
  decide (h.tol ≤ 32)
    && (([h.dA, h.dB] ++ h.bayDists ++ [h.dR, h.dX]).all fun d => decide (d ≤ 20000))
    && decide (h.lateMargin ≤ 500) && decide (h.closeMargin ≤ 2000)
    && decide (10 ≤ h.exitTol) && decide (h.exitTol ≤ 2000)
    && decide (500 ≤ h.jamLength) && decide (h.jamLength ≤ 10000)
    && decide (h.jetGuard ≤ 2000)
    && decide (h.tA ≤ 500) && decide (h.tB ≤ 500) && decide (h.tG ≤ 2000)
    && decide (5 ≤ h.jetPulse)
    && decide (h.settle ≤ 2000)
    && decide (50 ≤ h.pusherPulse) && decide (h.pusherPulse ≤ 2000)
    && decide (1 ≤ h.dischargeTimeout) && decide (h.dischargeTimeout ≤ 60)
    && decide (100 ≤ h.transferWindow) && decide (h.transferWindow ≤ 30000)
    && decide (h.paceGap ≤ 5000)

/-- The header checks with their codes, in the order of the table of R183. -/
def headerChecks (h : Header) : List (Nat × Bool) :=
  [ (10, decide (1 ≤ h.station ∧ h.station ≤ 30)),
    (11, decide (h.upstream ≤ 30 ∧ h.downstream ≤ 30)),
    (12, h.upstream != h.station && h.downstream != h.station &&
      (h.upstream != h.downstream || (h.upstream == 0 && h.downstream == 0))),
    (13, decide (500 ≤ h.k ∧ h.k ≤ 8000)),
    (14, decide (h.entryFilter ≤ 2 ∧ h.exitFilter ≤ 2)),
    (15, decide (h.bayCount ≤ 4)),
    (16, h.bayDists.all fun d => d != 0),
    (17, h.inRange),
    (18, (present [h.dA, h.dB]).all fun j => h.gateDists.all fun g => decide (j < g)),
    (19, (present [h.dA, h.dB] ++ h.gateDists).all fun d => decide (d < h.dX)),
    (20, decide (h.jamLength + h.mergeGap + 100 ≤ h.dX)),
    (21, h.downstream != 0 || h.dR != 0),
    (22, rising h.bayDists && (h.dR == 0 || h.bayDists.all fun d => decide (d < h.dR))) ]

/-- The code of the first check that fails (R182). -/
def firstFailure (checks : List (Nat × Bool)) : Option Nat :=
  (checks.find? fun c => !c.2).map Prod.fst

/-- Two filter periods in ms, from the filter byte: 0.5, 2 or 8 ms each (R19, R181). -/
def filterTime : Nat → Nat
  | 0 => 1
  | 1 => 4
  | _ => 16

/-- The settings of a header that has passed its checks, distances converted to pulses (R93). The gate
distance of a bay beyond the bay count, which R183 says is not read, is converted and kept too; no operation
consults it (DESIGN CHOICE, log 34). -/
def Header.settings (h : Header) : Settings :=
  let p := toPulses h.k
  { station := h.station, upstream := h.upstream, downstream := h.downstream,
    bayCount := h.bayCount, entryFilter := filterTime h.entryFilter,
    exitFilter := filterTime h.exitFilter, tol := h.tol, k := h.k, jetA := p h.dA, jetB := p h.dB,
    gate := h.dG.map p, reject := p h.dR, exitDist := p h.dX, mergeGap := p h.mergeGap,
    lateMargin := p h.lateMargin, closeMargin := p h.closeMargin, exitTol := p h.exitTol,
    jamLength := p h.jamLength, jetGuard := p h.jetGuard, tA := h.tA, tB := h.tB, tG := h.tG,
    jetPulse := h.jetPulse, settle := h.settle, pusherPulse := h.pusherPulse,
    dischargeTimeout := h.dischargeTimeout, transferWindow := h.transferWindow,
    paceGap := h.paceGap, lowThreshold := h.low, highThreshold := h.high }

/-- The entry of a code in the table (R36). -/
def lookupCode (table : List CategoryEntry) (code : Code) : Option CategoryEntry :=
  table.find? fun e => e.code == code

/-- Every bay the set names is at most the bay count; a bit above bay 4 is a bay beyond every count
(R47 check 8, R181). -/
def baySetOk (bits : Byte) (bayCount : Nat) : Bool :=
  (List.range 8).all fun i => !bits.getLsbD i || decide (i + 1 ≤ bayCount)

/-- The fold a PLAN entry spells: none, or a jet with its fraction (R181). -/
def readFold (foldByte fraction : Nat) : Option PlanFold :=
  match foldByte with
  | 1 => some { jet := .a, fraction := fraction }
  | 2 => some { jet := .b, fraction := fraction }
  | _ => none

/-- The fields of a PLAN entry at an offset of the image (R181). -/
def readPlan (img : List Byte) (at' : Nat) : PlanFields :=
  let bits := imageByte img (at' + 8)
  { fold := readFold (imageNat img (at' + 2)) (imageNat img (at' + 3)),
    minLen := imageWord img (at' + 4), maxLen := imageWord img (at' + 6),
    allowed := ⟨bits.getLsbD 0, bits.getLsbD 1, bits.getLsbD 2, bits.getLsbD 3⟩,
    alternate := if imageNat img (at' + 9) = 1 then .pass else .reject,
    target := imageNat img (at' + 10) }

/-- The distance in the header of the jet a fold byte names (R47 check 4). -/
def foldJetDist (h : Header) (foldByte : Nat) : Nat := if foldByte = 1 then h.dA else h.dB

/-- The checks of one entry with their codes, in the order of the table of R47. -/
def entryChecks (h : Header) (filed : List CategoryEntry) (img : List Byte) (at' : Nat) :
    List (Nat × Bool) :=
  let kind := imageNat img (at' + 1)
  let fold := imageNat img (at' + 2)
  let fraction := imageNat img (at' + 3)
  let target := imageNat img (at' + 10)
  let alternate := imageNat img (at' + 9)
  let isPlan := kind == 2
  let folds := isPlan && fold != 0
  [ (39, kind == 1 || kind == 2),
    (31, (lookupCode filed (imageByte img at')).isNone),
    (39, !isPlan || decide (fold ≤ 2)),
    (38, !folds || foldJetDist h fold != 0),
    (34, !folds || decide (32 ≤ fraction ∧ fraction ≤ 224)),
    (35, !isPlan || decide (imageWord img (at' + 4) ≤ imageWord img (at' + 6))),
    (36, !isPlan || decide (1 ≤ target ∧ target ≤ 99)),
    (37, !isPlan || baySetOk (imageByte img (at' + 8)) h.bayCount),
    (39, !isPlan || alternate == 1 || alternate == 2) ]

/-- The entry at an offset of the image, its use count 0 (R35, R181). -/
def readEntry (img : List Byte) (at' : Nat) : CategoryEntry :=
  { code := imageByte img at', uses := 0,
    kind :=
      if imageNat img (at' + 1) = 1 then .link (imageByte img (at' + 2))
      else .plan (readPlan img at') }

/-- What filing the entries comes to: the table, or the code of the first failing check with what had
been filed before it (R35, R46). -/
inductive FileResult where
  | filed (table : List CategoryEntry)
  | failed (code : Nat) (table : List CategoryEntry)
  deriving DecidableEq, Repr

/-- Read, check and file the given number of entries from an offset on, in image order (R46, R47). -/
def fileEntries (h : Header) (img : List Byte) : Nat → Nat → List CategoryEntry → FileResult
  | 0, _, filed => .filed filed
  | n + 1, at', filed =>
    match firstFailure (entryChecks h filed img at') with
    | some code => .failed code filed
    | none => fileEntries h img n (at' + 12) (filed ++ [readEntry img at'])

/-- The table checks (R46, R48): entry count, the entries, then entry 0. -/
def loadTable (h : Header) (img : List Byte) : FileResult :=
  if h.entryCount = 0 then .failed 32 []
  else if 64 < h.entryCount then .failed 30 []
  else
    match fileEntries h img h.entryCount 64 [] with
    | .failed code filed => .failed code filed
    | .filed table =>
      match lookupCode table 0#8 with
      | none => .failed 32 table
      | some e =>
        match e.kind with
        | .link _ => .failed 33 table
        | .plan _ => .filed table

/-- One byte of the segment map: a line 0 to 7, or 255 for none (R181). -/
def segmentByteOk (x : Nat) : Bool := decide (x ≤ 7) || x == 255

/-- The offsets of the seven map bytes (R181). -/
def segmentOffsets (n : Nat) : List Nat := (List.range 7).map fun i => 64 + 12 * n + i

/-- The segment map of the image: a byte 255 assigns no line (R181). -/
def readSegmentMap (img : List Byte) (n : Nat) : List (Option Nat) :=
  (segmentOffsets n).map fun i => if imageNat img i ≤ 7 then some (imageNat img i) else none

/-- The event of an event code (R174). -/
def tallyEventOfCode : Nat → Option TallyEvent
  | 1 => some .passed
  | 2 => some .stacked
  | 3 => some .rejected
  | 4 => some .lost
  | 5 => some .purged
  | 6 => some .orphan
  | 7 => some .ghost
  | 8 => some .lengthDisagree
  | 9 => some .skipAhead
  | 10 => some .seqGap
  | 11 => some .syncLoss
  | 12 => some .expectOverflow
  | 13 => some .chainFault
  | 14 => some .late
  | 15 => some .jetBusy
  | 16 => some .stray
  | 17 => some .linkCheck
  | 18 => some .linkDrop
  | _ => none

/-- The piece events, offered with a lot and a code (R174). -/
def isPieceEvent : TallyEvent → Bool
  | .seqGap => false
  | .syncLoss => false
  | .expectOverflow => false
  | .stray => false
  | .linkCheck => false
  | .linkDrop => false
  | _ => true

/-- The checks of one tally set-up with their codes (R184). -/
def tallyChecks (img : List Byte) (at' : Nat) : List (Nat × Bool) :=
  let event := imageNat img at'
  let mode := imageNat img (at' + 1)
  [ (50, decide (event ≤ 18)),
    (51, decide (mode ≤ 3)),
    (52, mode == 0 || ((tallyEventOfCode event).map isPieceEvent == some true)) ]

/-- The counter a tally set-up spells: event code, mode byte (PER_LOT, ONE_CODE), code (R181). -/
def readCounter (img : List Byte) (at' : Nat) : Counter :=
  let mode := imageByte img (at' + 1)
  { Counter.unused with
    event := tallyEventOfCode (imageNat img at')
    perLot := mode.getLsbD 0
    oneCode := if mode.getLsbD 1 then some (imageByte img (at' + 2)) else none }

/-- The offsets of the four tally set-ups (R181). -/
def tallyOffsets (n : Nat) : List Nat := (List.range 4).map fun i => 71 + 12 * n + 3 * i

/-- The image check: the check over bytes 0 to 1,021 equals bytes 1,022 and 1,023 (R182). -/
def imageCheckOk (img : List Byte) : Bool :=
  crcBytes ((List.range 1022).map (imageByte img)) ==
    twoBytes (imageByte img 1022) (imageByte img 1023)

/-- What a load comes to: FAULT with its code, what of the table had been filed and the segment map the
fault is shown with; or the settings, table, map and counters that come into force. -/
inductive LoadResult where
  | failed (code : Nat) (table : List CategoryEntry) (segmentMap : List (Option Nat))
  | loaded (settings : Settings) (table : List CategoryEntry) (segmentMap : List (Option Nat))
      (counters : List Counter)
  deriving DecidableEq, Repr

/-- The checks after the image check, in their order: header, table, map, tally set-up (R182). A fault
found after the map has passed is shown with the loaded map (R178). -/
def loadChecked (img : List Byte) : LoadResult :=
  let h := readHeader img
  match firstFailure (headerChecks h) with
  | some code => .failed code [] fixedSegmentMap
  | none =>
    match loadTable h img with
    | .failed code filed => .failed code filed fixedSegmentMap
    | .filed table =>
      if !((segmentOffsets h.entryCount).all fun i => segmentByteOk (imageNat img i)) then
        .failed 40 table fixedSegmentMap
      else
        let map := readSegmentMap img h.entryCount
        match firstFailure ((tallyOffsets h.entryCount).flatMap (tallyChecks img)) with
        | some code => .failed code table map
        | none =>
          .loaded h.settings table map ((tallyOffsets h.entryCount).map (readCounter img))

/-- The whole load (R182): the image check, code 01, then the others. -/
def loadImage (img : List Byte) : LoadResult :=
  if imageCheckOk img then loadChecked img else .failed 1 [] fixedSegmentMap

end Sys2Proof.Machine
end

