-- ==== Sys2Proof/Machine/Flags.lean ====
section
/-! DEFINITION. Counts, flags and the outputs that follow a condition: the tally unit (R173 to R176), the
own reasons set (R146), the belt-run output (R13, R14) and the alarm lamp (R179). -/

namespace Sys2Proof.Machine

/-- Add one to the fixed count an event feeds, wrapping; the events of the counters alone feed none
(R173, R174). -/
def bumpCounts (ev : TallyEvent) (c : FixedCounts) : FixedCounts :=
  match ev with
  | .passed => { c with passed := c.passed + 1#32 }
  | .stacked => { c with stacked := c.stacked + 1#32 }
  | .rejected => { c with rejected := c.rejected + 1#32 }
  | .lost => { c with lost := c.lost + 1#32 }
  | .purged => { c with purged := c.purged + 1#32 }
  | .orphan => { c with orphan := c.orphan + 1#32 }
  | .ghost => { c with ghost := c.ghost + 1#32 }
  | .stray => { c with stray := c.stray + 1#32 }
  | .linkCheck => { c with linkCheck := c.linkCheck + 1#32 }
  | .linkDrop => { c with linkDrop := c.linkDrop + 1#32 }
  | .lengthDisagree => c
  | .skipAhead => c
  | .seqGap => c
  | .syncLoss => c
  | .expectOverflow => c
  | .chainFault => c
  | .late => c
  | .jetBusy => c

/-- Raise a counter by n; past 16,777,215 it holds there and its saturated flag is set (R175). -/
def raiseCounter (n : Nat) (c : Counter) : Counter :=
  if Config.maxCounter < c.value + n then { c with value := Config.maxCounter, saturated := true }
  else { c with value := c.value + n }

/-- The filter of a counter: ALL passes, ONE_CODE passes an offer with its code (R175). -/
def filterPasses (c : Counter) (id : Option (Lot × Code)) : Bool :=
  match c.oneCode with
  | none => true
  | some code => id.map Prod.snd == some code

/-- One offer to one counter: `n` events, with the lot and code of a piece event (R175, R176). -/
def offerCounter (ev : TallyEvent) (n : Nat) (id : Option (Lot × Code)) (c : Counter) : Counter :=
  if c.event = some ev ∧ filterPasses c id = true then
    if c.perLot then
      match id with
      | none => c
      | some (lot, _) =>
        match c.countingLot with
        | none => { raiseCounter n c with countingLot := some lot }
        | some counting => if counting = lot then raiseCounter n c else c
    else raiseCounter n c
  else c

/-- Offer an event to the tally unit: the fixed count it feeds and the four counters (4.4, R173 to
R176). -/
def offerTally (ev : TallyEvent) (n : Nat) (id : Option (Lot × Code)) (t : Tally) : Tally :=
  { counts := bumpCounts ev t.counts, counters := t.counters.map (offerCounter ev n id) }

/-- A PER_LOT counter that counts the marker's lot latches and starts afresh (R176). -/
def latchCounter (lot : Lot) (c : Counter) : Counter :=
  if c.perLot = true ∧ c.countingLot = some lot then
    { c with
      latch := some { value := c.value, saturated := c.saturated, lot := lot }
      value := 0
      saturated := false
      countingLot := none }
  else c

/-- A marker's lot at the tally unit (R67, R176). -/
def latchTally (lot : Lot) (t : Tally) : Tally :=
  { t with counters := t.counters.map (latchCounter lot) }

/-- Count a piece event with its lot and code (R174). -/
def countPiece (ev : TallyEvent) (lot : Lot) (code : Code) (s : State) : State :=
  { s with tally := offerTally ev 1 (some (lot, code)) s.tally }

/-- Count a line event n times; it carries no lot and no code (R174). -/
def countLine (ev : TallyEvent) (n : Nat) (s : State) : State :=
  { s with tally := offerTally ev n none s.tally }

/-- Count ENTERED (R90, R173). -/
def countEntered (s : State) : State :=
  { s with tally := { s.tally with counts := { s.tally.counts with entered := s.tally.counts.entered + 1#32 } } }

/-- Count OVERRUN (R62, R173). -/
def countOverrun (s : State) : State :=
  { s with tally := { s.tally with counts := { s.tally.counts with overrun := s.tally.counts.overrun + 1#32 } } }

/-- The number of a reason: what a STOP frame carries and the display shows (R146, R147). -/
def reasonNumber : StopReason → Nat
  | .operator => 1
  | .stall => 2
  | .overrun => 3
  | .jamEntry => 4
  | .jamExit => 5
  | .restart => 6

/-- Is the reason in the set? -/
def hasReason (r : ReasonSet) : StopReason → Bool
  | .operator => r.operator
  | .stall => r.stall
  | .overrun => r.overrun
  | .jamEntry => r.jamEntry
  | .jamExit => r.jamExit
  | .restart => r.restart

/-- The set with one reason added (R146). -/
def insertReason (r : ReasonSet) : StopReason → ReasonSet
  | .operator => { r with operator := true }
  | .stall => { r with stall := true }
  | .overrun => { r with overrun := true }
  | .jamEntry => { r with jamEntry := true }
  | .jamExit => { r with jamExit := true }
  | .restart => { r with restart := true }

/-- The reasons of the set in number order. -/
def reasonList (r : ReasonSet) : List StopReason :=
  [.operator, .stall, .overrun, .jamEntry, .jamExit, .restart].filter (hasReason r)

/-- No reason is in the set. -/
def noReason (r : ReasonSet) : Bool := decide (r = ReasonSet.none)

/-- The number of the lowest reason in the set, 0 for an empty set (R178). -/
def lowestReason (r : ReasonSet) : Nat := ((reasonList r).head?.map reasonNumber).getD 0

/-- Add a station to the others' stop set, kept rising with no repeats (R150). -/
def insertStation (n : Nat) : List Nat → List Nat
  | [] => [n]
  | x :: xs => if n < x then n :: x :: xs else if n = x then x :: xs else x :: insertStation n xs

/-- Remove a station from the others' stop set (R150). -/
def removeStation (n : Nat) (xs : List Nat) : List Nat := xs.filter fun x => x != n

/-- The station is ACTIVE. -/
def isActive (s : State) : Bool := decide (s.station = .active)

/-- The condition of the belt-run output (R13). -/
def runWanted (s : State) : Bool := isActive s && noReason s.stops.own && s.stops.others.isEmpty

/-- A configured bay is BLOCKED (R179). -/
def anyBlocked (s : State) : Bool :=
  BayNo.all.any fun b => decide (b.num ≤ s.settings.bayCount) && decide ((s.bays.get b).state = .blocked)

/-- The condition of the alarm lamp (R179). -/
def lampWanted (s : State) : Bool :=
  isActive s && (!noReason s.stops.own || anyBlocked s || s.belt.speedHigh)

/-- The belt-run output follows its condition; a turn-on loads the stall grace count and arms the low
threshold with its rearm count 0 (R13, R14). -/
def followRun (s : State) : State :=
  if runWanted s = s.belt.run then s
  else if runWanted s then
    { s with belt := { s.belt with run := true, grace := Config.stallGrace, lowArmed := true, lowRearm := 0 } }
  else { s with belt := { s.belt with run := false } }

/-- The alarm lamp follows its condition (R179). -/
def followLamp (s : State) : State := { s with panel := { s.panel with lamp := lampWanted s } }

/-- Replace the line stop unit's sets; each change takes effect on the belt-run output and the lamp at
once (R13, R146, R150, R179). -/
def setStops (st : Stops) (s : State) : State := followLamp (followRun { s with stops := st })

end Sys2Proof.Machine
end

