-- ==== Sys2Proof/Machine/Ops.lean ====
section
/-! DEFINITION. The operations several commands share: the transmit queue (R165 to R167), the pace unit
(R156, R157), own stop reasons (R146, R147), bay transitions (R130, R134 to R138), marker processing
(R66, R67), and the fates of a piece (R82). -/

namespace Sys2Proof.Machine

/-! ## The transmit queue -/

/-- The groups the queue treats differently (10, section 10.4). -/
inductive QGroup where
  | kept | stopRun | pace | tally
  deriving DecidableEq, Repr

/-- The group of a frame. The S412 never sends a TALLY_QUERY. -/
def frameGroup : FrameBody → QGroup
  | .stop _ => .stopRun
  | .run => .stopRun
  | .start _ _ => .kept
  | .announce _ _ _ _ _ => .kept
  | .lotEnd _ _ => .kept
  | .pace _ => .pace
  | .stack _ _ _ _ _ => .kept
  | .tallyQuery _ _ _ => .tally
  | .tally _ _ _ _ => .tally

/-- The rank of a frame: the kind codes, START first, ANNOUNCE and LOT_END sharing one (R165). -/
def frameRank : FrameBody → Nat
  | .start _ _ => 0
  | .stop _ => 1
  | .run => 2
  | .announce _ _ _ _ _ => 4
  | .lotEnd _ _ => 4
  | .pace _ => 6
  | .stack _ _ _ _ _ => 7
  | .tallyQuery _ _ _ => 8
  | .tally _ _ _ _ => 9

/-- A frame joins behind every frame of its rank or a lower one (R165). -/
def insertFrame (f : QFrame) : List QFrame → List QFrame
  | [] => [f]
  | x :: xs => if frameRank f.body < frameRank x.body then f :: x :: xs else x :: insertFrame f xs

/-- The age of the newest frame of a list. -/
def newestAge (q : List QFrame) : Option Nat := (q.map QFrame.age).max?

/-- The queue without the frame of an age. -/
def removeAge (age : Nat) (q : List QFrame) : List QFrame := q.filter fun x => x.age != age

/-- The frames of a group that are not in flight. -/
def waitingOf (g : QGroup) (inFlight : Option Nat) (q : List QFrame) : List QFrame :=
  q.filter fun x => frameGroup x.body == g && some x.age != inFlight

/-- What a joining comes to: the queue after it, whether the frame is in it, whether LINK_DROP counts. -/
structure Join where
  queue : List QFrame
  accepted : Bool
  dropCounted : Bool
  deriving DecidableEq, Repr

/-- A frame that joins a full queue and replaces none (R167). -/
def joinFull (inFlight : Option Nat) (f : QFrame) (q : List QFrame) : Join :=
  let makeRoom (age : Nat) : List QFrame := insertFrame f (removeAge age q)
  let tally := newestAge (waitingOf .tally inFlight q)
  let kept := newestAge (waitingOf .kept inFlight q)
  match frameGroup f.body, tally, kept with
  | .tally, _, _ => ⟨q, false, false⟩
  | .kept, some age, _ => ⟨makeRoom age, true, false⟩
  | .kept, none, _ => ⟨q, false, true⟩
  | .stopRun, some age, _ => ⟨makeRoom age, true, false⟩
  | .stopRun, none, some age => ⟨makeRoom age, true, true⟩
  | .stopRun, none, none => ⟨q, false, false⟩
  | .pace, some age, _ => ⟨makeRoom age, true, false⟩
  | .pace, none, some age => ⟨makeRoom age, true, true⟩
  | .pace, none, none => ⟨q, false, false⟩

/-- The frames a coalesced frame does not replace: those of other groups (R166). -/
def notReplaced (f : QFrame) (q : List QFrame) : List QFrame :=
  q.filter fun x => frameGroup x.body != frameGroup f.body

/-- STOP and RUN, and PACE, are coalesced (10, section 10.4). -/
def isCoalesced : QGroup → Bool
  | .stopRun => true
  | .pace => true
  | .kept => false
  | .tally => false

/-- A frame joins the queue: it replaces the pending frame of a coalesced group (R166), takes a free
place (R165), or is handled by its group when the queue is full (R167). -/
def joinQueue (inFlight : Option Nat) (f : QFrame) (q : List QFrame) : Join :=
  if isCoalesced (frameGroup f.body) = true ∧ (notReplaced f q).length < q.length then
    ⟨insertFrame f (notReplaced f q), true, false⟩
  else if q.length < Config.queuePlaces then ⟨insertFrame f q, true, false⟩
  else joinFull inFlight f q

/-- The joining of a frame asked for now. -/
def joinOf (body : FrameBody) (s : State) : Join :=
  joinQueue (s.link.inFlight.map QFrame.age) { body := body, age := s.link.nextAge } s.link.queue

/-- A frame asked for joins the queue, LINK_DROP counted where R167 says so; the pace unit is not
asked here. -/
def askRaw (body : FrameBody) (s : State) : State :=
  let j := joinOf body s
  let s1 := { s with link := { s.link with queue := j.queue, nextAge := s.link.nextAge + 1 } }
  if j.dropCounted then countLine .linkDrop 1 s1 else s1

/-- The number of kept frames in the queue, the one in flight included (R165). -/
def keptCount (s : State) : Nat := s.link.queue.countP fun x => frameGroup x.body == .kept

/-! ## The pace unit -/

/-- The record is an ON_BELT piece. -/
def isOnBelt : Record → Bool
  | .piece p => match p.stage with
    | .onBelt _ => true
    | .announced _ => false
    | .placeholder _ => false
  | .marker _ _ => false

/-- The number of ON_BELT records (R50). -/
def onBeltCount (tracks : List Record) : Nat := tracks.countP isOnBelt

/-- Bays 1 to the bay count are configured (R39). -/
def isConfigured (s : State) (b : BayNo) : Bool := decide (b.num ≤ s.settings.bayCount)

/-- The bay can take no piece: CLOSING, DISCHARGING or BLOCKED (R156). -/
def isBusy (b : Bay) : Bool :=
  decide (b.state = .closing) || decide (b.state = .discharging) || decide (b.state = .blocked)

/-- One or more of the three conditions of R156 holds. -/
def isCrowded (s : State) : Bool :=
  decide (Config.crowdedBelt ≤ onBeltCount s.tracks)
    || decide (Config.crowdedQueue ≤ keptCount s)
    || (decide (0 < s.settings.bayCount) && BayNo.all.all fun b => !isConfigured s b || isBusy (s.bays.get b))

/-- The gap this segment needs (R156). -/
def paceNeed (s : State) : Nat := if isCrowded s then s.settings.paceGap else 0

/-- The larger of pace_in and pace_own, limited to 5,000 (R157). -/
def paceResult (p : Pace) : Nat := min (max p.paceIn p.paceOwn) Config.maxPace

/-- The relay after a change of pace_in or pace_own (R157). -/
def relayPace (s : State) : State :=
  if paceResult s.pace = s.pace.paceOut then s
  else
    let s1 := { s with pace := { s.pace with paceOut := paceResult s.pace } }
    if s.settings.upstream = 0 then s1
    else askRaw (.pace (BitVec.ofNat 16 (paceResult s.pace))) s1

/-- One evaluation of pace_own, with the relay of a change (R156, R157). -/
def paceOnce (s : State) : State :=
  if paceNeed s = s.pace.paceOwn then s
  else relayPace { s with pace := { s.pace with paceOwn := paceNeed s } }

/-- The pace unit evaluates its conditions (R156). The second evaluation serves a PACE that itself made
a kept frame leave a full queue (R167). -/
def evalPace (s : State) : State := paceOnce (paceOnce s)

/-- Evaluate the pace if the number of kept frames has changed since `before` (R156). -/
def evalIfKeptChanged (before s : State) : State :=
  if keptCount s = keptCount before then s else evalPace s

/-- A block asks for a frame: it joins the queue, and a change of the kept frames reaches the pace unit
within the event (R156, R165; log 12). -/
def askFrame (body : FrameBody) (s : State) : State := evalIfKeptChanged s (askRaw body s)

/-- pace_in takes a gap; a change is relayed (R155, R157). -/
def setPaceIn (gap : Nat) (s : State) : State :=
  if gap = s.pace.paceIn then s
  else evalIfKeptChanged s (relayPace { s with pace := { s.pace with paceIn := gap } })

/-! ## The own reasons -/

/-- A block asks the line stop unit to add a reason; from an empty set this queues STOP with the
reason's number (R146, R147). -/
def addReason (r : StopReason) (s : State) : State :=
  if hasReason s.stops.own r then s
  else
    let s1 := setStops { s.stops with own := insertReason s.stops.own r } s
    if noReason s.stops.own then askFrame (.stop (BitVec.ofNat 8 (reasonNumber r))) s1 else s1

/-! ## The stacker bays -/

/-- Replace a bay's record; a change of its state reaches the pace unit and the lamp (R156, R179). -/
def putBay (b : BayNo) (x : Bay) (s : State) : State :=
  let s1 := { s with bays := s.bays.set b x }
  if x.state = (s.bays.get b).state then s1 else followLamp (evalPace s1)

/-- The number of a close reason in a STACK frame and a BAY reading (R140, R171). -/
def closeNumber : CloseReason → Nat
  | .target => 1
  | .height => 2
  | .lotEnd => 3
  | .forced => 4

/-- The STACK frame of a bay's discharge (R140). -/
def stackFrame (b : BayNo) (y : Bay) : FrameBody :=
  .stack (BitVec.ofNat 8 b.num) (y.lot.getD 0#16) (y.planCode.getD 0#8) (BitVec.ofNat 8 y.landed)
    (BitVec.ofNat 8 ((y.reason.map closeNumber).getD 0))

/-- A pusher turns on and its pulse timer starts, or starts again (R138, R139). -/
def pushOut (b : BayNo) (s : State) : State :=
  { s with pushers := s.pushers.set b { on := true, timer := some s.settings.pusherPulse } }

/-- The record of a bay whose discharge begins; the flag says whether the queue took its STACK (R138,
R140). -/
def dischargingBay (timeout : Nat) (queued : Bool) (y : Bay) : Bay :=
  { y with state := .discharging, settle := none, discharge := some timeout, stackQueued := queued }

/-- The discharge: pusher on, STACK queued, DISCHARGING, discharge timer (R138, R140). -/
def discharge (b : BayNo) (s : State) : State :=
  let frame := stackFrame b (s.bays.get b)
  putBay b (dischargingBay s.settings.dischargeTimeout (joinOf frame s).accepted (s.bays.get b))
    (askFrame frame (pushOut b s))

/-- The settle timer of a bay has expired: EMPTY when nothing has landed, discharge otherwise (R137). -/
def settleExpire (b : BayNo) (s : State) : State :=
  if (s.bays.get b).landed = 0 then putBay b Bay.cleared s else discharge b s

/-- The settle timer starts; a settle time of 0 expires at once, within the event (R137; log 13). -/
def startSettle (b : BayNo) (s : State) : State :=
  if s.settings.settle = 0 then settleExpire b s
  else putBay b { s.bays.get b with settle := some s.settings.settle } s

/-- A FILLING bay enters CLOSING with a reason, and settles at once with nothing reserved; in another
state the event has no effect (R134 to R136, R143). -/
def closeBay (b : BayNo) (r : CloseReason) (s : State) : State :=
  let y := s.bays.get b
  if y.state = .filling then
    let s1 := putBay b { y with state := .closing, reason := some r } s
    if y.reserved = 0 then startSettle b s1 else s1
  else s

/-- A bay takes one landing: a place moves from reserved to landed, and a CLOSING bay with none reserved
left settles. The rules have no landing without a reservation (R130; log 19). -/
def landPiece (b : BayNo) (s : State) : State :=
  let y := s.bays.get b
  if (y.state = .filling ∨ y.state = .closing) ∧ 0 < y.reserved then
    let s1 := putBay b { y with landed := y.landed + 1, reserved := y.reserved - 1 } s
    if y.state = .closing ∧ y.reserved = 1 then startSettle b s1 else s1
  else s

/-- A marker's lot at one bay (R135). -/
def closeLotBay (lot : Lot) (b : BayNo) (s : State) : State :=
  if isConfigured s b = true ∧ (s.bays.get b).lot = some lot then closeBay b .lotEnd s else s

/-- A marker's lot at every bay (R135). R67 and R135 give no order: the model takes bay 1 to bay 4, each
through a settle time of 0 before the next (DESIGN CHOICE, log 29). -/
def closeLot (lot : Lot) (s : State) : State :=
  closeLotBay lot .b4 (closeLotBay lot .b3 (closeLotBay lot .b2 (closeLotBay lot .b1 s)))

/-! ## Markers -/

/-- A handover frame to the downstream peer: it takes the own next handover seq, which goes up by one
whatever becomes of the frame; with downstream 0 nothing happens (R67, R83, R85). -/
def queueHandover (frame : Seq → FrameBody) (s : State) : State :=
  if s.settings.downstream = 0 then s
  else askFrame (frame s.link.ownSeq) { s with link := { s.link with ownSeq := s.link.ownSeq + 1#8 } }

/-- A MARKER is processed: bays, tally unit, link controller (R67; the order is that of logs 20 and
29). -/
def processMarker (lot : Lot) (s : State) : State :=
  let s1 := closeLot lot s
  let s2 := { s1 with tally := latchTally lot s1.tally }
  queueHandover (fun q => .lotEnd q lot) s2

/-- Replace the track list. -/
def setTracks (tracks : List Record) (s : State) : State := { s with tracks := tracks }

/-- While the head record is a MARKER it is processed and removed, at most `n` of them (R66). -/
def processHeads : Nat → State → State
  | 0, s => s
  | n + 1, s =>
    match s.tracks with
    | .marker _ lot :: rest => processHeads n (setTracks rest (processMarker lot s))
    | _ => s

/-- The list looks at its head (R66). -/
def lookAtHead (s : State) : State := processHeads s.tracks.length s

/-! ## Records and fates -/

/-- The record is ANNOUNCED or PLACEHOLDER. -/
def isUnseen : Record → Bool
  | .piece p => match p.stage with
    | .onBelt _ => false
    | .announced _ => true
    | .placeholder _ => true
  | .marker _ _ => false

/-- The record is a MARKER. -/
def isMarker : Record → Bool
  | .piece _ => false
  | .marker _ _ => true

/-- An ON_BELT record as identity and belt fields. -/
def beltOf : Record → Option (Piece × BeltInfo)
  | .piece p => match p.stage with
    | .onBelt i => some (p, i)
    | .announced _ => none
    | .placeholder _ => none
  | .marker _ _ => none

/-- The record is ON_BELT with this local piece number. -/
def hasLocal (n : LocalNo) (r : Record) : Bool := (beltOf r).map (fun x => x.2.localNo) == some n

/-- The ON_BELT record of a local piece number. -/
def findLocal (n : LocalNo) (tracks : List Record) : Option (Piece × BeltInfo) :=
  (tracks.find? (hasLocal n)).bind beltOf

/-- Remove the ON_BELT record of a local piece number; the pace unit evaluates (R66, R156). -/
def takeOut (n : LocalNo) (s : State) : State :=
  evalPace (setTracks (s.tracks.eraseP (hasLocal n)) s)

/-- Change the ON_BELT record of a local piece number in its place. -/
def updateLocal (n : LocalNo) (f : Piece → BeltInfo → Record) (tracks : List Record) : List Record :=
  tracks.map fun r =>
    match beltOf r with
    | some (p, i) => if i.localNo = n then f p i else r
    | none => r

/-- The five fates (R82). -/
inductive Fate where
  | passed | stacked | rejected | lost | purged
  deriving DecidableEq, Repr

/-- The tally event of a fate (R82, R174). -/
def fateEvent : Fate → TallyEvent
  | .passed => .passed
  | .stacked => .stacked
  | .rejected => .rejected
  | .lost => .lost
  | .purged => .purged

/-- What a fate of piece n leaves of one schedule entry: a GATE_CLOSE loses the piece from its list, and
an entry left with no piece is removed unfired (R123). -/
def entryWithout (n : LocalNo) (e : SchedEntry) : Option SchedEntry :=
  if e.pieces.contains n then
    match e.action with
    | .gateClose _ =>
      let rest := e.pieces.filter fun x => x != n
      if rest.isEmpty then none else some { e with pieces := rest }
    | .jetFire _ => none
    | .gateOpen _ => none
    | .exitCheck => none
  else some e

/-- The schedule after the fate of piece n (R123). -/
def dropPiece (n : LocalNo) (schedule : List SchedEntry) : List SchedEntry :=
  schedule.filterMap (entryWithout n)

/-- Steps common to the fates after the action particular to each: entries dealt with (R123), the fate
counted, the record removed, the head looked at (R82). No effect for a number no ON_BELT record holds
(log 19). -/
def endPiece (fate : Fate) (n : LocalNo) (s : State) : State :=
  match findLocal n s.tracks with
  | none => s
  | some (p, _) =>
    lookAtHead (takeOut n (countPiece (fateEvent fate) p.lot p.code
      { s with schedule := dropPiece n s.schedule }))

/-- STACKED: the landing, then the common steps (R86). -/
def stackPiece (b : BayNo) (n : LocalNo) (s : State) : State :=
  match findLocal n s.tracks with
  | none => s
  | some _ => endPiece .stacked n (landPiece b s)

/-- The flags of the ANNOUNCE of a passed piece (R84). -/
def passedFlags (p : Piece) (i : BeltInfo) : AnnounceFlags :=
  { reject := i.rejectReason.isSome
    unknown := p.announcedLen.isNone || p.flags.unknown
    disagree := i.disagree || p.flags.disagree }

/-- The ANNOUNCE of a passed piece (R84). -/
def announceOf (c : Settings) (p : Piece) (i : BeltInfo) (seq : Seq) : FrameBody :=
  .announce seq p.lot p.code (BitVec.ofNat 16 (toMm c.k (i.exitLength.getD 0))) (flagsToByte (passedFlags p i))

/-- PASSED: the ANNOUNCE to downstream, then the common steps (R83). -/
def passPiece (n : LocalNo) (s : State) : State :=
  match findLocal n s.tracks with
  | none => s
  | some (p, i) => endPiece .passed n (queueHandover (announceOf s.settings p i) s)

end Sys2Proof.Machine
end

