-- ==== Sys2Proof/Machine/Schedule.lean ====
section
/-! DEFINITION. The action schedule and the actuator outputs (Chapter 7): order, insertion, jet guard,
gate merge, and firing. -/

namespace Sys2Proof.Machine

/-- Entry x stands before entry y: its due lies nearer, seen from the belt position; of equal dues the
one inserted earlier stands first (R111). -/
def standsBefore (position : Pos) (x y : SchedEntry) : Bool :=
  decide (posDiff x.due position < posDiff y.due position)
    || (decide (posDiff x.due position = posDiff y.due position) && decide (x.serial < y.serial))

/-- Place an entry by the order of R111. -/
def placeEntry (position : Pos) (e : SchedEntry) : List SchedEntry → List SchedEntry
  | [] => [e]
  | x :: xs => if standsBefore position e x then e :: x :: xs else x :: placeEntry position e xs

/-- Insert a new entry; stored at this pulse, it waits for the next (R2, R113; logs 8 and 18). -/
def addEntry (a : Action) (due : Pos) (pieces : List LocalNo) (s : State) : State :=
  { s with
    schedule := placeEntry s.belt.position
      { due := due, action := a, pieces := pieces, serial := s.nextSerial, fresh := true } s.schedule
    nextSerial := s.nextSerial + 1 }

/-- The jet guard refuses a fire when a pending JET_FIRE on the same jet lies strictly within the guard
of its due (R114). -/
def guardRefuses (j : Jet) (due : Pos) (s : State) : Bool :=
  s.schedule.any fun e => decide (e.action = .jetFire j) && withinGuard s.settings.jetGuard e.due due

/-- The pending GATE_CLOSE a new interval on the gate merges with: due at the new open due or later,
the latest of these (R116; log 22). -/
def mergeTarget (g : Gate) (openDue : Pos) (schedule : List SchedEntry) : Option SchedEntry :=
  (schedule.filter fun e => decide (e.action = .gateClose g) && reached e.due openDue).getLast?

/-- A pending GATE_OPEN that the merge brings forward: on the gate, due after the new open due (R116). -/
def opensLater (g : Gate) (openDue : Pos) (e : SchedEntry) : Bool :=
  decide (e.action = .gateOpen g) && decide (0 < posDiff e.due openDue)

/-- Pending opens that lie after the new open due take it and move to their places (R116). -/
def bringForward (position : Pos) (g : Gate) (openDue : Pos) (schedule : List SchedEntry) :
    List SchedEntry :=
  (schedule.filter (opensLater g openDue)).foldl
    (fun acc e => placeEntry position { e with due := openDue, fresh := true } acc)
    (schedule.filter fun e => !opensLater g openDue e)

/-- Insert a piece's GATE_OPEN and GATE_CLOSE, or merge its interval with a pending close (R113,
R116). -/
def insertGate (g : Gate) (openDue closeDue : Pos) (n : LocalNo) (s : State) : State :=
  match mergeTarget g openDue s.schedule with
  | none => addEntry (.gateClose g) closeDue [n] (addEntry (.gateOpen g) openDue [n] s)
  | some old =>
    let s1 := { s with schedule := s.schedule.filter fun e => e.serial != old.serial }
    let s2 := addEntry (.gateClose g) closeDue (old.pieces ++ [n]) s1
    { s2 with schedule := bringForward s2.belt.position g openDue s2.schedule }

/-- A jet turns on and its pulse timer starts, or starts again (R118). -/
def fireJet (j : Jet) (s : State) : State :=
  let out : PulseOut := { on := true, timer := some s.settings.jetPulse }
  match j with
  | .a => { s with outputs := { s.outputs with jetA := out } }
  | .b => { s with outputs := { s.outputs with jetB := out } }

/-- A gate output goes open or closed (R119 to R121). -/
def setGate (g : Gate) (open' : Bool) (s : State) : State :=
  match g with
  | .bay b => { s with outputs := { s.outputs with gates := s.outputs.gates.set b open' } }
  | .reject => { s with outputs := { s.outputs with reject := open' } }

/-- A fired close gives one listed piece its fate: STACKED at a bay gate, REJECTED at the reject gate
(R120, R121). -/
def closeFate (g : Gate) (s : State) (n : LocalNo) : State :=
  match g with
  | .bay b => stackPiece b n s
  | .reject => endPiece .rejected n s

/-- An EXIT_CHECK of one piece: a piece not seen at the exit eye is LOST (R122). -/
def checkExit (s : State) (n : LocalNo) : State :=
  match findLocal n s.tracks with
  | some (_, i) => if i.exitSeen then s else endPiece .lost n s
  | none => s

/-- The whole effect of a fired entry (R118 to R122). -/
def fireEntry (e : SchedEntry) (s : State) : State :=
  match e.action with
  | .jetFire j => fireJet j s
  | .gateOpen g => setGate g true s
  | .gateClose g => e.pieces.foldl (closeFate g) (setGate g false s)
  | .exitCheck => e.pieces.foldl checkExit s

/-- The entry at the head of what this pulse may fire (R117; log 8). -/
def headEntry (s : State) : Option SchedEntry := s.schedule.find? fun e => !e.fresh

/-- The schedule without the entry at the head of what this pulse may fire. -/
def withoutHead (schedule : List SchedEntry) : List SchedEntry := schedule.eraseP fun e => !e.fresh

/-- While the head entry's due is reached it is fired and removed, at most `n` of them (R117). -/
def fireReached : Nat → State → State
  | 0, s => s
  | n + 1, s =>
    match headEntry s with
    | none => s
    | some e =>
      if reached s.belt.position e.due then
        fireReached n (fireEntry e { s with schedule := withoutHead s.schedule })
      else s

/-- The schedule at an encoder pulse (R117). -/
def fireSchedule (s : State) : State := fireReached s.schedule.length s

end Sys2Proof.Machine
end

