-- ==== Sys2Proof/Machine/Planner.lean ====
section
/-! DEFINITION. The category table's resolution (R41 to R44), the choice of a bay (R127 to R129), the
stages of planning (R70 to R79) and the arrival of a piece (R59 to R62). -/

namespace Sys2Proof.Machine

/-! ## Resolution -/

/-- A visit raises the use count of the entry of a code, saturating (R41, R44). -/
def raiseUse (code : Code) (table : List CategoryEntry) : List CategoryEntry :=
  table.map fun e => if e.code = code then { e with uses := min Config.max16 (e.uses + 1) } else e

/-- What a resolution comes to: the result's code, whether it is a chain fault, the table after it. -/
structure Resolution where
  code : Code
  chainFault : Bool
  table : List CategoryEntry
  deriving DecidableEq, Repr

/-- Visit the entry of a code that is present, with `n` more visits allowed after it (R41, R42). -/
def visitFrom : Nat → Code → List CategoryEntry → Resolution
  | n, code, table =>
    let raised := raiseUse code table
    let fault : Resolution := { code := 0#8, chainFault := true, table := raiseUse 0#8 raised }
    match (lookupCode table code).map CategoryEntry.kind with
    | some (.link target) =>
      if (lookupCode table target).isSome then
        match n with
        | 0 => fault
        | m + 1 => visitFrom m target raised
      else fault
    | _ => { code := code, chainFault := false, table := raised }

/-- Resolution of a code: from its entry, or from entry 0 when it has none (R41). -/
def resolveCode (code : Code) (table : List CategoryEntry) : Resolution :=
  visitFrom (Config.maxVisits - 1) (if (lookupCode table code).isSome then code else 0#8) table

/-- The plan fields of the entry of a code (R43). -/
def planOf (code : Code) (table : List CategoryEntry) : Option PlanFields :=
  match (lookupCode table code).map CategoryEntry.kind with
  | some (.plan p) => some p
  | _ => none

/-! ## Bays at planning -/

/-- The bay's record qualifies for a piece: EMPTY, or FILLING with its lot and plan code and below its
target (R127). -/
def bayQualifies (lot : Lot) (planCode : Code) (y : Bay) : Bool :=
  decide (y.state = .empty)
    || (decide (y.state = .filling) && decide (y.lot = some lot) && decide (y.planCode = some planCode)
      && decide (y.landed + y.reserved < y.target.getD 0))

/-- The first bay of the allowed set that is not late and qualifies (R127). -/
def chooseBay (s : State) (plan : PlanFields) (lot : Lot) (planCode : Code) (openDue : BayNo → Pos)
    (pNow : Pos) : Option BayNo :=
  BayNo.all.find? fun b =>
    isConfigured s b && plan.allowed.get b && !isLate s.settings (openDue b) pNow
      && bayQualifies lot planCode (s.bays.get b)

/-- An EMPTY bay that is chosen is claimed for the piece (R128). -/
def claimBay (b : BayNo) (lot : Lot) (planCode : Code) (target : Nat) (s : State) : State :=
  let y := s.bays.get b
  if y.state = .empty then
    putBay b
      { y with
        state := .filling
        lot := some lot
        planCode := some planCode
        target := some target
        landed := 0
        reason := none
        stackQueued := false } s
  else s

/-- The chosen bay's reserved count goes up; at the target the bay enters CLOSING (R129). -/
def reserveBay (b : BayNo) (s : State) : State :=
  let y := s.bays.get b
  if y.target = some (y.landed + y.reserved + 1) then
    putBay b { y with reserved := y.reserved + 1, state := .closing, reason := some .target } s
  else putBay b { y with reserved := y.reserved + 1 } s

/-! ## The stages -/

/-- A piece in planning: its identity, its belt fields, and the plan it resolved to. -/
structure Work where
  piece : Piece
  info : BeltInfo
  plan : Option PlanFields
  deriving DecidableEq, Repr

/-- The measured length of the piece in pulses (R71). -/
def Work.lp (w : Work) : Nat := w.info.lengthP.getD 0

/-- The measured length of the piece in mm (R71). -/
def Work.lmm (w : Work) : Nat := w.info.lengthMm.getD 0

/-- The fold offset: 0 for a piece handled unfolded (R99). -/
def Work.offset (w : Work) : Nat := (w.info.fold.map Fold.offset).getD 0

/-- P_now of the piece (R95). -/
def Work.pNow (w : Work) (c : Settings) : Pos := planningPos c (w.info.pTrail.getD 0#32)

/-- The piece with a reject reason, the first found standing (R77). -/
def Work.reject (w : Work) (r : RejectReason) : Work :=
  if w.info.rejectReason.isSome then w else { w with info := { w.info with rejectReason := some r } }

/-- Stage 1: L_p and L_mm (R71). -/
def stageMeasure (c : Settings) (w : Work) : Work :=
  let lp := measuredLength (w.info.pTrail.getD 0#32) w.info.pLead
  { w with info := { w.info with lengthP := some lp, lengthMm := some (toMm c.k lp) } }

/-- The candidate of a skip-ahead: the oldest unseen record (R64). -/
def oldestUnseen (tracks : List Record) : Option Record := tracks.find? isUnseen

/-- The records between the matched record and the oldest unseen one hold a MARKER (R64). -/
def markerBetween (n : LocalNo) (tracks : List Record) : Bool :=
  ((tracks.takeWhile fun r => !isUnseen r).dropWhile fun r => !hasLocal n r).any isMarker

/-- The candidate that qualifies for skip-ahead: ANNOUNCED, its announced length greater than 0 and in
agreement, no MARKER between (R64). -/
def skipCandidate (c : Settings) (n : LocalNo) (lmm : Nat) (tracks : List Record) : Option Piece :=
  match oldestUnseen tracks with
  | some (.piece p) =>
    match p.stage, p.announcedLen with
    | .announced _, some a =>
      if 0 < a ∧ disagrees c.tol lmm a = false ∧ markerBetween n tracks = false then some p else none
    | _, _ => none
  | _ => none

/-- Skip-ahead: the record takes the candidate's identity, GHOST counts for the identity given up and
SKIP_AHEAD for the one taken, the candidate leaves the list (R65). -/
def skipAhead (cand : Piece) (w : Work) (s : State) : Work × State :=
  let w' := { w with
    piece := { w.piece with
      seq := cand.seq, lot := cand.lot, code := cand.code, announcedLen := cand.announcedLen,
      flags := cand.flags } }
  let s1 := setTracks (s.tracks.eraseP isUnseen) s
  let s2 := countPiece .ghost w.piece.lot w.piece.code s1
  (w', lookAtHead (countPiece .skipAhead cand.lot cand.code s2))

/-- Stage 2: the announced length is judged (R64, R72). -/
def stageJudge (w : Work) (s : State) : Work × State :=
  match w.piece.announcedLen with
  | none => (w, s)
  | some a =>
    if a = 0 then (w, s)
    else if isDouble s.settings.tol w.lmm a then (w.reject .double, s)
    else if disagrees s.settings.tol w.lmm a then
      match skipCandidate s.settings w.info.localNo w.lmm s.tracks with
      | some cand => skipAhead cand w s
      | none =>
        ({ w with info := { w.info with disagree := true } },
          countPiece .lengthDisagree w.piece.lot w.piece.code s)
    else (w, s)

/-- Stage 3: an upstream REJECT rejects, any other piece is resolved (R41 to R43, R73). -/
def stageResolve (w : Work) (s : State) : Work × State :=
  if w.piece.flags.reject then (w.reject .upstreamReject, s)
  else
    let r := resolveCode w.piece.code s.table
    let s1 := { s with table := r.table }
    ({ w with info := { w.info with planCode := some r.code }, plan := planOf r.code r.table },
      if r.chainFault then countPiece .chainFault w.piece.lot w.piece.code s1 else s1)

/-- Stage 4: the length range of the plan (R74, R107). -/
def stageRange (w : Work) : Work :=
  match w.plan with
  | none => w
  | some p =>
    if w.lmm < p.minLen then w.reject .short
    else if p.maxLen < w.lmm then w.reject .long
    else w

/-- Stage 5: the fold, its late test and the jet guard (R75, R99, R100, R114). -/
def stageFold (w : Work) (s : State) : Work × State :=
  match w.plan.bind PlanFields.fold with
  | none => (w, s)
  | some f =>
    if w.info.rejectReason.isSome then (w, s)
    else
      let a := foldOffset f.fraction w.lp
      let due := jetDue s.settings s.belt.v f.jet w.info.pLead a
      if isLate s.settings due (w.pNow s.settings) then
        (w.reject .late, countPiece .late w.piece.lot w.piece.code s)
      else if guardRefuses f.jet due s then
        (w.reject .jetBusy, countPiece .jetBusy w.piece.lot w.piece.code s)
      else ({ w with info := { w.info with fold := some { jet := f.jet, offset := a, due := due } } }, s)

/-- The route of a rejected piece: REJECT where a reject gate is present, EXIT otherwise (R76). -/
def rejectRoute (c : Settings) : Route := if c.reject = 0 then .exit else .reject

/-- The piece takes a route. -/
def Work.routed (w : Work) (r : Route) : Work := { w with info := { w.info with route := some r } }

/-- No bay takes the piece: the plan's alternate (R77). -/
def alternateRoute (c : Settings) (alt : Alternate) (w : Work) : Work :=
  if alt = .pass ∧ c.downstream ≠ 0 then w.routed .exit
  else (w.reject .noRoute).routed (rejectRoute c)

/-- The bay gate's open due for the piece (R103). -/
def Work.openDue (w : Work) (c : Settings) (v : Nat) (g : Gate) : Pos :=
  gateOpenDue c v g w.info.pLead w.offset

/-- Stage 6: the route (R76, R77). A piece without a plan carries a reject reason by stage 3 (R73). -/
def stageRoute (w : Work) (s : State) : Work × State :=
  if w.info.rejectReason.isSome then (w.routed (rejectRoute s.settings), s)
  else
    match w.plan with
    | none => (alternateRoute s.settings .reject w, s)
    | some plan =>
      let planCode := w.info.planCode.getD 0#8
      match chooseBay s plan w.piece.lot planCode (fun b => w.openDue s.settings s.belt.v (.bay b))
          (w.pNow s.settings) with
      | some b =>
        (w.routed (.bay b), reserveBay b (claimBay b w.piece.lot planCode plan.target s))
      | none => (alternateRoute s.settings plan.alternate w, s)

/-- The exit length of the piece (R101). -/
def Work.lx (w : Work) : Nat := exitLengthOf w.info.fold.isSome w.offset w.lp

/-- Stage 7, what is written into the record: L_x and E_x (R78, R101). -/
def stageExit (c : Settings) (w : Work) : Work :=
  { w with info := { w.info with
      exitLength := some w.lx, exitPos := some (exitPosOf c w.info.pLead w.offset) } }

/-- The open due of the reject gate: P_now when it is late (R105). -/
def rejectOpenDue (w : Work) (s : State) : Pos :=
  let due := w.openDue s.settings s.belt.v .reject
  if isLate s.settings due (w.pNow s.settings) then w.pNow s.settings else due

/-- The gate entries of a piece, with its close due (R106, R113, R116). -/
def planGate (g : Gate) (openDue : Pos) (w : Work) (s : State) : State :=
  insertGate g openDue
    (gateCloseDue s.settings g w.info.pLead w.offset w.lx openDue s.belt.position) w.info.localNo s

/-- Stages 7 and 8: the dues of the route and the insertion of the entries, the JET_FIRE first (R78,
R79, R113). -/
def stageInsert (w : Work) (s : State) : State :=
  let s1 :=
    match w.info.fold with
    | some f => addEntry (.jetFire f.jet) f.due [w.info.localNo] s
    | none => s
  match w.info.route with
  | some (.bay b) => planGate (.bay b) (w.openDue s.settings s.belt.v (.bay b)) w s1
  | some .reject => planGate .reject (rejectOpenDue w s) w s1
  | some .exit =>
    addEntry .exitCheck
      (exitCheckDue s.settings (exitPosOf s.settings w.info.pLead w.offset) (w.pNow s.settings))
      [w.info.localNo] s1
  | none => s1

/-- The planned piece as an ON_BELT record. -/
def Work.record (w : Work) : Record := .piece { w.piece with stage := .onBelt w.info }

/-- The eight stages on the piece under measurement, its record written back in its place (R70). -/
def planStages (w0 : Work) (s0 : State) : State :=
  let w1 := stageMeasure s0.settings w0
  let (w2, s2) := stageJudge w1 s0
  let (w3, s3) := stageResolve w2 s2
  let w4 := stageRange w3
  let (w5, s5) := stageFold w4 s3
  let (w6, s6) := stageRoute w5 s5
  let w7 := stageExit s6.settings w6
  let s8 := stageInsert w7 s6
  setTracks (updateLocal w7.info.localNo (fun _ _ => w7.record) s8.tracks) s8

/-- The piece under measurement: the newest ON_BELT record whose P_trail is absent (R63). -/
def underMeasurement (tracks : List Record) : Option (Piece × BeltInfo) :=
  ((tracks.filterMap beltOf).filter fun x => x.2.pTrail.isNone).getLast?

/-- An entry confirmation handed on: P_trail is written and the planner runs; with no piece under
measurement it is discarded (R63, R70). -/
def planPiece (pTrail : Pos) (s : State) : State :=
  match underMeasurement s.tracks with
  | none => s
  | some (p, i) => planStages { piece := p, info := { i with pTrail := some pTrail }, plan := none } s

/-! ## Arrival -/

/-- The first local piece number from `n` on that no ON_BELT record holds (R59). -/
def freeLocal : Nat → LocalNo → List Record → LocalNo
  | 0, n, _ => n
  | k + 1, n, tracks => if tracks.any (hasLocal n) then freeLocal k (n + 1#8) tracks else n

/-- The belt fields of a piece at its arrival (R60, R61, R69). -/
def arrivedInfo (n : LocalNo) (pLead : Pos) (orphan : Bool) : BeltInfo :=
  { localNo := n, pLead := pLead, pTrail := none, lengthP := none, lengthMm := none, planCode := none,
    fold := none, route := none, rejectReason := none, orphan := orphan, disagree := false,
    exitLength := none, exitPos := none, exitSeen := false }

/-- The oldest unseen record becomes ON_BELT in its place (R60). -/
def pairFirst (i : BeltInfo) : List Record → List Record
  | [] => []
  | .piece p :: rest =>
    if isUnseen (.piece p) then .piece { p with stage := .onBelt i } :: rest
    else .piece p :: pairFirst i rest
  | .marker q l :: rest => .marker q l :: pairFirst i rest

/-- The record of an orphan (R61). -/
def orphanRecord (i : BeltInfo) : Record :=
  .piece { seq := none, lot := 0#16, code := 0#8, announcedLen := none, flags := noFlags,
           stage := .onBelt i }

/-- The oldest unseen record, if there is one, is consumed without a count; the list looks at its head
(R62, R66). -/
def consumeOldest (s : State) : State :=
  if s.tracks.any isUnseen then lookAtHead (setTracks (s.tracks.eraseP isUnseen) s) else s

/-- The piece at the entry eye has no record (R26). -/
def markUntracked (s : State) : State := { s with eyes := { s.eyes with untracked := true } }

/-- An arrival that is an overrun: the oldest unseen record is consumed, OVERRUN counts, the piece is
untracked, the reason OVERRUN is asked for (R27, R62). -/
def overrun (s : State) : State :=
  addReason .overrun (markUntracked (countOverrun (consumeOldest s)))

/-- An arrival with P_lead: paired, an orphan, or an overrun (R59 to R62). -/
def arrive (pLead : Pos) (s : State) : State :=
  let n := freeLocal 256 s.nextLocal s.tracks
  if Config.maxOnBelt ≤ onBeltCount s.tracks then overrun s
  else if s.tracks.any isUnseen then
    evalPace (countEntered
      { s with tracks := pairFirst (arrivedInfo n pLead false) s.tracks, nextLocal := n + 1#8 })
  else if Config.maxRecords ≤ s.tracks.length then overrun s
  else
    evalPace (countPiece .orphan 0#16 0#8 (countEntered
      { s with tracks := s.tracks ++ [orphanRecord (arrivedInfo n pLead true)], nextLocal := n + 1#8 }))

end Sys2Proof.Machine
end

