-- ==== Sys2Proof/Machine/Eyes.lean ====
section
/-! DEFINITION. The eye channels (Chapter 2): raw changes, recognised edges, confirmation, jams, the
judgement at the exit eye; the meanings of EYE_RAW_CHANGE and EDGE_RECOGNITION. -/

namespace Sys2Proof.Machine

/-- The channel of an eye. -/
def eyeOf (e : Eye) (s : State) : EyeChannel :=
  match e with
  | .entry => s.eyes.entry
  | .exit => s.eyes.exit

/-- Replace the channel of an eye. -/
def putEye (e : Eye) (ch : EyeChannel) (s : State) : State :=
  match e with
  | .entry => { s with eyes := { s.eyes with entry := ch } }
  | .exit => { s with eyes := { s.eyes with exit := ch } }

/-- Two filter periods of an eye, in ms (R19). -/
def eyeFilter (e : Eye) (c : Settings) : Nat :=
  match e with
  | .entry => c.entryFilter
  | .exit => c.exitFilter

/-- The channel after its raw input has gone to a level: a change away from the debounced level latches
the position and starts the filter, a return discards the pending change (R19). -/
def rawChanged (level : EyeLevel) (position : Pos) (filter : Nat) (ch : EyeChannel) : EyeChannel :=
  let ch1 := { ch with raw := level }
  if level = ch.level then { ch1 with pendingEdge := none }
  else if ch.pendingEdge.isSome then ch1
  else { ch1 with pendingEdge := some { level := level, latched := position, timer := filter } }

/-- EYE_RAW_CHANGE. In LOADING and FAULT the change is not taken: only the pin moves (R18, R19). -/
def execEyeRawChange (e : Eye) (level : EyeLevel) (s : State) : Host.Outcome State Fault Refusal :=
  let ch := eyeOf e s
  if ch.raw = level then .next s
  else if isActive s then
    .next (putEye e (rawChanged level s.belt.position (eyeFilter e s.settings) ch) s)
  else .next (putEye e { ch with raw := level } s)

/-- The jam key: covered-since + p(jam length) + 1 (R24). -/
def jamKey (c : Settings) (since : Pos) : Pos := posAdd since (c.jamLength + 1)

/-- The own stop reason an eye's jam asks for (R24). -/
def jamReason : Eye → StopReason
  | .entry => .jamEntry
  | .exit => .jamExit

/-- The channel makes its jam request when the eye is COVERED, the key is reached and no request was
made for this piece (R24). -/
def testJam (e : Eye) (s : State) : State :=
  let ch := eyeOf e s
  match ch.coveredSince with
  | none => s
  | some since =>
    if ch.level = .covered ∧ ch.jamRequested = false ∧
        reached s.belt.position (jamKey s.settings since) = true then
      addReason (jamReason e) (putEye e { ch with jamRequested := true } s)
    else s

/-- A piece a leading edge at the exit eye may belong to: ON_BELT, route EXIT, not seen (R29). -/
def isExitCandidate (x : Piece × BeltInfo) : Bool :=
  decide (x.2.route = some .exit) && !x.2.exitSeen

/-- The oldest candidate at the exit eye (R29). -/
def exitCandidate (tracks : List Record) : Option BeltInfo :=
  ((tracks.filterMap beltOf).find? isExitCandidate).map Prod.snd

/-- The edge lies within the exit tolerance of E_x (R29). -/
def withinTolerance (c : Settings) (q ex : Pos) : Bool := decide ((posDiff q ex).natAbs ≤ c.exitTol)

/-- The schedule without the EXIT_CHECK of a piece (R29, R122). -/
def withoutExitCheck (n : LocalNo) (schedule : List SchedEntry) : List SchedEntry :=
  schedule.filter fun e => !(decide (e.action = .exitCheck) && e.pieces.contains n)

/-- The piece's exit seen field is set (R29). -/
def markSeen (p : Piece) (i : BeltInfo) : Record :=
  .piece { p with stage := .onBelt { i with exitSeen := true } }

/-- An edge that belongs to no piece: STRAY (R29). -/
def strayEdge (s : State) : State :=
  countLine .stray 1 { s with eyes := { s.eyes with exitOwner := some .ignored } }

/-- A leading edge at the exit eye, latched at `q`, is judged (R29). -/
def judgeExit (q : Pos) (s : State) : State :=
  match exitCandidate s.tracks with
  | none => strayEdge s
  | some i =>
    if withinTolerance s.settings q (i.exitPos.getD 0#32) then
      { s with
        tracks := updateLocal i.localNo markSeen s.tracks
        schedule := withoutExitCheck i.localNo s.schedule
        eyes := { s.eyes with exitOwner := some (.piece i.localNo) } }
    else strayEdge s

/-- The report of a leading edge that begins a new piece at an eye (R21, R27, R29). -/
def reportLeading (e : Eye) (q : Pos) (s : State) : State :=
  match e with
  | .entry => arrive q s
  | .exit => judgeExit q s

/-- A recognised leading edge: a hole merge when a trailing edge is merge-pending, a new piece
otherwise (R21); a merge makes a jam request whose key already lies behind (R24; log 25). -/
def leadingEdge (e : Eye) (q : Pos) (s : State) : State :=
  let ch := eyeOf e s
  if ch.mergePending.isSome then testJam e (putEye e { ch with mergePending := none } s)
  else reportLeading e q (putEye e { ch with coveredSince := some q } s)

/-- The pending change of an eye is recognised (R20 to R22). -/
def recogniseEdge (e : Eye) (p : PendingEdge) (s : State) : State :=
  let ch := { eyeOf e s with level := p.level, pendingEdge := none }
  match p.level with
  | .covered => leadingEdge e p.latched (putEye e ch s)
  | .clear => putEye e { ch with mergePending := some p.latched } s

/-- EDGE_RECOGNITION: the filter timer expires. With no change pending no timer runs and nothing
happens (R20). -/
def execEdgeRecognition (e : Eye) (s : State) : Host.Outcome State Fault Refusal :=
  match (eyeOf e s).pendingEdge with
  | none => .next s
  | some p => if isActive s then .next (recogniseEdge e p s) else .next s

/-- The report of a confirmed entry trailing edge: handed to the track list and the planner unless the
piece is untracked (R28). -/
def confirmEntry (pt : Pos) (s : State) : State :=
  if s.eyes.untracked then { s with eyes := { s.eyes with untracked := false } } else planPiece pt s

/-- Replace the exit owner. -/
def setOwner (owner : Option ExitOwner) (s : State) : State :=
  { s with eyes := { s.eyes with exitOwner := owner } }

/-- The piece that owns the covering is passed; for IGNORED nothing is handed on (R32). -/
def passOwned (s : State) : State :=
  match s.eyes.exitOwner with
  | some (.piece n) => passPiece n s
  | some .ignored => s
  | none => s

/-- The report of a confirmed exit trailing edge: an owned piece is passed; the owner becomes absent
(R32). -/
def confirmExit (s : State) : State := setOwner none (passOwned s)

/-- The channel once its trailing edge is confirmed (R23, R24). -/
def confirmedChannel (ch : EyeChannel) : EyeChannel :=
  { ch with mergePending := none, coveredSince := none, jamRequested := false }

/-- The confirmation key P_t + p(merge gap) (R22). -/
def confirmKey (c : Settings) (pt : Pos) : Pos := posAdd pt c.mergeGap

/-- The report of a confirmed trailing edge of an eye (R23). -/
def reportConfirmed (e : Eye) (pt : Pos) (s : State) : State :=
  match e with
  | .entry => confirmEntry pt s
  | .exit => confirmExit s

/-- A channel's confirmation key at an encoder pulse (R23). -/
def testConfirm (e : Eye) (s : State) : State :=
  let ch := eyeOf e s
  match ch.mergePending with
  | none => s
  | some pt =>
    if reached s.belt.position (confirmKey s.settings pt) then
      reportConfirmed e pt (putEye e (confirmedChannel ch) s)
    else s

/-- A channel's keys at an encoder pulse: confirmation and jam (R23, R24). -/
def testEyeKeys (e : Eye) (s : State) : State := testJam e (testConfirm e s)

/-- The eye channels at a purge (R31). -/
def purgeEyes (x : Eyes) : Eyes :=
  { x with
    untracked := x.untracked || decide (x.entry.level = .covered) || x.entry.mergePending.isSome
    exitOwner :=
      match x.exitOwner with
      | some (.piece _) => some .ignored
      | some .ignored => some .ignored
      | none => none }

end Sys2Proof.Machine
end

