-- ==== Sys2Proof/Machine/Belt.lean ====
section
/-! DEFINITION. The belt position unit (Chapter 1): the meanings of ENCODER_PULSE and WINDOW_END. -/

namespace Sys2Proof.Machine

/-- A pulse adds one to the belt position and to the window count, which holds at 4,095 (R1, R5). -/
def countPulse (u : BeltUnit) : BeltUnit :=
  let u1 := { u with position := u.position + 1#32 }
  if Config.maxCount ≤ u.windowCount then { u1 with windowSaturated := true }
  else { u1 with windowCount := u.windowCount + 1 }

/-- Entries stored at the pulse before may fire from this pulse on (R2; log 8). -/
def ageEntries (schedule : List SchedEntry) : List SchedEntry :=
  schedule.map fun e => { e with fresh := false }

/-- The pulse is counted; the free choice of its order is used up (R1, R5; log 7). -/
def advancePulse (s : State) : State :=
  { s with
    belt := countPulse s.belt
    schedule := ageEntries s.schedule
    openCount := s.openCount + 1 }

/-- The three units that hold position keys, in one of the orders (R2, R70, R117). -/
def reachKeys (o : PulseOrder) (s : State) : State :=
  match o with
  | .nxs => fireSchedule (testEyeKeys .exit (testEyeKeys .entry s))
  | .nsx => testEyeKeys .exit (fireSchedule (testEyeKeys .entry s))
  | .xns => fireSchedule (testEyeKeys .entry (testEyeKeys .exit s))
  | .xsn => testEyeKeys .entry (fireSchedule (testEyeKeys .exit s))
  | .snx => testEyeKeys .exit (testEyeKeys .entry (fireSchedule s))
  | .sxn => testEyeKeys .entry (testEyeKeys .exit (fireSchedule s))

/-- An encoder pulse in ACTIVE with the units taken in a given order. -/
def pulseInOrder (o : PulseOrder) (s : State) : State := reachKeys o (advancePulse s)

/-- ENCODER_PULSE; in LOADING and FAULT pulses are not counted (R1). The order of the units is the free
value of log 7. -/
def execEncoderPulse (s : State) : Host.Outcome State Fault Refusal :=
  if isActive s then .next (pulseInOrder (Config.pulseOrder s.openCount) s) else .next s

/-- The window count becomes v, its flag the speed-saturated flag, and the next window begins (R6). -/
def closeWindow (u : BeltUnit) : BeltUnit :=
  { u with
    v := u.windowCount
    speedSaturated := u.windowSaturated
    windowCount := 0
    windowSaturated := false }

/-- v lies above the effective high threshold, or the window saturated (R8). -/
def overSpeed (c : Settings) (u : BeltUnit) : Bool :=
  decide (effectiveHigh c < u.v) || u.speedSaturated

/-- The high alarm at a window end: the crossing while armed, the rearm run while disarmed (R8, R9). -/
def highAlarm (c : Settings) (u : BeltUnit) : BeltUnit :=
  if u.highArmed then
    if overSpeed c u then { u with speedHigh := true, highArmed := false, highRearm := 0 } else u
  else if overSpeed c u then { u with highRearm := 0 }
  else if Config.rearmRun ≤ u.highRearm + 1 then
    { u with highArmed := true, speedHigh := false, highRearm := 0 }
  else { u with highRearm := u.highRearm + 1 }

/-- The low test finds a stall: output on, grace spent, armed, v below the low threshold (R10, R11). -/
def findsStall (c : Settings) (u : BeltUnit) : Bool :=
  u.run && decide (u.grace = 0) && u.lowArmed && decide (u.v < c.lowThreshold)

/-- The stall grace at a window end: it goes down by one while the output is on (R10). -/
def spendGrace (u : BeltUnit) : BeltUnit := if u.run then { u with grace := u.grace - 1 } else u

/-- Replace the belt position unit. -/
def setBelt (u : BeltUnit) (s : State) : State := { s with belt := u }

/-- A stall disarms the low threshold and asks for STALL (R11). -/
def stallTest (s : State) : State :=
  if findsStall s.settings s.belt then
    addReason .stall (setBelt { s.belt with lowArmed := false, lowRearm := 0 } s)
  else setBelt (spendGrace s.belt) s

/-- The rearm run of the low threshold, while disarmed (R12). -/
def lowRearmRun (c : Settings) (u : BeltUnit) : BeltUnit :=
  if u.lowArmed then u
  else if u.v < c.lowThreshold then { u with lowRearm := 0 }
  else if Config.rearmRun ≤ u.lowRearm + 1 then { u with lowArmed := true, lowRearm := 0 }
  else { u with lowRearm := u.lowRearm + 1 }

/-- A window end: v, the high alarm and the lamp, the stall detector, the rearm run, in that order
(R6, R12, R179). -/
def windowEnd (s : State) : State :=
  let s1 := followLamp (setBelt (highAlarm s.settings (closeWindow s.belt)) s)
  let s2 := stallTest s1
  setBelt (lowRearmRun s2.settings s2.belt) s2

/-- WINDOW_END; in LOADING and FAULT the window timer does not run (R5). -/
def execWindowEnd (s : State) : Host.Outcome State Fault Refusal :=
  if isActive s then .next (windowEnd s) else .next s

end Sys2Proof.Machine
end

