-- ==== Sys2Proof/Machine/Tracks.lean ====
section
/-! DEFINITION. Windows and admission of the track list (Chapter 4): the meanings of TIME_BASE_TICK and
GHOST, and the sequence check an accepted ANNOUNCE or LOT_END runs through. -/

namespace Sys2Proof.Machine

/-- A window goes down by 1; only unseen records have one (R57). -/
def lowerWindow (r : Record) : Record :=
  match r with
  | .piece p => match p.stage with
    | .announced w => .piece { p with stage := .announced (w - 1) }
    | .placeholder w => .piece { p with stage := .placeholder (w - 1) }
    | .onBelt _ => r
  | .marker _ _ => r

/-- An unseen record whose window remaining is 0 (R58). -/
def hasRunOut (r : Record) : Bool :=
  match r with
  | .piece p => match p.stage with
    | .announced w => decide (w = 0)
    | .placeholder w => decide (w = 0)
    | .onBelt _ => false
  | .marker _ _ => false

/-- The oldest record that has run out is removed and counted GHOST with its lot and code; the list
looks at its head (R58, R66). -/
def ghostOldest (s : State) : State :=
  match s.tracks.find? hasRunOut with
  | some (.piece p) =>
    lookAtHead (countPiece .ghost p.lot p.code (setTracks (s.tracks.eraseP hasRunOut) s))
  | _ => s

/-- Every record that has run out is removed and counted, the oldest first, at most `n` (R58; log 11). -/
def ghostAll : Nat → State → State
  | 0, s => s
  | n + 1, s => if s.tracks.any hasRunOut then ghostAll n (ghostOldest s) else s

/-- A tick with the output on: windows go down, and those that reach 0 run out at the tick (R57,
R58). -/
def tickWindows (s : State) : State :=
  ghostAll s.tracks.length (setTracks (s.tracks.map lowerWindow) s)

/-- TIME_BASE_TICK: windows hold while the belt-run output is off (R57; log 10). -/
def execTimeBaseTick (s : State) : Host.Outcome State Fault Refusal :=
  if isActive s = true ∧ s.belt.run = true then .next (tickWindows s) else .next s

/-- GHOST: the running out of the oldest record whose window stands at 0 (R58; log 10). -/
def execGhost (s : State) : Host.Outcome State Fault Refusal :=
  if isActive s then .next (ghostOldest s) else .next s

/-- Append one record, or drop it and count EXPECT_OVERFLOW when the list holds 24 (R56). -/
def appendRecord (r : Record) (s : State) : State :=
  if s.tracks.length < Config.maxRecords then { s with tracks := s.tracks ++ [r] }
  else countLine .expectOverflow 1 s

/-- The record that stands in for a missed frame (R54). -/
def placeholderOf (c : Settings) (seq : Seq) : Record :=
  .piece { seq := some seq, lot := 0#16, code := 0#8, announcedLen := none, flags := noFlags,
           stage := .placeholder c.transferWindow }

/-- Append `n` placeholders with the seqs from `seq` on (R54, R56). -/
def appendPlaceholders : Nat → Seq → State → State
  | 0, _, s => s
  | n + 1, seq, s => appendPlaceholders n (seq + 1#8) (appendRecord (placeholderOf s.settings seq) s)

/-- d: the received seq minus the expected one, modulo 256; 0 when none is expected (R54). -/
def seqStep (received : Seq) (expected : Option Seq) : Nat :=
  match expected with
  | none => 0
  | some e => (received - e).toNat

/-- The record of a frame is appended behind the stand-ins the sequence check calls for, and the
expected seq moves on (R54, R56). -/
def appendChecked (received : Seq) (r : Record) (s : State) : State :=
  let d := seqStep received s.link.expectedSeq
  let s1 := { s with link := { s.link with expectedSeq := some (received + 1#8) } }
  if d = 0 then appendRecord r s1
  else if d ≤ Config.maxGap then
    appendRecord r (appendPlaceholders d (received - BitVec.ofNat 8 d) (countLine .seqGap d s1))
  else appendRecord r (countLine .syncLoss 1 s1)

/-- One admission from upstream: a repeat (d = 255) is discarded, any other frame is appended under the
sequence check, and the list looks at its head (R54, R66). -/
def takeHandover (received : Seq) (r : Record) (s : State) : State :=
  if seqStep received s.link.expectedSeq = 255 then s else lookAtHead (appendChecked received r s)

/-- The ANNOUNCED record an ANNOUNCE makes (R52). -/
def announcedRecord (c : Settings) (seq : Seq) (lot : Lot) (code : Code) (length : BitVec 16)
    (flags : Byte) : Record :=
  .piece { seq := some seq, lot := lot, code := code, announcedLen := some length.toNat,
           flags := flagsOfByte flags, stage := .announced c.transferWindow }

end Sys2Proof.Machine
end

