-- ==== Sys2Proof/Machine/LineLink.lean ====
section
/-! DEFINITION. The Line Link (Chapter 10; R150, R151, R155): acceptance of frames, the tally exchange,
transmission; the meanings of the frame commands and of TRANSMIT_START, ARBITRATION_LOST, BIT_ERROR,
FRAME_SENT and LINE_IDLE. -/

namespace Sys2Proof.Machine

/-! ## What an accepted frame does -/

/-- A STOP frame adds its sender to the others' stop set (R150). -/
def takeStop (sender : Nat) (s : State) : State :=
  setStops { s.stops with others := insertStation sender s.stops.others } s

/-- A RUN frame removes its sender from the others' stop set (R150). -/
def takeRun (sender : Nat) (s : State) : State :=
  setStops { s.stops with others := removeStation sender s.stops.others } s

/-- A START from the upstream peer: the expected seq becomes absent, and a pace_out that is not 0 is
queued again (R55, R151, R157). -/
def upstreamRestart (s : State) : State :=
  let s1 := { s with link := { s.link with expectedSeq := none } }
  if s.pace.paceOut = 0 then s1 else askFrame (.pace (BitVec.ofNat 16 s.pace.paceOut)) s1

/-- A START frame (R151). -/
def takeStart (sender : Nat) (s : State) : State :=
  let s1 := takeRun sender s
  let s2 := if sender = s.settings.upstream then upstreamRestart s1 else s1
  if sender = s.settings.downstream then setPaceIn 0 s2 else s2

/-- A reading of the tally exchange (R171). -/
structure Reading where
  value : BitVec 32
  absent : Bool
  saturated : Bool
  stackQueued : Bool
  deriving DecidableEq, Repr

/-- An absent reading: value 0 (R171). -/
def absentReading : Reading := ⟨0#32, true, false, false⟩

/-- The twelve fixed counts in index order (R173). -/
def countList (c : FixedCounts) : List (BitVec 32) :=
  [c.entered, c.passed, c.stacked, c.rejected, c.lost, c.purged, c.orphan, c.ghost, c.overrun, c.stray,
    c.linkCheck, c.linkDrop]

/-- Item 1, FATE/EVENT (R171). -/
def readCount (index : Nat) (s : State) : Reading :=
  match (countList s.tally.counts)[index]? with
  | some x => ⟨x, false, false, false⟩
  | none => absentReading

/-- The current value of a counter (R171). -/
def readValue (c : Counter) : Reading := ⟨BitVec.ofNat 32 c.value, false, c.saturated, false⟩

/-- The latched value of a counter (R171). -/
def readLatch (c : Counter) : Reading :=
  match c.latch with
  | some l => ⟨BitVec.ofNat 32 l.value, false, l.saturated, false⟩
  | none => absentReading

/-- The latched lot of a counter (R171). -/
def readLatchLot (c : Counter) : Reading :=
  match c.latch with
  | some l => ⟨BitVec.ofNat 32 l.lot.toNat, false, false, false⟩
  | none => absentReading

/-- Item 2, TALLY: values at 0 to 3, latches at 4 to 7, latched lots at 8 to 11 (R171). -/
def readCounterItem (index : Nat) (s : State) : Reading :=
  match s.tally.counters[index % 4]?, index / 4 with
  | some c, 0 => readValue c
  | some c, 1 => readLatch c
  | some c, 2 => readLatchLot c
  | _, _ => absentReading

/-- Item 3, CATEGORY: the use count of the entry of a code (R45, R171). -/
def readCategory (code : Code) (s : State) : Reading :=
  match lookupCode s.table code with
  | some e => ⟨BitVec.ofNat 32 e.uses, false, false, false⟩
  | none => absentReading

/-- The number of a bay state in a BAY reading (R171). -/
def stateNumber : BayState → Nat
  | .empty => 0
  | .filling => 1
  | .closing => 2
  | .discharging => 3
  | .blocked => 4

/-- The bay of a number, if there is one. -/
def bayOfNumber : Nat → Option BayNo
  | 1 => some .b1
  | 2 => some .b2
  | 3 => some .b3
  | 4 => some .b4
  | _ => none

/-- The value of a BAY reading: state, landed, reserved, close reason, one byte each (R171). -/
def bayValue (y : Bay) : BitVec 32 :=
  BitVec.ofNat 8 (stateNumber y.state) ++ BitVec.ofNat 8 y.landed ++ BitVec.ofNat 8 y.reserved ++
    BitVec.ofNat 8 ((y.reason.map closeNumber).getD 0)

/-- Item 4, BAY: absent beyond the bay count (R145, R171). -/
def readBay (index : Nat) (s : State) : Reading :=
  match bayOfNumber index with
  | some b =>
    if isConfigured s b then ⟨bayValue (s.bays.get b), false, false, (s.bays.get b).stackQueued⟩
    else absentReading
  | none => absentReading

/-- The reading an item and index name; any other item is absent (R170, R171). -/
def readItem (item index : Byte) (s : State) : Reading :=
  match item.toNat with
  | 1 => readCount index.toNat s
  | 2 => readCounterItem index.toNat s
  | 3 => readCategory index s
  | 4 => readBay index.toNat s
  | _ => absentReading

/-- The TALLY reply to a query (R170, R171). -/
def replyFrame (item index : Byte) (r : Reading) : FrameBody :=
  .tally item index r.value (tallyFlags r.absent r.saturated r.stackQueued)

/-- A query addressed to this station is answered with what stands now (R170). -/
def answerQuery (item index : Byte) (s : State) : State :=
  askFrame (replyFrame item index (readItem item index s)) s

/-! ## Receiving -/

/-- The acceptance filter hands a well-formed frame of another station to the block that owns the
matter, or passes it over (R169). -/
def acceptFrame (sender : Nat) (body : FrameBody) (s : State) : State :=
  match body with
  | .stop _ => takeStop sender s
  | .run => takeRun sender s
  | .start _ _ => takeStart sender s
  | .announce seq lot code len flags =>
    if sender = s.settings.upstream then takeHandover seq (announcedRecord s.settings seq lot code len flags) s
    else s
  | .lotEnd seq lot => if sender = s.settings.upstream then takeHandover seq (.marker seq lot) s else s
  | .pace gap => if sender = s.settings.downstream then setPaceIn gap.toNat s else s
  | .stack _ _ _ _ _ => s
  | .tallyQuery target item index =>
    if target.toNat = s.settings.station then answerQuery item index s else s
  | .tally _ _ _ _ => s

/-- The station takes the line otherwise from now on. -/
def setLine (l : LineView) (s : State) : State := { s with link := { s.link with line := l } }

/-- The station follows a frame from its start bit: it is ACTIVE and took the line as idle, or it lost
arbitration to this frame (R160, R163, R168; log 14). -/
def canFollow (s : State) : Bool :=
  isActive s && (decide (s.link.line = .idle) || decide (s.link.line = .following))

/-- A frame whose four judgements are a matter of its sender alone is received to its end field: sender
0 or 31 is discarded and counted, this station's own number is passed over, any other is offered to the
filter (R168, R169; log 15). The line is then busy until it is seen idle (R160). -/
def receiveFrame (sender : BitVec 5) (body : FrameBody) (s : State) : State :=
  if canFollow s then
    let s1 := setLine .busy s
    if !validSender sender then countLine .linkCheck 1 s1
    else if sender.toNat = s.settings.station then s1
    else acceptFrame sender.toNat body s1
  else s

/-- The bits of a frame are received: discarded and counted LINK_CHECK or LINK_FORMAT, which feed one
count, or taken as the well-formed frame they are (R168, R173). Without a dominant start bit no frame
begins (R160). -/
def receiveBits (bits : List Bool) (s : State) : State :=
  match bits with
  | false :: rest =>
    match judgeBits rest with
    | .wellFormed sender body => receiveFrame sender body s
    | .linkCheck => if canFollow s then countLine .linkCheck 1 (setLine .busy s) else s
    | .linkFormat => if canFollow s then countLine .linkCheck 1 (setLine .busy s) else s
  | _ => s

/-- STOP_FRAME (R150). -/
def execStopFrame (sender : BitVec 5) (reason : Byte) (s : State) : Host.Outcome State Fault Refusal :=
  .next (receiveFrame sender (.stop reason) s)

/-- RUN_FRAME (R150). -/
def execRunFrame (sender : BitVec 5) (s : State) : Host.Outcome State Fault Refusal :=
  .next (receiveFrame sender .run s)

/-- START_FRAME (R151). -/
def execStartFrame (sender : BitVec 5) (up down : Byte) (s : State) :
    Host.Outcome State Fault Refusal :=
  .next (receiveFrame sender (.start up down) s)

/-- ANNOUNCE_FRAME (R52). -/
def execAnnounceFrame (sender : BitVec 5) (seq : Seq) (lot : Lot) (code : Code) (length : BitVec 16)
    (flags : Byte) (s : State) : Host.Outcome State Fault Refusal :=
  .next (receiveFrame sender (.announce seq lot code length flags) s)

/-- LOT_END_FRAME (R53). -/
def execLotEndFrame (sender : BitVec 5) (seq : Seq) (lot : Lot) (s : State) :
    Host.Outcome State Fault Refusal :=
  .next (receiveFrame sender (.lotEnd seq lot) s)

/-- PACE_FRAME (R155). -/
def execPaceFrame (sender : BitVec 5) (gap : BitVec 16) (s : State) : Host.Outcome State Fault Refusal :=
  .next (receiveFrame sender (.pace gap) s)

/-- TALLY_QUERY (R170). -/
def execTallyQuery (sender : BitVec 5) (target item index : Byte) (s : State) :
    Host.Outcome State Fault Refusal :=
  .next (receiveFrame sender (.tallyQuery target item index) s)

/-- FRAME_PASSED_OVER: the filter of R169 decides on the frame as on any other (log 15). -/
def execFramePassedOver (sender : BitVec 5) (body : FrameBody) (s : State) :
    Host.Outcome State Fault Refusal :=
  .next (receiveFrame sender body s)

/-- DAMAGED_FRAME: the judgement of R168 on the bits seen. -/
def execDamagedFrame (bits : List Bool) (s : State) : Host.Outcome State Fault Refusal :=
  .next (receiveBits bits s)

/-! ## Sending -/

/-- TRANSMIT_START: on an idle line the first frame of the queue is sent; it is then in flight
(R163). -/
def execTransmitStart (s : State) : Host.Outcome State Fault Refusal :=
  match s.link.queue with
  | [] => .next s
  | f :: _ =>
    if isActive s = true ∧ s.link.line = .idle then
      .next { s with link := { s.link with inFlight := some f, line := .sending } }
    else .next s

/-- The station stops driving; its frame is no longer in flight and waits in the queue at its place,
unless it was replaced there (R163, R164, R166). -/
def stopSending (l : LineView) (s : State) : State :=
  { s with link := { s.link with inFlight := none, line := l } }

/-- ARBITRATION_LOST: the station goes on as a receiver of the winning frame (R163). -/
def execArbitrationLost (s : State) : Host.Outcome State Fault Refusal :=
  if isActive s = true ∧ s.link.line = .sending then .next (stopSending .following s) else .next s

/-- BIT_ERROR: the frame is abandoned (R164). -/
def execBitError (s : State) : Host.Outcome State Fault Refusal :=
  if isActive s = true ∧ s.link.line = .sending then .next (stopSending .busy s) else .next s

/-- The frame in flight leaves the queue, if it still stands there (R164, R166). -/
def dequeueSent (l : Link) : Link :=
  { l with
    queue :=
      match l.inFlight with
      | some f => removeAge f.age l.queue
      | none => l.queue
    inFlight := none
    line := .busy }

/-- FRAME_SENT: the frame in flight leaves the queue; the pace unit evaluates if it was a kept frame
(R156, R164). -/
def execFrameSent (s : State) : Host.Outcome State Fault Refusal :=
  if isActive s = true ∧ s.link.line = .sending then
    .next (evalIfKeptChanged s { s with link := dequeueSent s.link })
  else .next s

/-- The line has been recessive for 10 bit times: it is idle, and a frame the station still follows is
discarded and counted LINK_CHECK (R160, R168). While the station sends, the line is its own (log 28). -/
def seeIdle (s : State) : State :=
  match s.link.line with
  | .sending => s
  | .following => countLine .linkCheck 1 (setLine .idle s)
  | .idle => s
  | .busy => setLine .idle s
  | .notFollowed => setLine .idle s

/-- LINE_IDLE; outside ACTIVE the line is not followed (R160, R172). -/
def execLineIdle (s : State) : Host.Outcome State Fault Refusal :=
  if isActive s then .next (seeIdle s) else .next s

end Sys2Proof.Machine
end

