-- ==== Sys2Proof/Machine/Bays.lean ====
section
/-! DEFINITION. The stacker bays' own events (Chapter 8), the timers of jets and pushers (R118, R139):
the meanings of BAY_HIGH_RISE, BAY_CLEAR_RISE, BAY_INPUT_FALL, SETTLE_TIMER_EXPIRY, DISCHARGE_TIMEOUT,
PUSHER_PULSE_EXPIRY and JET_PULSE_EXPIRY. -/

namespace Sys2Proof.Machine

/-- A conditioned input after a recognised change to a level (R20, R34; log 17). -/
def recognised (level : Bool) : CondInput := { raw := level, level := level, pendingLevel := none }

/-- A recognised change of a bay input (R34). -/
def setBayInput (i : BayInput) (b : BayNo) (level : Bool) (s : State) : State :=
  match i with
  | .high => { s with bayHigh := s.bayHigh.set b (recognised level) }
  | .clear => { s with bayClear := s.bayClear.set b (recognised level) }

/-- Bay events reach a configured bay of an ACTIVE station only (R34, R126). -/
def bayLive (s : State) (b : BayNo) : Bool := isActive s && isConfigured s b

/-- BAY_HIGH_RISE: a FILLING bay enters CLOSING with reason HEIGHT (R134). -/
def execBayHighRise (b : BayNo) (s : State) : Host.Outcome State Fault Refusal :=
  if bayLive s b then .next (closeBay b .height (setBayInput .high b true s)) else .next s

/-- A rise of bay-clear takes a DISCHARGING or BLOCKED bay to EMPTY, every field cleared (R141,
R142). -/
def clearBay (b : BayNo) (s : State) : State :=
  if (s.bays.get b).state = .discharging ∨ (s.bays.get b).state = .blocked then
    putBay b Bay.cleared s
  else s

/-- BAY_CLEAR_RISE (R141, R142). -/
def execBayClearRise (b : BayNo) (s : State) : Host.Outcome State Fault Refusal :=
  if bayLive s b then .next (clearBay b (setBayInput .clear b true s)) else .next s

/-- BAY_INPUT_FALL: the debounced level falls; the bay is not changed (R143). -/
def execBayInputFall (b : BayNo) (i : BayInput) (s : State) : Host.Outcome State Fault Refusal :=
  if bayLive s b then .next (setBayInput i b false s) else .next s

/-- SETTLE_TIMER_EXPIRY of a running settle timer (R137). -/
def execSettleTimerExpiry (b : BayNo) (s : State) : Host.Outcome State Fault Refusal :=
  if bayLive s b = true ∧ (s.bays.get b).state = .closing ∧ (s.bays.get b).settle.isSome = true then
    .next (settleExpire b { s with bays := s.bays.set b { s.bays.get b with settle := none } })
  else .next s

/-- The record of a bay whose floor has not read clear in time: BLOCKED, the STACK-queued flag kept
(R141). -/
def blockedBay (y : Bay) : Bay := { Bay.cleared with state := .blocked, stackQueued := y.stackQueued }

/-- DISCHARGE_TIMEOUT of a running discharge timer (R141). -/
def execDischargeTimeout (b : BayNo) (s : State) : Host.Outcome State Fault Refusal :=
  if bayLive s b = true ∧ (s.bays.get b).state = .discharging ∧
      (s.bays.get b).discharge.isSome = true then
    .next (putBay b (blockedBay (s.bays.get b)) s)
  else .next s

/-- PUSHER_PULSE_EXPIRY of a running pusher pulse: the output turns off (R139). -/
def execPusherPulseExpiry (b : BayNo) (s : State) : Host.Outcome State Fault Refusal :=
  if (s.pushers.get b).timer.isSome then .next { s with pushers := s.pushers.set b PulseOut.off }
  else .next s

/-- JET_PULSE_EXPIRY of a running jet pulse: the output turns off (R118). -/
def execJetPulseExpiry (j : Jet) (s : State) : Host.Outcome State Fault Refusal :=
  match j with
  | .a =>
    if s.outputs.jetA.timer.isSome then .next { s with outputs := { s.outputs with jetA := PulseOut.off } }
    else .next s
  | .b =>
    if s.outputs.jetB.timer.isSome then .next { s with outputs := { s.outputs with jetB := PulseOut.off } }
    else .next s

/-- A bay at a purge, its reserved count 0: a FILLING bay with nothing landed enters EMPTY (R144). -/
def purgedBay (y : Bay) : Bay :=
  if y.state = .filling ∧ y.landed = 0 then Bay.cleared else { y with reserved := 0 }

/-- A bay at a purge: a CLOSING bay that waited for reserved pieces starts its settle timer (R144). -/
def purgeBay (b : BayNo) (s : State) : State :=
  let y := s.bays.get b
  if isConfigured s b then
    let s1 := putBay b (purgedBay y) s
    if y.state = .closing ∧ y.settle = none then startSettle b s1 else s1
  else s

/-- Every bay at a purge (R144). R89 and R144 give no order: the model takes bay 1 to bay 4, each through
a settle time of 0 before the next (DESIGN CHOICE, log 29). -/
def purgeBays (s : State) : State := purgeBay .b4 (purgeBay .b3 (purgeBay .b2 (purgeBay .b1 s)))

/-- One ON_BELT record at a purge: PURGED counts and the record is removed (R89 step 1). -/
def purgePiece (s : State) (n : LocalNo) : State :=
  match findLocal n s.tracks with
  | none => s
  | some (p, _) => takeOut n (countPiece .purged p.lot p.code s)

/-- Every ON_BELT record, in list order from the head (R89 step 1). -/
def purgePieces (s : State) : State :=
  ((s.tracks.filterMap beltOf).map fun x => x.2.localNo).foldl purgePiece s

/-- The schedule is emptied unfired and its outputs go off (R125). -/
def purgeSchedule (s : State) : State := { s with schedule := [], outputs := Outputs.off }

/-- The eye channels adjust (R31). -/
def purgeEyeChannels (s : State) : State := { s with eyes := purgeEyes s.eyes }

/-- The purge: pieces, schedule and outputs, bays, eye channels, the head of the list, and the pace
evaluated again (R89, R125, R144, R31, R68, R154). -/
def purge (s : State) : State :=
  evalPace (lookAtHead (purgeEyeChannels (purgeBays (purgeSchedule (purgePieces s)))))

end Sys2Proof.Machine
end

