-- ==== Sys2Proof/Machine/Panel.lean ====
section
/-! DEFINITION. The panel (R148, R149, R153, R177, R178, R180) and the conditioned inputs (R34): the
meanings of CONDITIONED_INPUT_RAW_CHANGE, the presses and releases, PURGE_HOLD_EXPIRY and
DISPLAY_DIGIT_REFRESH. -/

namespace Sys2Proof.Machine

/-- A conditioned input after its raw level has gone to a level: R19 without a position (R34). -/
def inputChanged (level : Bool) (x : CondInput) : CondInput :=
  let x1 := { x with raw := level }
  if level = x.level then { x1 with pendingLevel := none }
  else if x.pendingLevel.isSome then x1
  else { x1 with pendingLevel := some { level := level, timer := Config.inputFilterTime } }

/-- A raw level at an input: taken in ACTIVE from a button or a configured bay, otherwise only the pin
moves (R34, R126). -/
def inputRaw (taken : Bool) (level : Bool) (x : CondInput) : CondInput :=
  if x.raw = level then x else if taken then inputChanged level x else { x with raw := level }

/-- The input of a button. -/
def buttonOf (b : Button) (p : Panel) : CondInput :=
  match b with
  | .stop => p.stop
  | .run => p.run
  | .select => p.select
  | .close => p.close

/-- Replace the input of a button. -/
def putButton (b : Button) (x : CondInput) (s : State) : State :=
  match b with
  | .stop => { s with panel := { s.panel with stop := x } }
  | .run => { s with panel := { s.panel with run := x } }
  | .select => { s with panel := { s.panel with select := x } }
  | .close => { s with panel := { s.panel with close := x } }

/-- CONDITIONED_INPUT_RAW_CHANGE (R34). -/
def execConditionedInputRawChange (i : Input) (level : Bool) (s : State) :
    Host.Outcome State Fault Refusal :=
  match i with
  | .button b => .next (putButton b (inputRaw (isActive s) level (buttonOf b s.panel)) s)
  | .bay .high b =>
    .next { s with bayHigh := s.bayHigh.set b (inputRaw (bayLive s b) level (s.bayHigh.get b)) }
  | .bay .clear b =>
    .next { s with bayClear := s.bayClear.set b (inputRaw (bayLive s b) level (s.bayClear.get b)) }

/-- The purge hold starts, noting the belt-run output as it stood before the press (R153). -/
def startHold (runBefore : Bool) (s : State) : State :=
  { s with panel := { s.panel with
      purgeHold := some { timer := Config.purgeHoldTime, runNoted := runBefore } } }

/-- A press of STOP: OPERATOR is added, and with RUN held the purge hold starts (R148, R153). -/
def pressStop (s : State) : State :=
  let s1 := addReason .operator (putButton .stop (recognised true) s)
  if s.panel.run.level then startHold s.belt.run s1 else s1

/-- STOP_PRESS (R148). -/
def execStopPress (s : State) : Host.Outcome State Fault Refusal :=
  if isActive s then .next (pressStop s) else .next s

/-- What a RUN press leaves of the own reasons: a jam whose eye is covered (R149, R25). -/
def reasonsAfterRun (x : Eyes) (r : ReasonSet) : ReasonSet :=
  { ReasonSet.none with
    jamEntry := r.jamEntry && decide (x.entry.level = .covered)
    jamExit := r.jamExit && decide (x.exit.level = .covered) }

/-- RUN clears what may be cleared; with the set then empty RUN is queued, also when it was empty
before (R147, R149). -/
def clearReasons (s : State) : State :=
  let own := reasonsAfterRun s.eyes s.stops.own
  let s1 := setStops { s.stops with own := own } s
  if noReason own then askFrame .run s1 else s1

/-- A press of RUN: with STOP held it starts the purge hold and clears nothing (R149, R153). -/
def pressRun (s : State) : State :=
  let s1 := putButton .run (recognised true) s
  if s.panel.stop.level then startHold s.belt.run s1 else clearReasons s1

/-- RUN_PRESS (R149). -/
def execRunPress (s : State) : Host.Outcome State Fault Refusal :=
  if isActive s then .next (pressRun s) else .next s

/-- The bay after another in number order. -/
def bayAfter : BayNo → BayNo
  | .b1 => .b2
  | .b2 => .b3
  | .b3 => .b4
  | .b4 => .b1

/-- The next configured bay, from the highest back to bay 1 (R180). -/
def nextSelected (c : Settings) (sel : Option BayNo) : Option BayNo :=
  sel.map fun b => if b.num < c.bayCount then bayAfter b else .b1

/-- SELECT_PRESS (R180). -/
def execSelectPress (s : State) : Host.Outcome State Fault Refusal :=
  if isActive s then
    let s1 := putButton .select (recognised true) s
    .next { s1 with panel := { s1.panel with selected := nextSelected s.settings s.panel.selected } }
  else .next s

/-- A press of CLOSE closes the selected bay with reason FORCED when it is FILLING (R136, R180). -/
def pressClose (s : State) : State :=
  let s1 := putButton .close (recognised true) s
  match s.panel.selected with
  | some b => closeBay b .forced s1
  | none => s1

/-- CLOSE_PRESS (R136). -/
def execClosePress (s : State) : Host.Outcome State Fault Refusal :=
  if isActive s then .next (pressClose s) else .next s

/-- A release of STOP or RUN stops a running purge hold timer and is no longer awaited; the others have
no effect (R153, R180). -/
def releaseButton (b : Button) (s : State) : State :=
  let s1 := putButton b (recognised false) s
  match b with
  | .stop => { s1 with panel := { s1.panel with purgeHold := none, awaitStop := false } }
  | .run => { s1 with panel := { s1.panel with purgeHold := none, awaitRun := false } }
  | .select => s1
  | .close => s1

/-- BUTTON_RELEASE (R153). -/
def execButtonRelease (b : Button) (s : State) : Host.Outcome State Fault Refusal :=
  if isActive s then .next (releaseButton b s) else .next s

/-- Both buttons have been released since the last purge, if there was one (R153; log 31). -/
def bothReleased (p : Panel) : Bool := !p.awaitStop && !p.awaitRun

/-- The hold's timer has expired. -/
def endHold (s : State) : State := { s with panel := { s.panel with purgeHold := none } }

/-- A purge is taken: both buttons are to be released before a further one (R153, R154; log 31). -/
def takePurge (s : State) : State :=
  purge { s with panel := { s.panel with awaitStop := true, awaitRun := true } }

/-- PURGE_HOLD_EXPIRY of a running hold: the purge is taken if the output was off when the hold began
and both buttons have been released since the last purge (R153, R154). -/
def execPurgeHoldExpiry (s : State) : Host.Outcome State Fault Refusal :=
  match s.panel.purgeHold with
  | none => .next s
  | some h =>
    if isActive s = true ∧ h.runNoted = false ∧ bothReleased s.panel = true then
      .next (takePurge (endHold s))
    else .next (endHold s)

/-! ## The display -/

/-- Two digits, a leading zero kept (R178). -/
def twoDigits (n : Nat) : List Glyph := [.digit (n / 10 % 10), .digit (n % 10)]

/-- A landed count: a leading zero is blanked (R178). -/
def countDigits (n : Nat) : List Glyph :=
  [if n / 10 % 10 = 0 then .blank else .digit (n / 10 % 10), .digit (n % 10)]

/-- The four characters of the display, the first of the conditions that applies (R178). -/
def displayGlyphs (s : State) : List Glyph :=
  match s.station with
  | .loading => [.blank, .blank, .blank, .blank]
  | .fault code => [.letterC, .letterF] ++ twoDigits code
  | .active =>
    if !noReason s.stops.own then [.letterE, .blank, .blank, .digit (lowestReason s.stops.own)]
    else
      match s.stops.others with
      | n :: _ => [.letterS, .blank] ++ twoDigits n
      | [] =>
        if s.belt.speedHigh then [.letterS, .dash, .dash, .dash]
        else
          match s.panel.selected with
          | some b =>
            [.letterB, .digit b.num] ++
              (if (s.bays.get b).state = .blocked then [.dash, .dash]
               else countDigits (s.bays.get b).landed)
          | none => [.letterB, .dash, .blank, .blank]

/-- The segments of a character; a blank lights none (R177; log 9). -/
def glyphSegments (g : Glyph) : BitVec 7 :=
  match g with
  | .blank => 0#7
  | _ => Config.glyphPattern g

/-- The segment lines of a pattern under a segment map: a line is lit when a segment assigned to it is
lit (R177). -/
def segmentLines (map : List (Option Nat)) (pattern : BitVec 7) : BitVec 8 :=
  (List.range 7).foldl
    (fun acc i =>
      match map.getD i none with
      | some line => if pattern.getLsbD i then acc ||| (1#8 <<< line) else acc
      | none => acc)
    0#8

/-- The digit selected after another, digit 1 first (R177; log 21). -/
def nextDigit (d : Option (Fin 4)) : Fin 4 :=
  match d with
  | none => 0
  | some i => i + 1

/-- The next digit is selected and the segment lines carry its pattern (R177). The state is read anew at
every digit, so one round of four may mix two readings: R178's "each refresh" may also mean the 8 ms round
of R177 (DESIGN CHOICE, log 32). -/
def refreshDisplay (s : State) : State :=
  let d := nextDigit s.panel.digit
  let g := (displayGlyphs s).getD d.val .blank
  { s with panel := { s.panel with
      digit := some d
      lines := segmentLines s.panel.segmentMap (glyphSegments g) } }

/-- DISPLAY_DIGIT_REFRESH; in LOADING every select and segment line is off (R177, R178). -/
def execDisplayDigitRefresh (s : State) : Host.Outcome State Fault Refusal :=
  if s.station = .loading then
    .next { s with panel := { s.panel with digit := none, lines := 0#8 } }
  else .next (refreshDisplay s)

end Sys2Proof.Machine
end

