-- ==== Sys2Proof/Machine/Startup.lean ====
section
/-! DEFINITION. Reset and the start-up loader (R182, R184): the meanings of RESET and LOAD_COMPLETE. -/

namespace Sys2Proof.Machine

/-- Every block in its after-reset state; the levels at the pins, the model's own choice count and the
queue of commands are not the part's to reset (R182; logs 5 and 7). -/
def afterReset (s : State) : State :=
  { State.reset with
    eyes := { State.reset.eyes with
      entry := EyeChannel.reset s.eyes.entry.raw
      exit := EyeChannel.reset s.eyes.exit.raw }
    bayHigh := s.bayHigh.map fun x => CondInput.reset x.raw
    bayClear := s.bayClear.map fun x => CondInput.reset x.raw
    panel := { State.reset.panel with
      stop := CondInput.reset s.panel.stop.raw
      run := CondInput.reset s.panel.run.raw
      select := CondInput.reset s.panel.select.raw
      close := CondInput.reset s.panel.close.raw }
    openCount := s.openCount
    pending := s.pending }

/-- RESET (R182). -/
def execReset (s : State) : Host.Outcome State Fault Refusal := .next (afterReset s)

/-- A failing check places the station in FAULT with its code; the table holds what had been filed
(R35, R49, R182). -/
def enterFault (code : Nat) (table : List CategoryEntry) (map : List (Option Nat)) (s : State) : State :=
  let s1 := afterReset s
  { s1 with
    station := .fault code
    table := table
    panel := { s1.panel with segmentMap := map } }

/-- An eye channel takes its raw level without recognising an edge; a covered eye has covered-since 0
(R33). -/
def startEye (raw : EyeLevel) : EyeChannel :=
  { EyeChannel.reset raw with
    level := raw
    coveredSince := if raw = .covered then some 0#32 else none }

/-- The eyes at the entry to ACTIVE (R33). -/
def startEyes (x : Eyes) : Eyes :=
  { entry := startEye x.entry.raw
    exit := startEye x.exit.raw
    untracked := decide (x.entry.raw = .covered)
    exitOwner := if x.exit.raw = .covered then some .ignored else none }

/-- An input takes its raw level as its debounced level (R34). -/
def startInput (x : CondInput) : CondInput := recognised x.raw

/-- A bay input at the entry to ACTIVE: read for a configured bay only (R34, R126). -/
def startBayInput (count : Nat) (b : BayNo) (x : CondInput) : CondInput :=
  if b.num ≤ count then startInput x else CondInput.reset x.raw

/-- A bay at the entry to ACTIVE: BLOCKED when configured and its floor does not read clear (R126). -/
def startBay (count : Nat) (b : BayNo) (clear : CondInput) : Bay :=
  if b.num ≤ count ∧ clear.raw = false then { Bay.cleared with state := .blocked } else Bay.cleared

/-- Four items made bay by bay. -/
def fourOf {α : Type} (f : BayNo → α) : Four α := ⟨f .b1, f .b2, f .b3, f .b4⟩

/-- The blocks' starting states at the entry to ACTIVE, the settings in force (R184). -/
def startBlocks (c : Settings) (table : List CategoryEntry) (map : List (Option Nat))
    (counters : List Counter) (s : State) : State :=
  let s1 := afterReset s
  { s1 with
    station := .active
    settings := c
    table := table
    eyes := startEyes s.eyes
    bays := fourOf fun b => startBay c.bayCount b (s.bayClear.get b)
    bayHigh := fourOf fun b => startBayInput c.bayCount b (s.bayHigh.get b)
    bayClear := fourOf fun b => startBayInput c.bayCount b (s.bayClear.get b)
    link := { s1.link with line := .busy }
    tally := { s1.tally with counters := counters }
    panel := { s1.panel with
      stop := startInput s.panel.stop
      run := startInput s.panel.run
      select := startInput s.panel.select
      close := startInput s.panel.close
      selected := if 1 ≤ c.bayCount then some .b1 else none
      segmentMap := map } }

/-- The START of this station, with its peers' numbers (R152). -/
def startFrameOf (c : Settings) : FrameBody :=
  .start (BitVec.ofNat 8 c.upstream) (BitVec.ofNat 8 c.downstream)

/-- The entry to ACTIVE: starting states, START and STOP with reason RESTART queued, then the pace
evaluated (R152, R156, R184). -/
def enterActive (c : Settings) (table : List CategoryEntry) (map : List (Option Nat))
    (counters : List Counter) (s : State) : State :=
  evalPace (addReason .restart (askRaw (startFrameOf c) (startBlocks c table map counters s)))

/-- LOAD_COMPLETE: in LOADING the image is checked and the station enters FAULT or ACTIVE (R182). -/
def execLoadComplete (img : List Byte) (s : State) : Host.Outcome State Fault Refusal :=
  if s.station = .loading then
    match loadImage img with
    | .failed code table map => .next (enterFault code table map s)
    | .loaded c table map counters => .next (enterActive c table map counters s)
  else .next s

end Sys2Proof.Machine
end

