-- ==== Sys2Proof/Machine/Dispatch.lean ====
section
/-! DEFINITION. The dispatch: one arm per command, each one direct call of its meaning. -/

namespace Sys2Proof.Machine

def exec (i : Instr) (s : State) : Host.Outcome State Fault Refusal :=
  match i with
  | .reset => Sys2Proof.Machine.execReset s
  | .loadComplete image => Sys2Proof.Machine.execLoadComplete image s
  | .encoderPulse => Sys2Proof.Machine.execEncoderPulse s
  | .windowEnd => Sys2Proof.Machine.execWindowEnd s
  | .eyeRawChange eye level => Sys2Proof.Machine.execEyeRawChange eye level s
  | .edgeRecognition eye => Sys2Proof.Machine.execEdgeRecognition eye s
  | .conditionedInputRawChange input asserted => Sys2Proof.Machine.execConditionedInputRawChange input asserted s
  | .stopPress => Sys2Proof.Machine.execStopPress s
  | .runPress => Sys2Proof.Machine.execRunPress s
  | .selectPress => Sys2Proof.Machine.execSelectPress s
  | .closePress => Sys2Proof.Machine.execClosePress s
  | .buttonRelease button => Sys2Proof.Machine.execButtonRelease button s
  | .bayHighRise bay => Sys2Proof.Machine.execBayHighRise bay s
  | .bayClearRise bay => Sys2Proof.Machine.execBayClearRise bay s
  | .bayInputFall bay input => Sys2Proof.Machine.execBayInputFall bay input s
  | .purgeHoldExpiry => Sys2Proof.Machine.execPurgeHoldExpiry s
  | .timeBaseTick => Sys2Proof.Machine.execTimeBaseTick s
  | .ghost => Sys2Proof.Machine.execGhost s
  | .jetPulseExpiry jet => Sys2Proof.Machine.execJetPulseExpiry jet s
  | .settleTimerExpiry bay => Sys2Proof.Machine.execSettleTimerExpiry bay s
  | .dischargeTimeout bay => Sys2Proof.Machine.execDischargeTimeout bay s
  | .pusherPulseExpiry bay => Sys2Proof.Machine.execPusherPulseExpiry bay s
  | .stopFrame sender reason => Sys2Proof.Machine.execStopFrame sender reason s
  | .runFrame sender => Sys2Proof.Machine.execRunFrame sender s
  | .startFrame sender up down => Sys2Proof.Machine.execStartFrame sender up down s
  | .announceFrame sender seq lot code length flags => Sys2Proof.Machine.execAnnounceFrame sender seq lot code length flags s
  | .lotEndFrame sender seq lot => Sys2Proof.Machine.execLotEndFrame sender seq lot s
  | .paceFrame sender gap => Sys2Proof.Machine.execPaceFrame sender gap s
  | .tallyQuery sender target item index => Sys2Proof.Machine.execTallyQuery sender target item index s
  | .framePassedOver sender body => Sys2Proof.Machine.execFramePassedOver sender body s
  | .damagedFrame bits => Sys2Proof.Machine.execDamagedFrame bits s
  | .transmitStart => Sys2Proof.Machine.execTransmitStart s
  | .arbitrationLost => Sys2Proof.Machine.execArbitrationLost s
  | .bitError => Sys2Proof.Machine.execBitError s
  | .frameSent => Sys2Proof.Machine.execFrameSent s
  | .displayDigitRefresh => Sys2Proof.Machine.execDisplayDigitRefresh s
  | .lineIdle => Sys2Proof.Machine.execLineIdle s

end Sys2Proof.Machine
end

