-- ==== Sys2Proof/Safety.lean ====
section
/-! DEFINITION. What a safe state of the S412 is: the laws the manual states for every moment (R13, R36,
R47, R50, R51, R91, R131, R150, R165, R166, R179), and `KeepsBut`, the frame predicate in which
statements say what a command leaves as it stands. -/

namespace Sys2Proof.Machine

/-! ## Frames -/

/-- The parts of State, as finely as the statements need them. -/
inductive Part where
  | station | settings
  | position | window | speed | high | low | grace | run
  | entryEye | exitEye | untracked | exitOwner
  | table | tracks | nextLocal | schedule | nextSerial
  | jetA | jetB | gates | reject
  | bays | pushers | bayHigh | bayClear
  | own | others | pace
  | queue | inFlight | line | ownSeq | expectedSeq
  | fates | events | drops | counters
  | buttons | selected | lamp | display | segmentMap | purgeHold
  | openCount | pending
  deriving DecidableEq, Repr

/-- A part reads the same in two states. -/
def Part.same (s t : State) : Part → Prop
  | .station => t.station = s.station
  | .settings => t.settings = s.settings
  | .position => t.belt.position = s.belt.position
  | .window => t.belt.windowCount = s.belt.windowCount ∧ t.belt.windowSaturated = s.belt.windowSaturated
  | .speed => t.belt.v = s.belt.v ∧ t.belt.speedSaturated = s.belt.speedSaturated
  | .high => t.belt.highArmed = s.belt.highArmed ∧ t.belt.highRearm = s.belt.highRearm
      ∧ t.belt.speedHigh = s.belt.speedHigh
  | .low => t.belt.lowArmed = s.belt.lowArmed ∧ t.belt.lowRearm = s.belt.lowRearm
  | .grace => t.belt.grace = s.belt.grace
  | .run => t.belt.run = s.belt.run
  | .entryEye => t.eyes.entry = s.eyes.entry
  | .exitEye => t.eyes.exit = s.eyes.exit
  | .untracked => t.eyes.untracked = s.eyes.untracked
  | .exitOwner => t.eyes.exitOwner = s.eyes.exitOwner
  | .table => t.table = s.table
  | .tracks => t.tracks = s.tracks
  | .nextLocal => t.nextLocal = s.nextLocal
  | .schedule => t.schedule = s.schedule
  | .nextSerial => t.nextSerial = s.nextSerial
  | .jetA => t.outputs.jetA = s.outputs.jetA
  | .jetB => t.outputs.jetB = s.outputs.jetB
  | .gates => t.outputs.gates = s.outputs.gates
  | .reject => t.outputs.reject = s.outputs.reject
  | .bays => t.bays = s.bays
  | .pushers => t.pushers = s.pushers
  | .bayHigh => t.bayHigh = s.bayHigh
  | .bayClear => t.bayClear = s.bayClear
  | .own => t.stops.own = s.stops.own
  | .others => t.stops.others = s.stops.others
  | .pace => t.pace = s.pace
  | .queue => t.link.queue = s.link.queue ∧ t.link.nextAge = s.link.nextAge
  | .inFlight => t.link.inFlight = s.link.inFlight
  | .line => t.link.line = s.link.line
  | .ownSeq => t.link.ownSeq = s.link.ownSeq
  | .expectedSeq => t.link.expectedSeq = s.link.expectedSeq
  | .fates => t.tally.counts.entered = s.tally.counts.entered
      ∧ t.tally.counts.passed = s.tally.counts.passed
      ∧ t.tally.counts.stacked = s.tally.counts.stacked
      ∧ t.tally.counts.rejected = s.tally.counts.rejected
      ∧ t.tally.counts.lost = s.tally.counts.lost
      ∧ t.tally.counts.purged = s.tally.counts.purged
  | .events => t.tally.counts.orphan = s.tally.counts.orphan
      ∧ t.tally.counts.ghost = s.tally.counts.ghost
      ∧ t.tally.counts.overrun = s.tally.counts.overrun
      ∧ t.tally.counts.stray = s.tally.counts.stray
      ∧ t.tally.counts.linkCheck = s.tally.counts.linkCheck
  | .drops => t.tally.counts.linkDrop = s.tally.counts.linkDrop
  | .counters => t.tally.counters = s.tally.counters
  | .buttons => t.panel.stop = s.panel.stop ∧ t.panel.run = s.panel.run
      ∧ t.panel.select = s.panel.select ∧ t.panel.close = s.panel.close
  | .selected => t.panel.selected = s.panel.selected
  | .lamp => t.panel.lamp = s.panel.lamp
  | .display => t.panel.digit = s.panel.digit ∧ t.panel.lines = s.panel.lines
  | .segmentMap => t.panel.segmentMap = s.panel.segmentMap
  | .purgeHold => t.panel.purgeHold = s.panel.purgeHold ∧ t.panel.awaitStop = s.panel.awaitStop
      ∧ t.panel.awaitRun = s.panel.awaitRun
  | .openCount => t.openCount = s.openCount
  | .pending => t.pending = s.pending

/-- Every part outside the list reads the same in t as in s. -/
def KeepsBut (ps : List Part) (s t : State) : Prop := ∀ p, p ∉ ps → p.same s t

/-- What the sending of frames may change: the queue, the pace it is evaluated into, and LINK_DROP with
the counters that count it (R156, R157, R165 to R167). -/
def sendParts : List Part := [.queue, .pace, .drops, .counters]

/-- What a change of the own reasons may change besides: the set, the belt-run output with what its
turn-on loads, the lamp (R13, R14, R146, R179). -/
def stopParts : List Part := [.own, .run, .grace, .low, .lamp] ++ sendParts

/-- What an event of the bays may change (R130, R134 to R144, R156, R179). -/
def bayParts : List Part := [.bays, .pushers, .lamp] ++ sendParts

/-- What the processing of markers may change (R66, R67). -/
def markerParts : List Part := [.tracks, .ownSeq] ++ bayParts

/-! ## Laws -/

/-- R13: the belt-run output is on exactly while the station is ACTIVE and both stop sets are empty. -/
def RunLaw (s : State) : Prop :=
  s.belt.run = true ↔ s.station = .active ∧ s.stops.own = ReasonSet.none ∧ s.stops.others = []

/-- R179: the lamp is on exactly while the station is ACTIVE and a reason stands, a configured bay is
BLOCKED, or SPEED_HIGH is set. -/
def LampLaw (s : State) : Prop :=
  s.panel.lamp = true ↔ s.station = .active ∧
    (s.stops.own ≠ ReasonSet.none
      ∨ (∃ b : BayNo, b.num ≤ s.settings.bayCount ∧ (s.bays.get b).state = .blocked)
      ∨ s.belt.speedHigh = true)

/-- R50 and R51: at most 24 records, at most 12 of them ON_BELT, and no unseen record before an ON_BELT
one. -/
def RecordsOk (tracks : List Record) : Prop :=
  tracks.length ≤ 24 ∧ onBeltCount tracks ≤ 12
    ∧ tracks.Pairwise fun x y => isUnseen x = true → isOnBelt y = false

/-- R50 and R51 for the track list. -/
def RecordLaw (s : State) : Prop := RecordsOk s.tracks

/-- R91: ENTERED equals the five fates and the ON_BELT records together, modulo 2³². -/
def CountLaw (s : State) : Prop :=
  s.tally.counts.entered =
    s.tally.counts.passed + s.tally.counts.stacked + s.tally.counts.rejected + s.tally.counts.lost
      + s.tally.counts.purged + BitVec.ofNat 32 (onBeltCount s.tracks)

/-- One entry of a table in force: the ranges R47 checks, the use count at most 65,535 (R44). -/
def EntryLaw (e : CategoryEntry) : Prop :=
  e.uses ≤ 65535 ∧ ∀ p, e.kind = .plan p →
    p.minLen ≤ p.maxLen ∧ 1 ≤ p.target ∧ p.target ≤ 99
      ∧ ∀ f, p.fold = some f → 32 ≤ f.fraction ∧ f.fraction ≤ 224

/-- R36 and R46 to R48: at most 64 entries, each code once, each entry within its ranges; in ACTIVE
entry 0 is a PLAN. -/
def TableLaw (s : State) : Prop :=
  s.table.length ≤ 64 ∧ (s.table.map CategoryEntry.code).Nodup ∧ (∀ e ∈ s.table, EntryLaw e)
    ∧ (s.station = .active → ∃ p, planOf 0#8 s.table = some p)

/-- R131 for one bay: nothing landed or reserved while EMPTY or BLOCKED; otherwise a target from 1 to 99
stands and landed + reserved does not exceed it, and lies below it while FILLING. -/
def BayOk (y : Bay) : Prop :=
  if y.state = .empty ∨ y.state = .blocked then y.landed = 0 ∧ y.reserved = 0
  else ∃ t, y.target = some t ∧ 1 ≤ t ∧ t ≤ 99 ∧ y.landed + y.reserved ≤ t
    ∧ (y.state = .filling → y.landed + y.reserved < t)

/-- R131 for the four bays. -/
def BayLaw (s : State) : Prop := ∀ b : BayNo, BayOk (s.bays.get b)

/-- Of two frames of the queue the first ranks lower, or joined earlier within one rank (R165). -/
def QFrame.before (x y : QFrame) : Prop :=
  frameRank x.body < frameRank y.body ∨ (frameRank x.body = frameRank y.body ∧ x.age < y.age)

/-- R165 and R166: at most 12 frames, in rank order and within a rank in joining order, at most one STOP
or RUN, at most one PACE; every age lies below the next one given out (log 18). -/
def QueueOk (q : List QFrame) (nextAge : Nat) : Prop :=
  q.length ≤ 12 ∧ q.Pairwise QFrame.before
    ∧ (q.countP fun f => frameGroup f.body == .stopRun) ≤ 1
    ∧ (q.countP fun f => frameGroup f.body == .pace) ≤ 1
    ∧ ∀ f ∈ q, f.age < nextAge

/-- R165 and R166 for the transmit queue. -/
def QueueLaw (s : State) : Prop := QueueOk s.link.queue s.link.nextAge

/-- R156: nine or more ON_BELT records, eight or more kept frames pending, or bays configured and every
one of them CLOSING, DISCHARGING or BLOCKED. -/
def Crowded (s : State) : Prop :=
  9 ≤ onBeltCount s.tracks
    ∨ 8 ≤ s.link.queue.countP (fun f => frameGroup f.body == .kept)
    ∨ (0 < s.settings.bayCount ∧ ∀ b : BayNo, b.num ≤ s.settings.bayCount →
        (s.bays.get b).state = .closing ∨ (s.bays.get b).state = .discharging
          ∨ (s.bays.get b).state = .blocked)

/-- R156 and R157: in ACTIVE pace_own is the pace gap while a condition of R156 holds and 0 while none
does, and pace_out is the larger of pace_in and pace_own, at most 5,000. -/
def PaceLaw (s : State) : Prop :=
  s.station = .active →
    (Crowded s → s.pace.paceOwn = s.settings.paceGap) ∧ (¬ Crowded s → s.pace.paceOwn = 0)
      ∧ s.pace.paceOut = min (max s.pace.paceIn s.pace.paceOwn) 5000

/-- R163 and R172: a frame is in flight exactly while the station sends, and outside ACTIVE the line is
not followed. -/
def LineLaw (s : State) : Prop :=
  (s.link.inFlight.isSome = true ↔ s.link.line = .sending)
    ∧ (s.station = .active ↔ s.link.line ≠ .notFollowed)

/-- 9.2 and R150: the others' stop set holds valid station numbers, each at most once (rising here),
never this station's own. -/
def OthersLaw (s : State) : Prop :=
  s.stops.others.Pairwise (· < ·)
    ∧ ∀ n ∈ s.stops.others, 1 ≤ n ∧ n ≤ 30 ∧ n ≠ s.settings.station

/-- What stands outside ACTIVE: every block in its after-reset state, but for the station state itself,
the table a failed load had filed, and what the display shows (R17, R35, R49, R50, R110, R126, R146,
R150, R172, R178, R182). -/
def InactiveLaw (s : State) : Prop :=
  s.station ≠ .active →
    s = { afterReset s with
      station := s.station
      table := s.table
      panel := { (afterReset s).panel with
        digit := s.panel.digit, lines := s.panel.lines, segmentMap := s.panel.segmentMap } }

end Sys2Proof.Machine
end

