-- ==== Sys2Proof/Certificates/Slice0/Obligations.lean ====
section
/-! DEFINITION. The statements for the provers. A command's statement says that it completes, what it leaves
in the parts it touches, and (`KeepsBut`) that every other part stands. A docstring names the rules the
statement rests on, and the log entries where it rests on the model's choice. -/

open Sys2Proof Sys2Proof.Machine

/-! ## The queue of commands, reset and load -/

/-- One step runs the command at the front of the queue with the rest left waiting; on an empty queue the
block idles (log 2). -/
def Obligations.StepRunsFrontCommand : Prop :=
  (∀ (c : Instr) (rest : List Instr) (s : State),
      step { s with pending := c :: rest } = exec c { s with pending := rest })
    ∧ ∀ s : State, s.pending = [] → step s = .next s

/-- RESET leaves every block as its chapter gives it (the after-reset columns of Chapters 1 to 11); the
levels at the pins and the waiting commands are not the part's to reset (log 5). That no bay is selected
before the entry to ACTIVE (log 30), that no release is awaited (log 31) and that the segment map is the
fixed one before a load (log 33) are the model's choices. -/
def Obligations.ResetReturnsEveryBlock : Prop :=
  ∀ s : State, ∃ t : State, exec .reset s = .next t ∧ t.station = .loading
    ∧ t.belt.position = 0 ∧ t.belt.windowCount = 0 ∧ t.belt.windowSaturated = false ∧ t.belt.v = 0
    ∧ t.belt.speedSaturated = false ∧ t.belt.highArmed = true ∧ t.belt.highRearm = 0
    ∧ t.belt.speedHigh = false ∧ t.belt.lowArmed = true ∧ t.belt.lowRearm = 0 ∧ t.belt.grace = 10
    ∧ t.belt.run = false
    ∧ t.eyes.entry = ⟨s.eyes.entry.raw, .clear, none, none, none, false⟩
    ∧ t.eyes.exit = ⟨s.eyes.exit.raw, .clear, none, none, none, false⟩
    ∧ t.eyes.untracked = false ∧ t.eyes.exitOwner = none
    ∧ t.table = [] ∧ t.tracks = [] ∧ t.nextLocal = 0 ∧ t.schedule = []
    ∧ t.outputs = ⟨⟨false, none⟩, ⟨false, none⟩, Four.all false, false⟩
    ∧ (∀ b, t.bays.get b = ⟨.empty, none, none, 0, 0, none, none, none, none, false⟩
      ∧ t.pushers.get b = ⟨false, none⟩
      ∧ t.bayHigh.get b = ⟨(s.bayHigh.get b).raw, false, none⟩
      ∧ t.bayClear.get b = ⟨(s.bayClear.get b).raw, false, none⟩)
    ∧ t.stops = ⟨⟨false, false, false, false, false, false⟩, []⟩ ∧ t.pace = ⟨0, 0, 0⟩
    ∧ t.link.queue = [] ∧ t.link.inFlight = none ∧ t.link.line = .notFollowed ∧ t.link.ownSeq = 0
    ∧ t.link.expectedSeq = none
    ∧ countList t.tally.counts = List.replicate 12 0
    ∧ (∀ c ∈ t.tally.counters, c.value = 0 ∧ c.saturated = false ∧ c.countingLot = none ∧ c.latch = none)
    ∧ (∀ button, buttonOf button t.panel = ⟨(buttonOf button s.panel).raw, false, none⟩)
    ∧ t.panel.selected = none ∧ t.panel.lamp = false ∧ t.panel.purgeHold = none
    ∧ t.panel.awaitStop = false ∧ t.panel.awaitRun = false ∧ t.panel.digit = none ∧ t.panel.lines = 0
    ∧ t.panel.segmentMap = [some 0, some 1, some 2, some 3, some 4, some 5, some 6]
    ∧ t.pending = s.pending

/-- An image whose check differs from its last two bytes brings FAULT with code 01: nothing filed, the
display CF01 in the fixed map, outputs off, the link silent (Chapter 11, the loader). -/
def Obligations.LoadFaultsOnBadImageCheck : Prop :=
  ∀ (img : List Byte) (s : State), s.station = .loading →
    crcBytes ((List.range 1022).map (imageByte img)) ≠
      twoBytes (imageByte img 1022) (imageByte img 1023) →
    ∃ t : State, exec (.loadComplete img) s = .next t ∧ t.station = .fault 1 ∧ t.table = []
      ∧ displayGlyphs t = [.letterC, .letterF, .digit 0, .digit 1]
      ∧ t.panel.segmentMap = [some 0, some 1, some 2, some 3, some 4, some 5, some 6]
      ∧ t.belt.run = false ∧ t.panel.lamp = false ∧ t.link.queue = [] ∧ t.link.line = .notFollowed
      ∧ t.outputs = ⟨⟨false, none⟩, ⟨false, none⟩, Four.all false, false⟩
      ∧ t.pending = s.pending

/-- The gate distances of the configured bays as they stand in the image (R181, R183). -/
def gateDistances (img : List Byte) : List Nat :=
  (List.range (imageNat img 3)).map fun i => imageWord img (14 + 2 * i)

/-- Every other header value lies in the range the header table gives (R181, check 17 of R183). -/
def headerInRange (img : List Byte) : Prop :=
  imageNat img 7 ≤ 32
    ∧ (∀ d ∈ gateDistances img ++ [imageWord img 10, imageWord img 12, imageWord img 22, imageWord img 24],
        d ≤ 20000)
    ∧ imageWord img 27 ≤ 500 ∧ imageWord img 29 ≤ 2000
    ∧ 10 ≤ imageWord img 31 ∧ imageWord img 31 ≤ 2000
    ∧ 500 ≤ imageWord img 33 ∧ imageWord img 33 ≤ 10000
    ∧ imageWord img 35 ≤ 2000
    ∧ imageWord img 37 ≤ 500 ∧ imageWord img 39 ≤ 500 ∧ imageWord img 41 ≤ 2000
    ∧ 5 ≤ imageNat img 43
    ∧ imageWord img 44 ≤ 2000 ∧ 50 ≤ imageWord img 46 ∧ imageWord img 46 ≤ 2000
    ∧ 1 ≤ imageNat img 48 ∧ imageNat img 48 ≤ 60
    ∧ 100 ≤ imageWord img 49 ∧ imageWord img 49 ≤ 30000
    ∧ imageWord img 51 ≤ 5000

/-- The header check of a code, written from the table of R183 over the image's bytes. -/
def headerCheck (img : List Byte) (code : Nat) : Prop :=
  let station := imageNat img 0
  let up := imageNat img 1
  let down := imageNat img 2
  let jets := [imageWord img 10, imageWord img 12]
  let gates := gateDistances img ++ [imageWord img 22]
  match code with
  | 10 => 1 ≤ station ∧ station ≤ 30
  | 11 => up ≤ 30 ∧ down ≤ 30
  | 12 => up ≠ station ∧ down ≠ station ∧ (up = down → up = 0)
  | 13 => 500 ≤ imageWord img 8 ∧ imageWord img 8 ≤ 8000
  | 14 => imageNat img 5 ≤ 2 ∧ imageNat img 6 ≤ 2
  | 15 => imageNat img 3 ≤ 4
  | 16 => ∀ d ∈ gateDistances img, d ≠ 0
  | 17 => headerInRange img
  | 18 => ∀ j ∈ jets, j ≠ 0 → ∀ g ∈ gates, g ≠ 0 → j < g
  | 19 => ∀ d ∈ jets ++ gates, d ≠ 0 → d < imageWord img 24
  | 20 => imageWord img 33 + imageNat img 26 + 100 ≤ imageWord img 24
  | 21 => down = 0 → imageWord img 22 ≠ 0
  | 22 => (gateDistances img).Pairwise (· < ·)
      ∧ (imageWord img 22 ≠ 0 → ∀ d ∈ gateDistances img, d < imageWord img 22)
  | _ => True

/-- With a good image check, the first header check of R183 that fails gives FAULT with its code and
nothing filed; when all thirteen pass, no header code can come. -/
def Obligations.FirstFailingHeaderCheckGivesCode : Prop :=
  ∀ (img : List Byte) (s : State), s.station = .loading →
    crcBytes ((List.range 1022).map (imageByte img)) =
      twoBytes (imageByte img 1022) (imageByte img 1023) →
    (∀ code, 10 ≤ code → code ≤ 22 → ¬ headerCheck img code →
        (∀ c, 10 ≤ c → c < code → headerCheck img c) →
        ∃ t : State, exec (.loadComplete img) s = .next t ∧ t.station = .fault code ∧ t.table = [])
      ∧ ((∀ c, 10 ≤ c → c ≤ 22 → headerCheck img c) →
        ∃ t : State, exec (.loadComplete img) s = .next t ∧ ∀ c, t.station = .fault c → 30 ≤ c)

/-- The PACE the entry to ACTIVE asks for: every configured bay starts BLOCKED, and a pace gap and an
upstream peer are configured (R156, R157, R184). -/
def entryPace (c : Settings) (s : State) : Nat :=
  let full := BayNo.all.all fun b => decide (c.bayCount < b.num) || !(s.bayClear.get b).raw
  if 0 < c.bayCount ∧ full = true then c.paceGap else 0

/-- An image that passes every check takes the station from LOADING to ACTIVE: settings in force, raw levels
taken, bays EMPTY or BLOCKED, reasons {RESTART}, START then STOP queued, the pace evaluated, the belt off
and the display E 6 (R33, R34, R126, R152, R156, R182, R184; logs 12,
26, 31 and 34). -/
def Obligations.EntryToActive : Prop :=
  ∀ (img : List Byte) (s : State) (c : Settings) (table : List CategoryEntry) (map : List (Option Nat))
    (counters : List Counter), s.station = .loading → loadImage img = .loaded c table map counters →
    ∃ t : State, exec (.loadComplete img) s = .next t ∧ t.station = .active ∧ t.settings = c ∧ t.table = table
      ∧ (∀ e ∈ table, e.uses = 0)
      ∧ t.belt = BeltUnit.reset ∧ t.tracks = [] ∧ t.schedule = [] ∧ t.outputs = Outputs.off
      ∧ t.eyes.entry = ⟨s.eyes.entry.raw, s.eyes.entry.raw, none, none,
          if s.eyes.entry.raw = .covered then some 0 else none, false⟩
      ∧ t.eyes.exit = ⟨s.eyes.exit.raw, s.eyes.exit.raw, none, none,
          if s.eyes.exit.raw = .covered then some 0 else none, false⟩
      ∧ t.eyes.untracked = decide (s.eyes.entry.raw = .covered)
      ∧ t.eyes.exitOwner = (if s.eyes.exit.raw = .covered then some .ignored else none)
      ∧ (∀ b, t.bays.get b = { Bay.cleared with
            state := if b.num ≤ c.bayCount ∧ (s.bayClear.get b).raw = false then .blocked else .empty }
          ∧ (b.num ≤ c.bayCount →
            (t.bayHigh.get b) = ⟨(s.bayHigh.get b).raw, (s.bayHigh.get b).raw, none⟩
              ∧ (t.bayClear.get b) = ⟨(s.bayClear.get b).raw, (s.bayClear.get b).raw, none⟩)
          ∧ t.pushers.get b = PulseOut.off)
      ∧ t.stops = ⟨insertReason ReasonSet.none .restart, []⟩
      ∧ t.pace = ⟨0, entryPace c s, entryPace c s⟩
      ∧ t.link.queue.map QFrame.body =
          FrameBody.start (BitVec.ofNat 8 c.upstream) (BitVec.ofNat 8 c.downstream) :: .stop 6 ::
            (if entryPace c s ≠ 0 ∧ c.upstream ≠ 0 then [.pace (BitVec.ofNat 16 (entryPace c s))]
              else [])
      ∧ t.link.inFlight = none ∧ t.link.line = .busy ∧ t.link.ownSeq = 0 ∧ t.link.expectedSeq = none
      ∧ countList t.tally.counts = List.replicate 12 0 ∧ t.tally.counters = counters
      ∧ t.panel.selected = (if 1 ≤ c.bayCount then some .b1 else none)
      ∧ t.panel.segmentMap = map ∧ t.panel.lamp = true ∧ t.panel.purgeHold = none
      ∧ t.panel.awaitStop = false ∧ t.panel.awaitRun = false
      ∧ (∀ button, buttonOf button t.panel =
          ⟨(buttonOf button s.panel).raw, (buttonOf button s.panel).raw, none⟩)
      ∧ displayGlyphs t = [.letterE, .blank, .blank, .digit 6]
      ∧ t.pending = s.pending

/-! ## Encoder pulses and window ends -/

/-- Every pulse in ACTIVE completes, whatever it reaches: the position goes up by one modulo 2³², the
window count goes up to 4,095 and then sets its flag; the speed, the high alarm, the others' stop set and
the parts a pulse has nothing to do with stand. -/
def Obligations.PulseAdvancesBelt : Prop :=
  ∀ s : State, s.station = .active →
    ∃ t : State, exec .encoderPulse s = .next t
      ∧ t.belt.position = s.belt.position + 1
      ∧ (s.belt.windowCount < 4095 → t.belt.windowCount = s.belt.windowCount + 1
          ∧ t.belt.windowSaturated = s.belt.windowSaturated)
      ∧ (4095 ≤ s.belt.windowCount → t.belt.windowCount = s.belt.windowCount
          ∧ t.belt.windowSaturated = true)
      ∧ KeepsBut (([.position, .window, .entryEye, .exitEye, .untracked, .exitOwner, .table, .tracks,
          .schedule, .nextSerial, .jetA, .jetB, .gates, .reject, .bays, .pushers, .ownSeq, .fates,
          .events, .openCount] : List Part) ++ stopParts) s t

/-- The next pulse reaches no key of an eye that would act there: a confirmation key lies ahead, and so
does the jam key of an eye that is COVERED and has not asked yet (R22 to R24). -/
def EyeWaits (e : Eye) (s : State) : Prop :=
  (∀ pt, (eyeOf e s).mergePending = some pt →
      posDiff (s.belt.position + 1) (posAdd pt s.settings.mergeGap) < 0)
    ∧ ∀ since, (eyeOf e s).coveredSince = some since → (eyeOf e s).level = .covered →
      (eyeOf e s).jamRequested = false →
      posDiff (s.belt.position + 1) (posAdd since (s.settings.jamLength + 1)) < 0

/-- The next pulse reaches no key of either eye. -/
def EyesQuiet (s : State) : Prop := ∀ e, EyeWaits e s

/-- What a pulse that reaches no key may change (log 7 for the model's own openCount). -/
def pulseParts : List Part := [.position, .window, .schedule, .openCount]

/-- What firing comes to at a belt position: while the due of the first entry is reached, that entry is
removed and has its whole effect, and then the first entry of what is left is looked at (R117). -/
inductive FiresTo : State → State → Prop where
  | done (s : State) (ahead : ∀ e rest, s.schedule = e :: rest → posDiff s.belt.position e.due < 0) :
      FiresTo s s
  | fire {s t : State} (e : SchedEntry) (rest : List SchedEntry) (first : s.schedule = e :: rest)
      (due : 0 ≤ posDiff s.belt.position e.due)
      (after : FiresTo (fireEntry e { s with schedule := rest }) t) : FiresTo s t

/-- A pulse that reaches no key fires nothing: every entry waits, every output, record, bay and count
stands. Where it reaches entries of the schedule and no eye's key, they fire from the head on, each with its
whole effect before the next, up to the first that is not reached (R2, R117, R124; log 8). -/
def Obligations.PulseFiresNothingBeforeDue : Prop :=
  ∀ s : State, s.station = .active → EyesQuiet s →
    ((∀ e ∈ s.schedule, posDiff (s.belt.position + 1) e.due < 0) →
        ∃ t : State, exec .encoderPulse s = .next t
          ∧ t.schedule = s.schedule.map (fun e => { e with fresh := false })
          ∧ t.belt.position = s.belt.position + 1
          ∧ KeepsBut pulseParts s t)
      ∧ ∃ t : State, exec .encoderPulse s = .next t ∧ FiresTo (advancePulse s) t

/-- A JET_FIRE reached at a pulse turns its jet on and starts its timer at the jet pulse time, also when
the jet was on; a GATE_OPEN turns its gate on, also when it was on. The entry leaves the schedule, no
record changes and nothing is counted (R118, R119). -/
def Obligations.PulseFiresJetOrGateOpen : Prop :=
  ∀ (s : State) (e : SchedEntry), s.station = .active → EyesQuiet s → s.schedule = [e] →
    0 ≤ posDiff (s.belt.position + 1) e.due →
    (∀ j, e.action = .jetFire j → ∃ t : State, exec .encoderPulse s = .next t ∧ t.schedule = []
        ∧ t.outputs = (match j with
          | .a => { s.outputs with jetA := ⟨true, some s.settings.jetPulse⟩ }
          | .b => { s.outputs with jetB := ⟨true, some s.settings.jetPulse⟩ })
        ∧ KeepsBut ((match j with | .a => .jetA | .b => .jetB) :: pulseParts) s t)
      ∧ (∀ g, e.action = .gateOpen g → ∃ t : State, exec .encoderPulse s = .next t ∧ t.schedule = []
        ∧ t.outputs = (match g with
          | .bay b => { s.outputs with gates := s.outputs.gates.set b true }
          | .reject => { s.outputs with reject := true })
        ∧ KeepsBut ((match g with | .bay _ => .gates | .reject => .reject) :: pulseParts) s t)

/-- No MARKER stands at the head of the list. -/
def NoMarkerFirst (tracks : List Record) : Prop := ∀ q l rest, tracks ≠ .marker q l :: rest

/-- A GATE_CLOSE on a bay gate reached at a pulse turns the gate off and gives the listed piece STACKED:
it lands (a CLOSING bay with none reserved left starts its settle timer), STACKED is counted with the
record's lot and code as received, the record leaves the list. Of a merged list of two the first lands, is
counted and leaves, and then the second (R82, R86, R120, R130). -/
def Obligations.PulseBayGateCloseStacks : Prop :=
  (∀ (s : State) (e : SchedEntry) (b : BayNo) (n : LocalNo) (p : Piece) (i : BeltInfo),
    s.station = .active → EyesQuiet s → s.schedule = [e] → e.action = .gateClose (.bay b) →
    e.pieces = [n] → 0 ≤ posDiff (s.belt.position + 1) e.due →
    findLocal n s.tracks = some (p, i) → NoMarkerFirst (s.tracks.eraseP (hasLocal n)) →
    ((s.bays.get b).state = .filling ∨ (s.bays.get b).state = .closing) → 0 < (s.bays.get b).reserved →
    s.settings.settle ≠ 0 → s.link.queue.length < 12 →
    ∃ t : State, exec .encoderPulse s = .next t ∧ t.schedule = []
      ∧ t.outputs.gates = s.outputs.gates.set b false
      ∧ t.bays = s.bays.set b
          { s.bays.get b with
            landed := (s.bays.get b).landed + 1
            reserved := (s.bays.get b).reserved - 1
            settle := if (s.bays.get b).state = .closing ∧ (s.bays.get b).reserved = 1
              then some s.settings.settle else (s.bays.get b).settle }
      ∧ t.tracks = s.tracks.eraseP (hasLocal n)
      ∧ t.tally.counts = { s.tally.counts with stacked := s.tally.counts.stacked + 1 }
      ∧ t.tally.counters = s.tally.counters.map (offerCounter .stacked 1 (some (p.lot, p.code)))
      ∧ KeepsBut (([.gates, .bays, .tracks, .fates, .counters, .pace, .queue] : List Part) ++ pulseParts) s t)
    ∧ ∀ (s : State) (e : SchedEntry) (b : BayNo) (n m : LocalNo) (p q : Piece) (i j : BeltInfo),
    s.station = .active → EyesQuiet s → s.schedule = [e] → e.action = .gateClose (.bay b) →
    e.pieces = [n, m] → n ≠ m → 0 ≤ posDiff (s.belt.position + 1) e.due →
    findLocal n s.tracks = some (p, i) → findLocal m s.tracks = some (q, j) →
    (∀ r ∈ s.tracks, isMarker r = false) →
    ((s.bays.get b).state = .filling ∨ (s.bays.get b).state = .closing) → 2 ≤ (s.bays.get b).reserved →
    s.settings.settle ≠ 0 → s.link.queue.length < 12 →
    ∃ t : State, exec .encoderPulse s = .next t ∧ t.schedule = []
      ∧ t.outputs.gates = s.outputs.gates.set b false
      ∧ t.bays = s.bays.set b
          { s.bays.get b with
            landed := (s.bays.get b).landed + 2
            reserved := (s.bays.get b).reserved - 2
            settle := if (s.bays.get b).state = .closing ∧ (s.bays.get b).reserved = 2
              then some s.settings.settle else (s.bays.get b).settle }
      ∧ t.tracks = (s.tracks.eraseP (hasLocal n)).eraseP (hasLocal m)
      ∧ t.tally.counts = { s.tally.counts with stacked := s.tally.counts.stacked + 2 }
      ∧ t.tally.counters =
          (s.tally.counters.map (offerCounter .stacked 1 (some (p.lot, p.code)))).map
            (offerCounter .stacked 1 (some (q.lot, q.code)))
      ∧ KeepsBut (([.gates, .bays, .tracks, .fates, .counters, .pace, .queue] : List Part) ++ pulseParts) s t

/-- A GATE_CLOSE on the reject gate reached at a pulse turns the gate off and gives the listed piece
REJECTED; an EXIT_CHECK gives LOST to a piece not seen and leaves a seen one. Each fate is counted with the
record's lot and code and the record leaves the list. Of a merged list of two the first is counted and
leaves, the marker it releases is processed, and then the second is counted and leaves (R82, R87, R88,
R121, R122; log 12). -/
def Obligations.PulseRejectCloseAndExitCheck : Prop :=
  (∀ (s : State) (e : SchedEntry) (n : LocalNo) (p : Piece) (i : BeltInfo),
    s.station = .active → EyesQuiet s → s.schedule = [e] → e.pieces = [n] →
    0 ≤ posDiff (s.belt.position + 1) e.due →
    findLocal n s.tracks = some (p, i) → NoMarkerFirst (s.tracks.eraseP (hasLocal n)) →
    s.link.queue.length < 12 →
    (e.action = .gateClose .reject → ∃ t : State, exec .encoderPulse s = .next t ∧ t.schedule = []
        ∧ t.outputs.reject = false ∧ t.tracks = s.tracks.eraseP (hasLocal n)
        ∧ t.tally.counts = { s.tally.counts with rejected := s.tally.counts.rejected + 1 }
        ∧ t.tally.counters = s.tally.counters.map (offerCounter .rejected 1 (some (p.lot, p.code)))
        ∧ KeepsBut (([.reject, .tracks, .fates, .counters, .pace, .queue] : List Part) ++ pulseParts) s t)
      ∧ (e.action = .exitCheck → i.exitSeen = false → ∃ t : State, exec .encoderPulse s = .next t
        ∧ t.schedule = [] ∧ t.tracks = s.tracks.eraseP (hasLocal n)
        ∧ t.tally.counts = { s.tally.counts with lost := s.tally.counts.lost + 1 }
        ∧ t.tally.counters = s.tally.counters.map (offerCounter .lost 1 (some (p.lot, p.code)))
        ∧ KeepsBut (([.tracks, .fates, .counters, .pace, .queue] : List Part) ++ pulseParts) s t)
      ∧ (e.action = .exitCheck → i.exitSeen = true → ∃ t : State, exec .encoderPulse s = .next t
        ∧ t.schedule = [] ∧ KeepsBut pulseParts s t))
    ∧ ∀ (s : State) (e : SchedEntry) (p q : Piece) (i j : BeltInfo) (seq : Seq) (lot : Lot)
      (rest : List Record), s.station = .active → EyesQuiet s → s.schedule = [e] →
    e.action = .gateClose .reject → e.pieces = [i.localNo, j.localNo] → i.localNo ≠ j.localNo →
    0 ≤ posDiff (s.belt.position + 1) e.due →
    s.tracks = Record.piece p :: .marker seq lot :: Record.piece q :: rest →
    p.stage = .onBelt i → q.stage = .onBelt j → NoMarkerFirst rest →
    s.settings.settle ≠ 0 → s.settings.downstream ≠ 0 → s.link.queue.length ≤ 10 →
    ∃ t : State, exec .encoderPulse s = .next t ∧ t.schedule = [] ∧ t.outputs.reject = false
      ∧ t.tracks = rest
      ∧ t.tally.counts = { s.tally.counts with rejected := s.tally.counts.rejected + 2 }
      ∧ t.tally.counters =
          ((s.tally.counters.map (offerCounter .rejected 1 (some (p.lot, p.code)))).map
            (latchCounter lot)).map (offerCounter .rejected 1 (some (q.lot, q.code)))
      ∧ t.link.ownSeq = s.link.ownSeq + 1
      ∧ (∃ age, (⟨.lotEnd s.link.ownSeq lot, age⟩ : QFrame) ∈ t.link.queue)
      ∧ KeepsBut (([.reject, .tracks, .fates, .counters, .pace, .queue, .ownSeq, .bays, .lamp] : List Part)
          ++ pulseParts) s t

/-- An exit trailing edge confirmed at a pulse passes the piece that owns the covering: an ANNOUNCE with the
contents of the table in Chapter 5 takes the own next handover seq, PASSED is counted, the record leaves,
the owner becomes absent (R23, R32, R83 to R85). -/
def Obligations.PulseExitConfirmationPasses : Prop :=
  ∀ (s : State) (pt : Pos) (n : LocalNo) (p : Piece) (i : BeltInfo),
    s.station = .active → s.schedule = [] →
    s.eyes.entry.mergePending = none → s.eyes.entry.coveredSince = none →
    s.eyes.exit.mergePending = some pt →
    0 ≤ posDiff (s.belt.position + 1) (posAdd pt s.settings.mergeGap) →
    s.eyes.exitOwner = some (.piece n) → findLocal n s.tracks = some (p, i) →
    NoMarkerFirst (s.tracks.eraseP (hasLocal n)) → s.settings.downstream ≠ 0 →
    s.link.queue.length ≤ 10 →
    ∃ t : State, exec .encoderPulse s = .next t
      ∧ (⟨.announce s.link.ownSeq p.lot p.code
            (BitVec.ofNat 16 (toMm s.settings.k (i.exitLength.getD 0)))
            (flagsToByte
              { reject := i.rejectReason.isSome
                unknown := p.announcedLen.isNone || p.flags.unknown
                disagree := i.disagree || p.flags.disagree }), s.link.nextAge⟩ : QFrame) ∈ t.link.queue
      ∧ t.link.ownSeq = s.link.ownSeq + 1
      ∧ t.tracks = s.tracks.eraseP (hasLocal n)
      ∧ t.tally.counts = { s.tally.counts with passed := s.tally.counts.passed + 1 }
      ∧ t.tally.counters = s.tally.counters.map (offerCounter .passed 1 (some (p.lot, p.code)))
      ∧ t.eyes.exitOwner = none
      ∧ t.eyes.exit = { s.eyes.exit with mergePending := none, coveredSince := none, jamRequested := false }
      ∧ KeepsBut (([.exitEye, .exitOwner, .tracks, .fates, .counters, .pace, .queue, .ownSeq] : List Part) ++ pulseParts) s t

/-- Each window end in ACTIVE completes: the window count becomes v and its flag the speed flag, the next
window begins; the high alarm crosses, holds or counts its rearm run of 25 (R5 to R9). -/
def Obligations.WindowEndMeasuresAndWatchesHigh : Prop :=
  ∀ s : State, s.station = .active →
    let high := if s.settings.highThreshold = 0 then 4095 else s.settings.highThreshold
    let fast := high < s.belt.windowCount ∨ s.belt.windowSaturated = true
    ∃ t : State, exec .windowEnd s = .next t
      ∧ t.belt.v = s.belt.windowCount ∧ t.belt.speedSaturated = s.belt.windowSaturated
      ∧ t.belt.windowCount = 0 ∧ t.belt.windowSaturated = false
      ∧ (s.belt.highArmed = true → fast →
          t.belt.speedHigh = true ∧ t.belt.highArmed = false ∧ t.belt.highRearm = 0)
      ∧ (s.belt.highArmed = true → ¬ fast → Part.high.same s t)
      ∧ (s.belt.highArmed = false → fast →
          t.belt.speedHigh = s.belt.speedHigh ∧ t.belt.highArmed = false ∧ t.belt.highRearm = 0)
      ∧ (s.belt.highArmed = false → ¬ fast → s.belt.highRearm + 1 < 25 →
          t.belt.speedHigh = s.belt.speedHigh ∧ t.belt.highArmed = false
            ∧ t.belt.highRearm = s.belt.highRearm + 1)
      ∧ (s.belt.highArmed = false → ¬ fast → 25 ≤ s.belt.highRearm + 1 →
          t.belt.speedHigh = false ∧ t.belt.highArmed = true ∧ t.belt.highRearm = 0)
      ∧ KeepsBut (([.window, .speed, .high] : List Part) ++ stopParts) s t

/-- The stall detector at a window end: with the output on, the grace spent, the low threshold armed and
the count below it, STALL is added, the belt stops and the threshold is disarmed; otherwise the grace goes
down while the output is on, and a disarmed threshold counts its rearm run of 25 (R10 to R12). -/
def Obligations.WindowEndFindsStall : Prop :=
  ∀ s : State, s.station = .active → RunLaw s →
    let stall := s.belt.run = true ∧ s.belt.grace = 0 ∧ s.belt.lowArmed = true
      ∧ s.belt.windowCount < s.settings.lowThreshold
    (stall → ∃ t : State, exec .windowEnd s = .next t
        ∧ t.stops.own = insertReason ReasonSet.none .stall ∧ t.belt.run = false ∧ t.panel.lamp = true
        ∧ t.belt.lowArmed = false ∧ t.belt.lowRearm = 0 ∧ t.belt.grace = 0
        ∧ (s.link.queue.length < 12 → (⟨.stop 2, s.link.nextAge⟩ : QFrame) ∈ t.link.queue))
      ∧ (¬ stall → ∃ t : State, exec .windowEnd s = .next t
        ∧ t.belt.grace = (if s.belt.run = true then s.belt.grace - 1 else s.belt.grace)
        ∧ (s.belt.lowArmed = true → Part.low.same s t)
        ∧ (s.belt.lowArmed = false → s.belt.windowCount < s.settings.lowThreshold →
            t.belt.lowArmed = false ∧ t.belt.lowRearm = 0)
        ∧ (s.belt.lowArmed = false → s.settings.lowThreshold ≤ s.belt.windowCount →
            s.belt.lowRearm + 1 < 25 → t.belt.lowArmed = false ∧ t.belt.lowRearm = s.belt.lowRearm + 1)
        ∧ (s.belt.lowArmed = false → s.settings.lowThreshold ≤ s.belt.windowCount →
            25 ≤ s.belt.lowRearm + 1 → t.belt.lowArmed = true ∧ t.belt.lowRearm = 0)
        ∧ KeepsBut [.window, .speed, .high, .grace, .low, .lamp] s t)

/-! ## Eyes and conditioned inputs -/

/-- EYE_RAW_CHANGE in ACTIVE: a change away from the debounced level with none pending latches the position
and starts the filter at two periods, a return discards the pending change, the level stands. A recognised
trailing edge makes the channel merge-pending with the latched position and reports nothing; a leading edge
that finds one merge-pending cancels it, covered-since stands, and nothing is reported unless the jam key
already lies behind. With no change pending EDGE_RECOGNITION has no effect (R19 to R22, R24; logs 1 and
25). -/
def Obligations.EyeFilterLatchesAndMerges : Prop :=
  ∀ (s : State) (e : Eye) (level : EyeLevel) (q : Pos) (timer : Nat), s.station = .active →
    let filter := match e with | .entry => s.settings.entryFilter | .exit => s.settings.exitFilter
    ((eyeOf e s).raw = level → exec (.eyeRawChange e level) s = .next s)
      ∧ ((eyeOf e s).raw ≠ level → exec (.eyeRawChange e level) s = .next (putEye e
          { eyeOf e s with
            raw := level
            pendingEdge :=
              if level = (eyeOf e s).level then none
              else match (eyeOf e s).pendingEdge with
                | none => some ⟨level, s.belt.position, filter⟩
                | some pending => some pending } s))
      ∧ ((eyeOf e s).pendingEdge = some ⟨.clear, q, timer⟩ →
        exec (.edgeRecognition e) s = .next (putEye e
          { eyeOf e s with level := .clear, pendingEdge := none, mergePending := some q } s))
      ∧ ((eyeOf e s).pendingEdge = some ⟨.covered, q, timer⟩ → (eyeOf e s).mergePending.isSome = true →
        ((eyeOf e s).jamRequested = true ∨ ∀ since, (eyeOf e s).coveredSince = some since →
          posDiff s.belt.position (posAdd since (s.settings.jamLength + 1)) < 0) →
        exec (.edgeRecognition e) s = .next (putEye e
          { eyeOf e s with level := .covered, pendingEdge := none, mergePending := none } s))
      ∧ ((eyeOf e s).pendingEdge = none → exec (.edgeRecognition e) s = .next s)

/-- The own reason an eye's jam asks for (R24). -/
def jamOf : Eye → StopReason
  | .entry => .jamEntry
  | .exit => .jamExit

/-- The part an eye's channel makes up. -/
def eyePart : Eye → Part
  | .entry => .entryEye
  | .exit => .exitEye

/-- The other eye. -/
def otherEye : Eye → Eye
  | .entry => .exit
  | .exit => .entry

/-- A pulse at which an eye still COVERED reaches its jam key, not asked before and with no trailing edge
pending, asks for the eye's jam reason and stops the belt, whatever else the pulse reaches; asked already,
CLEAR, or with the key ahead, it asks for none. A hole merge that finds the key behind asks at the
recognition of its leading edge (R21, R24; log 25). -/
def Obligations.JamIsRequestedOnce : Prop :=
  ∀ (s : State) (e : Eye), s.station = .active → RunLaw s →
    (∀ since, (eyeOf e s).coveredSince = some since → (eyeOf e s).mergePending = none →
        (eyeOf e s).level = .covered → (eyeOf e s).jamRequested = false →
        0 ≤ posDiff (s.belt.position + 1) (posAdd since (s.settings.jamLength + 1)) →
        ∃ t : State, exec .encoderPulse s = .next t
          ∧ eyeOf e t = { eyeOf e s with jamRequested := true }
          ∧ hasReason t.stops.own (jamOf e) = true ∧ t.belt.run = false
          ∧ (EyeWaits (otherEye e) s → s.schedule = [] →
            t.stops.own = insertReason s.stops.own (jamOf e)
              ∧ KeepsBut (eyePart e :: (stopParts ++ pulseParts)) s t))
      ∧ (((eyeOf e s).jamRequested = true ∨ (eyeOf e s).level = .clear
            ∨ ∀ since, (eyeOf e s).coveredSince = some since →
              posDiff (s.belt.position + 1) (posAdd since (s.settings.jamLength + 1)) < 0) →
        ∃ t : State, exec .encoderPulse s = .next t
          ∧ hasReason t.stops.own (jamOf e) = hasReason s.stops.own (jamOf e)
          ∧ ((eyeOf e s).mergePending = none → eyeOf e t = eyeOf e s))
      ∧ ∀ since q timer, (eyeOf e s).pendingEdge = some ⟨.covered, q, timer⟩ →
        (eyeOf e s).mergePending.isSome = true → (eyeOf e s).coveredSince = some since →
        (eyeOf e s).jamRequested = false →
        0 ≤ posDiff s.belt.position (posAdd since (s.settings.jamLength + 1)) →
        ∃ t : State, exec (.edgeRecognition e) s = .next t
          ∧ eyeOf e t = { eyeOf e s with
              level := .covered, pendingEdge := none, mergePending := none, jamRequested := true }
          ∧ t.stops.own = insertReason s.stops.own (jamOf e) ∧ t.belt.run = false
          ∧ KeepsBut (eyePart e :: stopParts) s t

/-- The belt fields of a piece at its arrival (R60, R61, R69). -/
def arrivedFields (n : LocalNo) (pLead : Pos) (orphan : Bool) : BeltInfo :=
  ⟨n, pLead, none, none, none, none, none, none, none, orphan, false, none, none, false⟩

/-- The entry channel after a leading edge that begins a new piece (R21). -/
def leadingChannel (ch : EyeChannel) (q : Pos) : EyeChannel :=
  { ch with level := .covered, pendingEdge := none, coveredSince := some q }

/-- An arrival with fewer than 12 ON_BELT turns the oldest unseen record ON_BELT in its place, with a local
number no ON_BELT record holds (the next one when it is free), and counts ENTERED (R27, R59, R60). -/
def Obligations.ArrivalPairsOldestUnseen : Prop :=
  ∀ (s : State) (q : Pos) (timer : Nat) (before after : List Record) (p : Piece),
    s.station = .active → s.eyes.entry.pendingEdge = some ⟨.covered, q, timer⟩ →
    s.eyes.entry.mergePending = none → s.tracks = before ++ Record.piece p :: after →
    (∀ r ∈ before, isUnseen r = false) → isUnseen (.piece p) = true → onBeltCount s.tracks < 12 →
    ∃ t n, exec (.edgeRecognition .entry) s = .next t
      ∧ s.tracks.any (hasLocal n) = false
      ∧ (s.tracks.any (hasLocal s.nextLocal) = false → n = s.nextLocal)
      ∧ t.nextLocal = n + 1
      ∧ t.tracks = before ++ Record.piece { p with stage := .onBelt (arrivedFields n q false) } :: after
      ∧ t.eyes.entry = leadingChannel s.eyes.entry q
      ∧ t.tally.counts = { s.tally.counts with
          entered := s.tally.counts.entered + 1, linkDrop := t.tally.counts.linkDrop }
      ∧ KeepsBut (([.entryEye, .tracks, .nextLocal, .fates] : List Part) ++ sendParts) s t

/-- An arrival that finds no unseen record, with fewer than 12 ON_BELT and a place free, inserts an ON_BELT
orphan at the tail: no seq, lot 0, code 0, no announced length, no flags, ORPHAN set; ENTERED and ORPHAN
are counted (R59, R61). -/
def Obligations.ArrivalWithoutRecordIsOrphan : Prop :=
  ∀ (s : State) (q : Pos) (timer : Nat),
    s.station = .active → s.eyes.entry.pendingEdge = some ⟨.covered, q, timer⟩ →
    s.eyes.entry.mergePending = none → (∀ r ∈ s.tracks, isUnseen r = false) →
    onBeltCount s.tracks < 12 → s.tracks.length < 24 →
    ∃ t n, exec (.edgeRecognition .entry) s = .next t
      ∧ s.tracks.any (hasLocal n) = false ∧ t.nextLocal = n + 1
      ∧ (s.tracks.any (hasLocal s.nextLocal) = false → n = s.nextLocal)
      ∧ t.tracks = s.tracks ++
          [Record.piece ⟨none, 0, 0, none, ⟨false, false, false⟩, .onBelt (arrivedFields n q true)⟩]
      ∧ t.eyes.entry = leadingChannel s.eyes.entry q
      ∧ t.tally.counts = { s.tally.counts with
          entered := s.tally.counts.entered + 1, orphan := s.tally.counts.orphan + 1
          linkDrop := t.tally.counts.linkDrop }
      ∧ KeepsBut (([.entryEye, .tracks, .nextLocal, .fates, .events] : List Part) ++ sendParts) s t

/-- An arrival with 12 ON_BELT, or needing an orphan in a full list, is an overrun: the oldest unseen record
is consumed without a count, OVERRUN is counted, the piece is untracked, OVERRUN is among the own reasons
and the belt is off; no record is made and ENTERED stands (R27, R61, R62). -/
def Obligations.ArrivalBeyondTheLimitsIsOverrun : Prop :=
  ∀ (s : State) (q : Pos) (timer : Nat),
    s.station = .active → RunLaw s → s.eyes.entry.pendingEdge = some ⟨.covered, q, timer⟩ →
    s.eyes.entry.mergePending = none →
    (12 ≤ onBeltCount s.tracks ∨ (s.tracks.any isUnseen = false ∧ 24 ≤ s.tracks.length)) →
    NoMarkerFirst (s.tracks.eraseP isUnseen) →
    ∃ t : State, exec (.edgeRecognition .entry) s = .next t
      ∧ t.tracks = s.tracks.eraseP isUnseen ∧ t.eyes.untracked = true
      ∧ t.tally.counts = { s.tally.counts with
          overrun := s.tally.counts.overrun + 1, linkDrop := t.tally.counts.linkDrop }
      ∧ t.stops.own = insertReason s.stops.own .overrun ∧ t.belt.run = false
      ∧ t.eyes.entry = leadingChannel s.eyes.entry q
      ∧ KeepsBut (([.entryEye, .untracked, .tracks, .events] : List Part) ++ stopParts) s t

/-- The oldest ON_BELT piece routed to EXIT that has not been seen (R29). -/
def exitCandidateOf (s : State) : Option BeltInfo :=
  ((s.tracks.filterMap beltOf).map Prod.snd).find? fun i =>
    decide (i.route = some .exit) && !i.exitSeen

/-- A leading edge at the exit eye is the oldest unseen exit-routed piece's when it lies within the exit
tolerance of E_x: exit seen is set, its EXIT_CHECK leaves the schedule, it owns the covering. Otherwise it
is a STRAY: counted, the owner IGNORED, no record changed (R29). -/
def Obligations.ExitLeadingEdgeIsJudged : Prop :=
  ∀ (s : State) (q : Pos) (timer : Nat),
    s.station = .active → s.eyes.exit.pendingEdge = some ⟨.covered, q, timer⟩ →
    s.eyes.exit.mergePending = none →
    (∀ i ex, exitCandidateOf s = some i → i.exitPos = some ex →
        (posDiff q ex).natAbs ≤ s.settings.exitTol →
        ∃ t : State, exec (.edgeRecognition .exit) s = .next t
          ∧ t.eyes.exitOwner = some (.piece i.localNo)
          ∧ t.eyes.exit = leadingChannel s.eyes.exit q
          ∧ t.tracks = updateLocal i.localNo
              (fun p x => .piece { p with stage := .onBelt { x with exitSeen := true } }) s.tracks
          ∧ (∀ e, e ∈ t.schedule ↔
              e ∈ s.schedule ∧ ¬ (e.action = .exitCheck ∧ i.localNo ∈ e.pieces))
          ∧ KeepsBut [.exitEye, .exitOwner, .tracks, .schedule] s t)
      ∧ ((∀ i ex, exitCandidateOf s = some i → i.exitPos = some ex →
            s.settings.exitTol < (posDiff q ex).natAbs) →
        (∀ i, exitCandidateOf s = some i → i.exitPos.isSome = true) →
        ∃ t : State, exec (.edgeRecognition .exit) s = .next t
          ∧ t.eyes.exitOwner = some .ignored
          ∧ t.eyes.exit = leadingChannel s.eyes.exit q
          ∧ t.tally.counts.stray = s.tally.counts.stray + 1
          ∧ t.tally.counters = s.tally.counters.map (offerCounter .stray 1 none)
          ∧ KeepsBut [.exitEye, .exitOwner, .events, .counters] s t
          ∧ t.tally.counts = { s.tally.counts with stray := s.tally.counts.stray + 1 })

/-- A raw change at a button or at an input of a configured bay in ACTIVE starts or discards a pending
change of 16 ms; its level stands, and no other part changes (R34). -/
def Obligations.ConditionedInputStartsFilter : Prop :=
  ∀ (s : State) (level : Bool), s.station = .active →
    let after := fun x : CondInput =>
      if x.raw = level then x
      else { x with
        raw := level
        pendingLevel :=
          if level = x.level then none
          else match x.pendingLevel with
            | none => some ⟨level, 16⟩
            | some pending => some pending }
    (∀ b : Button, exec (.conditionedInputRawChange (.button b) level) s =
        .next (putButton b (after (buttonOf b s.panel)) s))
      ∧ (∀ b : BayNo, b.num ≤ s.settings.bayCount →
        exec (.conditionedInputRawChange (.bay .high b) level) s =
            .next { s with bayHigh := s.bayHigh.set b (after (s.bayHigh.get b)) }
          ∧ exec (.conditionedInputRawChange (.bay .clear b) level) s =
            .next { s with bayClear := s.bayClear.set b (after (s.bayClear.get b)) })

/-! ## The planner and the schedule -/

/-- From a code, the LINK entries of a path are visited one after another, and the last of them leads to
the code at its end (R42). -/
def FollowsLinks (table : List CategoryEntry) : Code → List Code → Code → Prop
  | code, [], last => code = last
  | code, visited :: path, last => visited = code ∧ ∃ entry target, lookupCode table code = some entry
      ∧ entry.kind = .link target ∧ FollowsLinks table target path last

/-- Resolution in a table that holds each code once and a PLAN at code 0: the result is always a PLAN; a
PLAN's own code resolves to it with one raise; an absent code resolves to entry 0 with one raise and no
fault. Up to three links followed by a PLAN resolve to that PLAN, each visited entry raised once; a link to
an absent code within four visits, and a fourth visited link, are a chain fault, which ends at entry 0 with
the visited links and entry 0 raised. Codes and kinds stand and use counts never fall (R41 to R44). -/
def Obligations.ResolutionEndsAtPlan : Prop :=
  ∀ (code : Code) (table : List CategoryEntry), (table.map CategoryEntry.code).Nodup →
    (∃ p, planOf 0 table = some p) →
    (∃ p, planOf (resolveCode code table).code (resolveCode code table).table = some p)
      ∧ (∀ p, planOf code table = some p →
        resolveCode code table = ⟨code, false, raiseUse code table⟩)
      ∧ (lookupCode table code = none → resolveCode code table = ⟨0, false, raiseUse 0 table⟩)
      ∧ ((resolveCode code table).chainFault = true → (resolveCode code table).code = 0)
      ∧ (∀ path last, FollowsLinks table code path last →
        (∀ p, path.length ≤ 3 → planOf last table = some p → resolveCode code table =
            ⟨last, false, (path ++ [last]).foldl (fun t c => raiseUse c t) table⟩)
          ∧ (1 ≤ path.length → path.length ≤ 4 → lookupCode table last = none → resolveCode code table =
            ⟨0, true, (path ++ [0]).foldl (fun t c => raiseUse c t) table⟩)
          ∧ (path.length = 4 → resolveCode code table =
            ⟨0, true, (path ++ [0]).foldl (fun t c => raiseUse c t) table⟩))
      ∧ (resolveCode code table).table.map (fun e => (e.code, e.kind)) =
          table.map (fun e => (e.code, e.kind))
      ∧ ∀ c e e', lookupCode table c = some e →
          lookupCode (resolveCode code table).table c = some e' → e.uses ≤ 65535 →
          e.uses ≤ e'.uses ∧ e'.uses ≤ 65535

/-- A bay may take the piece: allowed, configured, its open due not late, and EMPTY or FILLING with the
piece's lot and plan code below its target (R127). -/
def MayTake (s : State) (plan : PlanFields) (lot : Lot) (code : Code) (openDue : BayNo → Pos) (pNow : Pos)
    (b : BayNo) : Prop :=
  b.num ≤ s.settings.bayCount ∧ plan.allowed.get b = true
    ∧ (s.settings.lateMargin : Int) ≤ posDiff (openDue b) pNow
    ∧ ((s.bays.get b).state = .empty
      ∨ ((s.bays.get b).state = .filling ∧ (s.bays.get b).lot = some lot
        ∧ (s.bays.get b).planCode = some code
        ∧ ∃ n, (s.bays.get b).target = some n ∧ (s.bays.get b).landed + (s.bays.get b).reserved < n))

/-- The bays choose the lowest numbered bay that may take the piece, and none when no bay may (R127). -/
def Obligations.LowestQualifyingBayIsChosen : Prop :=
  ∀ (s : State) (plan : PlanFields) (lot : Lot) (code : Code) (openDue : BayNo → Pos) (pNow : Pos),
    BayLaw s →
    (∀ b, chooseBay s plan lot code openDue pNow = some b ↔
        MayTake s plan lot code openDue pNow b
          ∧ ∀ c : BayNo, c.num < b.num → ¬ MayTake s plan lot code openDue pNow c)
      ∧ (chooseBay s plan lot code openDue pNow = none ↔
        ∀ b, ¬ MayTake s plan lot code openDue pNow b)

/-- A chosen EMPTY bay is claimed with the piece's lot, plan code and target and holds one reservation; a
chosen FILLING bay holds one more. The bay enters CLOSING with TARGET exactly when landed + reserved comes
to the target (R128, R129). -/
def Obligations.ClaimAndReservation : Prop :=
  ∀ (s : State) (b : BayNo) (lot : Lot) (code : Code) (target : Nat), BayLaw s → 1 ≤ target →
    ((s.bays.get b).state = .empty →
        ((reserveBay b (claimBay b lot code target s)).bays.get b) =
          { s.bays.get b with
            state := if target = 1 then .closing else .filling
            lot := some lot, planCode := some code, landed := 0, reserved := 1
            target := some target
            reason := if target = 1 then some .target else none
            stackQueued := false })
      ∧ (∀ n, (s.bays.get b).state = .filling → (s.bays.get b).target = some n →
        ((reserveBay b (claimBay b lot code target s)).bays.get b) =
          { s.bays.get b with
            reserved := (s.bays.get b).reserved + 1
            state := if (s.bays.get b).landed + (s.bays.get b).reserved + 1 = n then .closing else .filling
            reason := if (s.bays.get b).landed + (s.bays.get b).reserved + 1 = n then some .target
              else (s.bays.get b).reason })
      ∧ (∀ c : BayNo, c ≠ b →
        (reserveBay b (claimBay b lot code target s)).bays.get c = s.bays.get c)
      ∧ KeepsBut (([.bays, .lamp] : List Part) ++ sendParts) s (reserveBay b (claimBay b lot code target s))

/-- A disagreeing piece takes the identity of the oldest unseen record when that record is ANNOUNCED, its
announced length agrees and no MARKER stands between: the record leaves the list, GHOST is counted with the
identity given up and SKIP_AHEAD with the one taken, DISAGREE stays clear (R64, R65). -/
def Obligations.SkipAheadTakesNextIdentity : Prop :=
  ∀ (s : State) (w : Work) (cand : Piece) (a c window : Nat) (before after : List Record),
    w.piece.announcedLen = some a → 0 < a → w.lmm * 64 < (128 - s.settings.tol) * a →
    s.settings.tol * a < ((w.lmm - a) + (a - w.lmm)) * 64 →
    s.tracks = before ++ Record.piece cand :: after → (∀ r ∈ before, isUnseen r = false) →
    cand.stage = .announced window → cand.announcedLen = some c → 0 < c →
    ((w.lmm - c) + (c - w.lmm)) * 64 ≤ s.settings.tol * c →
    (∀ r ∈ before.dropWhile (fun r => !hasLocal w.info.localNo r), isMarker r = false) →
    NoMarkerFirst (before ++ after) →
    (stageJudge w s).1 = { w with piece := { w.piece with
        seq := cand.seq, lot := cand.lot, code := cand.code, announcedLen := cand.announcedLen,
        flags := cand.flags } }
      ∧ (stageJudge w s).2.tracks = before ++ after
      ∧ (stageJudge w s).2.tally.counts = { s.tally.counts with ghost := s.tally.counts.ghost + 1 }
      ∧ (stageJudge w s).2.tally.counters =
          (s.tally.counters.map (offerCounter .ghost 1 (some (w.piece.lot, w.piece.code)))).map
            (offerCounter .skipAhead 1 (some (cand.lot, cand.code)))
      ∧ KeepsBut [.tracks, .events, .counters] s (stageJudge w s).2

/-- v_c: the last speed, clamped to the effective high threshold (R97). -/
def speedForLeads (s : State) : Nat :=
  min s.belt.v (if s.settings.highThreshold = 0 then 4095 else s.settings.highThreshold)

/-- The jet fire due of a fold at offset a (R100). -/
def jetDueOf (s : State) (pLead : Pos) (j : Jet) (a : Nat) : Pos :=
  pLead + BitVec.ofNat 32 (a + (match j with | .a => s.settings.jetA | .b => s.settings.jetB))
    - BitVec.ofNat 32 ((speedForLeads s * (match j with
      | .a => s.settings.tA | .b => s.settings.tB) + 100) / 200)

/-- A due is late for a planning at pNow (R100, R104). -/
def IsLateAt (s : State) (due pNow : Pos) : Prop := posDiff due pNow < (s.settings.lateMargin : Int)

/-- A pending fire on the jet lies strictly within the jet guard of a due (R114). -/
def JetIsBusy (s : State) (j : Jet) (due : Pos) : Prop :=
  ∃ e ∈ s.schedule, e.action = .jetFire j ∧ (posDiff e.due due).natAbs < s.settings.jetGuard

/-- For a piece with a plan that folds and no reject reason, the fold is refused LATE exactly when its due
is late, JET_BUSY exactly when it is not late and the guard refuses it, each counted with the piece's lot
and code and the piece handled unfolded; otherwise the fold is kept with its jet, offset and due. A piece
without such a plan, or with a reject reason, is left as it is (R75, R99, R100, R114). -/
def Obligations.KeptFoldIsInTimeAndGuarded : Prop :=
  ∀ (s : State) (w : Work),
    (∀ (plan : PlanFields) (f : PlanFold), w.plan = some plan → plan.fold = some f →
        w.info.rejectReason = none →
        let a := (f.fraction * w.lp + 128) / 256
        let due := jetDueOf s w.info.pLead f.jet a
        (IsLateAt s due (w.pNow s.settings) →
            (stageFold w s).1 = { w with info := { w.info with rejectReason := some .late } }
              ∧ (stageFold w s).2.tally.counters = s.tally.counters.map
                  (offerCounter .late 1 (some (w.piece.lot, w.piece.code)))
              ∧ KeepsBut [.counters] s (stageFold w s).2)
          ∧ (¬ IsLateAt s due (w.pNow s.settings) → JetIsBusy s f.jet due →
            (stageFold w s).1 = { w with info := { w.info with rejectReason := some .jetBusy } }
              ∧ (stageFold w s).2.tally.counters = s.tally.counters.map
                  (offerCounter .jetBusy 1 (some (w.piece.lot, w.piece.code)))
              ∧ KeepsBut [.counters] s (stageFold w s).2)
          ∧ (¬ IsLateAt s due (w.pNow s.settings) → ¬ JetIsBusy s f.jet due →
            stageFold w s = ({ w with info := { w.info with fold := some ⟨f.jet, a, due⟩ } }, s)))
      ∧ (w.info.rejectReason.isSome = true ∨ (∀ plan, w.plan = some plan → plan.fold = none) →
        stageFold w s = (w, s))

/-- The piece measures about twice its announced length or more (R109). -/
def MeasuresDouble (s : State) (p : Piece) (mm : Nat) : Prop :=
  ∃ a, p.announcedLen = some a ∧ 0 < a ∧ (128 - s.settings.tol) * a ≤ mm * 64

/-- The piece's announced length is tested and disagrees (R108). -/
def MeasuresOther (s : State) (p : Piece) (mm : Nat) : Prop :=
  ∃ a, p.announcedLen = some a ∧ 0 < a ∧ s.settings.tol * a < ((mm - a) + (a - mm)) * 64

/-- What stage 5 comes to for a plan, the lengths being in its range (R75). -/
def FoldPlanned (s : State) (plan : PlanFields) (pNow : Pos) (lp : Nat) (i : BeltInfo) : Prop :=
  (plan.fold = none → i.fold = none ∧ i.rejectReason ≠ some .late ∧ i.rejectReason ≠ some .jetBusy)
    ∧ ∀ f, plan.fold = some f →
      let a := (f.fraction * lp + 128) / 256
      let due := jetDueOf s i.pLead f.jet a
      (IsLateAt s due pNow → i.fold = none ∧ i.rejectReason = some .late)
        ∧ (¬ IsLateAt s due pNow → JetIsBusy s f.jet due → i.fold = none ∧ i.rejectReason = some .jetBusy)
        ∧ (¬ IsLateAt s due pNow → ¬ JetIsBusy s f.jet due → i.fold = some ⟨f.jet, a, due⟩
          ∧ i.rejectReason ≠ some .late ∧ i.rejectReason ≠ some .jetBusy)

/-- What stage 6 comes to for a piece no earlier stage rejected: the lowest bay that may take it, else the
plan's alternate (R76, R77). -/
def RoutePlanned (s : State) (plan : PlanFields) (pNow : Pos) (lot : Lot) (code : Code) (i : BeltInfo) :
    Prop :=
  let openDue : BayNo → Pos := fun b =>
    i.pLead + BitVec.ofNat 32 ((i.fold.map Fold.offset).getD 0 + s.settings.gate.get b)
      - BitVec.ofNat 32 ((speedForLeads s * s.settings.tG + 100) / 200)
  (∀ b, MayTake s plan lot code openDue pNow b →
      (∀ c : BayNo, c.num < b.num → ¬ MayTake s plan lot code openDue pNow c) →
      i.route = some (.bay b) ∧ i.rejectReason = none)
    ∧ ((∀ b, ¬ MayTake s plan lot code openDue pNow b) →
      if plan.alternate = .pass ∧ s.settings.downstream ≠ 0
      then i.route = some .exit ∧ i.rejectReason = none else i.rejectReason = some .noRoute)

/-- What the eight stages, planning the piece p with belt fields i and trailing edge at pt, leave as its
record p' with belt fields i': the values of stages 1 and 7, and the first reject reason found, the fold and
the route of stages 2 to 6 (R70 to R78, R107 to R109). -/
def PlannedRecord (s : State) (pt : Pos) (p p' : Piece) (i i' : BeltInfo) : Prop :=
  let lp := measuredLength pt i.pLead
  let mm := toMm s.settings.k lp
  let pNow := posAdd pt s.settings.mergeGap
  let result := (resolveCode p'.code s.table).code
  i'.localNo = i.localNo ∧ i'.pLead = i.pLead ∧ i'.pTrail = some pt ∧ i'.orphan = i.orphan
    ∧ i'.exitSeen = i.exitSeen ∧ i'.lengthP = some lp ∧ i'.lengthMm = some mm
    ∧ i'.exitLength = some (match i'.fold with
      | some f => max f.offset (lp - f.offset)
      | none => lp)
    ∧ i'.exitPos = some (posAdd i.pLead ((i'.fold.map Fold.offset).getD 0 + s.settings.exitDist))
    ∧ (MeasuresDouble s p mm ∨ ¬ MeasuresOther s p mm →
      p' = { p with stage := .onBelt i' } ∧ i'.disagree = i.disagree)
    ∧ (¬ MeasuresDouble s p mm → MeasuresOther s p mm → (∀ r ∈ s.tracks, isUnseen r = false) →
      p' = { p with stage := .onBelt i' } ∧ i'.disagree = true)
    ∧ (MeasuresDouble s p mm → i'.rejectReason = some .double)
    ∧ (¬ MeasuresDouble s p mm → p'.flags.reject = true → i'.rejectReason = some .upstreamReject)
    ∧ i'.planCode = (if p'.flags.reject = true then i.planCode else some result)
    ∧ (∀ plan, ¬ MeasuresDouble s p mm → p'.flags.reject = false → planOf result s.table = some plan →
      (mm < plan.minLen → i'.rejectReason = some .short)
        ∧ (plan.minLen ≤ mm → plan.maxLen < mm → i'.rejectReason = some .long)
        ∧ (plan.minLen ≤ mm → mm ≤ plan.maxLen → FoldPlanned s plan pNow lp i'
          ∧ (i'.rejectReason ≠ some .late → i'.rejectReason ≠ some .jetBusy →
            RoutePlanned s plan pNow p'.lot result i')))
    ∧ (i'.rejectReason.isSome = true →
      i'.route = some (if s.settings.reject = 0 then .exit else .reject))
    ∧ (∀ r, i'.rejectReason = some r → r ≠ .noRoute → i'.fold = none)
    ∧ i'.route.isSome = true

/-- A pulse that reaches the confirmation key of the entry eye, and nothing else, confirms the trailing
edge. An untracked piece only clears the untracked flag; with no piece under measurement nothing is planned;
otherwise the eight stages run on the newest ON_BELT piece that has no trailing edge: its record is planned,
the category table carries the raises of its resolution, a bay it is routed to holds one reservation more
(R23, R28, R63, R70 to R78, R96, R101, R107 to R109). -/
def Obligations.PlanningCompletesTheRecord : Prop :=
  ∀ (s : State) (pt : Pos), s.station = .active → s.eyes.entry.mergePending = some pt →
    0 ≤ posDiff (s.belt.position + 1) (posAdd pt s.settings.mergeGap) → EyeWaits .exit s →
    (∀ e ∈ s.schedule, posDiff (s.belt.position + 1) e.due < 0) →
    let confirmed : EyeChannel :=
      { s.eyes.entry with mergePending := none, coveredSince := none, jamRequested := false }
    (s.eyes.untracked = true → ∃ t : State, exec .encoderPulse s = .next t
        ∧ t.eyes.entry = confirmed ∧ t.eyes.untracked = false
        ∧ t.schedule = s.schedule.map (fun e => { e with fresh := false })
        ∧ KeepsBut (.entryEye :: .untracked :: pulseParts) s t)
      ∧ (s.eyes.untracked = false →
        (∀ r ∈ s.tracks, ∀ q j, beltOf r = some (q, j) → j.pTrail.isSome = true) →
        ∃ t : State, exec .encoderPulse s = .next t ∧ t.eyes.entry = confirmed
          ∧ t.schedule = s.schedule.map (fun e => { e with fresh := false })
          ∧ KeepsBut (.entryEye :: pulseParts) s t)
      ∧ ∀ (before after : List Record) (p : Piece) (i : BeltInfo), s.eyes.untracked = false →
        s.tracks = before ++ Record.piece p :: after → p.stage = .onBelt i → i.pTrail = none →
        (∀ r ∈ after, ∀ q j, beltOf r = some (q, j) → j.pTrail.isSome = true) →
        (∀ r ∈ before ++ after, hasLocal i.localNo r = false) →
        i.fold = none → i.rejectReason = none →
        (∃ first rest, s.tracks = first :: rest ∧ isOnBelt first = true) →
        ∃ t p' i', exec .encoderPulse s = .next t ∧ t.eyes.entry = confirmed
          ∧ findLocal i.localNo t.tracks = some (p', i') ∧ PlannedRecord s pt p p' i i'
          ∧ t.table = (if p'.flags.reject = true then s.table else (resolveCode p'.code s.table).table)
          ∧ (∀ b, i'.route = some (.bay b) → (t.bays.get b).reserved = (s.bays.get b).reserved + 1
            ∧ ∀ c : BayNo, c ≠ b → t.bays.get c = s.bays.get c)
          ∧ ((∀ b, i'.route ≠ some (.bay b)) → t.bays = s.bays)
          ∧ KeepsBut (([.entryEye, .tracks, .table, .nextSerial, .bays, .lamp, .events] : List Part)
              ++ sendParts ++ pulseParts) s t

/-- The gate close due at distance `dist`, for a piece whose gate opens at `openDue` (R101, R106). -/
def closeDueOf (s : State) (w : Work) (dist : Nat) (openDue : Pos) : Pos :=
  let exitLength := if w.info.fold.isSome then max w.offset (w.lp - w.offset) else w.lp
  let formed := w.info.pLead + BitVec.ofNat 32 (w.offset + exitLength + dist + s.settings.closeMargin)
  let least := if 0 ≤ posDiff openDue s.belt.position then openDue else s.belt.position
  if posDiff formed least < 2 then least + 2 else formed

/-- The gate open due at distance `dist` (R98, R103). -/
def openDueOf (s : State) (w : Work) (dist : Nat) : Pos :=
  w.info.pLead + BitVec.ofNat 32 (w.offset + dist)
    - BitVec.ofNat 32 ((speedForLeads s * s.settings.tG + 100) / 200)

/-- The entries a planning stores in an empty schedule: a kept fold's JET_FIRE at its due, then by the route
the bay gate's open and close, the reject gate's (its late open moved to P_now), or the EXIT_CHECK at E_x +
tolerance or else P_now + 1 (R78, R79, R101 to R106, R113; logs 8 and 18). -/
def Obligations.PlannedEntriesAreDue : Prop :=
  ∀ (s : State) (w : Work), s.schedule = [] →
    let c := s.settings
    let n := w.info.localNo
    let pNow := w.info.pTrail.getD 0 + BitVec.ofNat 32 c.mergeGap
    let fires : List SchedEntry := match w.info.fold with
      | some f => [⟨f.due, .jetFire f.jet, [n], s.nextSerial, true⟩]
      | none => []
    let next := s.nextSerial + fires.length
    (∀ b, w.info.route = some (.bay b) →
        let openDue := openDueOf s w (c.gate.get b)
        (stageInsert w s).schedule.Perm (fires ++
          [⟨openDue, .gateOpen (.bay b), [n], next, true⟩,
            ⟨closeDueOf s w (c.gate.get b) openDue, .gateClose (.bay b), [n], next + 1, true⟩]))
      ∧ (w.info.route = some .reject →
        let onTime := openDueOf s w c.reject
        let openDue := if posDiff onTime pNow < (c.lateMargin : Int) then pNow else onTime
        (stageInsert w s).schedule.Perm (fires ++
          [⟨openDue, .gateOpen .reject, [n], next, true⟩,
            ⟨closeDueOf s w c.reject openDue, .gateClose .reject, [n], next + 1, true⟩]))
      ∧ (w.info.route = some .exit →
        let due := w.info.pLead + BitVec.ofNat 32 (w.offset + c.exitDist) + BitVec.ofNat 32 c.exitTol
        (stageInsert w s).schedule.Perm (fires ++
          [⟨if 0 < posDiff due pNow then due else pNow + 1, .exitCheck, [n], next, true⟩]))
      ∧ KeepsBut [.schedule, .nextSerial] s (stageInsert w s)

/-- The order of the schedule at a belt position: no entry has one before it that should stand behind it
(R111). -/
def InOrder (position : Pos) (schedule : List SchedEntry) : Prop :=
  schedule.Pairwise fun x y => posDiff x.due position < posDiff y.due position
    ∨ (posDiff x.due position = posDiff y.due position ∧ x.serial < y.serial)

/-- Every serial of the schedule has been given out, and no two entries share one (log 18). -/
def SerialsOk (s : State) : Prop :=
  (∀ e ∈ s.schedule, e.serial < s.nextSerial) ∧ (s.schedule.map SchedEntry.serial).Nodup

/-- Inserting an entry, and inserting or merging a gate interval, keep the schedule in due order with equal
dues in the order of their insertion; so does every step from a state in which no due lies 2³¹ pulses from
the belt position, where the signed comparison ends (R2, R111, R113, R116; log 18). -/
def Obligations.InsertionKeepsScheduleOrder : Prop :=
  ∀ s : State, InOrder s.belt.position s.schedule → SerialsOk s →
    (∀ a due pieces, InOrder s.belt.position (addEntry a due pieces s).schedule
        ∧ SerialsOk (addEntry a due pieces s))
      ∧ (∀ g openDue closeDue n, InOrder s.belt.position (insertGate g openDue closeDue n s).schedule
        ∧ SerialsOk (insertGate g openDue closeDue n s))
      ∧ ∀ t : State, (∀ e ∈ s.schedule, -2147483648 < posDiff e.due s.belt.position) →
        step s = .next t → InOrder t.belt.position t.schedule ∧ SerialsOk t

/-- A gate interval that meets a pending GATE_CLOSE on its gate due at its open or later joins it: no
GATE_OPEN is added for the piece, the close takes the new due and the piece joins the end of its list; one
that meets none is inserted as an open and a close (R113, R116; logs 8, 18 and 22). -/
def Obligations.GateIntervalsMerge : Prop :=
  ∀ (s : State) (g : Gate) (openDue closeDue : Pos) (n : LocalNo),
    ((∀ e ∈ s.schedule, e.action = .gateClose g → posDiff e.due openDue < 0) →
        (insertGate g openDue closeDue n s).schedule.Perm
          (⟨openDue, .gateOpen g, [n], s.nextSerial, true⟩
            :: ⟨closeDue, .gateClose g, [n], s.nextSerial + 1, true⟩ :: s.schedule))
      ∧ (∀ before old after, s.schedule = before ++ old :: after → old.action = .gateClose g →
        0 ≤ posDiff old.due openDue →
        (∀ e ∈ after, e.action = .gateClose g → posDiff e.due openDue < 0) →
        (∀ e ∈ before ++ after, e.serial ≠ old.serial) →
        (insertGate g openDue closeDue n s).schedule.Perm
          (⟨closeDue, .gateClose g, old.pieces ++ [n], s.nextSerial, true⟩
            :: (before ++ after).map fun e =>
              if e.action = .gateOpen g ∧ 0 < posDiff e.due openDue
              then { e with due := openDue, fresh := true } else e))

/-! ## The panel and the bays -/

/-- STOP_PRESS adds OPERATOR whatever the belt and the other stations do; from an empty set it queues STOP
with reason 1, otherwise nothing; the belt is off and the lamp lit; with RUN held the purge hold starts at
2,000 ms and notes the belt-run output as it stood. A release of STOP leaves the set (R13, R146 to R148,
R153; log 17). -/
def Obligations.StopPressAddsOperator : Prop :=
  ∀ s : State, s.station = .active → RunLaw s → LampLaw s →
    (∃ t : State, exec .stopPress s = .next t
      ∧ t.stops.own = insertReason s.stops.own .operator ∧ t.belt.run = false ∧ t.panel.lamp = true
      ∧ t.panel.stop = ⟨true, true, none⟩ ∧ t.panel.run = s.panel.run
      ∧ t.panel.select = s.panel.select ∧ t.panel.close = s.panel.close
      ∧ t.panel.purgeHold =
          (if s.panel.run.level = true then some ⟨2000, s.belt.run⟩ else s.panel.purgeHold)
      ∧ (s.stops.own = ReasonSet.none → s.link.queue.length < 12 →
          t.link.queue = insertFrame ⟨.stop 1, s.link.nextAge⟩
            (s.link.queue.filter fun f => frameGroup f.body != .stopRun))
      ∧ (s.stops.own ≠ ReasonSet.none → Part.queue.same s t)
      ∧ KeepsBut (([.buttons, .purgeHold, .own, .run, .lamp] : List Part) ++ sendParts) s t)
    ∧ ∃ t : State, exec (.buttonRelease .stop) s = .next t ∧ t.stops = s.stops

/-- What a RUN press leaves of the own reasons: a jam whose eye is covered (R149). -/
def reasonsLeft (s : State) : ReasonSet :=
  { operator := false, stall := false, overrun := false, restart := false
    jamEntry := s.stops.own.jamEntry && s.eyes.entry.level == .covered
    jamExit := s.stops.own.jamExit && s.eyes.exit.level == .covered }

/-- RUN_PRESS with STOP up clears the reasons that may be cleared; with the set then empty RUN joins the
queue, also when it was empty before, and the belt runs when no other station stops it, its grace loaded
with 10 and the low threshold armed at a turn-on. With STOP held it only starts the purge hold (R13, R14,
R149, R153; log 17). -/
def Obligations.RunPressClearsReasons : Prop :=
  ∀ s : State, s.station = .active →
    (s.panel.stop.level = false → ∃ t : State, exec .runPress s = .next t
        ∧ t.stops.own = reasonsLeft s ∧ t.panel.run = ⟨true, true, none⟩
        ∧ (t.belt.run = true ↔ reasonsLeft s = ReasonSet.none ∧ s.stops.others = [])
        ∧ (s.belt.run = false → t.belt.run = true →
            t.belt.grace = 10 ∧ t.belt.lowArmed = true ∧ t.belt.lowRearm = 0)
        ∧ (s.belt.run = t.belt.run → Part.grace.same s t ∧ Part.low.same s t)
        ∧ (reasonsLeft s = ReasonSet.none → s.link.queue.length < 12 →
            t.link.queue = insertFrame ⟨.run, s.link.nextAge⟩
              (s.link.queue.filter fun f => frameGroup f.body != .stopRun))
        ∧ (reasonsLeft s ≠ ReasonSet.none → Part.queue.same s t)
        ∧ KeepsBut (.buttons :: stopParts) s t)
      ∧ (s.panel.stop.level = true → exec .runPress s = .next { s with panel := { s.panel with
          run := ⟨true, true, none⟩, purgeHold := some ⟨2000, s.belt.run⟩ } })

/-- SELECT_PRESS moves the selection to the next configured bay in number order, from the highest back to
bay 1; with no bay selected it has no effect on the selection (R180; log 17). -/
def Obligations.SelectPressMovesSelection : Prop :=
  ∀ s : State, s.station = .active →
    ∃ t : State, exec .selectPress s = .next t ∧ t.panel.select = ⟨true, true, none⟩
      ∧ (s.panel.selected = none → t.panel.selected = none)
      ∧ (∀ b, s.panel.selected = some b → b.num < s.settings.bayCount → s.settings.bayCount ≤ 4 →
          ∃ c, t.panel.selected = some c ∧ c.num = b.num + 1)
      ∧ (∀ b, s.panel.selected = some b → s.settings.bayCount ≤ b.num →
          t.panel.selected = some .b1)
      ∧ t.panel.stop = s.panel.stop ∧ t.panel.run = s.panel.run ∧ t.panel.close = s.panel.close
      ∧ KeepsBut [.buttons, .selected] s t

/-- What a closing of bay b with a reason leaves of it (R134 to R138): a FILLING bay enters CLOSING with
the reason; with nothing reserved its settle timer starts, and a settle time of 0 takes it on at once, to
EMPTY with nothing landed and to DISCHARGING with the pusher on otherwise (log 13). Another state stands. -/
def ClosedBay (b : BayNo) (r : CloseReason) (s t : State) : Prop :=
  let y := s.bays.get b
  let closing : Bay := { y with state := .closing, reason := some r }
  (y.state ≠ .filling → t.bays = s.bays ∧ t.pushers = s.pushers)
    ∧ (y.state = .filling → 0 < y.reserved → t.bays = s.bays.set b closing ∧ t.pushers = s.pushers)
    ∧ (y.state = .filling → y.reserved = 0 → s.settings.settle ≠ 0 →
        t.bays = s.bays.set b { closing with settle := some s.settings.settle }
          ∧ t.pushers = s.pushers)
    ∧ (y.state = .filling → y.reserved = 0 → s.settings.settle = 0 → y.landed = 0 →
        t.bays = s.bays.set b Bay.cleared ∧ t.pushers = s.pushers)
    ∧ (y.state = .filling → y.reserved = 0 → s.settings.settle = 0 → 0 < y.landed →
        (t.bays.get b).state = .discharging ∧ (t.bays.get b).landed = y.landed
          ∧ (t.bays.get b).reason = some r
          ∧ (t.bays.get b).discharge = some s.settings.dischargeTimeout
          ∧ t.pushers = s.pushers.set b ⟨true, some s.settings.pusherPulse⟩)

/-- BAY_HIGH_RISE closes a FILLING bay with HEIGHT; CLOSE_PRESS closes the selected bay with FORCED, and
with no bay selected closes none. Another state is not changed (R134, R136, R137, R143; log 17). -/
def Obligations.HeightAndClosePressCloseBay : Prop :=
  ∀ (s : State) (b : BayNo), s.station = .active →
    (b.num ≤ s.settings.bayCount → ∃ t : State, exec (.bayHighRise b) s = .next t
        ∧ t.bayHigh = s.bayHigh.set b ⟨true, true, none⟩ ∧ ClosedBay b .height s t
        ∧ KeepsBut (.bayHigh :: bayParts) s t)
      ∧ (s.panel.selected = some b → ∃ t : State, exec .closePress s = .next t
        ∧ t.panel.close = ⟨true, true, none⟩ ∧ ClosedBay b .forced s t
        ∧ KeepsBut (.buttons :: bayParts) s t)
      ∧ (s.panel.selected = none → ∃ t : State, exec .closePress s = .next t
        ∧ t.panel.close = ⟨true, true, none⟩ ∧ KeepsBut [.buttons] s t)

/-- BAY_CLEAR_RISE takes a DISCHARGING or BLOCKED bay to EMPTY with every field cleared and leaves any other
state; BAY_INPUT_FALL lowers the level and leaves the bay (R141 to R143; log 17). -/
def Obligations.BayClearEmptiesAndFallsDoNothing : Prop :=
  ∀ (s : State) (b : BayNo), s.station = .active → b.num ≤ s.settings.bayCount →
    (((s.bays.get b).state = .discharging ∨ (s.bays.get b).state = .blocked) →
        ∃ t : State, exec (.bayClearRise b) s = .next t
          ∧ t.bays = s.bays.set b ⟨.empty, none, none, 0, 0, none, none, none, none, false⟩
          ∧ t.bayClear = s.bayClear.set b ⟨true, true, none⟩
          ∧ KeepsBut (([.bays, .bayClear, .lamp] : List Part) ++ sendParts) s t)
      ∧ (((s.bays.get b).state = .empty ∨ (s.bays.get b).state = .filling
            ∨ (s.bays.get b).state = .closing) →
        exec (.bayClearRise b) s = .next { s with bayClear := s.bayClear.set b ⟨true, true, none⟩ })
      ∧ exec (.bayInputFall b .high) s = .next { s with bayHigh := s.bayHigh.set b ⟨false, false, none⟩ }
      ∧ exec (.bayInputFall b .clear) s =
          .next { s with bayClear := s.bayClear.set b ⟨false, false, none⟩ }

/-- BUTTON_RELEASE of STOP or RUN stops a running purge hold; a release of SELECT or CLOSE has no effect but
on its own level; no release touches the own reasons (R148, R149, R153, R180; log 17). That each of the two
buttons ends its own awaiting after a purge, at different times, is the model's choice: its reading of the
further purge (log 31). -/
def Obligations.ReleasesStopTheHold : Prop :=
  ∀ s : State, s.station = .active →
    exec (.buttonRelease .stop) s = .next { s with panel := { s.panel with
        stop := ⟨false, false, none⟩, purgeHold := none, awaitStop := false } }
      ∧ exec (.buttonRelease .run) s = .next { s with panel := { s.panel with
        run := ⟨false, false, none⟩, purgeHold := none, awaitRun := false } }
      ∧ exec (.buttonRelease .select) s = .next { s with panel := { s.panel with
        select := ⟨false, false, none⟩ } }
      ∧ exec (.buttonRelease .close) s = .next { s with panel := { s.panel with
        close := ⟨false, false, none⟩ } }

/-- PURGE_HOLD_EXPIRY of a hold begun with the output off takes the purge: every ON_BELT record leaves and
PURGED counts each, unseen records stay, released markers leave the head, the schedule is empty, jets,
gates and reject gate are off with their timers stopped, every configured bay holds no reservation, a piece
at the entry eye is untracked, an owned covering is IGNORED; the stop sets, the belt unit and the expected
seq stand. A hold begun with the output on takes no purge (R68, R89, R125, R144, R153, R154). A purge taken
awaits a release of STOP and a release of RUN, and a hold that expires while one is still awaited takes none:
the model's choice in reading the further purge (log 31). -/
def Obligations.PurgeClearsTheBelt : Prop :=
  ∀ (s : State) (h : PurgeHold), s.station = .active → s.panel.purgeHold = some h →
    (h.runNoted = false → s.panel.awaitStop = false → s.panel.awaitRun = false →
        ∃ t : State, exec .purgeHoldExpiry s = .next t
        ∧ t.tracks = (s.tracks.filter fun r => !isOnBelt r).dropWhile isMarker
        ∧ t.tally.counts.purged = s.tally.counts.purged + BitVec.ofNat 32 (onBeltCount s.tracks)
        ∧ t.tally.counts.entered = s.tally.counts.entered
        ∧ t.schedule = []
        ∧ t.outputs = ⟨⟨false, none⟩, ⟨false, none⟩, Four.all false, false⟩
        ∧ (∀ b : BayNo, b.num ≤ s.settings.bayCount → (t.bays.get b).reserved = 0
            ∧ ((s.bays.get b).state = .filling → (s.bays.get b).landed = 0 →
                t.bays.get b = ⟨.empty, none, none, 0, 0, none, none, none, none, false⟩))
        ∧ t.eyes.untracked = (s.eyes.untracked || s.eyes.entry.level == .covered
            || s.eyes.entry.mergePending.isSome)
        ∧ (∀ n, s.eyes.exitOwner = some (.piece n) → t.eyes.exitOwner = some .ignored)
        ∧ t.panel.purgeHold = none ∧ t.panel.awaitStop = true ∧ t.panel.awaitRun = true
        ∧ KeepsBut (([.schedule, .jetA, .jetB, .gates, .reject, .untracked, .exitOwner, .fates, .purgeHold] : List Part) ++ markerParts) s t)
      ∧ (h.runNoted = true ∨ s.panel.awaitStop = true ∨ s.panel.awaitRun = true →
        exec .purgeHoldExpiry s = .next { s with panel := { s.panel with purgeHold := none } })

/-- A window one lower (R57). -/
def windowDown : Record → Record
  | .piece p => match p.stage with
    | .announced w => .piece { p with stage := .announced (w - 1) }
    | .placeholder w => .piece { p with stage := .placeholder (w - 1) }
    | .onBelt _ => .piece p
  | .marker q l => .marker q l

/-- The window remaining of a record, if it has one. -/
def windowOf : Record → Option Nat
  | .piece p => match p.stage with
    | .announced w => some w
    | .placeholder w => some w
    | .onBelt _ => none
  | .marker _ _ => none

/-- TIME_BASE_TICK holds every window while the belt-run output is off. With it on, every window goes down
by 1; the records that come to 0 run out at the tick, each counted GHOST, and the other pieces stay in their
order, whatever markers are released. GHOST removes the oldest record whose window stands at 0 and
counts it with its lot and code; with no such record it has no effect (R57, R58, R66; log 10). -/
def Obligations.WindowsRunOutAsGhosts : Prop :=
  ∀ s : State, s.station = .active →
    (s.belt.run = false → exec .timeBaseTick s = .next s)
      ∧ (s.belt.run = true → ∃ t : State, exec .timeBaseTick s = .next t
        ∧ t.tracks.filter (fun r => !isMarker r) =
            ((s.tracks.map windowDown).filter fun r => windowOf r != some 0).filter (fun r => !isMarker r)
        ∧ t.tally.counts.ghost = s.tally.counts.ghost + BitVec.ofNat 32
            ((s.tracks.map windowDown).countP fun r => windowOf r == some 0)
        ∧ KeepsBut (.events :: markerParts) s t)
      ∧ (∀ (before after : List Record) (p : Piece), s.tracks = before ++ Record.piece p :: after →
        (∀ r ∈ before, windowOf r ≠ some 0) → windowOf (.piece p) = some 0 →
        NoMarkerFirst (before ++ after) →
        ∃ t : State, exec .ghost s = .next t ∧ t.tracks = before ++ after
          ∧ t.tally.counts = { s.tally.counts with ghost := s.tally.counts.ghost + 1 }
          ∧ t.tally.counters = s.tally.counters.map (offerCounter .ghost 1 (some (p.lot, p.code)))
          ∧ KeepsBut [.tracks, .events, .counters] s t)
      ∧ ((∀ r ∈ s.tracks, windowOf r ≠ some 0) → exec .ghost s = .next s)

/-- The expiry of a running jet or pusher pulse turns that output off and stops its timer; with no pulse
running it has no effect (R118, R139; log 1). -/
def Obligations.PulseExpiriesTurnOutputsOff : Prop :=
  ∀ s : State,
    (s.outputs.jetA.timer.isSome = true → exec (.jetPulseExpiry .a) s =
        .next { s with outputs := { s.outputs with jetA := ⟨false, none⟩ } })
      ∧ (s.outputs.jetB.timer.isSome = true → exec (.jetPulseExpiry .b) s =
        .next { s with outputs := { s.outputs with jetB := ⟨false, none⟩ } })
      ∧ (s.outputs.jetA.timer = none → exec (.jetPulseExpiry .a) s = .next s)
      ∧ (s.outputs.jetB.timer = none → exec (.jetPulseExpiry .b) s = .next s)
      ∧ ∀ b : BayNo,
        ((s.pushers.get b).timer.isSome = true → exec (.pusherPulseExpiry b) s =
          .next { s with pushers := s.pushers.set b ⟨false, none⟩ })
        ∧ ((s.pushers.get b).timer = none → exec (.pusherPulseExpiry b) s = .next s)

/-- The STACK report of a bay (R140). -/
def stackReport (b : BayNo) (lot : Lot) (code : Code) (landed : Nat) (r : CloseReason) : FrameBody :=
  .stack (BitVec.ofNat 8 b.num) lot code (BitVec.ofNat 8 landed)
    (match r with | .target => 1 | .height => 2 | .lotEnd => 3 | .forced => 4)

/-- SETTLE_TIMER_EXPIRY of a CLOSING bay: with nothing landed it enters EMPTY, every field cleared, no push
and no report; otherwise the pusher turns on, the bay's STACK report joins the queue and sets the flag, and
the bay enters DISCHARGING with its discharge timer, its count kept. DISCHARGE_TIMEOUT of a DISCHARGING bay
takes it to BLOCKED: landed 0, lot, plan code, target and reason absent, the STACK-queued flag kept, the
lamp lit. With the timer not running neither has an effect (R137, R138, R140, R141, R179; log 1). -/
def Obligations.BayTimersEmptyDischargeOrBlock : Prop :=
  ∀ (s : State) (b : BayNo) (lot : Lot) (code : Code) (r : CloseReason),
    s.station = .active → b.num ≤ s.settings.bayCount →
    ((s.bays.get b).state = .closing → (s.bays.get b).settle.isSome = true →
        (s.bays.get b).landed = 0 → ∃ t : State, exec (.settleTimerExpiry b) s = .next t
          ∧ t.bays = s.bays.set b ⟨.empty, none, none, 0, 0, none, none, none, none, false⟩
          ∧ KeepsBut (([.bays, .lamp] : List Part) ++ sendParts) s t)
      ∧ ((s.bays.get b).state = .closing → (s.bays.get b).settle.isSome = true →
        0 < (s.bays.get b).landed → (s.bays.get b).lot = some lot →
        (s.bays.get b).planCode = some code → (s.bays.get b).reason = some r →
        s.link.queue.length ≤ 10 → ∃ t : State, exec (.settleTimerExpiry b) s = .next t
          ∧ t.pushers = s.pushers.set b ⟨true, some s.settings.pusherPulse⟩
          ∧ (⟨stackReport b lot code (s.bays.get b).landed r, s.link.nextAge⟩ : QFrame) ∈ t.link.queue
          ∧ t.bays = s.bays.set b { s.bays.get b with
              state := .discharging, settle := none
              discharge := some s.settings.dischargeTimeout, stackQueued := true }
          ∧ KeepsBut [.bays, .pushers, .lamp, .pace, .queue] s t)
      ∧ ((s.bays.get b).settle = none → exec (.settleTimerExpiry b) s = .next s)
      ∧ ((s.bays.get b).state = .discharging → (s.bays.get b).discharge.isSome = true →
        ∃ t : State, exec (.dischargeTimeout b) s = .next t
          ∧ t.bays = s.bays.set b
              ⟨.blocked, none, none, 0, 0, none, none, none, none, (s.bays.get b).stackQueued⟩
          ∧ t.panel.lamp = true
          ∧ KeepsBut (([.bays, .lamp] : List Part) ++ sendParts) s t)
      ∧ ((s.bays.get b).discharge = none → exec (.dischargeTimeout b) s = .next s)

/-- What a counter holds after a counted offer of n events (R175). -/
def Raised (n : Nat) (c d : Counter) : Prop :=
  (c.value + n ≤ 16777215 → d.value = c.value + n ∧ d.saturated = c.saturated)
    ∧ (16777215 < c.value + n → d.value = 16777215 ∧ d.saturated = true)
    ∧ d.latch = c.latch ∧ d.event = c.event ∧ d.perLot = c.perLot ∧ d.oneCode = c.oneCode

/-- A counter counts the offers of its event that its filter passes, up to 16,777,215 and its flag beyond;
a PER_LOT counter counts one lot, opened by the first offer. At a marker of that lot it latches and starts
afresh; another lot's marker changes nothing (R175, R176). -/
def Obligations.CountersCountAndLatch : Prop :=
  ∀ (c : Counter) (ev : TallyEvent) (n : Nat) (lot : Lot) (code : Code),
    let offered := offerCounter ev n (some (lot, code)) c
    (c.event ≠ some ev → ∀ id, offerCounter ev n id c = c)
      ∧ (∀ k, c.oneCode = some k → k ≠ code → offered = c)
      ∧ (∀ other, c.perLot = true → c.countingLot = some other → other ≠ lot → offered = c)
      ∧ (c.event = some ev → c.oneCode = none ∨ c.oneCode = some code → c.perLot = false →
        Raised n c offered ∧ offered.countingLot = c.countingLot)
      ∧ (c.event = some ev → c.oneCode = none ∨ c.oneCode = some code → c.perLot = true →
        c.countingLot = none ∨ c.countingLot = some lot →
        Raised n c offered ∧ offered.countingLot = some lot)
      ∧ (c.event = some ev → c.oneCode = none → c.perLot = false →
        Raised n c (offerCounter ev n none c))
      ∧ (c.perLot = true → c.countingLot = some lot → latchCounter lot c =
          { c with
            latch := some ⟨c.value, c.saturated, lot⟩, value := 0, saturated := false
            countingLot := none })
      ∧ (c.perLot = false ∨ c.countingLot ≠ some lot → latchCounter lot c = c)

/-- DISPLAY_DIGIT_REFRESH selects the next digit, digit 1 first and after digit 4, and drives its pattern
through the segment map; the characters are those of the first condition that applies (R177, R178; logs 9
and 21). That the state is read anew at every digit is the model's choice (log 32). In LOADING every line is
off. -/
def Obligations.DisplayShowsFirstCondition : Prop :=
  ∀ s : State,
    (s.station = .loading → exec .displayDigitRefresh s =
        .next { s with panel := { s.panel with digit := none, lines := 0 } })
      ∧ (s.station ≠ .loading → ∃ d : Fin 4, exec .displayDigitRefresh s =
        .next { s with panel := { s.panel with
          digit := some d
          lines := segmentLines s.panel.segmentMap
            (glyphSegments ((displayGlyphs s).getD d.val .blank)) } }
        ∧ d.val = (match s.panel.digit with | none => 0 | some i => (i.val + 1) % 4))
      ∧ (∀ code, s.station = .fault code →
        displayGlyphs s = [.letterC, .letterF, .digit (code / 10 % 10), .digit (code % 10)])
      ∧ (s.station = .active → s.stops.own ≠ ReasonSet.none → ∃ n,
        displayGlyphs s = [.letterE, .blank, .blank, .digit n]
          ∧ (∃ r, hasReason s.stops.own r = true ∧ reasonNumber r = n)
          ∧ ∀ r, hasReason s.stops.own r = true → n ≤ reasonNumber r)
      ∧ (∀ n rest, s.station = .active → s.stops.own = ReasonSet.none → s.stops.others = n :: rest →
        displayGlyphs s = [.letterS, .blank, .digit (n / 10 % 10), .digit (n % 10)])
      ∧ (s.station = .active → s.stops.own = ReasonSet.none → s.stops.others = [] →
        (s.belt.speedHigh = true → displayGlyphs s = [.letterS, .dash, .dash, .dash])
          ∧ (s.belt.speedHigh = false → s.panel.selected = none →
            displayGlyphs s = [.letterB, .dash, .blank, .blank])
          ∧ (∀ b, s.belt.speedHigh = false → s.panel.selected = some b →
            ((s.bays.get b).state = .blocked →
                displayGlyphs s = [.letterB, .digit b.num, .dash, .dash])
              ∧ ((s.bays.get b).state ≠ .blocked → (s.bays.get b).landed < 10 →
                displayGlyphs s = [.letterB, .digit b.num, .blank, .digit (s.bays.get b).landed])
              ∧ ((s.bays.get b).state ≠ .blocked → 10 ≤ (s.bays.get b).landed →
                (s.bays.get b).landed < 100 →
                displayGlyphs s = [.letterB, .digit b.num, .digit ((s.bays.get b).landed / 10),
                  .digit ((s.bays.get b).landed % 10)])))

/-! ## The line -/

/-- The station takes a frame from this sender: ACTIVE, the line followed from its start bit, a valid
address that is not its own (R168, R169; log 14). -/
def Hears (s : State) (sender : BitVec 5) : Prop :=
  s.station = .active ∧ (s.link.line = .idle ∨ s.link.line = .following)
    ∧ 1 ≤ sender.toNat ∧ sender.toNat ≤ 30 ∧ sender.toNat ≠ s.settings.station

/-- A STOP frame puts its sender in the others' stop set, a RUN frame takes it out; the reason is not kept;
the belt-run output follows at once (R13, R150). -/
def Obligations.StopAndRunFramesFileTheSender : Prop :=
  ∀ (s : State) (sender : BitVec 5) (reason : Byte), Hears s sender → RunLaw s →
    (∃ t : State, exec (.stopFrame sender reason) s = .next t
        ∧ (∀ n, n ∈ t.stops.others ↔ n = sender.toNat ∨ n ∈ s.stops.others)
        ∧ t.belt.run = false ∧ t.link.line = .busy
        ∧ KeepsBut [.others, .run, .lamp, .line] s t)
      ∧ (∃ t : State, exec (.runFrame sender) s = .next t
        ∧ (∀ n, n ∈ t.stops.others ↔ n ≠ sender.toNat ∧ n ∈ s.stops.others)
        ∧ (t.belt.run = true ↔ s.stops.own = ReasonSet.none ∧ t.stops.others = [])
        ∧ (s.belt.run = false → t.belt.run = true →
            t.belt.grace = 10 ∧ t.belt.lowArmed = true ∧ t.belt.lowRearm = 0)
        ∧ t.link.line = .busy
        ∧ KeepsBut [.others, .run, .grace, .low, .lamp, .line] s t)

/-- A START frame takes its sender out of the others' stop set. From the upstream peer it makes the
expected seq absent and queues a pace_out that is not 0 again; from the downstream peer it sets pace_in to
0; from any other station it has the first effect only. The own reasons, the records, the schedule, the bays
and the own next seq stand (R55, R151, R155, R157). -/
def Obligations.StartFrameForgetsThePeer : Prop :=
  ∀ (s : State) (sender : BitVec 5) (up down : Byte), Hears s sender →
    s.settings.upstream ≠ s.settings.downstream →
    ∃ t : State, exec (.startFrame sender up down) s = .next t
      ∧ (∀ n, n ∈ t.stops.others ↔ n ≠ sender.toNat ∧ n ∈ s.stops.others)
      ∧ (t.belt.run = true ↔ s.stops.own = ReasonSet.none ∧ t.stops.others = [])
      ∧ t.link.line = .busy
      ∧ (sender.toNat = s.settings.upstream → t.link.expectedSeq = none
          ∧ (s.pace.paceOut ≠ 0 → s.link.queue.length < 12 →
              (⟨.pace (BitVec.ofNat 16 s.pace.paceOut), s.link.nextAge⟩ : QFrame) ∈ t.link.queue)
          ∧ KeepsBut (([.others, .run, .grace, .low, .lamp, .line, .expectedSeq] : List Part) ++ sendParts) s t)
      ∧ (sender.toNat = s.settings.downstream → t.pace.paceIn = 0
          ∧ t.link.expectedSeq = s.link.expectedSeq
          ∧ KeepsBut (([.others, .run, .grace, .low, .lamp, .line] : List Part) ++ sendParts) s t)
      ∧ (sender.toNat ≠ s.settings.upstream → sender.toNat ≠ s.settings.downstream →
          KeepsBut [.others, .run, .grace, .low, .lamp, .line] s t)

/-- The placeholders a gap of d calls for, from the expected seq on (R54). -/
def standIns (window : Nat) (expected : Seq) (d : Nat) : List Record :=
  (List.range d).map fun k => Record.piece ⟨some (expected + BitVec.ofNat 8 k), 0, 0, none,
    ⟨false, false, false⟩, .placeholder window⟩

/-- The record an ANNOUNCE makes (R52, R162). -/
def announceRecord (window : Nat) (seq : Seq) (lot : Lot) (code : Code) (length : BitVec 16)
    (flags : Byte) : Record :=
  Record.piece ⟨some seq, lot, code, some length.toNat,
    ⟨flags.getLsbD 0, flags.getLsbD 1, flags.getLsbD 2⟩, .announced window⟩

/-- An ANNOUNCE from the upstream peer runs through the sequence check: d = 0, or none expected, appends its
record, and in a full list drops it with EXPECT_OVERFLOW; d of 1 to 8, with room, appends d placeholders
first and offers SEQ_GAP with d; d of 9 to 254, with room, appends it and offers SYNC_LOSS; d = 255 changes
nothing but the line. Otherwise the expected seq becomes the received one plus 1 (R52, R54, R56). -/
def Obligations.AnnounceRunsSequenceCheck : Prop :=
  ∀ (s : State) (sender : BitVec 5) (seq : Seq) (lot : Lot) (code : Code) (length : BitVec 16)
    (flags : Byte), Hears s sender → sender.toNat = s.settings.upstream → NoMarkerFirst s.tracks →
    let d := match s.link.expectedSeq with | none => 0 | some e => (seq - e).toNat
    let r := announceRecord s.settings.transferWindow seq lot code length flags
    ∃ t : State, exec (.announceFrame sender seq lot code length flags) s = .next t ∧ t.link.line = .busy
      ∧ (d ≠ 255 → t.link.expectedSeq = some (seq + 1))
      ∧ (d = 255 → KeepsBut [.line] s t)
      ∧ (d = 0 → s.tracks.length < 24 → t.tracks = s.tracks ++ [r]
          ∧ KeepsBut [.tracks, .line, .expectedSeq] s t)
      ∧ (d = 0 → 24 ≤ s.tracks.length → t.tracks = s.tracks
          ∧ t.tally.counters = s.tally.counters.map (offerCounter .expectOverflow 1 none)
          ∧ KeepsBut [.line, .expectedSeq, .counters] s t)
      ∧ (∀ e, s.link.expectedSeq = some e → 1 ≤ d → d ≤ 8 → s.tracks.length + d < 24 →
          t.tracks = s.tracks ++ standIns s.settings.transferWindow e d ++ [r]
          ∧ t.tally.counters = s.tally.counters.map (offerCounter .seqGap d none)
          ∧ KeepsBut [.tracks, .line, .expectedSeq, .counters] s t)
      ∧ (9 ≤ d → d ≤ 254 → s.tracks.length < 24 → t.tracks = s.tracks ++ [r]
          ∧ t.tally.counters = s.tally.counters.map (offerCounter .syncLoss 1 none)
          ∧ KeepsBut [.tracks, .line, .expectedSeq, .counters] s t)

/-- A LOT_END from the upstream peer with the expected seq files a MARKER behind the records that stand; in
an empty list it is processed at once: the FILLING bays of its lot close with LOT_END, the per-lot counters
that count it latch, and a LOT_END with the own next seq goes to the downstream peer (R53, R67, R135, R176;
log 20). -/
def Obligations.LotEndFilesOrProcessesMarker : Prop :=
  ∀ (s : State) (sender : BitVec 5) (seq : Seq) (lot : Lot), Hears s sender →
    sender.toNat = s.settings.upstream →
    (s.link.expectedSeq = none ∨ s.link.expectedSeq = some seq) →
    (∀ first rest, s.tracks = first :: rest → isMarker first = false → s.tracks.length < 24 →
        ∃ t : State, exec (.lotEndFrame sender seq lot) s = .next t ∧ t.tracks = s.tracks ++ [Record.marker seq lot]
          ∧ t.link.expectedSeq = some (seq + 1) ∧ t.link.line = .busy
          ∧ KeepsBut [.tracks, .line, .expectedSeq] s t)
      ∧ (s.tracks = [] → s.settings.settle ≠ 0 → s.settings.downstream ≠ 0 →
        s.link.queue.length ≤ 10 →
        ∃ t : State, exec (.lotEndFrame sender seq lot) s = .next t ∧ t.tracks = []
          ∧ t.link.expectedSeq = some (seq + 1) ∧ t.link.ownSeq = s.link.ownSeq + 1
          ∧ (∃ age, (⟨.lotEnd s.link.ownSeq lot, age⟩ : QFrame) ∈ t.link.queue)
          ∧ (∀ b : BayNo, b.num ≤ s.settings.bayCount → (s.bays.get b).state = .filling →
              (s.bays.get b).lot = some lot →
              t.bays.get b = { s.bays.get b with
                state := .closing, reason := some .lotEnd
                settle := if (s.bays.get b).reserved = 0 then some s.settings.settle
                  else (s.bays.get b).settle })
          ∧ (∀ b : BayNo, (s.bays.get b).state ≠ .filling ∨ (s.bays.get b).lot ≠ some lot →
              t.bays.get b = s.bays.get b)
          ∧ t.tally.counters = s.tally.counters.map (fun c =>
              if c.perLot = true ∧ c.countingLot = some lot
              then { c with
                latch := some ⟨c.value, c.saturated, lot⟩, value := 0, saturated := false
                countingLot := none }
              else c)
          ∧ KeepsBut [.bays, .lamp, .pace, .queue, .ownSeq, .counters, .line, .expectedSeq] s t)

/-- A PACE frame from the downstream peer sets pace_in to its gap; pace_out becomes the larger of pace_in and
pace_own, at most 5,000, and a change queues a PACE for the upstream peer. Every step keeps pace_own at the
pace gap while nine ON_BELT records, eight kept frames or no free bay stand, and at 0 otherwise, and
pace_out at that larger value (R155 to R157). -/
def Obligations.PaceFrameSetsAndRelays : Prop :=
  (∀ s t : State, PaceLaw s → step s = .next t → PaceLaw t)
    ∧ ∀ (s : State) (sender : BitVec 5) (gap : BitVec 16), Hears s sender →
    sender.toNat = s.settings.downstream → s.link.queue.length < 12 →
    s.pace.paceOut = min (max s.pace.paceIn s.pace.paceOwn) 5000 →
    ∃ t : State, exec (.paceFrame sender gap) s = .next t ∧ t.pace.paceIn = gap.toNat
      ∧ t.pace.paceOwn = s.pace.paceOwn
      ∧ t.pace.paceOut = min (max gap.toNat s.pace.paceOwn) 5000
      ∧ t.link.line = .busy
      ∧ (t.pace.paceOut ≠ s.pace.paceOut → s.settings.upstream ≠ 0 →
          (⟨.pace (BitVec.ofNat 16 t.pace.paceOut), s.link.nextAge⟩ : QFrame) ∈ t.link.queue)
      ∧ (t.pace.paceOut = s.pace.paceOut ∨ s.settings.upstream = 0 → Part.queue.same s t)
      ∧ KeepsBut [.pace, .queue, .line] s t

/-- A TALLY_QUERY for this station is answered with a TALLY of its item and index: a fixed count, a
counter's value, latch or latched lot, the use count of a code, or a bay's bytes, with their flags, and
value 0 with ABSENT for everything else (R45, R170, R171). -/
def Obligations.TallyQueryIsAnswered : Prop :=
  ∀ (s : State) (sender : BitVec 5) (target item index : Byte), Hears s sender →
    target.toNat = s.settings.station → s.link.queue.length < 12 →
    ∃ t value absent saturated stackQueued,
      exec (.tallyQuery sender target item index) s = .next t
      ∧ t.link.queue = insertFrame
          ⟨.tally item index value (tallyFlags absent saturated stackQueued), s.link.nextAge⟩ s.link.queue
      ∧ (absent = true → value = 0)
      ∧ (item = 1 → (countList s.tally.counts)[index.toNat]? =
          if absent = true then none else some value)
      ∧ (∀ c, item = 2 → index.toNat < 4 → s.tally.counters[index.toNat]? = some c →
          value = BitVec.ofNat 32 c.value ∧ saturated = c.saturated ∧ absent = false)
      ∧ (∀ c l, item = 2 → 4 ≤ index.toNat → index.toNat < 8 →
          s.tally.counters[index.toNat - 4]? = some c → c.latch = some l →
          value = BitVec.ofNat 32 l.value ∧ saturated = l.saturated ∧ absent = false)
      ∧ (∀ c l, item = 2 → 8 ≤ index.toNat → index.toNat < 12 →
          s.tally.counters[index.toNat - 8]? = some c → c.latch = some l →
          value = BitVec.ofNat 32 l.lot.toNat ∧ absent = false)
      ∧ (∀ c, item = 2 → 4 ≤ index.toNat → index.toNat < 12 →
          s.tally.counters[index.toNat % 4]? = some c → c.latch = none → absent = true)
      ∧ (item = 2 → 12 ≤ index.toNat → absent = true)
      ∧ (∀ e, item = 3 → lookupCode s.table index = some e →
          value = BitVec.ofNat 32 e.uses ∧ absent = false)
      ∧ (item = 3 → lookupCode s.table index = none → absent = true)
      ∧ (∀ b : BayNo, item = 4 → index.toNat = b.num → b.num ≤ s.settings.bayCount → absent = false
          ∧ stackQueued = (s.bays.get b).stackQueued ∧ value = bayValue (s.bays.get b))
      ∧ (item = 4 → s.settings.bayCount < index.toNat ∨ index.toNat = 0 → absent = true)
      ∧ (item.toNat = 0 ∨ 4 < item.toNat → absent = true)
      ∧ (item ≠ 2 ∨ 8 ≤ index.toNat → saturated = false) ∧ (item ≠ 4 → stackQueued = false)
      ∧ t.link.line = .busy
      ∧ KeepsBut [.queue, .line] s t

/-- A frame the acceptance filter passes over changes nothing but the view of the line: this station's own
number as sender, STACK and TALLY always, ANNOUNCE and LOT_END from a station that is not the upstream
peer, PACE from one that is not the downstream peer, a query for another station (R169; log 14). -/
def Obligations.PassedOverFramesChangeNothing : Prop :=
  ∀ (s : State) (sender : BitVec 5) (body : FrameBody), s.station = .active →
    (s.link.line = .idle ∨ s.link.line = .following) → 1 ≤ sender.toNat → sender.toNat ≤ 30 →
    (sender.toNat = s.settings.station
      ∨ (match body with
        | .stack _ _ _ _ _ => True
        | .tally _ _ _ _ => True
        | .announce _ _ _ _ _ => sender.toNat ≠ s.settings.upstream
        | .lotEnd _ _ => sender.toNat ≠ s.settings.upstream
        | .pace _ => sender.toNat ≠ s.settings.downstream
        | .tallyQuery target _ _ => target.toNat ≠ s.settings.station
        | .stop _ => False
        | .run => False
        | .start _ _ => False)) →
    exec (.framePassedOver sender body) s = .next { s with link := { s.link with line := .busy } }

/-- A damaged frame the station follows is discarded and counted once in LINK_CHECK and in the counters set
up on it, whichever judgement fails; one it does not follow changes nothing (R168, R173, R174; log 14). -/
def Obligations.DamagedFrameIsCountedOnce : Prop :=
  ∀ (s : State) (bits : List Bool),
    (judgeBits bits = .linkCheck ∨ judgeBits bits = .linkFormat) →
    (s.station = .active → (s.link.line = .idle ∨ s.link.line = .following) →
        ∃ t : State, exec (.damagedFrame (false :: bits)) s = .next t ∧ t.link.line = .busy
          ∧ t.tally.counts = { s.tally.counts with linkCheck := s.tally.counts.linkCheck + 1 }
          ∧ t.tally.counters = s.tally.counters.map (offerCounter .linkCheck 1 none)
          ∧ KeepsBut [.line, .events, .counters] s t)
      ∧ ((s.station ≠ .active ∨ (s.link.line ≠ .idle ∧ s.link.line ≠ .following)) →
        exec (.damagedFrame (false :: bits)) s = .next s)

/-- TRANSMIT_START on an idle line puts the first frame of the queue in flight and leaves it in the queue;
with an empty queue or a line not idle nothing starts. ARBITRATION_LOST and BIT_ERROR while sending take the
frame out of flight and leave the queue as it is; after a lost arbitration the station follows the winning
frame, after a bit error it waits for an idle line. LINE_IDLE makes the line idle for a station that does
not send, and discards and counts a frame it still follows (R160, R163, R164, R168, R173; log 28). -/
def Obligations.FramesStartAndComeBack : Prop :=
  ∀ s : State, s.station = .active →
    (∀ f rest, s.link.line = .idle → s.link.queue = f :: rest →
        exec .transmitStart s = .next { s with link := { s.link with inFlight := some f, line := .sending } })
      ∧ (s.link.queue = [] ∨ s.link.line ≠ .idle → exec .transmitStart s = .next s)
      ∧ (s.link.line = .sending →
        exec .arbitrationLost s =
            .next { s with link := { s.link with inFlight := none, line := .following } }
          ∧ exec .bitError s = .next { s with link := { s.link with inFlight := none, line := .busy } }
          ∧ exec .lineIdle s = .next s)
      ∧ (s.link.line ≠ .sending →
        exec .arbitrationLost s = .next s ∧ exec .bitError s = .next s)
      ∧ (s.link.line ≠ .sending → s.link.line ≠ .following →
        exec .lineIdle s = .next { s with link := { s.link with line := .idle } })
      ∧ (s.link.line = .following → ∃ t : State, exec .lineIdle s = .next t ∧ t.link.line = .idle
        ∧ t.tally.counts = { s.tally.counts with linkCheck := s.tally.counts.linkCheck + 1 }
        ∧ t.tally.counters = s.tally.counters.map (offerCounter .linkCheck 1 none)
        ∧ KeepsBut [.line, .events, .counters] s t)

/-- FRAME_SENT takes the frame in flight out of the queue, where it still stands there, and ends the
flight. When it was no kept frame the others keep their order and nothing else changes; when it was one, the
others but a PACE stay, nothing but a PACE joins, and only what the pace unit sends may change besides
(R156, R164, R166). -/
def Obligations.SentFrameLeavesTheQueue : Prop :=
  ∀ (s : State) (f : QFrame), s.station = .active → s.link.line = .sending →
    s.link.inFlight = some f →
    ∃ t : State, exec .frameSent s = .next t ∧ t.link.inFlight = none ∧ t.link.line = .busy
      ∧ ((s.link.queue.filter fun x => x.age != f.age).countP (fun x => frameGroup x.body == .kept) =
            s.link.queue.countP (fun x => frameGroup x.body == .kept) →
          t.link.queue = s.link.queue.filter (fun x => x.age != f.age)
            ∧ KeepsBut [.queue, .inFlight, .line] s t)
      ∧ (∀ x ∈ s.link.queue, x.age ≠ f.age → frameGroup x.body ≠ .pace → s.link.queue.length < 12 →
          x ∈ t.link.queue)
      ∧ (∀ x ∈ t.link.queue, frameGroup x.body ≠ .pace → x ∈ s.link.queue ∧ x.age ≠ f.age)
      ∧ KeepsBut (([.inFlight, .line] : List Part) ++ sendParts) s t

/-- A frame that joins a full queue and replaces none: a TALLY is dropped uncounted; a kept frame displaces
the newest TALLY not in flight, or is dropped with LINK_DROP; STOP, RUN and PACE displace that TALLY, or the
newest kept frame not in flight with LINK_DROP (R167). -/
def Obligations.FullQueueJoinsByGroup : Prop :=
  ∀ (q : List QFrame) (f : QFrame) (inFlight : Option Nat), q.length = 12 →
    (∀ x ∈ q, frameGroup x.body = frameGroup f.body → isCoalesced (frameGroup f.body) = false) →
    let waiting := fun (g : QGroup) (x : QFrame) => x ∈ q ∧ frameGroup x.body = g ∧ inFlight ≠ some x.age
    let newest := fun (g : QGroup) (x : QFrame) => waiting g x ∧ ∀ y, waiting g y → y.age ≤ x.age
    let j := joinQueue inFlight f q
    (frameGroup f.body = .tally → j = ⟨q, false, false⟩)
      ∧ (∀ x, frameGroup f.body ≠ .tally → newest .tally x →
        j = ⟨insertFrame f (q.filter fun y => y.age != x.age), true, false⟩)
      ∧ (frameGroup f.body = .kept → (∀ x, ¬ waiting .tally x) → j = ⟨q, false, true⟩)
      ∧ (∀ x, frameGroup f.body = .stopRun ∨ frameGroup f.body = .pace → (∀ y, ¬ waiting .tally y) →
        newest .kept x → j = ⟨insertFrame f (q.filter fun y => y.age != x.age), true, true⟩)

/-- The bits of every frame with a valid sender are read back as that sender and body, and they are as many
as the table of bit times gives: 34 + 9n for n body bytes (R160 to R162, R168). -/
def Obligations.FrameBitsReadBack : Prop :=
  ∀ (sender : BitVec 5) (body : FrameBody), 1 ≤ sender.toNat → sender.toNat ≤ 30 →
    judgeBits ((frameBits sender body).tail) = .wellFormed sender body
      ∧ (frameBits sender body).head? = some false
      ∧ (frameBits sender body).length = 34 + 9 * (bodyBytes body).length

/-! ## Laws of every state -/

/-- The machine right after reset meets every law: of the belt-run output, the lamp, the pace, the records,
the counts, the table, the bays, the transmit queue, the line, the others' stop set and the inactive station
(R182). -/
def Obligations.ResetMeetsEveryLaw : Prop :=
  RunLaw State.reset ∧ LampLaw State.reset ∧ PaceLaw State.reset ∧ RecordLaw State.reset ∧ CountLaw State.reset
    ∧ TableLaw State.reset ∧ BayLaw State.reset ∧ QueueLaw State.reset ∧ LineLaw State.reset
    ∧ OthersLaw State.reset ∧ InactiveLaw State.reset

/-- Every step keeps the belt-run output equal to its condition and the alarm lamp equal to its own: ACTIVE
with both stop sets empty, and ACTIVE with a reason, a BLOCKED configured bay or SPEED_HIGH. A step into
ACTIVE leaves RESTART among the own reasons and the output off, and while the station stays ACTIVE only a
RUN press takes RESTART away (R13, R179). -/
def Obligations.OutputsFollowTheirConditions : Prop :=
  RunLaw State.reset ∧ LampLaw State.reset
    ∧ (∀ s t : State, RunLaw s → step s = .next t → RunLaw t)
    ∧ (∀ s t : State, LampLaw s → step s = .next t → LampLaw t)
    ∧ (∀ s t : State, s.station ≠ .active → step s = .next t → t.station = .active →
        hasReason t.stops.own .restart = true ∧ t.belt.run = false)
    ∧ ∀ s t : State, s.station = .active → hasReason s.stops.own .restart = true →
        step s = .next t → t.station = .active → hasReason t.stops.own .restart = false →
        ∃ rest, s.pending = Instr.runPress :: rest

/-- Every step keeps the balance of R91: ENTERED equals the five fates and the ON_BELT records. -/
def Obligations.EveryStepKeepsTheBalance : Prop :=
  CountLaw State.reset ∧ ∀ s t : State, CountLaw s → step s = .next t → CountLaw t

/-- Every step keeps the track list within 24 records and 12 ON_BELT, every ON_BELT record before every
unseen one (R50, R51). -/
def Obligations.EveryStepKeepsTheTrackList : Prop :=
  ∀ s t : State, RecordLaw s → step s = .next t → RecordLaw t

/-- Every step keeps the category table lawful and the bays within their targets: codes once each, entries in
their ranges, entry 0 a PLAN in ACTIVE; landed + reserved at most the target, below it while FILLING, and 0
while EMPTY or BLOCKED (R36, R44, R47, R48, R131). -/
def Obligations.EveryStepKeepsTableAndBays : Prop :=
  (∀ s t : State, TableLaw s → step s = .next t → TableLaw t)
    ∧ ∀ s t : State, TableLaw s → BayLaw s → step s = .next t → BayLaw t

/-- Every step keeps the transmit queue within 12 frames, in rank order and joining order, with at most one
of STOP and RUN and at most one PACE (R165, R166). -/
def Obligations.EveryStepKeepsTheQueue : Prop :=
  ∀ s t : State, QueueLaw s → step s = .next t → QueueLaw t

/-- Every step keeps the others' stop set to valid addresses of other stations, the frame in flight to the
time the station sends, and every block of a station outside ACTIVE in its after-reset state (9.2, R17,
R50, R110, R126, R146, R150, R163, R172, R182; the selected bay there: log 30). -/
def Obligations.EveryStepKeepsLineAndIdleState : Prop :=
  (∀ s t : State, OthersLaw s → step s = .next t → OthersLaw t)
    ∧ (∀ s t : State, LineLaw s → step s = .next t → LineLaw t)
    ∧ ∀ s t : State, InactiveLaw s → step s = .next t → InactiveLaw t
end

