-- ==== Sys2Proof/Laws/State.lean ====
section
/-! SUPPORT. The small lemmas of State: the four-item structure, the frame predicate, and one lemma per
field for the named updates. -/

namespace Sys2Proof

variable {α : Type}

@[simp] theorem Four.get_set_same (f : Four α) (b : BayNo) (x : α) : (f.set b x).get b = x := by
  cases b <;> rfl

theorem Four.get_set_other (f : Four α) {b c : BayNo} (x : α) (h : c ≠ b) :
    (f.set b x).get c = f.get c := by
  cases b <;> cases c <;> first | rfl | exact absurd rfl h

theorem Four.get_set (f : Four α) (b c : BayNo) (x : α) :
    (f.set b x).get c = if c = b then x else f.get c := by
  cases b <;> cases c <;> rfl

@[simp] theorem Four.set_set (f : Four α) (b : BayNo) (x y : α) : (f.set b x).set b y = f.set b y := by
  cases b <;> rfl

@[simp] theorem Four.set_get (f : Four α) (b : BayNo) : f.set b (f.get b) = f := by
  cases b <;> rfl

@[simp] theorem Four.get_all (x : α) (b : BayNo) : (Four.all x).get b = x := by cases b <;> rfl

@[simp] theorem Four.get_map {β : Type} (g : α → β) (f : Four α) (b : BayNo) :
    (f.map g).get b = g (f.get b) := by cases b <;> rfl

theorem Four.ext_get {f g : Four α} (h : ∀ b, f.get b = g.get b) : f = g := by
  have h1 := h .b1; have h2 := h .b2; have h3 := h .b3; have h4 := h .b4
  cases f; cases g; simp_all [Four.get]

namespace Machine

variable {s t u : State}

/-! ## The frame predicate -/

theorem KeepsBut.refl (ps : List Part) (s : State) : KeepsBut ps s s := by
  intro p _; cases p <;> simp [Part.same]

theorem Part.same_trans {p : Part} (h1 : p.same s t) (h2 : p.same t u) : p.same s u := by
  cases p <;> simp_all [Part.same]

theorem KeepsBut.trans {ps : List Part} (h1 : KeepsBut ps s t) (h2 : KeepsBut ps t u) :
    KeepsBut ps s u := fun p hp => Part.same_trans (h1 p hp) (h2 p hp)

theorem KeepsBut.mono {ps qs : List Part} (h : KeepsBut ps s t) (hsub : ∀ p ∈ ps, p ∈ qs) :
    KeepsBut qs s t := fun p hp => h p fun hin => hp (hsub p hin)

/-! ## One lemma per field of the named updates -/

@[simp] theorem putEye_entry_self (ch : EyeChannel) (s : State) : eyeOf .entry (putEye .entry ch s) = ch := rfl
@[simp] theorem putEye_exit_self (ch : EyeChannel) (s : State) : eyeOf .exit (putEye .exit ch s) = ch := rfl
@[simp] theorem eyeOf_putEye (e : Eye) (ch : EyeChannel) (s : State) : eyeOf e (putEye e ch s) = ch := by
  cases e <;> rfl
@[simp] theorem putEye_settings (e : Eye) (ch : EyeChannel) (s : State) :
    (putEye e ch s).settings = s.settings := by cases e <;> rfl
@[simp] theorem putEye_station (e : Eye) (ch : EyeChannel) (s : State) :
    (putEye e ch s).station = s.station := by cases e <;> rfl
@[simp] theorem putEye_belt (e : Eye) (ch : EyeChannel) (s : State) : (putEye e ch s).belt = s.belt := by
  cases e <;> rfl
@[simp] theorem putEye_tracks (e : Eye) (ch : EyeChannel) (s : State) :
    (putEye e ch s).tracks = s.tracks := by cases e <;> rfl

@[simp] theorem countPiece_tracks (ev : TallyEvent) (l : Lot) (c : Code) (s : State) :
    (countPiece ev l c s).tracks = s.tracks := rfl
@[simp] theorem countPiece_settings (ev : TallyEvent) (l : Lot) (c : Code) (s : State) :
    (countPiece ev l c s).settings = s.settings := rfl
@[simp] theorem countPiece_link (ev : TallyEvent) (l : Lot) (c : Code) (s : State) :
    (countPiece ev l c s).link = s.link := rfl
@[simp] theorem countPiece_bays (ev : TallyEvent) (l : Lot) (c : Code) (s : State) :
    (countPiece ev l c s).bays = s.bays := rfl
@[simp] theorem countLine_tracks (ev : TallyEvent) (n : Nat) (s : State) :
    (countLine ev n s).tracks = s.tracks := rfl
@[simp] theorem countLine_settings (ev : TallyEvent) (n : Nat) (s : State) :
    (countLine ev n s).settings = s.settings := rfl
@[simp] theorem countLine_link (ev : TallyEvent) (n : Nat) (s : State) :
    (countLine ev n s).link = s.link := rfl
@[simp] theorem countLine_bays (ev : TallyEvent) (n : Nat) (s : State) :
    (countLine ev n s).bays = s.bays := rfl
@[simp] theorem setLine_line (l : LineView) (s : State) : (setLine l s).link.line = l := rfl
@[simp] theorem setLine_queue (l : LineView) (s : State) : (setLine l s).link.queue = s.link.queue := rfl
@[simp] theorem setLine_settings (l : LineView) (s : State) : (setLine l s).settings = s.settings := rfl
@[simp] theorem setLine_stops (l : LineView) (s : State) : (setLine l s).stops = s.stops := rfl
@[simp] theorem setLine_tracks (l : LineView) (s : State) : (setLine l s).tracks = s.tracks := rfl

end Machine

end Sys2Proof
end

