-- ==== Sys2Proof/Laws/Frames.lean ====
section
/-! SUPPORT. One frame lemma per shared operation: which parts of State it may change. -/

namespace Sys2Proof.Machine

variable (s : State)

/-! ## Counting -/

theorem countPiece_keeps (ev : TallyEvent) (l : Lot) (c : Code) :
    KeepsBut [.fates, .events, .drops, .counters] s (countPiece ev l c s) := by
  intro p hp; cases p <;> simp_all [Part.same, countPiece]

theorem countLine_keeps (ev : TallyEvent) (n : Nat) :
    KeepsBut [.fates, .events, .drops, .counters] s (countLine ev n s) := by
  intro p hp; cases p <;> simp_all [Part.same, countLine]

theorem countLine_linkDrop_keeps (n : Nat) :
    KeepsBut [.drops, .counters] s (countLine .linkDrop n s) := by
  intro p hp; cases p <;> simp_all [Part.same, countLine, offerTally, bumpCounts]

/-! ## Outputs that follow a condition -/

theorem followRun_keeps : KeepsBut [.run, .grace, .low] s (followRun s) := by
  intro p hp; unfold followRun; split
  · cases p <;> simp [Part.same]
  · split <;> cases p <;> simp_all [Part.same]

theorem followLamp_keeps : KeepsBut [.lamp] s (followLamp s) := by
  intro p hp; cases p <;> simp_all [Part.same, followLamp]

theorem setStops_keeps (st : Stops) :
    KeepsBut [.own, .others, .run, .grace, .low, .lamp] s (setStops st s) := by
  refine KeepsBut.trans (t := { s with stops := st }) ?_ (KeepsBut.trans
    ((followRun_keeps _).mono (by decide)) ((followLamp_keeps _).mono (by decide)))
  intro p hp; cases p <;> simp_all [Part.same]

/-! ## Frames and pace -/

theorem askRaw_keeps (body : FrameBody) : KeepsBut [.queue, .drops, .counters] s (askRaw body s) := by
  intro p hp; unfold askRaw; dsimp only; split <;> cases p <;>
    simp_all [Part.same, countLine, offerTally, bumpCounts]

theorem relayPace_keeps : KeepsBut sendParts s (relayPace s) := by
  unfold relayPace; dsimp only; split
  · exact KeepsBut.refl _ _
  · have h : KeepsBut sendParts s
        { s with pace := { s.pace with paceOut := paceResult s.pace } } := by
      intro p hp; cases p <;> simp_all [Part.same, sendParts]
    split
    · exact h
    · exact h.trans ((askRaw_keeps _ _).mono (by decide))

theorem paceOnce_keeps : KeepsBut sendParts s (paceOnce s) := by
  unfold paceOnce; split
  · exact KeepsBut.refl _ _
  · refine KeepsBut.trans (t := { s with pace := { s.pace with paceOwn := paceNeed s } }) ?_
      (relayPace_keeps _)
    intro p hp; cases p <;> simp_all [Part.same, sendParts]

theorem evalPace_keeps : KeepsBut sendParts s (evalPace s) :=
  (paceOnce_keeps s).trans (paceOnce_keeps _)

theorem evalIfKeptChanged_keeps (before : State) : KeepsBut sendParts s (evalIfKeptChanged before s) := by
  unfold evalIfKeptChanged; split
  · exact KeepsBut.refl _ _
  · exact evalPace_keeps s

theorem askFrame_keeps (body : FrameBody) : KeepsBut sendParts s (askFrame body s) :=
  ((askRaw_keeps s body).mono (by decide)).trans (evalIfKeptChanged_keeps _ _)

theorem setPaceIn_keeps (gap : Nat) : KeepsBut sendParts s (setPaceIn gap s) := by
  unfold setPaceIn; split
  · exact KeepsBut.refl _ _
  · refine KeepsBut.trans ?_ (evalIfKeptChanged_keeps _ _)
    refine KeepsBut.trans (t := { s with pace := { s.pace with paceIn := gap } }) ?_ (relayPace_keeps _)
    intro p hp; cases p <;> simp_all [Part.same, sendParts]

/-! ## Reasons -/

theorem addReason_keeps (r : StopReason) : KeepsBut stopParts s (addReason r s) := by
  unfold addReason; dsimp only; split
  · exact KeepsBut.refl _ _
  · have h : KeepsBut stopParts s
        (setStops { s.stops with own := insertReason s.stops.own r } s) := by
      have h0 := setStops_keeps s { s.stops with own := insertReason s.stops.own r }
      intro p hp
      by_cases hp' : p = .others
      · subst hp'
        simp [Part.same, setStops, followLamp, followRun]
        split <;> [rfl; split <;> rfl]
      · exact h0 p (by simp_all [stopParts])
    split
    · exact h.trans ((askFrame_keeps _ _).mono (by decide))
    · exact h

/-! ## Bays -/

theorem putBay_keeps (b : BayNo) (x : Bay) :
    KeepsBut ([.bays, .lamp] ++ sendParts) s (putBay b x s) := by
  have h : KeepsBut ([.bays, .lamp] ++ sendParts) s { s with bays := s.bays.set b x } := by
    intro p hp; cases p <;> simp_all [Part.same]
  unfold putBay; dsimp only; split
  · exact h
  · exact h.trans (((evalPace_keeps _).mono (by decide)).trans ((followLamp_keeps _).mono (by decide)))

theorem pushOut_keeps (b : BayNo) : KeepsBut [.pushers] s (pushOut b s) := by
  intro p hp; cases p <;> simp_all [Part.same, pushOut]

theorem discharge_keeps (b : BayNo) : KeepsBut bayParts s (discharge b s) :=
  (((pushOut_keeps s b).mono (by decide)).trans ((askFrame_keeps _ _).mono (by decide))).trans
    ((putBay_keeps _ _ _).mono (by decide))

theorem settleExpire_keeps (b : BayNo) : KeepsBut bayParts s (settleExpire b s) := by
  unfold settleExpire; split
  · exact (putBay_keeps _ _ _).mono (by decide)
  · exact discharge_keeps s b

theorem startSettle_keeps (b : BayNo) : KeepsBut bayParts s (startSettle b s) := by
  unfold startSettle; split
  · exact settleExpire_keeps s b
  · exact (putBay_keeps _ _ _).mono (by decide)

theorem closeBay_keeps (b : BayNo) (r : CloseReason) : KeepsBut bayParts s (closeBay b r s) := by
  unfold closeBay; dsimp only; split
  · split
    · exact ((putBay_keeps _ _ _).mono (by decide)).trans (startSettle_keeps _ _)
    · exact (putBay_keeps _ _ _).mono (by decide)
  · exact KeepsBut.refl _ _

theorem landPiece_keeps (b : BayNo) : KeepsBut bayParts s (landPiece b s) := by
  unfold landPiece; dsimp only; split
  · split
    · exact ((putBay_keeps _ _ _).mono (by decide)).trans (startSettle_keeps _ _)
    · exact (putBay_keeps _ _ _).mono (by decide)
  · exact KeepsBut.refl _ _

theorem closeLotBay_keeps (lot : Lot) (b : BayNo) : KeepsBut bayParts s (closeLotBay lot b s) := by
  unfold closeLotBay; split
  · exact closeBay_keeps s b _
  · exact KeepsBut.refl _ _

theorem closeLot_keeps (lot : Lot) : KeepsBut bayParts s (closeLot lot s) :=
  (((closeLotBay_keeps s lot .b1).trans (closeLotBay_keeps _ lot .b2)).trans
    (closeLotBay_keeps _ lot .b3)).trans (closeLotBay_keeps _ lot .b4)

/-! ## Markers and the head of the list -/

theorem queueHandover_keeps (frame : Seq → FrameBody) :
    KeepsBut (.ownSeq :: sendParts) s (queueHandover frame s) := by
  unfold queueHandover; split
  · exact KeepsBut.refl _ _
  · refine KeepsBut.trans (t := { s with link := { s.link with ownSeq := s.link.ownSeq + 1#8 } }) ?_
      ((askFrame_keeps _ _).mono (by decide))
    intro p hp; cases p <;> simp_all [Part.same]

theorem processMarker_keeps (lot : Lot) : KeepsBut (.ownSeq :: bayParts) s (processMarker lot s) := by
  unfold processMarker; dsimp only
  refine KeepsBut.trans ?_ ((queueHandover_keeps _ _).mono (by decide))
  refine KeepsBut.trans ((closeLot_keeps s lot).mono (by decide)) ?_
  intro p hp; cases p <;> simp_all [Part.same, bayParts, sendParts, latchTally]

theorem processHeads_keeps (n : Nat) : ∀ s, KeepsBut markerParts s (processHeads n s) := by
  induction n with
  | zero => intro s; exact KeepsBut.refl _ _
  | succ n ih =>
    intro s; unfold processHeads; split
    next _ lot rest _ =>
      refine KeepsBut.trans ?_ (ih _)
      refine KeepsBut.trans ((processMarker_keeps s lot).mono (by decide)) ?_
      intro p hp; cases p <;> simp_all [Part.same, markerParts, setTracks]
    · exact KeepsBut.refl _ _

theorem lookAtHead_keeps : KeepsBut markerParts s (lookAtHead s) := processHeads_keeps _ s

theorem takeOut_keeps (n : LocalNo) : KeepsBut (.tracks :: sendParts) s (takeOut n s) := by
  unfold takeOut
  refine KeepsBut.trans ?_ ((evalPace_keeps _).mono (by decide))
  intro p hp; cases p <;> simp_all [Part.same, setTracks]

/-! ## Fates -/

/-- What the common steps of a fate may change (R82). -/
def fateParts : List Part := [.schedule, .fates, .events] ++ markerParts

theorem endPiece_keeps (f : Fate) (n : LocalNo) : KeepsBut fateParts s (endPiece f n s) := by
  unfold endPiece; split
  · exact KeepsBut.refl _ _
  · refine KeepsBut.trans ?_ ((lookAtHead_keeps _).mono (by decide))
    refine KeepsBut.trans ?_ ((takeOut_keeps _ _).mono (by decide))
    refine KeepsBut.trans ?_ ((countPiece_keeps _ _ _ _).mono (by decide))
    intro p hp; cases p <;> simp_all [Part.same, fateParts]

theorem stackPiece_keeps (b : BayNo) (n : LocalNo) : KeepsBut fateParts s (stackPiece b n s) := by
  unfold stackPiece; split
  · exact KeepsBut.refl _ _
  · exact ((landPiece_keeps s b).mono (by decide)).trans (endPiece_keeps _ _ _)

theorem passPiece_keeps (n : LocalNo) : KeepsBut fateParts s (passPiece n s) := by
  unfold passPiece; split
  · exact KeepsBut.refl _ _
  · exact ((queueHandover_keeps _ _).mono (by decide)).trans
      (endPiece_keeps _ _ _)

/-! ## The line and the purge hold -/

theorem seeIdle_keeps : KeepsBut [.line, .fates, .events, .drops, .counters] s (seeIdle s) := by
  have h : KeepsBut [.line, .fates, .events, .drops, .counters] s (setLine .idle s) := by
    intro p hp; cases p <;> simp_all [Part.same, setLine]
  unfold seeIdle; split
  · exact KeepsBut.refl _ _
  · exact h.trans ((countLine_keeps _ _ _).mono (by decide))
  · exact KeepsBut.refl _ _
  · exact h
  · exact h

theorem endHold_keeps : KeepsBut [.purgeHold] s (endHold s) := by
  intro p hp; cases p <;> simp_all [Part.same, endHold]

end Sys2Proof.Machine
end

