-- ==== Sys2Proof/Laws/Records.lean ====
section
/-! SUPPORT. The track list: how each shared operation changes the list and the number of ON_BELT records,
and that each keeps the laws of R50, R51 and R91. -/

namespace Sys2Proof.Machine

variable {s t : State}

/-! ## Kinds of records -/

theorem not_unseen_of_onBelt {r : Record} (h : isOnBelt r = true) : isUnseen r = false := by
  unfold isOnBelt at h; unfold isUnseen
  split at h
  · split at h <;> simp_all
  · cases h

theorem onBelt_iff_beltOf (r : Record) : isOnBelt r = (beltOf r).isSome := by
  unfold isOnBelt beltOf; split <;> [split <;> rfl; rfl]

theorem onBelt_of_hasLocal {n : LocalNo} {r : Record} (h : hasLocal n r = true) : isOnBelt r = true := by
  rw [onBelt_iff_beltOf]; unfold hasLocal at h
  cases hb : beltOf r with
  | none => simp [hb] at h
  | some x => rfl

/-- The law of R50 and R51 rests on the kinds of the records alone. -/
theorem RecordsOk.of_kinds {xs ys : List Record} (h : RecordsOk xs)
    (hk : ys.map (fun r => (isUnseen r, isOnBelt r)) = xs.map fun r => (isUnseen r, isOnBelt r)) :
    RecordsOk ys := by
  obtain ⟨h1, h2, h3⟩ := h
  have hp : ∀ zs : List Record,
      (zs.Pairwise fun x y => isUnseen x = true → isOnBelt y = false) ↔
        (zs.map fun r => (isUnseen r, isOnBelt r)).Pairwise fun x y => x.1 = true → y.2 = false := by
    intro zs; rw [List.pairwise_map]
  have hc : ∀ zs : List Record,
      onBeltCount zs = (zs.map fun r => (isUnseen r, isOnBelt r)).countP fun x => x.2 := by
    intro zs; rw [List.countP_map]; rfl
  refine ⟨?_, ?_, ?_⟩
  · have := congrArg List.length hk; simp at this; omega
  · rw [hc, hk, ← hc]; exact h2
  · rw [hp, hk, ← hp]; exact h3

theorem onBeltCount_of_kinds {xs ys : List Record}
    (hk : ys.map isOnBelt = xs.map isOnBelt) : onBeltCount ys = onBeltCount xs := by
  have hc : ∀ zs : List Record, onBeltCount zs = (zs.map isOnBelt).countP id := by
    intro zs; rw [List.countP_map]; rfl
  rw [hc, hk, ← hc]

theorem RecordsOk.sublist {xs ys : List Record} (h : RecordsOk xs) (hs : ys.Sublist xs) :
    RecordsOk ys :=
  ⟨hs.length_le.trans h.1, hs.countP_le.trans h.2.1, h.2.2.sublist hs⟩

/-- A record that is not ON_BELT may join a list with a free place at its tail (R56). -/
theorem RecordsOk.append {xs : List Record} {r : Record} (h : RecordsOk xs) (hl : xs.length < 24)
    (hr : isOnBelt r = false) : RecordsOk (xs ++ [r]) := by
  obtain ⟨-, h2, h3⟩ := h
  refine ⟨by simp; omega, ?_, ?_⟩
  · simpa [onBeltCount, List.countP_append, hr] using h2
  · rw [List.pairwise_append]
    exact ⟨h3, by simp, fun x _ y hy _ => by simp at hy; rw [hy]; exact hr⟩

/-- A change of ON_BELT records in their places keeps every kind. -/
theorem updateLocal_kinds (n : LocalNo) (f : Piece → BeltInfo → Record)
    (hf : ∀ p i, isOnBelt (f p i) = true) (xs : List Record) :
    (updateLocal n f xs).map (fun r => (isUnseen r, isOnBelt r)) =
      xs.map fun r => (isUnseen r, isOnBelt r) := by
  unfold updateLocal
  rw [List.map_map]
  refine List.map_congr_left fun r _ => ?_
  have hb := onBelt_iff_beltOf r
  simp only [Function.comp]
  split
  next p i h =>
    rw [h] at hb
    split
    · rw [hf, not_unseen_of_onBelt (hf p i), hb, not_unseen_of_onBelt hb]; rfl
    · rfl
  next => rfl

theorem lowerWindow_kinds (xs : List Record) :
    (xs.map lowerWindow).map (fun r => (isUnseen r, isOnBelt r)) =
      xs.map fun r => (isUnseen r, isOnBelt r) := by
  rw [List.map_map]
  refine List.map_congr_left fun r _ => ?_
  simp only [Function.comp]
  unfold lowerWindow
  split
  next p => split <;> simp_all [isUnseen, isOnBelt]
  next => rfl

theorem count_kinds {xs ys : List Record}
    (hk : ys.map (fun r => (isUnseen r, isOnBelt r)) = xs.map fun r => (isUnseen r, isOnBelt r)) :
    onBeltCount ys = onBeltCount xs := by
  refine onBeltCount_of_kinds ?_
  have := congrArg (List.map Prod.snd) hk
  simpa [List.map_map, Function.comp_def] using this

/-- Erasing a record that is not ON_BELT leaves the count. -/
theorem onBeltCount_eraseP {p : Record → Bool} (hp : ∀ r, p r = true → isOnBelt r = false)
    (xs : List Record) : onBeltCount (xs.eraseP p) = onBeltCount xs := by
  induction xs with
  | nil => rfl
  | cons x xs ih =>
    cases hx : p x with
    | true => simp [List.eraseP_cons_of_pos hx, onBeltCount, hp x hx]
    | false =>
      rw [List.eraseP_cons_of_neg (by simp [hx])]
      simp only [onBeltCount, List.countP_cons] at ih ⊢
      rw [ih]

theorem isOnBelt_of_unseen {r : Record} (h : isUnseen r = true) : isOnBelt r = false := by
  cases hb : isOnBelt r with
  | false => rfl
  | true => rw [not_unseen_of_onBelt hb] at h; cases h

theorem isUnseen_of_hasRunOut {r : Record} (h : hasRunOut r = true) : isUnseen r = true := by
  unfold hasRunOut at h; unfold isUnseen
  split at h
  · split at h <;> simp_all
  · cases h

theorem findLocal_some {n : LocalNo} {xs : List Record} {x : Piece × BeltInfo}
    (h : findLocal n xs = some x) : ∃ r ∈ xs, hasLocal n r = true ∧ beltOf r = some x := by
  unfold findLocal at h
  rw [Option.bind_eq_some_iff] at h
  obtain ⟨r, hr, hb⟩ := h
  exact ⟨r, List.mem_of_find?_eq_some hr, List.find?_some hr, hb⟩

/-- Taking out the record of a local piece number lowers the number of ON_BELT records by one. -/
theorem onBeltCount_takeOut {n : LocalNo} {xs : List Record} {x : Piece × BeltInfo}
    (h : findLocal n xs = some x) : onBeltCount xs = onBeltCount (xs.eraseP (hasLocal n)) + 1 := by
  obtain ⟨r, hr, hl, -⟩ := findLocal_some h
  clear h
  induction xs with
  | nil => cases hr
  | cons y ys ih =>
    cases hy : hasLocal n y with
    | true => simp [List.eraseP_cons_of_pos hy, onBeltCount, onBelt_of_hasLocal hy]
    | false =>
      rw [List.eraseP_cons_of_neg (by simp [hy])]
      rcases List.mem_cons.1 hr with rfl | hr
      · rw [hy] at hl; cases hl
      · have := ih hr
        simp only [onBeltCount, List.countP_cons] at this ⊢
        omega

/-! ## The head of the list -/

@[simp] theorem setTracks_tracks (xs : List Record) (s : State) : (setTracks xs s).tracks = xs := rfl

theorem setTracks_keeps (xs : List Record) (s : State) : KeepsBut [.tracks] s (setTracks xs s) := by
  intro p hp; cases p <;> simp_all [Part.same, setTracks]

theorem processHeads_sublist (n : Nat) : ∀ s, (processHeads n s).tracks.Sublist s.tracks := by
  induction n with
  | zero => exact fun s => List.Sublist.refl _
  | succ n ih =>
    intro s; unfold processHeads; split
    next q l rest h => rw [h]; exact (ih _).trans (List.sublist_cons_self _ _)
    next => exact List.Sublist.refl _

theorem lookAtHead_sublist (s : State) : (lookAtHead s).tracks.Sublist s.tracks :=
  processHeads_sublist _ s

theorem processHeads_count (n : Nat) : ∀ s,
    onBeltCount (processHeads n s).tracks = onBeltCount s.tracks := by
  induction n with
  | zero => exact fun _ => rfl
  | succ n ih =>
    intro s; unfold processHeads; split
    next q l rest h => rw [ih, h]; simp [onBeltCount, isOnBelt]
    next => rfl

theorem lookAtHead_count (s : State) : onBeltCount (lookAtHead s).tracks = onBeltCount s.tracks :=
  processHeads_count _ s

/-- After the list has looked at its head no MARKER stands there (R66). -/
theorem processHeads_head (n : Nat) : ∀ s : State, s.tracks.length ≤ n →
    ∀ q l rest, (processHeads n s).tracks ≠ .marker q l :: rest := by
  induction n with
  | zero => intro s h q l rest he; unfold processHeads at he; rw [he] at h; simp at h
  | succ n ih =>
    intro s h q l rest; unfold processHeads; split
    next q' l' rest' h' => rw [h'] at h; exact ih _ (by simpa using h) q l rest
    next hne => exact fun he => hne q l rest he

theorem lookAtHead_head (s : State) (q : Seq) (l : Lot) (rest : List Record) :
    (lookAtHead s).tracks ≠ .marker q l :: rest := processHeads_head _ s (le_refl _) q l rest

/-! ## The balance of R91 -/

/-- A change that leaves the fate counts and the number of ON_BELT records keeps the balance. -/
theorem KeepsBut.countLaw {ps : List Part} (h : KeepsBut ps s t) (hp : Part.fates ∉ ps)
    (hc : onBeltCount t.tracks = onBeltCount s.tracks) (hl : CountLaw s) : CountLaw t := by
  obtain ⟨h1, h2, h3, h4, h5, h6⟩ := h .fates hp
  unfold CountLaw; rw [h1, h2, h3, h4, h5, h6, hc]; exact hl

theorem KeepsBut.recordLaw {ps : List Part} (h : KeepsBut ps s t) (hp : Part.tracks ∉ ps)
    (hl : RecordLaw s) : RecordLaw t := by
  have h1 : t.tracks = s.tracks := h .tracks hp
  unfold RecordLaw; rw [h1]; exact hl

theorem lookAtHead_countLaw (hl : CountLaw s) : CountLaw (lookAtHead s) :=
  (lookAtHead_keeps s).countLaw (by decide) (lookAtHead_count s) hl

theorem lookAtHead_recordLaw (hl : RecordLaw s) : RecordLaw (lookAtHead s) :=
  RecordsOk.sublist hl (lookAtHead_sublist s)

/-- Counting a fate with one ON_BELT record fewer keeps the balance (R82, R91). -/
theorem endPiece_countLaw (f : Fate) (n : LocalNo) (hl : CountLaw s) : CountLaw (endPiece f n s) := by
  unfold endPiece; split
  · exact hl
  next p i h =>
    refine lookAtHead_countLaw ?_
    unfold takeOut
    refine (evalPace_keeps _).countLaw (by decide) ?_ ?_
    · rw [(evalPace_keeps _) .tracks (by decide)]
    · have hc := onBeltCount_takeOut h
      unfold CountLaw at hl ⊢
      have hx : BitVec.ofNat 32 (onBeltCount s.tracks) =
          BitVec.ofNat 32 (onBeltCount (s.tracks.eraseP (hasLocal n))) + 1#32 := by
        rw [hc]; exact BitVec.ofNat_add _ _
      rw [hx] at hl
      cases f <;> simp [countPiece, offerTally, bumpCounts, fateEvent, setTracks] at * <;>
        rw [hl] <;> ac_rfl

theorem endPiece_tracks_sublist (f : Fate) (n : LocalNo) (s : State) :
    (endPiece f n s).tracks.Sublist s.tracks := by
  unfold endPiece; split
  · exact List.Sublist.refl _
  · refine (lookAtHead_sublist _).trans ?_
    unfold takeOut
    rw [(evalPace_keeps _) .tracks (by decide)]
    exact List.eraseP_sublist

theorem stackPiece_countLaw (b : BayNo) (n : LocalNo) (hl : CountLaw s) :
    CountLaw (stackPiece b n s) := by
  unfold stackPiece; split
  · exact hl
  · refine endPiece_countLaw _ _ ((landPiece_keeps s b).countLaw (by decide) ?_ hl)
    rw [(landPiece_keeps s b) .tracks (by decide)]

theorem stackPiece_tracks_sublist (b : BayNo) (n : LocalNo) (s : State) :
    (stackPiece b n s).tracks.Sublist s.tracks := by
  unfold stackPiece; split
  · exact List.Sublist.refl _
  · have h := endPiece_tracks_sublist .stacked n (landPiece b s)
    rwa [(landPiece_keeps s b) .tracks (by decide)] at h

theorem passPiece_countLaw (n : LocalNo) (hl : CountLaw s) : CountLaw (passPiece n s) := by
  unfold passPiece; split
  · exact hl
  · refine endPiece_countLaw _ _ ((queueHandover_keeps s _).countLaw (by decide) ?_ hl)
    rw [(queueHandover_keeps s _) .tracks (by decide)]

theorem passPiece_tracks_sublist (n : LocalNo) (s : State) :
    (passPiece n s).tracks.Sublist s.tracks := by
  unfold passPiece; split
  · exact List.Sublist.refl _
  next p i _ =>
    have h := endPiece_tracks_sublist .passed n (queueHandover (announceOf s.settings p i) s)
    rwa [(queueHandover_keeps s _) .tracks (by decide)] at h

/-! ## Firing -/

theorem fireEntry_laws (e : SchedEntry) (hl : CountLaw s) :
    CountLaw (fireEntry e s) ∧ (fireEntry e s).tracks.Sublist s.tracks := by
  have fold : ∀ (f : State → LocalNo → State),
      (∀ s n, CountLaw s → CountLaw (f s n) ∧ (f s n).tracks.Sublist s.tracks) →
      ∀ (l : List LocalNo) s, CountLaw s →
        CountLaw (l.foldl f s) ∧ (l.foldl f s).tracks.Sublist s.tracks := by
    intro f hf l
    induction l with
    | nil => exact fun s h => ⟨h, List.Sublist.refl _⟩
    | cons a l ih =>
      intro s h
      have h1 := hf s a h
      have h2 := ih (f s a) h1.1
      exact ⟨h2.1, h2.2.trans h1.2⟩
  have hg : ∀ g o, CountLaw (setGate g o s) ∧ (setGate g o s).tracks = s.tracks := by
    intro g o; unfold setGate; split <;> exact ⟨hl, rfl⟩
  unfold fireEntry; split
  · unfold fireJet; dsimp only; split <;> exact ⟨hl, List.Sublist.refl _⟩
  · exact ⟨(hg _ _).1, (hg _ _).2 ▸ List.Sublist.refl _⟩
  next g _ =>
    have := fold (closeFate g) (by
      intro s n h; unfold closeFate; split
      · exact ⟨stackPiece_countLaw _ _ h, stackPiece_tracks_sublist _ _ _⟩
      · exact ⟨endPiece_countLaw _ _ h, endPiece_tracks_sublist _ _ _⟩) e.pieces _ (hg g false).1
    rwa [(hg g false).2] at this
  next =>
    refine fold checkExit ?_ _ _ hl
    intro s n h; unfold checkExit; split
    · split
      · exact ⟨h, List.Sublist.refl _⟩
      · exact ⟨endPiece_countLaw _ _ h, endPiece_tracks_sublist _ _ _⟩
    · exact ⟨h, List.Sublist.refl _⟩

theorem fireReached_laws (n : Nat) : ∀ s : State, CountLaw s →
    CountLaw (fireReached n s) ∧ (fireReached n s).tracks.Sublist s.tracks := by
  induction n with
  | zero => exact fun s h => ⟨h, List.Sublist.refl _⟩
  | succ n ih =>
    intro s h; unfold fireReached; split
    · exact ⟨h, List.Sublist.refl _⟩
    next e _ =>
      split
      · have h1 := fireEntry_laws (s := { s with schedule := withoutHead s.schedule }) e h
        have h2 := ih _ h1.1
        exact ⟨h2.1, h2.2.trans h1.2⟩
      · exact ⟨h, List.Sublist.refl _⟩

end Sys2Proof.Machine
end

