-- ==== Sys2Proof/Laws/Planning.lean ====
section
/-! SUPPORT. Planning, arrival, admission, run-outs and the purge: that each keeps the laws of R50, R51 and
R91. -/

namespace Sys2Proof.Machine

variable {s t : State}

/-- The laws of the track list together (R50, R51, R91). -/
def TrackLaws (s : State) : Prop := CountLaw s ∧ RecordLaw s

theorem KeepsBut.trackLaws {ps : List Part} (h : KeepsBut ps s t) (hf : Part.fates ∉ ps)
    (ht : Part.tracks ∉ ps) (hl : TrackLaws s) : TrackLaws t :=
  ⟨h.countLaw hf (by rw [h .tracks ht]) hl.1, h.recordLaw ht hl.2⟩

theorem lookAtHead_trackLaws (hl : TrackLaws s) : TrackLaws (lookAtHead s) :=
  ⟨lookAtHead_countLaw hl.1, lookAtHead_recordLaw hl.2⟩

theorem evalPace_trackLaws (hl : TrackLaws s) : TrackLaws (evalPace s) :=
  (evalPace_keeps s).trackLaws (by decide) (by decide) hl

theorem addReason_trackLaws (r : StopReason) (hl : TrackLaws s) : TrackLaws (addReason r s) :=
  (addReason_keeps s r).trackLaws (by decide) (by decide) hl

/-- Replacing the list by one of the same kinds. -/
theorem setTracks_trackLaws {xs : List Record} (hl : TrackLaws s)
    (hk : xs.map (fun r => (isUnseen r, isOnBelt r)) = s.tracks.map fun r => (isUnseen r, isOnBelt r)) :
    TrackLaws (setTracks xs s) :=
  ⟨(setTracks_keeps xs s).countLaw (by decide) (count_kinds hk) hl.1, RecordsOk.of_kinds hl.2 hk⟩

/-- Removing an unseen record. -/
theorem eraseUnseen_trackLaws {p : Record → Bool} (hp : ∀ r, p r = true → isUnseen r = true)
    (hl : TrackLaws s) : TrackLaws (setTracks (s.tracks.eraseP p) s) :=
  ⟨(setTracks_keeps _ s).countLaw (by decide)
      (onBeltCount_eraseP (fun r h => isOnBelt_of_unseen (hp r h)) _) hl.1,
    RecordsOk.sublist hl.2 List.eraseP_sublist⟩

/-- The piece events that are no fate leave the fate counts. -/
theorem countPiece_keeps_fates (ev : TallyEvent) (l : Lot) (c : Code) (s : State)
    (h : ev = .orphan ∨ ev = .ghost ∨ ev = .lengthDisagree ∨ ev = .skipAhead ∨ ev = .chainFault
      ∨ ev = .late ∨ ev = .jetBusy) : KeepsBut [.events, .counters] s (countPiece ev l c s) := by
  intro p hp
  rcases h with rfl | rfl | rfl | rfl | rfl | rfl | rfl <;> cases p <;>
    simp_all [Part.same, countPiece, offerTally, bumpCounts]

theorem countPiece_trackLaws (ev : TallyEvent) (l : Lot) (c : Code)
    (h : ev = .orphan ∨ ev = .ghost ∨ ev = .lengthDisagree ∨ ev = .skipAhead ∨ ev = .chainFault
      ∨ ev = .late ∨ ev = .jetBusy) (hl : TrackLaws s) : TrackLaws (countPiece ev l c s) :=
  (countPiece_keeps_fates ev l c s h).trackLaws (by decide) (by decide) hl

theorem countLine_keeps_fates (ev : TallyEvent) (n : Nat) (s : State)
    (h : ev = .seqGap ∨ ev = .syncLoss ∨ ev = .expectOverflow ∨ ev = .stray ∨ ev = .linkCheck
      ∨ ev = .linkDrop) : KeepsBut [.events, .drops, .counters] s (countLine ev n s) := by
  intro p hp
  rcases h with rfl | rfl | rfl | rfl | rfl | rfl <;> cases p <;>
    simp_all [Part.same, countLine, offerTally, bumpCounts]

theorem countLine_trackLaws (ev : TallyEvent) (n : Nat)
    (h : ev = .seqGap ∨ ev = .syncLoss ∨ ev = .expectOverflow ∨ ev = .stray ∨ ev = .linkCheck
      ∨ ev = .linkDrop) (hl : TrackLaws s) : TrackLaws (countLine ev n s) :=
  (countLine_keeps_fates ev n s h).trackLaws (by decide) (by decide) hl

/-! ## Planning -/

theorem claimBay_keeps (b : BayNo) (lot : Lot) (c : Code) (n : Nat) (s : State) :
    KeepsBut ([.bays, .lamp] ++ sendParts) s (claimBay b lot c n s) := by
  unfold claimBay; dsimp only; split
  · exact putBay_keeps _ _ _
  · exact KeepsBut.refl _ _

theorem reserveBay_keeps (b : BayNo) (s : State) :
    KeepsBut ([.bays, .lamp] ++ sendParts) s (reserveBay b s) := by
  unfold reserveBay; dsimp only; split <;> exact putBay_keeps _ _ _

theorem stageResolve_keeps (w : Work) (s : State) :
    KeepsBut [.table, .events, .counters] s (stageResolve w s).2 := by
  have ht : ∀ tb, KeepsBut [.table, .events, .counters] s { s with table := tb } := by
    intro tb p hp; cases p <;> simp_all [Part.same]
  unfold stageResolve; split
  · exact KeepsBut.refl _ _
  · dsimp only; split
    · exact (ht _).trans ((countPiece_keeps_fates _ _ _ _ (by simp)).mono (by decide))
    · exact ht _

theorem stageFold_keeps (w : Work) (s : State) : KeepsBut [.events, .counters] s (stageFold w s).2 := by
  unfold stageFold; split
  · exact KeepsBut.refl _ _
  · split
    · exact KeepsBut.refl _ _
    · dsimp only; split
      · exact countPiece_keeps_fates _ _ _ _ (by simp)
      · split
        · exact countPiece_keeps_fates _ _ _ _ (by simp)
        · exact KeepsBut.refl _ _

theorem stageRoute_keeps (w : Work) (s : State) :
    KeepsBut ([.bays, .lamp] ++ sendParts) s (stageRoute w s).2 := by
  unfold stageRoute; split
  · exact KeepsBut.refl _ _
  · split
    · exact KeepsBut.refl _ _
    · dsimp only; split
      · exact KeepsBut.trans (t := claimBay _ _ _ _ s) (claimBay_keeps _ _ _ _ _) (reserveBay_keeps _ _)
      · exact KeepsBut.refl _ _

theorem stageInsert_keeps (w : Work) (s : State) :
    KeepsBut [.schedule, .nextSerial] s (stageInsert w s) := by
  have hadd : ∀ a d ps s, KeepsBut [.schedule, .nextSerial] s (addEntry a d ps s) := by
    intro a d ps s p hp; cases p <;> simp_all [Part.same, addEntry]
  have hgate : ∀ g o c n s, KeepsBut [.schedule, .nextSerial] s (insertGate g o c n s) := by
    intro g o c n s; unfold insertGate; split
    · exact (hadd _ _ _ _).trans (hadd _ _ _ _)
    · intro p hp; cases p <;> simp_all [Part.same, addEntry]
  have h1 : KeepsBut [.schedule, .nextSerial] s (match w.info.fold with
      | some f => addEntry (.jetFire f.jet) f.due [w.info.localNo] s
      | none => s) := by
    split
    · exact hadd _ _ _ _
    · exact KeepsBut.refl _ _
  unfold stageInsert; dsimp only; split
  · exact h1.trans (hgate _ _ _ _ _)
  · exact h1.trans (hgate _ _ _ _ _)
  · exact h1.trans (hadd _ _ _ _)
  · exact h1

theorem stageJudge_trackLaws (w : Work) (hl : TrackLaws s) : TrackLaws (stageJudge w s).2 := by
  unfold stageJudge; split
  · exact hl
  · split
    · exact hl
    · split
      · exact hl
      · split
        · split
          · unfold skipAhead
            exact lookAtHead_trackLaws (countPiece_trackLaws _ _ _ (by simp)
              (countPiece_trackLaws _ _ _ (by simp) (eraseUnseen_trackLaws (fun _ h => h) hl)))
          · exact countPiece_trackLaws _ _ _ (by simp) hl
        · exact hl

theorem planStages_trackLaws (w : Work) (hl : TrackLaws s) : TrackLaws (planStages w s) := by
  unfold planStages; dsimp only
  refine setTracks_trackLaws ?_ (updateLocal_kinds _ _ (fun _ _ => rfl) _)
  refine (stageInsert_keeps _ _).trackLaws (by decide) (by decide) ?_
  refine (stageRoute_keeps _ _).trackLaws (by decide) (by decide) ?_
  refine (stageFold_keeps _ _).trackLaws (by decide) (by decide) ?_
  refine (stageResolve_keeps _ _).trackLaws (by decide) (by decide) ?_
  exact stageJudge_trackLaws _ hl

theorem planPiece_trackLaws (p : Pos) (hl : TrackLaws s) : TrackLaws (planPiece p s) := by
  unfold planPiece; split
  · exact hl
  · exact planStages_trackLaws _ hl

/-! ## Arrival -/

theorem pairFirst_of_none {i : BeltInfo} {xs : List Record} (h : xs.any isUnseen = false) :
    pairFirst i xs = xs := by
  induction xs with
  | nil => rfl
  | cons x xs ih =>
    simp only [List.any_cons, Bool.or_eq_false_iff] at h
    cases x with
    | marker q l => simp [pairFirst, ih h.2]
    | piece p => simp [pairFirst, h.1, ih h.2]

theorem pairFirst_length (i : BeltInfo) (xs : List Record) : (pairFirst i xs).length = xs.length := by
  induction xs with
  | nil => rfl
  | cons x xs ih =>
    cases x with
    | marker q l => simp [pairFirst, ih]
    | piece p => unfold pairFirst; split <;> simp [ih]

theorem pairFirst_count (i : BeltInfo) {xs : List Record} (h : xs.any isUnseen = true) :
    onBeltCount (pairFirst i xs) = onBeltCount xs + 1 := by
  induction xs with
  | nil => cases h
  | cons x xs ih =>
    cases x with
    | marker q l =>
      have := ih (by simpa [isUnseen] using h)
      simp only [pairFirst, onBeltCount, List.countP_cons] at this ⊢
      omega
    | piece p =>
      unfold pairFirst; split
      next hu =>
        have := isOnBelt_of_unseen hu
        simp only [onBeltCount, List.countP_cons, this]; simp [isOnBelt]
      next hu =>
        have := ih (by simpa [hu] using h)
        simp only [onBeltCount, List.countP_cons] at this ⊢
        omega

theorem pairFirst_order (i : BeltInfo) {xs : List Record}
    (h : xs.Pairwise fun x y => isUnseen x = true → isOnBelt y = false) :
    (pairFirst i xs).Pairwise fun x y => isUnseen x = true → isOnBelt y = false := by
  induction xs with
  | nil => exact List.Pairwise.nil
  | cons x xs ih =>
    rw [List.pairwise_cons] at h
    cases x with
    | marker q l =>
      unfold pairFirst
      exact List.pairwise_cons.2 ⟨fun _ _ hu => (by cases hu), ih h.2⟩
    | piece p =>
      unfold pairFirst; split
      · exact List.pairwise_cons.2 ⟨fun _ _ hu => (by cases hu), h.2⟩
      next hu => exact List.pairwise_cons.2 ⟨fun _ _ hu' => absurd hu' hu, ih h.2⟩

theorem consumeOldest_trackLaws (hl : TrackLaws s) : TrackLaws (consumeOldest s) := by
  unfold consumeOldest; split
  · exact lookAtHead_trackLaws (eraseUnseen_trackLaws (fun _ h => h) hl)
  · exact hl

theorem overrun_trackLaws (hl : TrackLaws s) : TrackLaws (overrun s) := by
  unfold overrun
  exact addReason_trackLaws _ (consumeOldest_trackLaws hl)

/-- ENTERED counted with one ON_BELT record more keeps the balance (R60, R61, R91). -/
theorem countEntered_countLaw {xs : List Record} {n : LocalNo}
    (hc : onBeltCount xs = onBeltCount s.tracks + 1) (hl : CountLaw s) :
    CountLaw (countEntered { s with tracks := xs, nextLocal := n }) := by
  have hx : BitVec.ofNat 32 (onBeltCount xs) = BitVec.ofNat 32 (onBeltCount s.tracks) + 1#32 := by
    rw [hc]; exact BitVec.ofNat_add _ _
  unfold CountLaw at hl ⊢
  simp only [countEntered]
  rw [hl, hx]; ac_rfl

theorem arrive_trackLaws (q : Pos) (hl : TrackLaws s) : TrackLaws (arrive q s) := by
  unfold arrive; dsimp only; split
  · exact overrun_trackLaws hl
  next hlim =>
    have hlt : onBeltCount s.tracks < 12 := Nat.lt_of_not_le hlim
    obtain ⟨hb, hr1, hr2, hr3⟩ := hl
    split
    next hu =>
      refine evalPace_trackLaws ⟨countEntered_countLaw (pairFirst_count _ hu) hb, ?_, ?_, ?_⟩
      · show (pairFirst _ s.tracks).length ≤ 24; rw [pairFirst_length]; exact hr1
      · show onBeltCount (pairFirst _ s.tracks) ≤ 12; rw [pairFirst_count _ hu]; omega
      · exact pairFirst_order _ hr3
    next hu =>
      split
      · exact overrun_trackLaws ⟨hb, hr1, hr2, hr3⟩
      next hfull =>
        have hroom : s.tracks.length < 24 := Nat.lt_of_not_le hfull
        have hcnt : ∀ i, onBeltCount (s.tracks ++ [orphanRecord i]) = onBeltCount s.tracks + 1 := by
          intro i; simp [onBeltCount, orphanRecord, isOnBelt]
        refine evalPace_trackLaws (countPiece_trackLaws _ _ _ (by simp)
          ⟨countEntered_countLaw (hcnt _) hb, ?_, ?_, ?_⟩)
        · show (s.tracks ++ [_]).length ≤ 24; simp; omega
        · show onBeltCount (s.tracks ++ [_]) ≤ 12; rw [hcnt]; omega
        · show (s.tracks ++ [_]).Pairwise _
          rw [List.pairwise_append]
          refine ⟨hr3, by simp, fun x hx y _ hx' => ?_⟩
          exact absurd (List.any_eq_true.2 ⟨x, hx, hx'⟩) hu

/-! ## Run-outs and admission -/

theorem ghostOldest_trackLaws (hl : TrackLaws s) : TrackLaws (ghostOldest s) := by
  unfold ghostOldest; split
  · exact lookAtHead_trackLaws (countPiece_trackLaws _ _ _ (by simp)
      (eraseUnseen_trackLaws (fun _ => isUnseen_of_hasRunOut) hl))
  · exact hl

theorem ghostAll_trackLaws (n : Nat) : ∀ s : State, TrackLaws s → TrackLaws (ghostAll n s) := by
  induction n with
  | zero => exact fun _ h => h
  | succ n ih =>
    intro s h; unfold ghostAll; split
    · exact ih _ (ghostOldest_trackLaws h)
    · exact h

theorem tickWindows_trackLaws (hl : TrackLaws s) : TrackLaws (tickWindows s) :=
  ghostAll_trackLaws _ _ (setTracks_trackLaws hl (lowerWindow_kinds _))

theorem appendRecord_trackLaws {r : Record} (hr : isOnBelt r = false) (hl : TrackLaws s) :
    TrackLaws (appendRecord r s) := by
  unfold appendRecord; split
  next h =>
    refine ⟨?_, RecordsOk.append hl.2 h hr⟩
    refine KeepsBut.countLaw (s := s) (t := setTracks (s.tracks ++ [r]) s) (setTracks_keeps _ _)
      (by decide) ?_ hl.1
    simp [onBeltCount, List.countP_append, hr]
  next => exact countLine_trackLaws _ _ (by simp) hl

theorem appendPlaceholders_trackLaws (n : Nat) : ∀ (q : Seq) (s : State), TrackLaws s →
    TrackLaws (appendPlaceholders n q s) := by
  induction n with
  | zero => exact fun _ _ h => h
  | succ n ih => exact fun q s h => ih _ _ (appendRecord_trackLaws rfl h)

theorem setExpected_trackLaws (e : Option Seq) (hl : TrackLaws s) :
    TrackLaws { s with link := { s.link with expectedSeq := e } } := hl

theorem takeHandover_trackLaws {r : Record} (q : Seq) (hr : isOnBelt r = false) (hl : TrackLaws s) :
    TrackLaws (takeHandover q r s) := by
  unfold takeHandover; split
  · exact hl
  · refine lookAtHead_trackLaws ?_
    unfold appendChecked; dsimp only; split
    · exact appendRecord_trackLaws hr hl
    · split
      · exact appendRecord_trackLaws hr (appendPlaceholders_trackLaws _ _ _
          (countLine_trackLaws _ _ (by simp) hl))
      · exact appendRecord_trackLaws hr (countLine_trackLaws _ _ (by simp) hl)

/-! ## The purge -/

theorem purgePiece_trackLaws (n : LocalNo) (hl : TrackLaws s) : TrackLaws (purgePiece s n) := by
  unfold purgePiece; split
  · exact hl
  next p i h =>
    unfold takeOut
    refine evalPace_trackLaws ⟨?_, ?_⟩
    · have hc := onBeltCount_takeOut h
      have hb := hl.1
      have hx : BitVec.ofNat 32 (onBeltCount s.tracks) =
          BitVec.ofNat 32 (onBeltCount (s.tracks.eraseP (hasLocal n))) + 1#32 := by
        rw [hc]; exact BitVec.ofNat_add _ _
      unfold CountLaw at hb ⊢
      rw [hx] at hb
      simp [countPiece, offerTally, bumpCounts, setTracks] at *
      rw [hb]; ac_rfl
    · exact RecordsOk.sublist hl.2 List.eraseP_sublist

theorem purgePieces_trackLaws (hl : TrackLaws s) : TrackLaws (purgePieces s) := by
  have : ∀ (l : List LocalNo) (s : State), TrackLaws s → TrackLaws (l.foldl purgePiece s) := by
    intro l; induction l with
    | nil => exact fun _ h => h
    | cons a l ih => exact fun s h => ih _ (purgePiece_trackLaws a h)
  exact this _ s hl

theorem purgeBay_keeps (b : BayNo) (s : State) : KeepsBut bayParts s (purgeBay b s) := by
  unfold purgeBay; dsimp only; split
  · split
    · exact ((putBay_keeps _ _ _).mono (by decide)).trans (startSettle_keeps _ _)
    · exact (putBay_keeps _ _ _).mono (by decide)
  · exact KeepsBut.refl _ _

theorem purgeBays_keeps (s : State) : KeepsBut bayParts s (purgeBays s) :=
  (((purgeBay_keeps .b1 s).trans (purgeBay_keeps .b2 _)).trans (purgeBay_keeps .b3 _)).trans
    (purgeBay_keeps .b4 _)

theorem purgeSchedule_keeps (s : State) :
    KeepsBut [.schedule, .jetA, .jetB, .gates, .reject] s (purgeSchedule s) := by
  intro p hp; cases p <;> simp_all [Part.same, purgeSchedule]

theorem purgeEyeChannels_keeps (s : State) :
    KeepsBut [.untracked, .exitOwner] s (purgeEyeChannels s) := by
  intro p hp; cases p <;> simp_all [Part.same, purgeEyeChannels, purgeEyes]

theorem purge_trackLaws (hl : TrackLaws s) : TrackLaws (purge s) :=
  evalPace_trackLaws (lookAtHead_trackLaws
    ((purgeEyeChannels_keeps _).trackLaws (by decide) (by decide)
      ((purgeBays_keeps _).trackLaws (by decide) (by decide)
        ((purgeSchedule_keeps _).trackLaws (by decide) (by decide) (purgePieces_trackLaws hl)))))

theorem takePurge_trackLaws (hl : TrackLaws s) : TrackLaws (takePurge s) := purge_trackLaws hl

end Sys2Proof.Machine
end

