-- ==== Sys2Proof/Laws/Bays.lean ====
section
/-! SUPPORT. The stacker bays: what each bay operation leaves in the records, and that each keeps the law
of R131. -/

namespace Sys2Proof.Machine

variable {s t : State}

theorem KeepsBut.bays {ps : List Part} (h : KeepsBut ps s t) (hp : Part.bays ∉ ps) : t.bays = s.bays :=
  h .bays hp

theorem KeepsBut.bayLaw {ps : List Part} (h : KeepsBut ps s t) (hp : Part.bays ∉ ps)
    (hl : BayLaw s) : BayLaw t := by
  intro b; rw [h.bays hp]; exact hl b

/-- What putBay leaves in the records: the one record replaced. -/
@[simp] theorem putBay_bays (b : BayNo) (x : Bay) (s : State) : (putBay b x s).bays = s.bays.set b x := by
  unfold putBay; dsimp only; split
  · rfl
  · rw [(followLamp_keeps _).bays (by decide), (evalPace_keeps _).bays (by decide)]

theorem putBay_bayLaw {b : BayNo} {x : Bay} (hx : BayOk x) (hl : BayLaw s) : BayLaw (putBay b x s) := by
  intro c; rw [putBay_bays, Four.get_set]; split
  · exact hx
  · exact hl c

theorem bayOk_cleared : BayOk Bay.cleared := by simp [BayOk, Bay.cleared]

theorem setBays_bayLaw {b : BayNo} {x : Bay} (hx : BayOk x) (hl : BayLaw s) :
    BayLaw { s with bays := s.bays.set b x } := by
  intro c; show BayOk ((s.bays.set b x).get c); rw [Four.get_set]; split
  · exact hx
  · exact hl c

/-- A bay with pieces counted stands neither EMPTY nor BLOCKED (R131). -/
theorem BayOk.counted {y : Bay} (h : BayOk y) (hc : 0 < y.landed + y.reserved) :
    ∃ t, y.target = some t ∧ 1 ≤ t ∧ t ≤ 99 ∧ y.landed + y.reserved ≤ t
      ∧ (y.state = .filling → y.landed + y.reserved < t) := by
  unfold BayOk at h; split at h
  · omega
  · exact h

theorem discharge_bays (b : BayNo) (s : State) : (discharge b s).bays = s.bays.set b
    (dischargingBay s.settings.dischargeTimeout (joinOf (stackFrame b (s.bays.get b)) s).accepted
      (s.bays.get b)) := by
  unfold discharge; dsimp only
  rw [putBay_bays, (askFrame_keeps _ _).bays (by decide)]; rfl

theorem settleExpire_bayLaw (b : BayNo) (hl : BayLaw s) : BayLaw (settleExpire b s) := by
  unfold settleExpire; split
  · exact putBay_bayLaw bayOk_cleared hl
  next hn =>
    obtain ⟨t, h1, h2, h3, h4, -⟩ := (hl b).counted (by omega)
    intro c; rw [discharge_bays, Four.get_set]; split
    · simp only [BayOk, dischargingBay]; simp [h1]; omega
    · exact hl c

theorem startSettle_bayLaw (b : BayNo) (hl : BayLaw s) : BayLaw (startSettle b s) := by
  unfold startSettle; split
  · exact settleExpire_bayLaw b hl
  · exact putBay_bayLaw (hl b) hl

theorem closeBay_bayLaw (b : BayNo) (r : CloseReason) (hl : BayLaw s) : BayLaw (closeBay b r s) := by
  unfold closeBay; dsimp only; split
  next hf =>
    have hy : BayOk { s.bays.get b with state := .closing, reason := some r } := by
      have h := hl b
      simp only [BayOk, hf] at h ⊢
      simp at h ⊢
      obtain ⟨t, h1, h2, h3, h4, -⟩ := h
      exact ⟨t, h1, h2, h3, h4⟩
    split
    · exact startSettle_bayLaw b (putBay_bayLaw hy hl)
    · exact putBay_bayLaw hy hl
  · exact hl

theorem landPiece_bayLaw (b : BayNo) (hl : BayLaw s) : BayLaw (landPiece b s) := by
  unfold landPiece; dsimp only; split
  next h =>
    obtain ⟨t, h1, h2, h3, h4, h5⟩ := (hl b).counted (by omega)
    have hy : BayOk { s.bays.get b with
        landed := (s.bays.get b).landed + 1, reserved := (s.bays.get b).reserved - 1 } := by
      have hne : ¬((s.bays.get b).state = .empty ∨ (s.bays.get b).state = .blocked) := by
        rcases h.1 with h | h <;> simp [h]
      unfold BayOk; rw [if_neg hne]
      exact ⟨t, h1, h2, h3, by simp only; omega, fun hf => by have := h5 hf; simp only; omega⟩
    split
    · exact startSettle_bayLaw b (putBay_bayLaw hy hl)
    · exact putBay_bayLaw hy hl
  · exact hl

theorem closeLotBay_bayLaw (lot : Lot) (b : BayNo) (hl : BayLaw s) : BayLaw (closeLotBay lot b s) := by
  unfold closeLotBay; split
  · exact closeBay_bayLaw b _ hl
  · exact hl

theorem closeLot_bayLaw (lot : Lot) (hl : BayLaw s) : BayLaw (closeLot lot s) :=
  closeLotBay_bayLaw lot .b4 (closeLotBay_bayLaw lot .b3 (closeLotBay_bayLaw lot .b2
    (closeLotBay_bayLaw lot .b1 hl)))

theorem processMarker_bayLaw (lot : Lot) (hl : BayLaw s) : BayLaw (processMarker lot s) := by
  unfold processMarker; dsimp only
  refine (queueHandover_keeps _ _).bayLaw (by decide) ?_
  have h := closeLot_bayLaw lot hl
  unfold BayLaw at h ⊢
  simpa only using h

theorem processHeads_bayLaw (n : Nat) : ∀ s : State, BayLaw s → BayLaw (processHeads n s) := by
  induction n with
  | zero => exact fun _ h => h
  | succ n ih =>
    intro s h; unfold processHeads; split
    · apply ih
      have h := processMarker_bayLaw ‹Lot› h
      unfold BayLaw at h ⊢
      simpa only [setTracks] using h
    · exact h

theorem lookAtHead_bayLaw (hl : BayLaw s) : BayLaw (lookAtHead s) := processHeads_bayLaw _ s hl

theorem endPiece_bayLaw (f : Fate) (n : LocalNo) (hl : BayLaw s) : BayLaw (endPiece f n s) := by
  unfold endPiece; split
  · exact hl
  · exact lookAtHead_bayLaw ((takeOut_keeps _ _).bayLaw (by decide) hl)

theorem stackPiece_bayLaw (b : BayNo) (n : LocalNo) (hl : BayLaw s) : BayLaw (stackPiece b n s) := by
  unfold stackPiece; split
  · exact hl
  · exact endPiece_bayLaw _ _ (landPiece_bayLaw b hl)

theorem passPiece_bayLaw (n : LocalNo) (hl : BayLaw s) : BayLaw (passPiece n s) := by
  unfold passPiece; split
  · exact hl
  · exact endPiece_bayLaw _ _ ((queueHandover_keeps _ _).bayLaw (by decide) hl)

/-- Claim and reservation of a bay that qualifies keep the law (R127 to R129, R131). -/
theorem reserve_claim_bayLaw {b : BayNo} {lot : Lot} {c : Code} {n : Nat} (h1 : 1 ≤ n) (h99 : n ≤ 99)
    (hq : bayQualifies lot c (s.bays.get b) = true) (hl : BayLaw s) :
    BayLaw (reserveBay b (claimBay b lot c n s)) := by
  have key : ∀ u : State, BayLaw u →
      (∃ t, (u.bays.get b).target = some t ∧ 1 ≤ t ∧ t ≤ 99
        ∧ (u.bays.get b).landed + (u.bays.get b).reserved < t ∧ (u.bays.get b).state = .filling) →
      BayLaw (reserveBay b u) := by
    intro u hu ⟨t, e1, e2, e3, e4, e5⟩
    unfold reserveBay; dsimp only; split
    next he =>
      refine putBay_bayLaw ?_ hu
      rw [e1] at he
      simp only [BayOk]
      simp [e1]
      simp at he; omega
    next he =>
      refine putBay_bayLaw ?_ hu
      rw [e1] at he
      simp only [BayOk, e5]
      simp [e1]
      simp at he; omega
  unfold claimBay; dsimp only; split
  next he =>
    have h0 : (s.bays.get b).landed = 0 ∧ (s.bays.get b).reserved = 0 := by
      have := hl b; simpa [BayOk, he] using this
    refine key _ (putBay_bayLaw ?_ hl) ?_
    · simp only [BayOk]; simp [h0]; omega
    · refine ⟨n, ?_⟩; simp [h0]; omega
  next he =>
    refine key _ hl ?_
    unfold bayQualifies at hq
    simp [he] at hq
    obtain ⟨⟨⟨hf, -⟩, -⟩, hlt⟩ := hq
    have h := hl b
    simp only [BayOk, hf] at h
    simp at h
    obtain ⟨t, e1, e2, e3, -, e5⟩ := h
    exact ⟨t, e1, e2, e3, e5, hf⟩

theorem purgeBay_bayLaw (b : BayNo) (hl : BayLaw s) : BayLaw (purgeBay b s) := by
  have hy : BayOk (purgedBay (s.bays.get b)) := by
    have h := hl b
    unfold purgedBay; split
    · exact bayOk_cleared
    · unfold BayOk at h ⊢
      dsimp only
      split at h
      next hs => rw [if_pos hs]; exact ⟨h.1, rfl⟩
      next hs =>
        rw [if_neg hs]
        obtain ⟨t, e1, e2, e3, e4, e5⟩ := h
        exact ⟨t, e1, e2, e3, by omega, fun hf => by have := e5 hf; omega⟩
  unfold purgeBay; dsimp only; split
  · split
    · exact startSettle_bayLaw b (putBay_bayLaw hy hl)
    · exact putBay_bayLaw hy hl
  · exact hl

end Sys2Proof.Machine
end

