-- ==== Sys2Proof/Laws/Queue.lean ====
section
/-! SUPPORT. The transmit queue: what a joining does to the queue, and that every joining keeps the law of
R165 and R166. -/

namespace Sys2Proof.Machine

/-! ## Insertion and removal -/

theorem insertFrame_perm (f : QFrame) (q : List QFrame) : (insertFrame f q).Perm (f :: q) := by
  induction q with
  | nil => exact List.Perm.refl _
  | cons x xs ih =>
    unfold insertFrame; split
    · exact List.Perm.refl _
    · exact (List.Perm.cons x ih).trans (List.Perm.swap f x xs)

@[simp] theorem mem_insertFrame {f x : QFrame} {q : List QFrame} :
    x ∈ insertFrame f q ↔ x = f ∨ x ∈ q := by
  rw [(insertFrame_perm f q).mem_iff, List.mem_cons]

@[simp] theorem length_insertFrame (f : QFrame) (q : List QFrame) :
    (insertFrame f q).length = q.length + 1 := by
  simpa using (insertFrame_perm f q).length_eq

theorem countP_insertFrame (p : QFrame → Bool) (f : QFrame) (q : List QFrame) :
    (insertFrame f q).countP p = q.countP p + if p f then 1 else 0 := by
  rw [(insertFrame_perm f q).countP_eq, List.countP_cons]

theorem insertFrame_sorted {f : QFrame} {q : List QFrame} (hs : q.Pairwise QFrame.before)
    (ha : ∀ x ∈ q, x.age < f.age) : (insertFrame f q).Pairwise QFrame.before := by
  induction q with
  | nil => simp [insertFrame]
  | cons x xs ih =>
    rw [List.pairwise_cons] at hs
    unfold insertFrame; split
    next h =>
      refine List.pairwise_cons.2 ⟨?_, List.pairwise_cons.2 hs⟩
      intro y hy
      rcases List.mem_cons.1 hy with rfl | hy
      · exact Or.inl h
      · rcases hs.1 y hy with h1 | ⟨h1, _⟩
        · exact Or.inl (by omega)
        · exact Or.inl (by omega)
    next h =>
      refine List.pairwise_cons.2 ⟨?_, ih hs.2 fun y hy => ha y (List.mem_cons_of_mem _ hy)⟩
      intro y hy
      rcases mem_insertFrame.1 hy with rfl | hy
      · have := ha x (List.mem_cons_self ..)
        simp only [QFrame.before]; omega
      · exact hs.1 y hy

/-! ## The law is kept -/

theorem QueueOk.sublist {p q : List QFrame} {n : Nat} (h : QueueOk q n) (hs : p.Sublist q) :
    QueueOk p n :=
  ⟨hs.length_le.trans h.1, h.2.1.sublist hs, (hs.countP_le).trans h.2.2.1,
    (hs.countP_le).trans h.2.2.2.1, fun f hf => h.2.2.2.2 f (hs.subset hf)⟩

theorem QueueOk.mono {q : List QFrame} {m n : Nat} (h : QueueOk q m) (hn : m ≤ n) : QueueOk q n :=
  ⟨h.1, h.2.1, h.2.2.1, h.2.2.2.1, fun f hf => (h.2.2.2.2 f hf).trans_le hn⟩

/-- A frame newer than every frame of a queue with a free place, and the first of its coalesced group. -/
theorem QueueOk.insert {q : List QFrame} {f : QFrame} (h : QueueOk q f.age) (hl : q.length < 12)
    (hs : frameGroup f.body = .stopRun → (q.countP fun x => frameGroup x.body == .stopRun) = 0)
    (hp : frameGroup f.body = .pace → (q.countP fun x => frameGroup x.body == .pace) = 0) :
    QueueOk (insertFrame f q) (f.age + 1) := by
  obtain ⟨-, h2, h3, h4, h5⟩ := h
  refine ⟨by simp; omega, insertFrame_sorted h2 h5, ?_, ?_, ?_⟩
  · rw [countP_insertFrame]; split
    next hf => rw [hs (by simpa using hf)]
    next => omega
  · rw [countP_insertFrame]; split
    next hf => rw [hp (by simpa using hf)]
    next => omega
  · intro x hx
    rcases mem_insertFrame.1 hx with rfl | hx
    · omega
    · have := h5 x hx; omega

theorem newestAge_mem {q : List QFrame} {a : Nat} (h : newestAge q = some a) : ∃ x ∈ q, x.age = a := by
  have := List.max?_mem h
  simpa using this

theorem length_removeAge_lt {q : List QFrame} {a : Nat} (h : ∃ x ∈ q, x.age = a) :
    (removeAge a q).length < q.length := by
  obtain ⟨x, hx, ha⟩ := h
  unfold removeAge
  rw [List.length_filter_lt_length_iff_exists]
  exact ⟨x, hx, by simp [ha]⟩

theorem newest_waiting_mem {g : QGroup} {fl : Option Nat} {q : List QFrame} {a : Nat}
    (h : newestAge (waitingOf g fl q) = some a) : ∃ x ∈ q, x.age = a := by
  obtain ⟨x, hx, ha⟩ := newestAge_mem h
  exact ⟨x, List.mem_of_mem_filter hx, ha⟩

theorem countP_zero_of_notReplaced {f : QFrame} {q : List QFrame}
    (h : ¬ (notReplaced f q).length < q.length) :
    (q.countP fun x => frameGroup x.body == frameGroup f.body) = 0 := by
  rw [List.countP_eq_zero]
  intro x hx hg
  exact h ((List.length_filter_lt_length_iff_exists).2 ⟨x, hx, by simpa using hg⟩)

theorem countP_notReplaced (f : QFrame) (q : List QFrame) :
    ((notReplaced f q).countP fun x => frameGroup x.body == frameGroup f.body) = 0 := by
  rw [List.countP_eq_zero]
  intro x hx
  have := List.of_mem_filter hx
  simpa using this

theorem joinFull_ok {fl : Option Nat} {f : QFrame} {q : List QFrame} (h : QueueOk q f.age)
    (hg : isCoalesced (frameGroup f.body) = true →
      (q.countP fun x => frameGroup x.body == frameGroup f.body) = 0) :
    QueueOk (joinFull fl f q).queue (f.age + 1) := by
  have room : ∀ a, (∃ x ∈ q, x.age = a) → QueueOk (insertFrame f (removeAge a q)) (f.age + 1) := by
    intro a ha
    have hsub : (removeAge a q).Sublist q := List.filter_sublist
    have hlt := length_removeAge_lt ha
    have h12 := h.1
    refine (h.sublist hsub).insert (by omega) ?_ ?_ <;> intro hf <;>
    · have h0 := hg (by simp [hf, isCoalesced])
      have hle := hsub.countP_le (p := fun x => frameGroup x.body == frameGroup f.body)
      rw [hf] at h0 hle; omega
  have keep : QueueOk q (f.age + 1) := h.mono (by omega)
  unfold joinFull
  dsimp only
  split <;> first
    | exact keep
    | exact room _ (newest_waiting_mem (by assumption))

/-- Every joining keeps the law of the queue (R165 to R167). -/
theorem joinQueue_ok {fl : Option Nat} {f : QFrame} {q : List QFrame} (h : QueueOk q f.age) :
    QueueOk (joinQueue fl f q).queue (f.age + 1) := by
  unfold joinQueue; split
  next hc =>
    refine QueueOk.insert (h.sublist List.filter_sublist) ?_ ?_ ?_
    · have := h.1; omega
    · intro hf; have := countP_notReplaced f q; rwa [hf] at this
    · intro hf; have := countP_notReplaced f q; rwa [hf] at this
  next hc =>
    have hz : isCoalesced (frameGroup f.body) = true →
        (q.countP fun x => frameGroup x.body == frameGroup f.body) = 0 := fun hf =>
      countP_zero_of_notReplaced fun hlt => hc ⟨hf, hlt⟩
    split
    next hl =>
      refine QueueOk.insert h hl ?_ ?_ <;> intro hf <;>
        simpa [hf] using hz (by simp [hf, isCoalesced])
    next => exact joinFull_ok h hz

theorem askRaw_queueLaw {s : State} (body : FrameBody) (h : QueueLaw s) : QueueLaw (askRaw body s) := by
  have : QueueOk (joinOf body s).queue (s.link.nextAge + 1) := joinQueue_ok (f := ⟨body, _⟩) h
  unfold askRaw; dsimp only; split <;> exact this

theorem relayPace_queueLaw {s : State} (h : QueueLaw s) : QueueLaw (relayPace s) := by
  unfold relayPace; dsimp only; split
  · exact h
  · split
    · exact h
    · exact askRaw_queueLaw _ h

theorem paceOnce_queueLaw {s : State} (h : QueueLaw s) : QueueLaw (paceOnce s) := by
  unfold paceOnce; split
  · exact h
  · exact relayPace_queueLaw h

theorem evalPace_queueLaw {s : State} (h : QueueLaw s) : QueueLaw (evalPace s) :=
  paceOnce_queueLaw (paceOnce_queueLaw h)

theorem evalIfKeptChanged_queueLaw {s : State} (before : State) (h : QueueLaw s) :
    QueueLaw (evalIfKeptChanged before s) := by
  unfold evalIfKeptChanged; split
  · exact h
  · exact evalPace_queueLaw h

theorem askFrame_queueLaw {s : State} (body : FrameBody) (h : QueueLaw s) : QueueLaw (askFrame body s) :=
  evalIfKeptChanged_queueLaw s (askRaw_queueLaw body h)

theorem setPaceIn_queueLaw {s : State} (gap : Nat) (h : QueueLaw s) : QueueLaw (setPaceIn gap s) := by
  unfold setPaceIn; split
  · exact h
  · exact evalIfKeptChanged_queueLaw s (relayPace_queueLaw h)

/-- A change that keeps the queue part keeps its law. -/
theorem KeepsBut.queueLaw {ps : List Part} {s t : State} (h : KeepsBut ps s t) (hp : Part.queue ∉ ps)
    (hq : QueueLaw s) : QueueLaw t := by
  obtain ⟨h1, h2⟩ : t.link.queue = s.link.queue ∧ t.link.nextAge = s.link.nextAge := h .queue hp
  unfold QueueLaw; rw [h1, h2]; exact hq

end Sys2Proof.Machine
end

