-- ==== Sys2Proof/Laws/Pace.lean ====
section
/-! SUPPORT. The pace unit: what one evaluation can do, and that after it pace_own is what the conditions of
R156 ask for and pace_out what R157 forms. -/

namespace Sys2Proof.Machine

variable {s : State}

/-- The condition the pace unit evaluates is that of R156. -/
theorem isCrowded_iff (s : State) : isCrowded s = true ↔ Crowded s := by
  have hall : (BayNo.all.all fun b => !isConfigured s b || isBusy (s.bays.get b)) = true ↔
      ∀ b : BayNo, b.num ≤ s.settings.bayCount →
        (s.bays.get b).state = .closing ∨ (s.bays.get b).state = .discharging
          ∨ (s.bays.get b).state = .blocked := by
    rw [List.all_eq_true]
    constructor
    · intro h b hb
      have hm : b ∈ BayNo.all := by cases b <;> decide
      simpa [isConfigured, isBusy, hb, or_assoc] using h b hm
    · intro h b _
      by_cases hb : b.num ≤ s.settings.bayCount
      · simpa [isConfigured, isBusy, hb, or_assoc] using h b hb
      · simp [isConfigured, hb]
  unfold isCrowded Crowded
  rw [Bool.or_eq_true, Bool.or_eq_true, Bool.and_eq_true, decide_eq_true_eq, decide_eq_true_eq,
    decide_eq_true_eq, or_assoc, hall]
  exact Iff.rfl

/-- A PACE waits in the queue. -/
def HoldsPace (s : State) : Prop := ∃ f ∈ s.link.queue, frameGroup f.body = .pace

theorem askRaw_queue (body : FrameBody) (s : State) : (askRaw body s).link.queue = (joinOf body s).queue := by
  unfold askRaw; dsimp only; split <;> rfl

theorem countP_kept_notReplaced {f : QFrame} (h : frameGroup f.body ≠ .kept) (q : List QFrame) :
    (notReplaced f q).countP (fun x => frameGroup x.body == .kept) =
      q.countP fun x => frameGroup x.body == .kept := by
  unfold notReplaced; rw [List.countP_filter]
  refine List.countP_congr fun x _ => ?_
  simp only [Bool.and_eq_true, beq_iff_eq, bne_iff_ne]
  exact ⟨fun h => h.1, fun hx => ⟨hx, fun he => h (he ▸ hx)⟩⟩

/-- A PACE that joins leaves the number of kept frames, or waits in the queue after it; where one waited
before, it does both. -/
theorem askPace_kept (gap : BitVec 16) (s : State) :
    (HoldsPace s → keptCount (askRaw (.pace gap) s) = keptCount s)
      ∧ (keptCount (askRaw (.pace gap) s) = keptCount s ∨ HoldsPace (askRaw (.pace gap) s)) := by
  let f : QFrame := ⟨.pace gap, s.link.nextAge⟩
  have hin : ∀ q, ∃ x ∈ insertFrame f q, frameGroup x.body = .pace := fun q => ⟨f, by simp, rfl⟩
  have hcount : ∀ q, (insertFrame f q).countP (fun x => frameGroup x.body == .kept) =
      q.countP fun x => frameGroup x.body == .kept := fun q => by
    rw [countP_insertFrame]; simp [f, frameGroup]
  simp only [HoldsPace, keptCount, askRaw_queue, joinOf]
  change (_ → ((joinQueue _ f s.link.queue).queue).countP _ = _) ∧ (((joinQueue _ f s.link.queue).queue).countP _ = _
    ∨ ∃ x ∈ (joinQueue _ f s.link.queue).queue, _)
  unfold joinQueue
  split
  · have := (hcount (notReplaced f s.link.queue)).trans (countP_kept_notReplaced (by simp [f, frameGroup]) _)
    exact ⟨fun _ => this, .inl this⟩
  · rename_i hc
    refine ⟨fun ⟨x, hx, hg⟩ => absurd ⟨rfl, ?_⟩ hc, ?_⟩
    · exact List.length_filter_lt_length_iff_exists.2 ⟨x, hx, by simp [hg, show frameGroup f.body = .pace from rfl]⟩
    · split
      · exact .inl (hcount _)
      · unfold joinFull; dsimp only
        split <;> first
          | exact .inl rfl
          | exact .inr (hin _)

/-- The need of the segment rests on the records, the bays, the kept frames and the settings alone. -/
theorem paceNeed_congr {s t : State} (h1 : t.tracks = s.tracks) (h2 : t.bays = s.bays)
    (h3 : t.settings = s.settings) (h4 : keptCount t = keptCount s) : paceNeed t = paceNeed s := by
  have h : isCrowded t = isCrowded s := by simp only [isCrowded, isConfigured, h1, h2, h3, h4]
  simp only [paceNeed, h, h3]

theorem askRaw_need (body : FrameBody) (h : keptCount (askRaw body s) = keptCount s) :
    paceNeed (askRaw body s) = paceNeed s :=
  paceNeed_congr ((askRaw_keeps s body) .tracks (by decide)) ((askRaw_keeps s body) .bays (by decide))
    ((askRaw_keeps s body) .settings (by decide)) h

/-- What a relay can do: pace_out becomes R157's, the other pace fields stand, and the need stands, or a
PACE waits in the queue; where one waited before, both. -/
theorem relayPace_spec (s : State) :
    (relayPace s).pace.paceOwn = s.pace.paceOwn ∧ (relayPace s).pace.paceIn = s.pace.paceIn
      ∧ (relayPace s).pace.paceOut = paceResult s.pace
      ∧ (HoldsPace s → paceNeed (relayPace s) = paceNeed s)
      ∧ (paceNeed (relayPace s) = paceNeed s ∨ HoldsPace (relayPace s)) := by
  unfold relayPace; dsimp only; split
  · rename_i h; exact ⟨rfl, rfl, h.symm, fun _ => rfl, .inl rfl⟩
  · split
    · exact ⟨rfl, rfl, rfl, fun _ => rfl, .inl rfl⟩
    · set u : State := { s with pace := { s.pace with paceOut := paceResult s.pace } } with hu
      have hp := (askRaw_keeps u (.pace (BitVec.ofNat 16 (paceResult s.pace)))) .pace (by decide)
      have hk := askPace_kept (BitVec.ofNat 16 (paceResult s.pace)) u
      refine ⟨by rw [hp], by rw [hp], by rw [hp], fun h => askRaw_need _ (hk.1 h), ?_⟩
      exact hk.2.imp (askRaw_need _) id

/-- One evaluation leaves pace_own at the need before it. -/
theorem paceOnce_spec (s : State) :
    (paceOnce s).pace.paceOwn = paceNeed s
      ∧ (HoldsPace s → paceNeed (paceOnce s) = paceNeed s)
      ∧ (paceNeed (paceOnce s) = paceNeed s ∨ HoldsPace (paceOnce s)) := by
  unfold paceOnce; split
  · rename_i h; exact ⟨h.symm, fun _ => rfl, .inl rfl⟩
  · obtain ⟨h1, -, -, h4, h5⟩ := relayPace_spec { s with pace := { s.pace with paceOwn := paceNeed s } }
    exact ⟨h1, h4, h5⟩

/-- After the pace unit has evaluated, pace_own is the need that stands then (R156). -/
theorem evalPace_settled (s : State) : (evalPace s).pace.paceOwn = paceNeed (evalPace s) := by
  obtain ⟨h1, -, h3⟩ := paceOnce_spec s
  obtain ⟨g1, g2, -⟩ := paceOnce_spec (paceOnce s)
  rcases h3 with h | h
  · have hs : paceNeed (paceOnce s) = (paceOnce s).pace.paceOwn := h.trans h1.symm
    have he : evalPace s = paceOnce s := by
      change paceOnce (paceOnce s) = _
      generalize paceOnce s = u at hs
      unfold paceOnce; rw [if_pos hs]
    rw [he]; exact hs.symm
  · exact g1.trans (g2 h).symm

/-- Where pace_out stood by R157 before an evaluation, it stands so after it. -/
theorem paceOnce_out {s : State} (h : s.pace.paceOut = paceResult s.pace) :
    (paceOnce s).pace.paceOut = paceResult (paceOnce s).pace := by
  unfold paceOnce; split
  · exact h
  · obtain ⟨h1, h2, h3, -, -⟩ := relayPace_spec { s with pace := { s.pace with paceOwn := paceNeed s } }
    rw [h3]; simp only [paceResult, h1, h2]

theorem evalPace_out {s : State} (h : s.pace.paceOut = paceResult s.pace) :
    (evalPace s).pace.paceOut = paceResult (evalPace s).pace := paceOnce_out (paceOnce_out h)

/-- The law of the pace in the model's own terms. -/
theorem paceLaw_iff (s : State) : PaceLaw s ↔
    (s.station = .active → s.pace.paceOwn = paceNeed s ∧ s.pace.paceOut = paceResult s.pace) := by
  have hr : paceResult s.pace = min (max s.pace.paceIn s.pace.paceOwn) 5000 := rfl
  refine forall_congr' fun _ => ?_
  rw [hr, ← and_assoc]
  refine and_congr_left fun _ => ?_
  by_cases hc : Crowded s
  · simp [hc, paceNeed, (isCrowded_iff s).2 hc]
  · have : isCrowded s = false := by simpa using mt (isCrowded_iff s).1 hc
    simp [hc, paceNeed, this]

/-- An evaluation brings the law about (R156, R157). -/
theorem evalPace_paceLaw {s : State} (h : s.pace.paceOut = paceResult s.pace) : PaceLaw (evalPace s) :=
  (paceLaw_iff _).2 fun _ => ⟨evalPace_settled s, evalPace_out h⟩

end Sys2Proof.Machine
end

