-- ==== Sys2Proof/Laws/Sends.lean ====
section
/-! SUPPORT. `Sends s t`: t comes from s by askings for frames and by changes that leave the queue alone.
Every shared operation is one of these, so what every asking keeps, every command keeps. -/

namespace Sys2Proof.Machine

/-- Every part but the queue. -/
def offQueue : List Part :=
  [.station, .settings, .position, .window, .speed, .high, .low, .grace, .run, .entryEye, .exitEye,
    .untracked, .exitOwner, .table, .tracks, .nextLocal, .schedule, .nextSerial, .jetA, .jetB, .gates,
    .reject, .bays, .pushers, .bayHigh, .bayClear, .own, .others, .pace, .inFlight, .line, .ownSeq,
    .expectedSeq, .fates, .events, .drops, .counters, .buttons, .selected, .lamp, .display, .segmentMap,
    .purgeHold, .openCount, .pending]

/-- Reached by askings for frames and by changes that leave the queue alone. -/
inductive Sends : State → State → Prop where
  | keep {s t : State} (h : KeepsBut offQueue s t) : Sends s t
  | ask (body : FrameBody) (s : State) : Sends s (askRaw body s)
  | trans {s t u : State} (h1 : Sends s t) (h2 : Sends t u) : Sends s u

theorem Sends.queueLaw {s t : State} (h : Sends s t) (hq : QueueLaw s) : QueueLaw t := by
  induction h with
  | keep h => exact h.queueLaw (by decide) hq
  | ask body s => exact askRaw_queueLaw body hq
  | trans _ _ ih1 ih2 => exact ih2 (ih1 hq)

/-- A change that leaves the queue fields as they are. -/
theorem Sends.of_eq {s t : State} (h1 : t.link.queue = s.link.queue)
    (h2 : t.link.nextAge = s.link.nextAge) : Sends s t := by
  refine .keep fun p hp => ?_
  cases p <;> first | exact ⟨h1, h2⟩ | exact absurd (by decide) hp

/-- The later steps first, so that they fix the state between. -/
theorem Sends.after {s t u : State} (h2 : Sends t u) (h1 : Sends s t) : Sends s u := h1.trans h2

/-- Steps after a change that leaves the queue fields as they are. -/
theorem Sends.behind {s t u : State} (h : Sends t u) (h1 : t.link.queue = s.link.queue := by rfl)
    (h2 : t.link.nextAge = s.link.nextAge := by rfl) : Sends s u := (Sends.of_eq h1 h2).trans h

theorem Sends.refl (s : State) : Sends s s := .of_eq rfl rfl

theorem Sends.of_keeps {ps : List Part} {s t : State} (h : KeepsBut ps s t) (hp : Part.queue ∉ ps) :
    Sends s t := .of_eq (h .queue hp).1 (h .queue hp).2

variable (s : State)

theorem relayPace_sends : Sends s (relayPace s) := by
  unfold relayPace; dsimp only; split
  · exact .refl s
  · split
    · exact .of_eq rfl rfl
    · exact (Sends.ask _ _).behind

theorem paceOnce_sends : Sends s (paceOnce s) := by
  unfold paceOnce; split
  · exact .refl s
  · exact (relayPace_sends _).behind

theorem evalPace_sends : Sends s (evalPace s) := (paceOnce_sends s).trans (paceOnce_sends _)

theorem evalIfKeptChanged_sends (before : State) : Sends s (evalIfKeptChanged before s) := by
  unfold evalIfKeptChanged; split
  · exact .refl s
  · exact evalPace_sends s

theorem askFrame_sends (body : FrameBody) : Sends s (askFrame body s) :=
  (Sends.ask body s).trans (evalIfKeptChanged_sends _ _)

theorem setPaceIn_sends (gap : Nat) : Sends s (setPaceIn gap s) := by
  unfold setPaceIn; split
  · exact .refl s
  · exact (evalIfKeptChanged_sends _ _).after (relayPace_sends _).behind

theorem setStops_sends (st : Stops) : Sends s (setStops st s) :=
  .of_keeps (setStops_keeps s st) (by decide)

theorem addReason_sends (r : StopReason) : Sends s (addReason r s) := by
  unfold addReason; dsimp only; split
  · exact .refl s
  · split
    · exact (askFrame_sends _ _).after (setStops_sends s _)
    · exact setStops_sends s _

theorem putBay_sends (b : BayNo) (x : Bay) : Sends s (putBay b x s) := by
  unfold putBay; dsimp only; split
  · exact .of_eq rfl rfl
  · exact Sends.trans (evalPace_sends _).behind (.of_eq rfl rfl)

theorem discharge_sends (b : BayNo) : Sends s (discharge b s) :=
  (putBay_sends _ _ _).after ((askFrame_sends _ _).after (Sends.of_keeps (pushOut_keeps s b) (by decide)))

theorem settleExpire_sends (b : BayNo) : Sends s (settleExpire b s) := by
  unfold settleExpire; split
  · exact putBay_sends _ _ _
  · exact discharge_sends s b

theorem startSettle_sends (b : BayNo) : Sends s (startSettle b s) := by
  unfold startSettle; split
  · exact settleExpire_sends s b
  · exact putBay_sends _ _ _

theorem closeBay_sends (b : BayNo) (r : CloseReason) : Sends s (closeBay b r s) := by
  unfold closeBay; dsimp only; split
  · split
    · exact (startSettle_sends _ _).after (putBay_sends _ _ _)
    · exact putBay_sends _ _ _
  · exact .refl s

theorem landPiece_sends (b : BayNo) : Sends s (landPiece b s) := by
  unfold landPiece; dsimp only; split
  · split
    · exact (startSettle_sends _ _).after (putBay_sends _ _ _)
    · exact putBay_sends _ _ _
  · exact .refl s

theorem closeLotBay_sends (lot : Lot) (b : BayNo) : Sends s (closeLotBay lot b s) := by
  unfold closeLotBay; split
  · exact closeBay_sends s b _
  · exact .refl s

theorem closeLot_sends (lot : Lot) : Sends s (closeLot lot s) :=
  (((closeLotBay_sends s lot .b1).trans (closeLotBay_sends _ lot .b2)).trans
    (closeLotBay_sends _ lot .b3)).trans (closeLotBay_sends _ lot .b4)

theorem queueHandover_sends (frame : Seq → FrameBody) : Sends s (queueHandover frame s) := by
  unfold queueHandover; split
  · exact .refl s
  · exact (askFrame_sends _ _).behind

theorem processMarker_sends (lot : Lot) : Sends s (processMarker lot s) := by
  unfold processMarker; dsimp only
  exact (queueHandover_sends _ _).after ((closeLot_sends s lot).trans (.of_eq rfl rfl))

theorem processHeads_sends (n : Nat) : ∀ s, Sends s (processHeads n s) := by
  induction n with
  | zero => exact .refl
  | succ n ih =>
    intro s; unfold processHeads; split
    next _ lot rest _ => exact (ih _).after ((processMarker_sends s lot).trans (.of_eq rfl rfl))
    next => exact .refl s

theorem lookAtHead_sends : Sends s (lookAtHead s) := processHeads_sends _ s

theorem takeOut_sends (n : LocalNo) : Sends s (takeOut n s) := by
  unfold takeOut; exact (evalPace_sends _).behind

theorem endPiece_sends (f : Fate) (n : LocalNo) : Sends s (endPiece f n s) := by
  unfold endPiece; split
  · exact .refl s
  · exact (lookAtHead_sends _).after (takeOut_sends _ _).behind

theorem stackPiece_sends (b : BayNo) (n : LocalNo) : Sends s (stackPiece b n s) := by
  unfold stackPiece; split
  · exact .refl s
  · exact (endPiece_sends _ _ _).after (landPiece_sends s b)

theorem passPiece_sends (n : LocalNo) : Sends s (passPiece n s) := by
  unfold passPiece; split
  · exact .refl s
  · exact (endPiece_sends _ _ _).after (queueHandover_sends _ _)

/-! ## The schedule -/

theorem foldl_sends {α : Type} (f : State → α → State) (h : ∀ s a, Sends s (f s a)) (l : List α) :
    ∀ s, Sends s (l.foldl f s) := by
  induction l with
  | nil => exact .refl
  | cons a l ih => intro s; exact (h s a).trans (ih _)

theorem fireEntry_sends (e : SchedEntry) : Sends s (fireEntry e s) := by
  have hg : ∀ g o, Sends s (setGate g o s) := by
    intro g o; unfold setGate; split <;> exact .of_eq rfl rfl
  unfold fireEntry; split
  · unfold fireJet; dsimp only; split <;> exact .of_eq rfl rfl
  · exact hg _ _
  · refine (foldl_sends _ ?_ _ _).after (hg _ _)
    intro s a; unfold closeFate; split
    · exact stackPiece_sends _ _ _
    · exact endPiece_sends _ _ _
  · refine foldl_sends _ ?_ _ _
    intro s a; unfold checkExit; split
    · split
      · exact .refl s
      · exact endPiece_sends _ _ _
    · exact .refl s

theorem fireReached_sends (n : Nat) : ∀ s, Sends s (fireReached n s) := by
  induction n with
  | zero => exact .refl
  | succ n ih =>
    intro s; unfold fireReached; split
    · exact .refl s
    · split
      · exact (ih _).after (fireEntry_sends _ _).behind
      · exact .refl s

/-! ## Planning and arrival -/

theorem claimBay_sends (b : BayNo) (lot : Lot) (c : Code) (n : Nat) : Sends s (claimBay b lot c n s) := by
  unfold claimBay; dsimp only; split
  · exact putBay_sends _ _ _
  · exact .refl s

theorem reserveBay_sends (b : BayNo) : Sends s (reserveBay b s) := by
  unfold reserveBay; dsimp only; split <;> exact putBay_sends _ _ _

theorem stageJudge_sends (w : Work) : Sends s (stageJudge w s).2 := by
  unfold stageJudge; split
  · exact .refl s
  · split
    · exact .refl s
    · split
      · exact .refl s
      · split
        · split
          · unfold skipAhead; exact (lookAtHead_sends _).behind
          · exact .of_eq rfl rfl
        · exact .refl s

theorem stageResolve_sends (w : Work) : Sends s (stageResolve w s).2 := by
  unfold stageResolve; split
  · exact .refl s
  · dsimp only; split <;> exact .of_eq rfl rfl

theorem stageFold_sends (w : Work) : Sends s (stageFold w s).2 := by
  unfold stageFold; split
  · exact .refl s
  · split
    · exact .refl s
    · dsimp only; split
      · exact .of_eq rfl rfl
      · split
        · exact .of_eq rfl rfl
        · exact .refl s

theorem stageRoute_sends (w : Work) : Sends s (stageRoute w s).2 := by
  unfold stageRoute; split
  · exact .refl s
  · split
    · exact .refl s
    · dsimp only; split
      · exact (reserveBay_sends _ _).after (claimBay_sends _ _ _ _ _)
      · exact .refl s

theorem insertGate_sends (g : Gate) (o c : Pos) (n : LocalNo) : Sends s (insertGate g o c n s) := by
  unfold insertGate; split <;> exact .of_eq rfl rfl

theorem stageInsert_sends (w : Work) : Sends s (stageInsert w s) := by
  have h1 : Sends s (match w.info.fold with
      | some f => addEntry (.jetFire f.jet) f.due [w.info.localNo] s
      | none => s) := by split <;> exact .of_eq rfl rfl
  unfold stageInsert; dsimp only; split
  · exact h1.trans (insertGate_sends _ _ _ _ _)
  · exact h1.trans (insertGate_sends _ _ _ _ _)
  · exact h1.trans (.of_eq rfl rfl)
  · exact h1

theorem planStages_sends (w : Work) : Sends s (planStages w s) := by
  unfold planStages; dsimp only
  exact Sends.trans (((((stageInsert_sends _ _).after (stageRoute_sends _ _)).after
    (stageFold_sends _ _)).after (stageResolve_sends _ _)).after (stageJudge_sends _ _)) (.of_eq rfl rfl)

theorem planPiece_sends (p : Pos) : Sends s (planPiece p s) := by
  unfold planPiece; split
  · exact .refl s
  · exact planStages_sends _ _

theorem consumeOldest_sends : Sends s (consumeOldest s) := by
  unfold consumeOldest; split
  · exact (lookAtHead_sends _).behind
  · exact .refl s

theorem overrun_sends : Sends s (overrun s) :=
  (addReason_sends _ _).after ((consumeOldest_sends s).trans (.of_eq rfl rfl))

theorem arrive_sends (p : Pos) : Sends s (arrive p s) := by
  unfold arrive; dsimp only; split
  · exact overrun_sends s
  · split
    · exact (evalPace_sends _).behind
    · split
      · exact overrun_sends s
      · exact (evalPace_sends _).behind

/-! ## Eyes, pulses and windows -/

theorem putEye_sends (e : Eye) (ch : EyeChannel) : Sends s (putEye e ch s) := by
  cases e <;> exact .of_eq rfl rfl

theorem testJam_sends (e : Eye) : Sends s (testJam e s) := by
  unfold testJam; dsimp only; split
  · exact .refl s
  · split
    · exact (addReason_sends _ _).after (putEye_sends _ _ _)
    · exact .refl s

theorem judgeExit_sends (q : Pos) : Sends s (judgeExit q s) := by
  unfold judgeExit; split
  · exact .of_eq rfl rfl
  · split <;> exact .of_eq rfl rfl

theorem leadingEdge_sends (e : Eye) (q : Pos) : Sends s (leadingEdge e q s) := by
  unfold leadingEdge; dsimp only; split
  · exact (testJam_sends _ _).after (putEye_sends _ _ _)
  · refine Sends.after (t := putEye e { eyeOf e s with coveredSince := some q } s) ?_ (putEye_sends _ _ _)
    cases e
    · exact arrive_sends _ _
    · exact judgeExit_sends _ _

theorem recogniseEdge_sends (e : Eye) (p : PendingEdge) : Sends s (recogniseEdge e p s) := by
  unfold recogniseEdge; dsimp only; split
  · exact (leadingEdge_sends _ _ _).after (putEye_sends _ _ _)
  · exact putEye_sends _ _ _

theorem reportConfirmed_sends (e : Eye) (p : Pos) : Sends s (reportConfirmed e p s) := by
  unfold reportConfirmed; split
  · unfold confirmEntry; split
    · exact .of_eq rfl rfl
    · exact planPiece_sends _ _
  · unfold confirmExit
    refine Sends.trans (t := passOwned s) ?_ (.of_eq rfl rfl)
    unfold passOwned; split
    · exact passPiece_sends _ _
    · exact .refl s
    · exact .refl s

theorem testEyeKeys_sends (e : Eye) : Sends s (testEyeKeys e s) := by
  unfold testEyeKeys
  refine .trans ?_ (testJam_sends _ _)
  unfold testConfirm; dsimp only; split
  · exact .refl s
  · split
    · exact (reportConfirmed_sends _ _ _).after (putEye_sends _ _ _)
    · exact .refl s

theorem pulseInOrder_sends (o : PulseOrder) : Sends s (pulseInOrder o s) := by
  unfold pulseInOrder
  refine .trans (t := advancePulse s) (.of_eq rfl rfl) ?_
  have hf : ∀ s, Sends s (fireSchedule s) := fun s => fireReached_sends _ s
  cases o
  · exact ((testEyeKeys_sends _ _).trans (testEyeKeys_sends _ _)).trans (hf _)
  · exact ((testEyeKeys_sends _ _).trans (hf _)).trans (testEyeKeys_sends _ _)
  · exact ((testEyeKeys_sends _ _).trans (testEyeKeys_sends _ _)).trans (hf _)
  · exact ((testEyeKeys_sends _ _).trans (hf _)).trans (testEyeKeys_sends _ _)
  · exact ((hf _).trans (testEyeKeys_sends _ _)).trans (testEyeKeys_sends _ _)
  · exact ((hf _).trans (testEyeKeys_sends _ _)).trans (testEyeKeys_sends _ _)

theorem windowEnd_sends : Sends s (windowEnd s) := by
  unfold windowEnd; dsimp only
  have h : ∀ s, Sends s (stallTest s) := by
    intro s; unfold stallTest; split
    · exact (addReason_sends _ _).behind
    · exact .of_eq rfl rfl
  exact Sends.trans (h _).behind (.of_eq rfl rfl)

/-! ## Windows and admission -/

theorem ghostOldest_sends : Sends s (ghostOldest s) := by
  unfold ghostOldest; split
  · exact (lookAtHead_sends _).behind
  · exact .refl s

theorem ghostAll_sends (n : Nat) : ∀ s, Sends s (ghostAll n s) := by
  induction n with
  | zero => exact .refl
  | succ n ih =>
    intro s; unfold ghostAll; split
    · exact (ih _).after (ghostOldest_sends s)
    · exact .refl s

theorem tickWindows_sends : Sends s (tickWindows s) := by
  unfold tickWindows; exact (ghostAll_sends _ _).behind

theorem appendRecord_sends (r : Record) : Sends s (appendRecord r s) := by
  unfold appendRecord; split <;> exact .of_eq rfl rfl

theorem appendPlaceholders_sends (n : Nat) : ∀ q s, Sends s (appendPlaceholders n q s) := by
  induction n with
  | zero => exact fun _ => .refl
  | succ n ih => intro q s; exact (ih _ _).after (appendRecord_sends _ _)

theorem takeHandover_sends (q : Seq) (r : Record) : Sends s (takeHandover q r s) := by
  unfold takeHandover; split
  · exact .refl s
  · refine (lookAtHead_sends _).after ?_
    unfold appendChecked; dsimp only; split
    · exact (appendRecord_sends _ _).behind
    · split
      · exact (appendRecord_sends _ _).after (appendPlaceholders_sends _ _ _).behind
      · exact (appendRecord_sends _ _).behind

/-! ## The link and the purge -/

theorem acceptFrame_sends (n : Nat) (body : FrameBody) : Sends s (acceptFrame n body s) := by
  have hrun : ∀ s, Sends s (takeRun n s) := fun s => setStops_sends s _
  unfold acceptFrame; split
  · exact setStops_sends s _
  · exact hrun s
  · have hu : ∀ s, Sends s (upstreamRestart s) := by
      intro s; unfold upstreamRestart; dsimp only; split
      · exact .of_eq rfl rfl
      · exact (askFrame_sends _ _).behind
    unfold takeStart; dsimp only
    split <;> split <;>
      first
        | exact ((setPaceIn_sends _ _).after (hu _)).after (hrun s)
        | exact (setPaceIn_sends _ _).after (hrun s)
        | exact (hu _).after (hrun s)
        | exact hrun s
  · split
    · exact takeHandover_sends _ _ _
    · exact .refl s
  · split
    · exact takeHandover_sends _ _ _
    · exact .refl s
  · split
    · exact setPaceIn_sends _ _
    · exact .refl s
  · exact .refl s
  · split
    · exact askFrame_sends _ _
    · exact .refl s
  · exact .refl s

theorem receiveFrame_sends (n : BitVec 5) (body : FrameBody) : Sends s (receiveFrame n body s) := by
  unfold receiveFrame; dsimp only; split
  · split
    · exact .of_eq rfl rfl
    · split
      · exact .of_eq rfl rfl
      · exact (acceptFrame_sends _ _ _).behind
  · exact .refl s

theorem receiveBits_sends (bits : List Bool) : Sends s (receiveBits bits s) := by
  unfold receiveBits; split
  · split
    · exact receiveFrame_sends _ _ _
    · split <;> exact .of_eq rfl rfl
    · split <;> exact .of_eq rfl rfl
  · exact .refl s

theorem purgeBay_sends (b : BayNo) : Sends s (purgeBay b s) := by
  unfold purgeBay; dsimp only; split
  · split
    · exact (startSettle_sends _ _).after (putBay_sends _ _ _)
    · exact putBay_sends _ _ _
  · exact .refl s

theorem purgePieces_sends : Sends s (purgePieces s) := by
  refine foldl_sends _ ?_ _ _
  intro s a; unfold purgePiece; split
  · exact .refl s
  · exact (takeOut_sends _ _).behind

theorem purgeBays_sends : Sends s (purgeBays s) :=
  (((purgeBay_sends s .b1).trans (purgeBay_sends _ .b2)).trans (purgeBay_sends _ .b3)).trans
    (purgeBay_sends _ .b4)

theorem purgeSchedule_sends : Sends s (purgeSchedule s) := .of_eq rfl rfl

theorem purgeEyeChannels_sends : Sends s (purgeEyeChannels s) := .of_eq rfl rfl

theorem purge_sends : Sends s (purge s) :=
  (evalPace_sends _).after ((lookAtHead_sends _).after ((purgeEyeChannels_sends _).after
    ((purgeBays_sends _).after ((purgeSchedule_sends _).after (purgePieces_sends s)))))

theorem takePurge_sends : Sends s (takePurge s) := (purge_sends _).behind

theorem endHold_sends : Sends s (endHold s) := .of_keeps (endHold_keeps s) (by decide)

theorem seeIdle_sends : Sends s (seeIdle s) := .of_keeps (seeIdle_keeps s) (by decide)

end Sys2Proof.Machine
end

