-- ==== Sys2Proof/Laws/Stops.lean ====
section
/-! SUPPORT. What a change of the stop sets comes to (R13, R146, R147, R179): the sets, the belt-run output
and the lamp after it, and what a joining with a free place leaves in the queue (R165, R166). -/

namespace Sys2Proof.Machine

variable (s : State)

/-! ## The reasons set -/

theorem insertReason_of_has {r : ReasonSet} {x : StopReason} (h : hasReason r x = true) :
    insertReason r x = r := by
  cases r; cases x <;> simp_all [hasReason, insertReason]

@[simp] theorem hasReason_insertReason (r : ReasonSet) (x : StopReason) :
    hasReason (insertReason r x) x = true := by cases x <;> rfl

theorem insertReason_ne_none (r : ReasonSet) (x : StopReason) : insertReason r x ≠ ReasonSet.none := by
  cases x <;> simp [insertReason, ReasonSet.none]

theorem ne_none_of_hasReason {r : ReasonSet} {x : StopReason} (h : hasReason r x = true) :
    r ≠ ReasonSet.none := by
  rintro rfl; cases x <;> simp [hasReason, ReasonSet.none] at h

/-! ## The outputs that follow -/

@[simp] theorem followRun_run : (followRun s).belt.run = runWanted s := by
  unfold followRun; split
  · simp_all
  · split <;> simp_all

@[simp] theorem followRun_stops : (followRun s).stops = s.stops := by
  unfold followRun; split <;> [rfl; (split <;> rfl)]

@[simp] theorem followRun_station : (followRun s).station = s.station := by
  unfold followRun; split <;> [rfl; (split <;> rfl)]

@[simp] theorem setStops_stops (st : Stops) : (setStops st s).stops = st := by
  simp [setStops, followLamp]

@[simp] theorem setStops_run (st : Stops) :
    (setStops st s).belt.run = runWanted { s with stops := st } := by simp [setStops, followLamp]

theorem setStops_lamp (st : Stops) :
    (setStops st s).panel.lamp = lampWanted (followRun { s with stops := st }) := rfl

@[simp] theorem askFrame_stops (body : FrameBody) : (askFrame body s).stops = s.stops := by
  have hk := askFrame_keeps s body
  have h1 : (askFrame body s).stops.own = s.stops.own := hk .own (by decide)
  have h2 : (askFrame body s).stops.others = s.stops.others := hk .others (by decide)
  cases hx : (askFrame body s).stops; cases hy : s.stops; simp_all

@[simp] theorem askFrame_run (body : FrameBody) : (askFrame body s).belt.run = s.belt.run :=
  askFrame_keeps s body .run (by decide)

theorem addReason_own (r : StopReason) : (addReason r s).stops.own = insertReason s.stops.own r := by
  unfold addReason; split
  · rw [insertReason_of_has (by assumption)]
  · dsimp only; split <;> simp

theorem addReason_run (r : StopReason) (h : RunLaw s) : (addReason r s).belt.run = false := by
  unfold addReason; split
  · rename_i hr
    by_contra hc
    exact ne_none_of_hasReason hr (h.1 (by simpa using hc)).2.1
  · dsimp only; split <;> simp [runWanted, noReason, insertReason_ne_none]

theorem addReason_lamp (r : StopReason) (ha : s.station = .active) (hl : LampLaw s) :
    (addReason r s).panel.lamp = true := by
  unfold addReason; split
  · exact hl.2 ⟨ha, Or.inl (ne_none_of_hasReason (by assumption))⟩
  · have hs : (setStops { s.stops with own := insertReason s.stops.own r } s).panel.lamp = true := by
      simp [setStops_lamp, lampWanted, isActive, noReason, insertReason_ne_none, ha]
    dsimp only; split
    · exact (askFrame_keeps _ _ .lamp (by decide)).trans hs
    · exact hs

/-! ## Joining with a free place -/

/-- The frames a joining frame stands among: those it does not replace (R166). -/
def keptBeside (body : FrameBody) (q : List QFrame) : List QFrame :=
  if isCoalesced (frameGroup body) then q.filter fun x => frameGroup x.body != frameGroup body else q

theorem notReplaced_eq_self {f : QFrame} {q : List QFrame} (h : ¬ (notReplaced f q).length < q.length) :
    notReplaced f q = q :=
  (List.filter_sublist (l := q)).eq_of_length (le_antisymm (List.length_filter_le _ _) (not_lt.1 h))

/-- A frame that finds a place free joins, and none is dropped. -/
theorem joinOf_room {body : FrameBody} (h : s.link.queue.length < 12) :
    joinOf body s = ⟨insertFrame ⟨body, s.link.nextAge⟩ (keptBeside body s.link.queue), true, false⟩ := by
  unfold joinOf joinQueue keptBeside
  split
  · rename_i hc; simp [hc.1, notReplaced]
  · rename_i hc
    have hq : s.link.queue.length < Config.queuePlaces := h
    rw [if_pos hq]
    by_cases hg : isCoalesced (frameGroup body) = true
    · have := notReplaced_eq_self (f := ⟨body, s.link.nextAge⟩) (q := s.link.queue) (fun hl => hc ⟨hg, hl⟩)
      simp only [notReplaced] at this
      simp [hg, this]
    · simp [hg]

theorem askRaw_room {body : FrameBody} (h : s.link.queue.length < 12) :
    askRaw body s = { s with link := { s.link with
      queue := insertFrame ⟨body, s.link.nextAge⟩ (keptBeside body s.link.queue)
      nextAge := s.link.nextAge + 1 } } := by
  simp [askRaw, joinOf_room s h]

end Sys2Proof.Machine
end

