-- ==== Sys2Proof/WellFormed.lean ====
section
/-! DEFINITION. Which commands are well formed: the ranges the manual gives the operands. `exec` answers
on ill-formed commands too; nothing in the model rests on these checks. -/

namespace Sys2Proof

open Sys2Proof.Machine

/-- A body within the ranges of R162, R140 and R147. The link does not check these (R168). -/
def FrameBody.wf : FrameBody → Bool
  | .stop reason => decide (1 ≤ reason.toNat ∧ reason.toNat ≤ 6)
  | .run => true
  | .start up down => decide (up.toNat ≤ 30 ∧ down.toNat ≤ 30)
  | .announce _ _ _ _ _ => true
  | .lotEnd _ _ => true
  | .pace _ => true
  | .stack bay _ _ count reason =>
    decide (1 ≤ bay.toNat ∧ bay.toNat ≤ 4) && decide (1 ≤ count.toNat ∧ count.toNat ≤ 99)
      && decide (1 ≤ reason.toNat ∧ reason.toNat ≤ 4)
  | .tallyQuery _ _ _ => true
  | .tally _ _ _ _ => true

/-- A frame on the line: a valid sender and a body within its ranges (R162). -/
def frameWf (sender : BitVec 5) (body : FrameBody) : Bool := validSender sender && body.wf

/-- The bits are a frame, from a dominant start bit on, that fails a judgement of R168. -/
def damagedWf : List Bool → Bool
  | [] => false
  | start :: rest =>
    !start && match judgeBits rest with
      | .wellFormed _ _ => false
      | .linkFormat => true
      | .linkCheck => true

/-- The command's operands lie in the ranges the manual gives them. -/
def Instr.wf : Instr → Bool
  | .reset => true
  | .loadComplete image => decide (image.length = 1024)
  | .encoderPulse => true
  | .windowEnd => true
  | .eyeRawChange _ _ => true
  | .edgeRecognition _ => true
  | .conditionedInputRawChange _ _ => true
  | .stopPress => true
  | .runPress => true
  | .selectPress => true
  | .closePress => true
  | .buttonRelease _ => true
  | .bayHighRise _ => true
  | .bayClearRise _ => true
  | .bayInputFall _ _ => true
  | .purgeHoldExpiry => true
  | .timeBaseTick => true
  | .ghost => true
  | .jetPulseExpiry _ => true
  | .settleTimerExpiry _ => true
  | .dischargeTimeout _ => true
  | .pusherPulseExpiry _ => true
  | .stopFrame sender reason => frameWf sender (.stop reason)
  | .runFrame sender => frameWf sender .run
  | .startFrame sender up down => frameWf sender (.start up down)
  | .announceFrame sender seq lot code length flags => frameWf sender (.announce seq lot code length flags)
  | .lotEndFrame sender seq lot => frameWf sender (.lotEnd seq lot)
  | .paceFrame sender gap => frameWf sender (.pace gap)
  | .tallyQuery sender target item index => frameWf sender (.tallyQuery target item index)
  | .framePassedOver sender body => frameWf sender body
  | .damagedFrame bits => damagedWf bits
  | .transmitStart => true
  | .arbitrationLost => true
  | .bitError => true
  | .frameSent => true
  | .displayDigitRefresh => true
  | .lineIdle => true

end Sys2Proof
end

