-- ==== Sys2Proof/Tests/Slice0.lean ====
section
/-! SUPPORT. Tests: ill-formed commands are refused by the checks of WellFormed.lean; the manual's worked
cases on single operations; and, for every statement with hypotheses, states and operands that meet them. -/

namespace Sys2Proof.Tests

open Sys2Proof.Machine

/-! ## Well-formed commands -/

theorem test_wf_refuses_short_image : (Instr.loadComplete [0#8]).wf = false := by decide
theorem test_wf_refuses_sender_0 : (Instr.runFrame 0#5).wf = false := by decide
theorem test_wf_refuses_sender_31 : (Instr.paceFrame 31#5 0#16).wf = false := by decide
theorem test_wf_refuses_stop_reason_0 : (Instr.stopFrame 1#5 0#8).wf = false := by decide
theorem test_wf_refuses_stop_reason_7 : (Instr.stopFrame 1#5 7#8).wf = false := by decide
theorem test_wf_refuses_start_upstream_31 : (Instr.startFrame 1#5 31#8 0#8).wf = false := by decide
theorem test_wf_refuses_start_downstream_31 : (Instr.startFrame 1#5 0#8 31#8).wf = false := by decide
theorem test_wf_refuses_stack_of_bay_5 :
    (Instr.framePassedOver 1#5 (.stack 5#8 0#16 0#8 1#8 1#8)).wf = false := by decide
theorem test_wf_refuses_stack_of_100 :
    (Instr.framePassedOver 1#5 (.stack 1#8 0#16 0#8 100#8 1#8)).wf = false := by decide
theorem test_wf_refuses_stack_reason_5 :
    (Instr.framePassedOver 1#5 (.stack 1#8 0#16 0#8 1#8 5#8)).wf = false := by decide
theorem test_wf_refuses_no_bits : (Instr.damagedFrame []).wf = false := by decide
theorem test_wf_refuses_recessive_start : (Instr.damagedFrame [true]).wf = false := by decide
theorem test_wf_refuses_whole_frame : (Instr.damagedFrame (frameBits 1#5 .run)).wf = false := by
  decide +kernel
theorem test_wf_accepts_cut_frame :
    (Instr.damagedFrame ((frameBits 1#5 .run).take 20)).wf = true := by decide +kernel

/-! ## The manual's worked cases -/

/-- R162 and R160: RUN of station 1 begins dominant, kind 0010, sender 0000 and then the mark. -/
theorem test_run_frame_begins : (frameBits 1#5 .run).take 11 =
    [false, false, false, true, false, false, false, false, false, false, true] := by decide

/-- R160: a frame with 7 body bytes occupies 34 + 63 bit times. -/
theorem test_announce_bit_times : (frameBits 1#5 (.announce 1#8 2#16 3#8 4#16 0#8)).length = 97 := by
  decide

/-- The check of R161 over the digits 1 to 9 is 29B1, the catalogue value of this generator and start. -/
theorem test_check_of_digits :
    crcBytes [0x31#8, 0x32#8, 0x33#8, 0x34#8, 0x35#8, 0x36#8, 0x37#8, 0x38#8, 0x39#8] = 0x29B1#16 := by
  decide +kernel

/-- Chapter 6, leads: v_c 1 at T 500 gives 3, v_c 320 at T 120 gives 192. -/
theorem test_leads : lead 1 500 = 3 ∧ lead 320 120 = 192 := by decide

/-- Chapter 6, the odd encoder: 10 mm is 32 pulses at K 3,150, and 5,810 pulses are 1,844 mm. -/
theorem test_conversions : toPulses 3150 10 = 32 ∧ toMm 3150 5810 = 1844 := by decide

/-- Chapter 6, the sheet across the wrap: 9,296 pulses long. -/
theorem test_length_across_wrap :
    measuredLength 2000#32 4294960000#32 = 9296 ∧ toMm 3150 9296 = 2951 := by decide

/-- Chapter 6, the length tests at A 2,600: 2,438 agrees and 2,437 not at tol 4; 3,900 is DOUBLE at
tol 32 and 3,899 not. -/
theorem test_length_limits :
    disagrees 4 2438 2600 = false ∧ disagrees 4 2437 2600 = true ∧ isDouble 32 3900 2600 = true
      ∧ isDouble 32 3899 2600 = false := by decide

/-- A plan of the table in Chapter 3. -/
def planWith (fold : Option PlanFold) (minLen maxLen : Nat) (allowed : Four Bool) (target : Nat) :
    PlanFields :=
  { fold := fold, minLen := minLen, maxLen := maxLen, allowed := allowed, alternate := .pass
    target := target }

/-- Entries of the table in Chapter 3: 0, 17, 40, 41, 50, 51, 60 and 70 to 72. -/
def sampleTable : List CategoryEntry :=
  [⟨0#8, 0, .plan (planWith none 100 65535 (Four.all false) 10)⟩,
    ⟨17#8, 0, .plan (planWith (some ⟨.a, 128⟩) 1000 3000 ⟨true, true, false, false⟩ 20)⟩,
    ⟨40#8, 0, .plan (planWith none 400 900 ⟨false, false, false, true⟩ 50)⟩,
    ⟨41#8, 0, .link 40#8⟩, ⟨50#8, 0, .link 51#8⟩, ⟨51#8, 0, .link 50#8⟩, ⟨60#8, 0, .link 99#8⟩,
    ⟨70#8, 0, .link 71#8⟩, ⟨71#8, 0, .link 72#8⟩, ⟨72#8, 0, .link 40#8⟩]

/-- Chapter 3: code 70 reaches its plan at the fourth visit. -/
theorem test_resolve_four_visits :
    (resolveCode 70#8 sampleTable).code = 40#8
      ∧ (resolveCode 70#8 sampleTable).chainFault = false := by decide

/-- Chapter 3: code 50 visits 50 and 51 twice each, then 0, a chain fault. -/
theorem test_resolve_loop :
    (resolveCode 50#8 sampleTable).code = 0#8 ∧ (resolveCode 50#8 sampleTable).chainFault = true
      ∧ (resolveCode 50#8 sampleTable).table.map CategoryEntry.uses =
          [1, 0, 0, 0, 2, 2, 0, 0, 0, 0] := by decide

/-- Chapter 3: code 60 is a chain fault, the absent code 200 is none. -/
theorem test_resolve_absent :
    (resolveCode 60#8 sampleTable).chainFault = true
      ∧ (resolveCode 200#8 sampleTable).chainFault = false := by decide

/-! ## A small station -/

/-- The segment of the worked cases of Chapters 5 and 6, converted at K 4,000. -/
def sampleSettings : Settings :=
  { Settings.blank with
    station := 3, upstream := 2, downstream := 4, bayCount := 2, entryFilter := 4, exitFilter := 4
    tol := 4, k := 4000, jetA := 12000, jetB := 32000, gate := ⟨32800, 33600, 0, 0⟩
    reject := 35600, exitDist := 36000, mergeGap := 120, lateMargin := 200, closeMargin := 1200
    exitTol := 400, jamLength := 16000, jetGuard := 4000, tA := 120, tB := 120, tG := 200
    jetPulse := 40, settle := 500, pusherPulse := 300, dischargeTimeout := 10, transferWindow := 8000
    paceGap := 600, lowThreshold := 20, highThreshold := 320 }

/-- That station in ACTIVE, its belt running, its line idle, nothing on the belt. -/
def live : State :=
  { State.reset with
    station := .active, settings := sampleSettings, table := sampleTable
    belt := { BeltUnit.reset with run := true, v := 200, grace := 0 }
    link := { Link.reset with line := .idle } }

/-- A conditioned input held down. -/
def held : CondInput := ⟨true, true, none⟩

/-- Belt fields of a piece as it arrives. -/
def belted (n : LocalNo) (lead : Pos) : BeltInfo := arrivedFields n lead false

/-- An ON_BELT piece of lot 7, code 17, announced at 2,600 mm. -/
def onBeltPiece (i : BeltInfo) : Piece :=
  ⟨some 1#8, 7#16, 17#8, some 2600, ⟨false, false, false⟩, .onBelt i⟩

/-- An ANNOUNCED record of lot 7. -/
def announcedPiece (window len : Nat) : Piece :=
  ⟨some 2#8, 7#16, 17#8, some len, ⟨false, false, false⟩, .announced window⟩

/-- A bay in a state with its counts, for lot 7 and plan 17. -/
def bayIn (state : BayState) (landed reserved target : Nat) : Bay :=
  { Bay.cleared with
    state := state, lot := some 7#16, planCode := some 17#8, landed := landed, reserved := reserved
    target := some target }

/-- The live station with one ON_BELT piece. -/
def withPiece (i : BeltInfo) : State := { live with tracks := [.piece (onBeltPiece i)] }

/-- The live station with bay 1 as given. -/
def withBay (y : Bay) : State := { live with bays := live.bays.set .b1 y }

/-- A schedule entry of piece 10, due at the next pulse of the live station. -/
def dueEntry (a : Action) : SchedEntry := ⟨1#32, a, [10#8], 0, false⟩

/-- A jammed, stopped station: JAM_EXIT and OPERATOR, bay 2 BLOCKED, station 9 stopping the line. -/
def stopped : State :=
  { live with
    belt := { live.belt with run := false }
    stops := ⟨⟨true, false, false, false, true, false⟩, [9]⟩
    panel := { live.panel with lamp := true } }

/-- Chapter 6.8: the sheet of code 17 keeps its fold, takes bay 1 and gets the dues of the table. -/
def sheet : State :=
  planStages ⟨onBeltPiece { belted 10#8 1000000#32 with pTrail := some 1010400#32 },
      { belted 10#8 1000000#32 with pTrail := some 1010400#32 }, none⟩
    (withPiece { belted 10#8 1000000#32 with pTrail := some 1010400#32 })

theorem test_sheet_record :
    (findLocal 10#8 sheet.tracks).map (fun x => (x.2.fold, x.2.route)) =
        some (some ⟨.a, 5200, 1017080#32⟩, some (.bay .b1))
      ∧ (findLocal 10#8 sheet.tracks).map (fun x => (x.2.lengthMm, x.2.exitLength, x.2.exitPos)) =
        some (some 2600, some 5200, some 1041200#32) := by
  decide +kernel

theorem test_sheet_schedule :
    sheet.schedule.map (fun e => (e.due, e.action)) =
      [(1017080#32, .jetFire .a), (1037800#32, .gateOpen (.bay .b1)),
        (1044400#32, .gateClose (.bay .b1))] := by
  decide +kernel

/-! ## Images -/

/-- An image of the bytes given, zeros behind them, and a last byte. -/
def image (used : List Byte) (last : Byte) : List Byte :=
  used ++ List.replicate (1023 - used.length) 0#8 ++ [last]

/-- An image of the segment of `sampleSettings` with one category, and behind it the two bytes that bring
the check register to 0. -/
def sampleBytes : List Byte :=
  [3, 2, 4, 2, 1, 1, 1, 4, 15, 160, 11, 184, 31, 64, 32, 8, 32, 208, 0, 0, 0, 0, 34, 196, 35, 40, 30, 0,
    50, 1, 44, 0, 100, 15, 160, 3, 232, 0, 120, 0, 120, 0, 200, 40, 1, 244, 1, 44, 10, 31, 64, 2, 88, 0,
    20, 1, 64, 0, 0, 0, 0, 0, 0, 0, 0, 2, 0, 0, 0, 100, 255, 255, 0, 1, 10, 0, 0, 1, 2, 3, 4, 5, 6, 2, 1,
    0, 7, 2, 17, 0, 0, 0, 0, 0, 0, 155, 165]

theorem crc_zero_run (n : Nat) :
    (List.replicate n 0#8).foldl (fun r x => (bitsMsb x).foldl crcBit r) 0#16 = 0#16 := by
  have hz : (bitsMsb 0#8).foldl crcBit 0#16 = 0#16 := by decide
  induction n with
  | zero => rfl
  | succ n ih => simpa [List.replicate_succ, hz] using ih

theorem imageByte_body {used : List Byte} {last : Byte} (h : used.length ≤ 1022) :
    (List.range 1022).map (imageByte (image used last)) =
      used ++ List.replicate (1022 - used.length) 0#8 := by
  apply List.ext_getElem
  · simp; omega
  · intro i h1 h2
    have hi : i < 1022 := by simpa using h1
    by_cases hu : i < used.length
    · simp [imageByte, image, List.getD_eq_getElem?_getD, List.getElem?_append, hu]
    · have : i - used.length < 1023 - used.length := by omega
      simp [imageByte, image, List.getD_eq_getElem?_getD, List.getElem?_append, List.getElem_append, hu,
        this]

theorem imageByte_last {used : List Byte} {last : Byte} (h : used.length ≤ 1022) :
    imageByte (image used last) 1022 = 0#8 ∧ imageByte (image used last) 1023 = last := by
  have h1 : ¬ 1022 < used.length := by omega
  have h2 : ¬ 1023 < used.length := by omega
  constructor
  · have h3 : 1022 - used.length < 1023 - used.length := by omega
    simp [imageByte, image, List.getD_eq_getElem?_getD, List.getElem?_append, h1, h3]
  · simp [imageByte, image, List.getD_eq_getElem?_getD, List.getElem?_append, h2]

theorem crc_image {used : List Byte} {last : Byte} (h : used.length ≤ 1022) (hc : crcBytes used = 0#16) :
    crcBytes ((List.range 1022).map (imageByte (image used last))) = 0#16 := by
  rw [imageByte_body h]
  unfold crcBytes at hc ⊢
  rw [List.foldl_append, hc, crc_zero_run]

theorem image_check {used : List Byte} (h : used.length ≤ 1022) (hc : crcBytes used = 0#16) :
    crcBytes ((List.range 1022).map (imageByte (image used 0#8))) =
      twoBytes (imageByte (image used 0#8) 1022) (imageByte (image used 0#8) 1023) := by
  rw [crc_image h hc, (imageByte_last h).1, (imageByte_last h).2]; decide

/-- The check register after more bytes. -/
def crcFrom (r : BitVec 16) (bs : List Byte) : BitVec 16 :=
  bs.foldl (fun r x => (bitsMsb x).foldl crcBit r) r

theorem crc_sample_25 : crcFrom 0xFFFF#16 (sampleBytes.take 25) = 0x7274#16 := by decide +kernel
theorem crc_sample_50 : crcFrom 0x7274#16 ((sampleBytes.drop 25).take 25) = 0xF55C#16 := by decide +kernel
theorem crc_sample_75 : crcFrom 0xF55C#16 ((sampleBytes.drop 50).take 25) = 0x0A44#16 := by decide +kernel
theorem crc_sample_97 : crcFrom 0x0A44#16 (sampleBytes.drop 75) = 0#16 := by decide +kernel

theorem crc_sample : crcBytes sampleBytes = 0#16 := by
  have hs : sampleBytes = sampleBytes.take 25 ++ (sampleBytes.drop 25).take 25
      ++ (sampleBytes.drop 50).take 25 ++ sampleBytes.drop 75 := by decide
  have h1 := crc_sample_25; have h2 := crc_sample_50
  have h3 := crc_sample_75; have h4 := crc_sample_97
  unfold crcFrom at h1 h2 h3 h4
  unfold crcBytes
  rw [hs, List.foldl_append, List.foldl_append, List.foldl_append, h1, h2, h3, h4]

theorem witness_LoadFaultsOnBadImageCheck : State.reset.station = .loading ∧
    crcBytes ((List.range 1022).map (imageByte (image [0xFF#8, 0xFF#8] 1#8))) ≠
      twoBytes (imageByte (image [0xFF#8, 0xFF#8] 1#8) 1022)
        (imageByte (image [0xFF#8, 0xFF#8] 1#8) 1023) := by
  refine ⟨rfl, ?_⟩
  rw [crc_image (by decide) (by decide +kernel), (imageByte_last (by decide)).1,
    (imageByte_last (by decide)).2]
  decide

/-- Every header byte 255: station 255 fails check 10 (the check register is 0 behind the two bytes). -/
theorem witness_FirstFailingHeaderCheck_10 : State.reset.station = .loading ∧
    crcBytes ((List.range 1022).map (imageByte (image [0xFF#8, 0xFF#8] 0#8))) =
      twoBytes (imageByte (image [0xFF#8, 0xFF#8] 0#8) 1022)
        (imageByte (image [0xFF#8, 0xFF#8] 0#8) 1023)
    ∧ ¬ headerCheck (image [0xFF#8, 0xFF#8] 0#8) 10 :=
  ⟨rfl, image_check (by decide) (by decide +kernel), by simp only [headerCheck]; decide +kernel⟩

theorem sample_loads : ∃ c table map counters,
    loadImage (image sampleBytes 0#8) = .loaded c table map counters ∧ c = sampleSettings := by
  have hk : imageCheckOk (image sampleBytes 0#8) = true := by
    simpa [imageCheckOk] using image_check (by decide) crc_sample
  have hl : (match loadChecked (image sampleBytes 0#8) with
      | .loaded c _ _ _ => decide (c = sampleSettings)
      | .failed _ _ _ => false) = true := by decide +kernel
  simp only [loadImage, hk, if_true]
  cases h : loadChecked (image sampleBytes 0#8) with
  | failed code table map => simp [h] at hl
  | loaded c table map counters => exact ⟨c, table, map, counters, rfl, by simpa [h] using hl⟩

theorem witness_EntryToActive : State.reset.station = .loading ∧ ∃ c table map counters,
    loadImage (image sampleBytes 0#8) = .loaded c table map counters := by
  obtain ⟨c, table, map, counters, h, -⟩ := sample_loads
  exact ⟨rfl, c, table, map, counters, h⟩

theorem witness_FirstFailingHeaderCheck_none : State.reset.station = .loading ∧
    crcBytes ((List.range 1022).map (imageByte (image sampleBytes 0#8))) =
      twoBytes (imageByte (image sampleBytes 0#8) 1022) (imageByte (image sampleBytes 0#8) 1023)
    ∧ ∀ c, 10 ≤ c → c ≤ 22 → headerCheck (image sampleBytes 0#8) c := by
  refine ⟨rfl, image_check (by decide) crc_sample, ?_⟩
  intro c h1 h2
  interval_cases c <;> simp only [headerCheck, headerInRange] <;> decide +kernel


/-! ## States and operands that meet the statements' hypotheses, clause by clause -/

theorem live_run : RunLaw live := by unfold RunLaw; decide
theorem live_lamp : LampLaw live := by
  constructor
  · intro h; exact absurd h (by decide)
  · rintro ⟨-, h | ⟨b, -, h⟩ | h⟩
    · exact absurd rfl h
    · cases b <;> exact absurd h (by decide)
    · exact absurd h (by decide)
theorem live_bays : BayLaw live := by intro b; cases b <;> (unfold BayOk; decide)

theorem witness_StepRunsFrontCommand : State.reset.pending = [] := rfl

/-! ### Pulses and windows -/

/-- The live station with one schedule entry and, where given, one piece. -/
def scheduled (e : SchedEntry) (tracks : List Record) : State := { live with schedule := [e], tracks := tracks }

/-- An eye with nothing merge-pending and nothing covered since has no key. -/
theorem eye_waits {e : Eye} {s : State} (hm : (eyeOf e s).mergePending = none)
    (hc : (eyeOf e s).coveredSince = none) : EyeWaits e s :=
  ⟨fun _ h => absurd (hm.symm.trans h) (by simp), fun _ h => absurd (hc.symm.trans h) (by simp)⟩

theorem eyes_quiet {s : State} (h : s.eyes = live.eyes) : EyesQuiet s := by
  intro e; cases e <;> exact eye_waits (by simp only [eyeOf, h]; rfl) (by simp only [eyeOf, h]; rfl)

theorem quiet (e : SchedEntry) (tracks : List Record) : EyesQuiet (scheduled e tracks) := eyes_quiet rfl

theorem witness_PulseAdvancesBelt_below :
    live.station = .active ∧ { live.belt with windowCount := 4094 }.windowCount < 4095 := by decide
theorem witness_PulseAdvancesBelt_full :
    live.station = .active ∧ 4095 ≤ { live.belt with windowCount := 4095 }.windowCount := by decide

theorem witness_PulseFiresNothingBeforeDue :
    let s := scheduled { dueEntry .exitCheck with due := 2#32 } []
    s.station = .active ∧ EyesQuiet s ∧ ∀ e ∈ s.schedule, posDiff (s.belt.position + 1) e.due < 0 :=
  ⟨rfl, quiet { dueEntry .exitCheck with due := 2#32 } [], by decide⟩

/-- Two entries reached at one pulse, and keys of both eyes held but not reached. -/
theorem witness_PulseFiresNothingBeforeDue_reached :
    let s := { live with
      schedule := [dueEntry (.jetFire .a), { dueEntry .exitCheck with serial := 1 }]
      eyes := { live.eyes with
        entry := ⟨.covered, .covered, none, none, some 0#32, false⟩
        exit := ⟨.clear, .clear, none, some 0#32, some 0#32, false⟩ } }
    s.station = .active ∧ EyesQuiet s ∧ ∀ e ∈ s.schedule, 0 ≤ posDiff (s.belt.position + 1) e.due := by
  refine ⟨rfl, ?_, by decide⟩
  intro e; cases e
  · exact ⟨fun pt h => absurd h (by simp [eyeOf]), fun since h _ _ => by
      obtain rfl : (0#32 : Pos) = since := by simpa [eyeOf] using h
      decide⟩
  · exact ⟨fun pt h => by
      obtain rfl : (0#32 : Pos) = pt := by simpa [eyeOf] using h
      decide, fun since _ h => absurd h (by simp [eyeOf])⟩

theorem witness_PulseFiresJetOrGateOpen_jet :
    let e := dueEntry (.jetFire .b)
    let s := scheduled e []
    s.station = .active ∧ EyesQuiet s ∧ s.schedule = [e] ∧ 0 ≤ posDiff (s.belt.position + 1) e.due
      ∧ e.action = .jetFire .b := ⟨rfl, quiet _ _, rfl, by decide, rfl⟩
theorem witness_PulseFiresJetOrGateOpen_gate :
    let e := dueEntry (.gateOpen (.bay .b2))
    let s := scheduled e []
    s.station = .active ∧ EyesQuiet s ∧ s.schedule = [e] ∧ 0 ≤ posDiff (s.belt.position + 1) e.due
      ∧ e.action = .gateOpen (.bay .b2) := ⟨rfl, quiet _ _, rfl, by decide, rfl⟩

theorem marker_free_nil : NoMarkerFirst [] := by intro _ _ _ h; cases h
theorem marker_free_piece (p : Piece) (rest : List Record) : NoMarkerFirst (.piece p :: rest) := by
  intro _ _ _ h; cases h

/-- A CLOSING bay whose last reserved piece lands: the settle timer's clause. -/
theorem witness_PulseBayGateCloseStacks :
    let e := dueEntry (.gateClose (.bay .b1))
    let i := belted 10#8 0#32
    let s := { scheduled e [.piece (onBeltPiece i)] with bays := live.bays.set .b1 (bayIn .closing 1 1 2) }
    s.station = .active ∧ EyesQuiet s ∧ s.schedule = [e] ∧ e.action = .gateClose (.bay .b1)
      ∧ e.pieces = [10#8] ∧ 0 ≤ posDiff (s.belt.position + 1) e.due
      ∧ findLocal 10#8 s.tracks = some (onBeltPiece i, i)
      ∧ NoMarkerFirst (s.tracks.eraseP (hasLocal 10#8))
      ∧ ((s.bays.get .b1).state = .filling ∨ (s.bays.get .b1).state = .closing)
      ∧ 0 < (s.bays.get .b1).reserved ∧ s.settings.settle ≠ 0 ∧ s.link.queue.length < 12 :=
  ⟨rfl, eyes_quiet rfl, rfl, rfl, rfl, by decide, rfl, marker_free_nil, by decide, by decide,
    by decide, by decide⟩

/-- A merged list of two whose landings empty the reservations of a CLOSING bay. -/
theorem witness_PulseBayGateCloseStacks_merged :
    let e := { dueEntry (.gateClose (.bay .b1)) with pieces := [10#8, 11#8] }
    let i := belted 10#8 0#32
    let j := belted 11#8 0#32
    let s := { scheduled e [.piece (onBeltPiece i), .piece (onBeltPiece j)] with
      bays := live.bays.set .b1 (bayIn .closing 1 2 3) }
    s.station = .active ∧ EyesQuiet s ∧ s.schedule = [e] ∧ e.action = .gateClose (.bay .b1)
      ∧ e.pieces = [10#8, 11#8] ∧ (10#8 : LocalNo) ≠ 11#8 ∧ 0 ≤ posDiff (s.belt.position + 1) e.due
      ∧ findLocal 10#8 s.tracks = some (onBeltPiece i, i) ∧ findLocal 11#8 s.tracks = some (onBeltPiece j, j)
      ∧ (∀ r ∈ s.tracks, isMarker r = false)
      ∧ ((s.bays.get .b1).state = .filling ∨ (s.bays.get .b1).state = .closing)
      ∧ (s.bays.get .b1).reserved = 2 ∧ s.settings.settle ≠ 0 ∧ s.link.queue.length < 12 :=
  ⟨rfl, eyes_quiet rfl, rfl, rfl, rfl, by decide, by decide, rfl, rfl, by decide, by decide, by decide,
    by decide, by decide⟩

/-- A merged list of two with a marker between the pieces. -/
theorem witness_PulseRejectCloseAndExitCheck_merged :
    let e := { dueEntry (.gateClose .reject) with pieces := [10#8, 11#8] }
    let i := belted 10#8 0#32
    let j := belted 11#8 0#32
    let s := scheduled e [.piece (onBeltPiece i), .marker 9#8 7#16, .piece (onBeltPiece j)]
    s.station = .active ∧ EyesQuiet s ∧ s.schedule = [e] ∧ e.action = .gateClose .reject
      ∧ e.pieces = [i.localNo, j.localNo] ∧ i.localNo ≠ j.localNo
      ∧ 0 ≤ posDiff (s.belt.position + 1) e.due
      ∧ s.tracks = Record.piece (onBeltPiece i) :: .marker 9#8 7#16 :: Record.piece (onBeltPiece j) :: []
      ∧ (onBeltPiece i).stage = .onBelt i ∧ (onBeltPiece j).stage = .onBelt j ∧ NoMarkerFirst []
      ∧ s.settings.settle ≠ 0 ∧ s.settings.downstream ≠ 0 ∧ s.link.queue.length ≤ 10 :=
  ⟨rfl, quiet _ _, rfl, rfl, rfl, by decide, by decide, rfl, rfl, rfl, marker_free_nil, by decide,
    by decide, by decide⟩

theorem witness_PulseRejectCloseAndExitCheck_reject :
    let e := dueEntry (.gateClose .reject)
    let i := belted 10#8 0#32
    let s := scheduled e [.piece (onBeltPiece i)]
    s.station = .active ∧ EyesQuiet s ∧ s.schedule = [e] ∧ e.pieces = [10#8]
      ∧ 0 ≤ posDiff (s.belt.position + 1) e.due ∧ findLocal 10#8 s.tracks = some (onBeltPiece i, i)
      ∧ NoMarkerFirst (s.tracks.eraseP (hasLocal 10#8)) ∧ s.link.queue.length < 12
      ∧ e.action = .gateClose .reject :=
  ⟨rfl, quiet _ _, rfl, rfl, by decide, rfl, marker_free_nil, by decide, rfl⟩
theorem witness_PulseRejectCloseAndExitCheck_unseen :
    let e := dueEntry .exitCheck
    let i := belted 10#8 0#32
    let s := scheduled e [.piece (onBeltPiece i)]
    s.station = .active ∧ EyesQuiet s ∧ s.schedule = [e] ∧ e.pieces = [10#8]
      ∧ 0 ≤ posDiff (s.belt.position + 1) e.due ∧ findLocal 10#8 s.tracks = some (onBeltPiece i, i)
      ∧ NoMarkerFirst (s.tracks.eraseP (hasLocal 10#8)) ∧ s.link.queue.length < 12
      ∧ e.action = .exitCheck ∧ i.exitSeen = false ∧ { i with exitSeen := true }.exitSeen = true :=
  ⟨rfl, quiet _ _, rfl, rfl, by decide, rfl, marker_free_nil, by decide, rfl, rfl, rfl⟩

/-- The confirmation key lies exactly at the next pulse. -/
theorem witness_PulseExitConfirmationPasses :
    let i := belted 10#8 0#32
    let pt : Pos := 0#32 - 119#32
    let s := { withPiece i with
      eyes := { live.eyes with
        exit := { live.eyes.exit with mergePending := some pt, coveredSince := some 0#32 }
        exitOwner := some (.piece 10#8) } }
    s.station = .active ∧ s.schedule = [] ∧ s.eyes.entry.mergePending = none
      ∧ s.eyes.entry.coveredSince = none ∧ s.eyes.exit.mergePending = some pt
      ∧ 0 ≤ posDiff (s.belt.position + 1) (posAdd pt s.settings.mergeGap)
      ∧ s.eyes.exitOwner = some (.piece 10#8) ∧ findLocal 10#8 s.tracks = some (onBeltPiece i, i)
      ∧ NoMarkerFirst (s.tracks.eraseP (hasLocal 10#8)) ∧ s.settings.downstream ≠ 0
      ∧ s.link.queue.length ≤ 10 :=
  ⟨rfl, rfl, rfl, rfl, rfl, by decide, rfl, rfl, marker_free_nil, by decide, by decide⟩

/-- The high threshold of the live station is 320: 321 crosses it, 320 does not; 24 clear window ends
rearm with the next, 23 do not. -/
theorem witness_WindowEndMeasuresAndWatchesHigh :
    live.station = .active ∧ live.settings.highThreshold = 320 ∧ live.belt.highArmed = true
      ∧ { live.belt with highArmed := false }.highArmed = false
      ∧ live.settings.highThreshold < { live.belt with windowCount := 321 }.windowCount
      ∧ ¬ live.settings.highThreshold < { live.belt with windowCount := 320 }.windowCount
      ∧ 25 ≤ { live.belt with highRearm := 24 }.highRearm + 1
      ∧ { live.belt with highRearm := 23 }.highRearm + 1 < 25 := by decide

/-- The low threshold of the live station is 20: a window of 19 is a stall, one of 20 is none. -/
theorem witness_WindowEndFindsStall_stall :
    let s := { live with belt := { live.belt with windowCount := 19 } }
    s.station = .active ∧ RunLaw s ∧ s.belt.run = true ∧ s.belt.grace = 0 ∧ s.belt.lowArmed = true
      ∧ s.belt.windowCount < s.settings.lowThreshold ∧ s.link.queue.length < 12 :=
  ⟨rfl, by unfold RunLaw; decide, rfl, rfl, rfl, by decide, by decide⟩
theorem witness_WindowEndFindsStall_armed :
    let s := { live with belt := { live.belt with windowCount := 20 } }
    s.station = .active ∧ RunLaw s ∧ s.belt.lowArmed = true
      ∧ ¬ s.belt.windowCount < s.settings.lowThreshold :=
  ⟨rfl, by unfold RunLaw; decide, rfl, by decide⟩
theorem witness_WindowEndFindsStall_rearm :
    let s := { stopped with belt := { stopped.belt with lowArmed := false, lowRearm := 24, windowCount := 20 } }
    s.station = .active ∧ RunLaw s ∧ s.belt.run = false ∧ s.belt.lowArmed = false
      ∧ s.settings.lowThreshold ≤ s.belt.windowCount ∧ 25 ≤ s.belt.lowRearm + 1 :=
  ⟨rfl, by unfold RunLaw; decide, rfl, rfl, by decide, by decide⟩

/-! ### Eyes -/

/-- The live station with a change of the entry eye pending. -/
def pendingAt (level : EyeLevel) (tracks : List Record) : State :=
  { live with
    tracks := tracks
    eyes := { live.eyes with
      entry := { live.eyes.entry with raw := .covered, pendingEdge := some ⟨level, 5#32, 4⟩ } } }

/-- The entry eye COVERED since 0, its trailing edge merge-pending, another change pending. -/
def holed : State :=
  { live with
    eyes := { live.eyes with
      entry := ⟨.covered, .clear, some ⟨.covered, 90#32, 4⟩, some 50#32, some 0#32, false⟩ } }

theorem witness_EyeFilterLatchesAndMerges_raw : live.station = .active
    ∧ (eyeOf .exit live).raw = .clear ∧ (eyeOf .exit live).raw ≠ .covered
    ∧ (eyeOf .exit live).pendingEdge = none := by decide
theorem witness_EyeFilterLatchesAndMerges_trailing : (pendingAt .clear []).station = .active
    ∧ (eyeOf .entry (pendingAt .clear [])).pendingEdge = some ⟨.clear, 5#32, 4⟩ := by decide
theorem witness_EyeFilterLatchesAndMerges_merge : holed.station = .active
    ∧ (eyeOf .entry holed).pendingEdge = some ⟨.covered, 90#32, 4⟩
    ∧ (eyeOf .entry holed).mergePending.isSome = true ∧ (eyeOf .entry holed).coveredSince = some 0#32
    ∧ posDiff holed.belt.position (posAdd 0#32 (holed.settings.jamLength + 1)) < 0 := by decide

/-- The exit eye covered since 0 at a position: its jam key is 16,001. -/
def jamming (position : Pos) (asked : Bool) : State :=
  { live with
    belt := { live.belt with position := position }
    eyes := { live.eyes with exit := ⟨.covered, .covered, none, none, some 0#32, asked⟩ } }

theorem witness_JamIsRequestedOnce :
    (jamming 16000#32 false).station = .active ∧ RunLaw (jamming 16000#32 false)
      ∧ (eyeOf .exit (jamming 16000#32 false)).coveredSince = some 0#32
      ∧ (eyeOf .exit (jamming 16000#32 false)).mergePending = none
      ∧ (eyeOf .exit (jamming 16000#32 false)).level = .covered
      ∧ 0 ≤ posDiff ((jamming 16000#32 false).belt.position + 1)
          (posAdd 0#32 ((jamming 16000#32 false).settings.jamLength + 1))
      ∧ EyeWaits (otherEye .exit) (jamming 16000#32 false) ∧ (jamming 16000#32 false).schedule = [] :=
  ⟨rfl, by unfold RunLaw; decide, rfl, rfl, rfl, by decide, eye_waits rfl rfl, rfl⟩

/-- Asked already, and one pulse short of the key. -/
theorem witness_JamIsRequestedOnce_none :
    (eyeOf .exit (jamming 16000#32 true)).jamRequested = true
      ∧ posDiff ((jamming 15999#32 false).belt.position + 1)
          (posAdd 0#32 ((jamming 15999#32 false).settings.jamLength + 1)) < 0 := by decide

theorem witness_JamIsRequestedOnce_merge :
    let s := { holed with belt := { holed.belt with position := 16001#32 } }
    s.station = .active ∧ RunLaw s ∧ (eyeOf .entry s).pendingEdge = some ⟨.covered, 90#32, 4⟩
      ∧ (eyeOf .entry s).mergePending.isSome = true ∧ (eyeOf .entry s).coveredSince = some 0#32
      ∧ (eyeOf .entry s).jamRequested = false
      ∧ 0 ≤ posDiff s.belt.position (posAdd 0#32 (s.settings.jamLength + 1)) :=
  ⟨rfl, by unfold RunLaw; decide, rfl, rfl, rfl, rfl, by decide⟩

/-- Eleven ON_BELT records with local numbers 0 to 10. -/
def eleven : List Record :=
  (List.range 11).map fun n => .piece (onBeltPiece (belted (BitVec.ofNat 8 n) 0#32))

theorem witness_ArrivalPairsOldestUnseen :
    let s := pendingAt .covered (eleven ++ [.piece (announcedPiece 9 2600), .piece (announcedPiece 9 500)])
    s.station = .active ∧ s.eyes.entry.pendingEdge = some ⟨.covered, 5#32, 4⟩
      ∧ s.eyes.entry.mergePending = none
      ∧ s.tracks = eleven ++ .piece (announcedPiece 9 2600) :: [.piece (announcedPiece 9 500)]
      ∧ (∀ r ∈ eleven, isUnseen r = false) ∧ isUnseen (.piece (announcedPiece 9 2600)) = true
      ∧ onBeltCount s.tracks < 12 := by decide

theorem witness_ArrivalWithoutRecordIsOrphan :
    let s := pendingAt .covered eleven
    s.station = .active ∧ s.eyes.entry.pendingEdge = some ⟨.covered, 5#32, 4⟩
      ∧ s.eyes.entry.mergePending = none ∧ (∀ r ∈ s.tracks, isUnseen r = false)
      ∧ onBeltCount s.tracks < 12 ∧ s.tracks.length < 24 := by decide

theorem witness_ArrivalBeyondTheLimitsIsOverrun :
    let s := pendingAt .covered (.piece (onBeltPiece (belted 11#8 0#32)) :: eleven)
    s.station = .active ∧ RunLaw s ∧ s.eyes.entry.pendingEdge = some ⟨.covered, 5#32, 4⟩
      ∧ s.eyes.entry.mergePending = none ∧ 12 ≤ onBeltCount s.tracks
      ∧ NoMarkerFirst (s.tracks.eraseP isUnseen) :=
  ⟨rfl, by unfold RunLaw; decide, rfl, rfl, by decide, marker_free_piece _ _⟩
theorem witness_ArrivalBeyondTheLimitsIsOverrun_list :
    let markers := List.replicate 23 (Record.marker 0#8 7#16)
    let s := pendingAt .covered (.piece (onBeltPiece (belted 11#8 0#32)) :: markers)
    s.station = .active ∧ RunLaw s ∧ s.tracks.any isUnseen = false ∧ 24 ≤ s.tracks.length
      ∧ NoMarkerFirst (s.tracks.eraseP isUnseen) :=
  ⟨rfl, by unfold RunLaw; decide, by decide, by decide, marker_free_piece _ _⟩

/-- A piece routed to EXIT and expected at 405: an edge at 5 lies at the tolerance of 400, and one at 4
beyond it. -/
def expected (ex : Pos) : State :=
  { live with
    tracks := [.piece (onBeltPiece { belted 10#8 0#32 with route := some .exit, exitPos := some ex })]
    eyes := { live.eyes with
      exit := { live.eyes.exit with raw := .covered, pendingEdge := some ⟨.covered, 5#32, 4⟩ } } }

theorem witness_ExitLeadingEdgeIsJudged_owned :
    let i := { belted 10#8 0#32 with route := some .exit, exitPos := some 405#32 }
    let s := expected 405#32
    s.station = .active ∧ s.eyes.exit.pendingEdge = some ⟨.covered, 5#32, 4⟩
      ∧ s.eyes.exit.mergePending = none ∧ exitCandidateOf s = some i ∧ i.exitPos = some 405#32
      ∧ (posDiff 5#32 405#32).natAbs ≤ s.settings.exitTol := by decide
theorem witness_ExitLeadingEdgeIsJudged_stray :
    let i := { belted 10#8 0#32 with route := some .exit, exitPos := some 406#32 }
    let s := expected 406#32
    s.station = .active ∧ s.eyes.exit.pendingEdge = some ⟨.covered, 5#32, 4⟩
      ∧ s.eyes.exit.mergePending = none ∧ exitCandidateOf s = some i ∧ i.exitPos = some 406#32
      ∧ s.settings.exitTol < (posDiff 5#32 406#32).natAbs := by decide

theorem witness_ConditionedInputStartsFilter :
    live.station = .active ∧ BayNo.b2.num ≤ live.settings.bayCount := by decide

/-! ### Planner and schedule -/

theorem sample_plan : planOf 0#8 sampleTable = some (planWith none 100 65535 (Four.all false) 10) := rfl

theorem witness_ResolutionEndsAtPlan :
    (sampleTable.map CategoryEntry.code).Nodup ∧ (∃ p, planOf 0 sampleTable = some p)
      ∧ (∃ p, planOf 17#8 sampleTable = some p) ∧ lookupCode sampleTable 200#8 = none
      ∧ (resolveCode 60#8 sampleTable).chainFault = true :=
  ⟨by decide, ⟨_, rfl⟩, ⟨_, rfl⟩, by decide, by decide⟩

/-- A link to a link to a PLAN, a link to an absent code, and four links. -/
def linkTable : List CategoryEntry :=
  [⟨0#8, 0, .plan (planWith none 100 65535 (Four.all false) 10)⟩, ⟨1#8, 0, .link 2#8⟩, ⟨2#8, 0, .link 0#8⟩,
    ⟨3#8, 0, .link 9#8⟩, ⟨4#8, 0, .link 4#8⟩]

theorem witness_ResolutionEndsAtPlan_links :
    FollowsLinks linkTable 1#8 [1#8, 2#8] 0#8 ∧ (∃ p, planOf 0#8 linkTable = some p)
      ∧ FollowsLinks linkTable 3#8 [3#8] 9#8 ∧ lookupCode linkTable 9#8 = none
      ∧ FollowsLinks linkTable 4#8 [4#8, 4#8, 4#8, 4#8] 4#8 := by
  refine ⟨⟨rfl, _, _, rfl, rfl, rfl, _, _, rfl, rfl, rfl⟩, ⟨_, rfl⟩, ⟨rfl, _, _, rfl, rfl, rfl⟩, by decide, ?_⟩
  exact ⟨rfl, _, _, rfl, rfl, rfl, _, _, rfl, rfl, rfl, _, _, rfl, rfl, rfl, _, _, rfl, rfl, rfl⟩

theorem witness_LowestQualifyingBayIsChosen : BayLaw live := live_bays

/-- Targets 1 and 2 are the two clauses' limits for an EMPTY bay. -/
theorem witness_ClaimAndReservation_empty :
    BayLaw live ∧ (1 : Nat) ≤ 1 ∧ (live.bays.get .b1).state = .empty := ⟨live_bays, le_refl _, rfl⟩
theorem witness_ClaimAndReservation_filling :
    let s := withBay (bayIn .filling 1 1 3)
    BayLaw s ∧ (s.bays.get .b1).state = .filling ∧ (s.bays.get .b1).target = some 3
      ∧ (s.bays.get .b1).landed + (s.bays.get .b1).reserved + 1 = 3 :=
  ⟨by intro b; cases b <;> (unfold BayOk; decide), rfl, rfl, rfl⟩

/-- A piece of 500 mm announced at 2,600 mm, the next record announced at 500 mm. -/
def misannounced : Work :=
  ⟨onBeltPiece (belted 10#8 0#32), { belted 10#8 0#32 with lengthP := some 2000, lengthMm := some 500 }, none⟩

theorem witness_SkipAheadTakesNextIdentity :
    let before := [Record.piece (onBeltPiece (belted 10#8 0#32))]
    let cand := announcedPiece 9 500
    let s := { live with tracks := before ++ [Record.piece cand] }
    let w := misannounced
    w.piece.announcedLen = some 2600 ∧ w.lmm * 64 < (128 - s.settings.tol) * 2600
      ∧ s.settings.tol * 2600 < ((w.lmm - 2600) + (2600 - w.lmm)) * 64
      ∧ s.tracks = before ++ Record.piece cand :: [] ∧ (∀ r ∈ before, isUnseen r = false)
      ∧ cand.stage = .announced 9 ∧ cand.announcedLen = some 500
      ∧ ((w.lmm - 500) + (500 - w.lmm)) * 64 ≤ s.settings.tol * 500
      ∧ (∀ r ∈ before.dropWhile (fun r => !hasLocal w.info.localNo r), isMarker r = false)
      ∧ NoMarkerFirst (before ++ []) :=
  ⟨rfl, by decide, by decide, rfl, by decide, rfl, rfl, by decide, by decide, marker_free_piece _ _⟩

/-- The work of the sheet of Chapter 6 at stage 5. -/
def folding (trail : Pos) (lp : Nat) : Work :=
  ⟨onBeltPiece (belted 10#8 1000000#32),
    { belted 10#8 1000000#32 with pTrail := some trail, lengthP := some lp },
    some (planWith (some ⟨.a, 128⟩) 1000 3000 (Four.all false) 20)⟩

/-- Chapter 6.9: at v 200 jet A folds 23,121 pulses, and 23,122 are late; a pending fire on the jet within
the guard refuses the fold that is not late. -/
theorem witness_KeptFoldIsInTimeAndGuarded :
    let w := folding 1023121#32 23121
    let late := folding 1023122#32 23122
    let due := jetDueOf live 1000000#32 .a 11561
    w.plan.isSome = true ∧ w.info.rejectReason = none ∧ (128 * w.lp + 128) / 256 = 11561
      ∧ ¬ IsLateAt live due (w.pNow live.settings)
      ∧ IsLateAt live (jetDueOf live 1000000#32 .a ((128 * late.lp + 128) / 256)) (late.pNow live.settings)
      ∧ ¬ JetIsBusy live .a due
      ∧ JetIsBusy { live with schedule := [{ dueEntry (.jetFire .a) with due := due }] } .a due := by
  refine ⟨rfl, rfl, by decide, by unfold IsLateAt; decide, by unfold IsLateAt; decide, ?_, ?_⟩
  · rintro ⟨e, h, -⟩; cases h
  · exact ⟨_, List.mem_singleton.2 rfl, rfl, by decide⟩

/-- The entry eye's confirmation key lies at the next pulse; piece 10 is under measurement behind piece 9. -/
def confirming (untracked : Bool) (tracks : List Record) : State :=
  { live with
    tracks := tracks
    eyes := { live.eyes with
      entry := { live.eyes.entry with mergePending := some (0#32 - 119#32), coveredSince := some 0#32 }
      untracked := untracked } }

theorem witness_PlanningCompletesTheRecord :
    let first := Record.piece (onBeltPiece { belted 9#8 0#32 with pTrail := some 5#32 })
    let i := belted 10#8 0#32
    let s := confirming false [first, .piece (onBeltPiece i), .piece (announcedPiece 9 2600)]
    s.station = .active ∧ s.eyes.entry.mergePending = some (0#32 - 119#32)
      ∧ 0 ≤ posDiff (s.belt.position + 1) (posAdd (0#32 - 119#32) s.settings.mergeGap) ∧ EyeWaits .exit s
      ∧ (∀ e ∈ s.schedule, posDiff (s.belt.position + 1) e.due < 0) ∧ s.eyes.untracked = false
      ∧ s.tracks = [first] ++ Record.piece (onBeltPiece i) :: [.piece (announcedPiece 9 2600)]
      ∧ (onBeltPiece i).stage = .onBelt i ∧ i.pTrail = none
      ∧ (∀ r ∈ [Record.piece (announcedPiece 9 2600)], beltOf r = none)
      ∧ (∀ r ∈ [first] ++ [Record.piece (announcedPiece 9 2600)], hasLocal i.localNo r = false)
      ∧ i.fold = none ∧ i.rejectReason = none ∧ isOnBelt first = true :=
  ⟨rfl, rfl, by decide, eye_waits rfl rfl, by decide, rfl, rfl, rfl, rfl, by decide, by decide, rfl, rfl, rfl⟩
theorem witness_PlanningCompletesTheRecord_none :
    (confirming true []).eyes.untracked = true ∧ (confirming false []).eyes.untracked = false
      ∧ ∀ r ∈ (confirming false []).tracks, beltOf r = none := by decide

theorem witness_PlannedEntriesAreDue :
    live.schedule = [] ∧ { misannounced.info with route := some (.bay .b1) }.route = some (.bay .b1)
      ∧ { misannounced.info with route := some .reject }.route = some .reject
      ∧ { misannounced.info with route := some .exit }.route = some .exit := ⟨rfl, rfl, rfl, rfl⟩

/-- Two entries, one due a pulse after the other. -/
def ordered : State :=
  { live with
    schedule := [⟨1#32, .gateOpen .reject, [1#8], 0, false⟩, ⟨3#32, .gateClose .reject, [1#8], 1, false⟩]
    nextSerial := 2 }

theorem witness_InsertionKeepsScheduleOrder :
    InOrder ordered.belt.position ordered.schedule ∧ SerialsOk ordered
      ∧ ∀ e ∈ ordered.schedule, -2147483648 < posDiff e.due ordered.belt.position := by
  refine ⟨?_, ⟨by decide, by decide⟩, by decide⟩
  unfold InOrder; decide

/-- An open due at 3 meets the close due at 3, and one at 4 does not. -/
theorem witness_GateIntervalsMerge :
    (∀ e ∈ ordered.schedule, e.action = .gateClose .reject → posDiff e.due 4#32 < 0)
      ∧ ordered.schedule =
          [⟨1#32, .gateOpen .reject, [1#8], 0, false⟩] ++ ⟨3#32, .gateClose .reject, [1#8], 1, false⟩ :: []
      ∧ 0 ≤ posDiff 3#32 3#32 := by decide

/-! ### Panel and bays -/

theorem witness_StopPressAddsOperator :
    live.station = .active ∧ RunLaw live ∧ LampLaw live ∧ live.stops.own = ReasonSet.none
      ∧ live.link.queue.length < 12 := ⟨rfl, live_run, live_lamp, rfl, by decide⟩

theorem witness_RunPressClearsReasons :
    stopped.station = .active ∧ stopped.panel.stop.level = false ∧ stopped.belt.run = false
      ∧ reasonsLeft stopped = ReasonSet.none ∧ stopped.link.queue.length < 12
      ∧ { stopped.panel with stop := held }.stop.level = true := by decide

theorem witness_SelectPressMovesSelection :
    live.station = .active ∧ live.panel.selected = none ∧ live.settings.bayCount ≤ 4
      ∧ BayNo.b1.num < live.settings.bayCount ∧ live.settings.bayCount ≤ BayNo.b2.num := by decide

theorem witness_HeightAndClosePressCloseBay :
    let s := { withBay (bayIn .filling 2 0 5) with panel := { live.panel with selected := some .b1 } }
    s.station = .active ∧ BayNo.b1.num ≤ s.settings.bayCount ∧ s.panel.selected = some .b1
      ∧ (s.bays.get .b1).state = .filling ∧ (s.bays.get .b1).reserved = 0 ∧ live.panel.selected = none := by
  decide

theorem witness_BayClearEmptiesAndFallsDoNothing :
    live.station = .active ∧ BayNo.b1.num ≤ live.settings.bayCount
      ∧ ((withBay (bayIn .discharging 2 0 5)).bays.get .b1).state = .discharging
      ∧ ((withBay (bayIn .closing 2 0 5)).bays.get .b1).state = .closing := by decide

theorem witness_ReleasesStopTheHold : live.station = .active := rfl

theorem witness_PurgeClearsTheBelt :
    let s := { stopped with
      tracks := eleven, panel := { stopped.panel with purgeHold := some ⟨2000, false⟩ } }
    s.station = .active ∧ s.panel.purgeHold = some ⟨2000, false⟩ ∧ s.panel.awaitStop = false
      ∧ s.panel.awaitRun = false := ⟨rfl, rfl, rfl, rfl⟩
theorem witness_PurgeClearsTheBelt_run :
    let s := { live with panel := { live.panel with purgeHold := some ⟨2000, true⟩ } }
    s.station = .active ∧ s.panel.purgeHold = some ⟨2000, true⟩ := ⟨rfl, rfl⟩

/-- A stopped station whose hold expires, RUN not released since the last purge. -/
def holdingOn (awaited : Bool) : State :=
  { stopped with
    tracks := eleven
    panel := { stopped.panel with purgeHold := some ⟨2000, false⟩, awaitRun := awaited } }

/-- R153: "A further purge needs both buttons to be released and pressed again." -/
theorem test_further_purge_needs_release :
    exec .purgeHoldExpiry (holdingOn true) = .next { holdingOn true with
        panel := { (holdingOn true).panel with purgeHold := none } }
      ∧ ∃ t, exec .purgeHoldExpiry (holdingOn false) = .next t ∧ t.tracks = [] ∧ t.panel.awaitStop = true :=
  ⟨rfl, _, rfl, by decide +kernel, rfl⟩

/-- Windows of 1 and 2 ms: the first runs out at the tick. -/
theorem witness_WindowsRunOutAsGhosts_tick :
    live.station = .active ∧ live.belt.run = true ∧ stopped.belt.run = false := by decide
theorem witness_WindowsRunOutAsGhosts_ghost :
    let before := [Record.piece (announcedPiece 1 0)]
    let s := { live with tracks := before ++ [Record.piece (announcedPiece 0 0), .piece (announcedPiece 0 9)] }
    s.station = .active ∧ s.tracks = before ++ Record.piece (announcedPiece 0 0) :: [.piece (announcedPiece 0 9)]
      ∧ (∀ r ∈ before, windowOf r ≠ some 0) ∧ windowOf (.piece (announcedPiece 0 0)) = some 0
      ∧ NoMarkerFirst (before ++ [Record.piece (announcedPiece 0 9)]) :=
  ⟨rfl, rfl, by decide, rfl, marker_free_piece _ _⟩
theorem witness_WindowsRunOutAsGhosts_none : ∀ r ∈ live.tracks, windowOf r ≠ some 0 := by decide

theorem witness_PulseExpiriesTurnOutputsOff :
    live.outputs.jetA.timer = none ∧ (⟨true, some 40⟩ : PulseOut).timer.isSome = true
      ∧ (live.pushers.get .b3).timer = none := by decide

theorem witness_BayTimersEmptyDischargeOrBlock_settle :
    let y := { bayIn .closing 1 0 5 with settle := some 500, reason := some .target }
    let s := withBay y
    s.station = .active ∧ BayNo.b1.num ≤ s.settings.bayCount ∧ (s.bays.get .b1).state = .closing
      ∧ (s.bays.get .b1).settle.isSome = true ∧ 0 < (s.bays.get .b1).landed
      ∧ (s.bays.get .b1).lot = some 7#16 ∧ (s.bays.get .b1).planCode = some 17#8
      ∧ (s.bays.get .b1).reason = some .target ∧ s.link.queue.length ≤ 10
      ∧ ((withBay { y with landed := 0 }).bays.get .b1).landed = 0 := by decide
theorem witness_BayTimersEmptyDischargeOrBlock_timeout :
    let s := withBay { bayIn .discharging 2 0 5 with discharge := some 10 }
    s.station = .active ∧ (s.bays.get .b1).state = .discharging
      ∧ (s.bays.get .b1).discharge.isSome = true ∧ (live.bays.get .b1).settle = none
      ∧ (live.bays.get .b1).discharge = none := by decide

/-- A counter of STACKED, lot by lot; 16,777,214 takes one more, 16,777,215 none. -/
theorem witness_CountersCountAndLatch :
    let c := { Counter.unused with event := some .stacked, perLot := true, oneCode := some 17#8 }
    c.event = some .stacked ∧ c.event ≠ some .passed ∧ c.oneCode = some 17#8 ∧ (17#8 : Code) ≠ 18#8
      ∧ c.countingLot = none ∧ { c with countingLot := some 7#16 }.countingLot = some 7#16
      ∧ { c with value := 16777214 }.value + 1 ≤ 16777215
      ∧ 16777215 < { c with value := 16777215 }.value + 1
      ∧ { c with perLot := false, oneCode := none }.oneCode = none := by decide

theorem witness_DisplayShowsFirstCondition :
    State.reset.station = .loading ∧ live.station ≠ .loading ∧ live.stops.own = ReasonSet.none
      ∧ live.stops.others = [] ∧ live.belt.speedHigh = false ∧ live.panel.selected = none
      ∧ stopped.stops.own ≠ ReasonSet.none ∧ stopped.stops.others = 9 :: []
      ∧ { live with station := .fault 17 }.station = .fault 17
      ∧ ((withBay (bayIn .filling 9 0 99)).bays.get .b1).landed < 10
      ∧ 10 ≤ ((withBay (bayIn .filling 10 0 99)).bays.get .b1).landed := by decide

/-! ### The line -/

theorem live_hears (n : BitVec 5) (h : 1 ≤ n.toNat ∧ n.toNat ≤ 30 ∧ n.toNat ≠ 3) : Hears live n :=
  ⟨rfl, Or.inl rfl, h.1, h.2.1, h.2.2⟩

theorem witness_StopAndRunFramesFileTheSender : Hears live 1#5 ∧ Hears live 30#5 ∧ RunLaw live :=
  ⟨live_hears _ (by decide), live_hears _ (by decide), live_run⟩

theorem witness_StartFrameForgetsThePeer :
    Hears live 2#5 ∧ Hears live 4#5 ∧ Hears live 9#5
      ∧ live.settings.upstream ≠ live.settings.downstream ∧ (2#5 : BitVec 5).toNat = live.settings.upstream
      ∧ (4#5 : BitVec 5).toNat = live.settings.downstream :=
  ⟨live_hears _ (by decide), live_hears _ (by decide), live_hears _ (by decide), by decide, by decide,
    by decide⟩

/-- The sequence check at its limits, for an expected seq of 250: d 0, 8, 9, 254 and 255. -/
theorem witness_AnnounceRunsSequenceCheck :
    Hears live 2#5 ∧ (2#5 : BitVec 5).toNat = live.settings.upstream ∧ NoMarkerFirst live.tracks
      ∧ ((250#8 : Seq) - 250#8).toNat = 0 ∧ ((2#8 : Seq) - 250#8).toNat = 8
      ∧ ((3#8 : Seq) - 250#8).toNat = 9 ∧ ((248#8 : Seq) - 250#8).toNat = 254
      ∧ ((249#8 : Seq) - 250#8).toNat = 255 ∧ live.tracks.length + 8 < 24 :=
  ⟨live_hears _ (by decide), by decide, marker_free_nil, by decide, by decide, by decide, by decide,
    by decide, by decide⟩

theorem witness_LotEndFilesOrProcessesMarker_empty :
    Hears live 2#5 ∧ (2#5 : BitVec 5).toNat = live.settings.upstream ∧ live.link.expectedSeq = none
      ∧ live.tracks = [] ∧ live.settings.settle ≠ 0 ∧ live.settings.downstream ≠ 0
      ∧ live.link.queue.length ≤ 10 :=
  ⟨live_hears _ (by decide), by decide, rfl, rfl, by decide, by decide, by decide⟩
theorem witness_LotEndFilesOrProcessesMarker_filed :
    let r := Record.piece (onBeltPiece (belted 10#8 0#32))
    let s := withPiece (belted 10#8 0#32)
    s.station = .active ∧ s.tracks = r :: [] ∧ isMarker r = false ∧ s.tracks.length < 24 := by decide

theorem witness_PaceFrameSetsAndRelays :
    Hears live 4#5 ∧ (4#5 : BitVec 5).toNat = live.settings.downstream ∧ live.link.queue.length < 12
      ∧ live.pace.paceOut = min (max live.pace.paceIn live.pace.paceOwn) 5000 :=
  ⟨live_hears _ (by decide), by decide, by decide, by decide⟩

/-- A free bay, an empty queue and an empty belt: nothing is crowded. -/
theorem witness_PaceLaw : PaceLaw live := by
  have h : ¬ Crowded live := by
    rintro (h | h | ⟨-, h⟩)
    · exact absurd h (by decide)
    · exact absurd h (by decide)
    · exact absurd (h .b1 (by decide)) (by decide)
  exact fun _ => ⟨fun hc => absurd hc h, fun _ => rfl, by decide⟩

/-- Each item with an index at an end of its range. -/
theorem witness_TallyQueryIsAnswered :
    Hears live 1#5 ∧ (3#8 : Byte).toNat = live.settings.station ∧ live.link.queue.length < 12
      ∧ live.tally.counters[(3#8 : Byte).toNat]? = some Counter.unused
      ∧ { Counter.unused with latch := some ⟨4, false, 11#16⟩ }.latch = some ⟨4, false, 11#16⟩
      ∧ (lookupCode live.table 72#8).isSome = true ∧ lookupCode live.table 73#8 = none
      ∧ (2#8 : Byte).toNat = BayNo.b2.num ∧ BayNo.b2.num ≤ live.settings.bayCount
      ∧ live.settings.bayCount < (3#8 : Byte).toNat :=
  ⟨live_hears _ (by decide), by decide, by decide, rfl, rfl, by decide, by decide, by decide, by decide,
    by decide⟩

theorem witness_PassedOverFramesChangeNothing :
    live.station = .active ∧ live.link.line = .idle ∧ (3#5 : BitVec 5).toNat = live.settings.station
      ∧ (30#5 : BitVec 5).toNat ≤ 30 ∧ (1#5 : BitVec 5).toNat ≠ live.settings.upstream
      ∧ (1#5 : BitVec 5).toNat ≠ live.settings.downstream ∧ (9#8 : Byte).toNat ≠ live.settings.station := by
  decide

/-- A mark read recessive fails as LINK_CHECK, a body length of 13 as LINK_FORMAT. -/
theorem witness_DamagedFrameIsCountedOnce :
    judgeBits (List.replicate 9 true) = .linkCheck
      ∧ judgeBits ([false, false, false, true, false, false, false, false, false, true, true, true, false,
          true]) = .linkFormat
      ∧ live.station = .active ∧ live.link.line = .idle ∧ State.reset.station ≠ .active := by decide

/-- The live station with frames in the queue. -/
def queued (q : List QFrame) (inFlight : Option QFrame) (line : LineView) : State :=
  { live with link := { live.link with queue := q, nextAge := 20, inFlight := inFlight, line := line } }

theorem witness_FramesStartAndComeBack :
    let f : QFrame := ⟨.run, 1⟩
    (queued [f] none .idle).station = .active ∧ (queued [f] none .idle).link.line = .idle
      ∧ (queued [f] none .idle).link.queue = f :: [] ∧ live.link.queue = []
      ∧ (queued [f] (some f) .sending).link.line = .sending ∧ live.link.line ≠ .sending
      ∧ live.link.line ≠ .following ∧ (queued [] none .following).link.line = .following := by decide

/-- R168: "10 recessive bit times before the frame is complete" discards it, counted LINK_CHECK. -/
theorem test_idle_cuts_a_followed_frame :
    ∃ t, exec .lineIdle (queued [] none .following) = .next t ∧ t.link.line = .idle
      ∧ t.tally.counts.linkCheck = 1 := ⟨_, rfl, rfl, by decide⟩

/-- RUN in flight, behind it a LOT_END that stays. -/
theorem witness_SentFrameLeavesTheQueue :
    let f : QFrame := ⟨.run, 1⟩
    let g : QFrame := ⟨.lotEnd 1#8 7#16, 0⟩
    let s := queued [f, g] (some f) .sending
    s.station = .active ∧ s.link.line = .sending ∧ s.link.inFlight = some f
      ∧ (s.link.queue.filter fun x => x.age != f.age).countP (fun x => frameGroup x.body == .kept) =
          s.link.queue.countP (fun x => frameGroup x.body == .kept)
      ∧ g ∈ s.link.queue ∧ g.age ≠ f.age ∧ frameGroup g.body ≠ .pace ∧ s.link.queue.length < 12 := by
  decide

/-- Twelve LOT_END frames, the newest of age 11. -/
def twelve : List QFrame := (List.range 12).map fun n => ⟨.lotEnd (BitVec.ofNat 8 n) 7#16, n⟩

/-- Eleven of them and a TALLY behind. -/
def elevenAndTally : List QFrame := twelve.take 11 ++ [⟨.tally 1#8 1#8 0#32 0#8, 15⟩]

theorem witness_FullQueueJoinsByGroup :
    twelve.length = 12 ∧ elevenAndTally.length = 12
      ∧ (∀ x ∈ twelve, frameGroup x.body = frameGroup (.stop 1#8) → isCoalesced .stopRun = false)
      ∧ (∀ x ∈ elevenAndTally, frameGroup x.body = frameGroup (.pace 0#16) → isCoalesced .pace = false)
      ∧ (∀ x ∈ twelve, frameGroup x.body ≠ .tally) ∧ (∀ y ∈ twelve, y.age ≤ 11)
      ∧ (⟨.lotEnd 11#8 7#16, 11⟩ : QFrame) ∈ twelve := by decide

theorem witness_FrameBitsReadBack :
    1 ≤ (1#5 : BitVec 5).toNat ∧ (30#5 : BitVec 5).toNat ≤ 30 := by decide

/-! ### The laws -/

/-- The live station meets every law and runs a command. -/
theorem witness_laws : RunLaw live ∧ LampLaw live ∧ CountLaw live ∧ RecordLaw live ∧ BayLaw live
    ∧ QueueLaw live ∧ LineLaw live ∧ OthersLaw live ∧ InactiveLaw live
    ∧ ∃ t, step { live with pending := [.stopPress] } = .next t := by
  refine ⟨live_run, live_lamp, by unfold CountLaw; decide, by unfold RecordLaw RecordsOk; decide, live_bays,
    ?_, by unfold LineLaw; decide, by unfold OthersLaw; decide, fun h => absurd rfl h, _, rfl⟩
  exact ⟨by decide, List.Pairwise.nil, by decide, by decide, by intro f h; cases h⟩

/-- LOADING with a good image waiting steps into ACTIVE; with RESTART alone standing, a RUN press takes it
away while the station stays ACTIVE. -/
theorem witness_OutputsFollowTheirConditions :
    (∃ t, step { State.reset with pending := [.loadComplete (image sampleBytes 0#8)] } = .next t
        ∧ State.reset.station ≠ .active ∧ t.station = .active)
      ∧ (let s := { live with
          stops := ⟨insertReason ReasonSet.none .restart, []⟩, pending := [.runPress] }
        ∃ t, step s = .next t ∧ s.station = .active ∧ hasReason s.stops.own .restart = true
          ∧ t.station = .active ∧ hasReason t.stops.own .restart = false) := by
  refine ⟨?_, _, rfl, by decide⟩
  obtain ⟨c, table, map, counters, h, -⟩ := sample_loads
  refine ⟨enterActive c table map counters State.reset, ?_, by decide, ?_⟩
  · simp only [step, exec, execLoadComplete, h]
    exact if_pos rfl
  · have h1 := evalPace_keeps (addReason .restart (askRaw (startFrameOf c)
      (startBlocks c table map counters State.reset)))
    rw [enterActive, h1 .station (by decide), addReason_keeps _ .restart .station (by decide),
      askRaw_keeps _ _ .station (by decide)]
    rfl

theorem witness_TableLaw : TableLaw live := by
  refine ⟨by decide, by decide, ?_, fun _ => ⟨_, sample_plan⟩⟩
  intro e he
  simp only [live, sampleTable, List.mem_cons, List.not_mem_nil, or_false] at he
  rcases he with rfl | rfl | rfl | rfl | rfl | rfl | rfl | rfl | rfl | rfl <;>
    (refine ⟨by decide, ?_⟩; intro p hp; simp [planWith] at hp) <;> (subst hp; simp)

/-- An idle LOADING station meets the law of the inactive ones, and a command runs there. -/
theorem witness_InactiveLaw : InactiveLaw State.reset ∧ State.reset.station ≠ .active
    ∧ ∃ t, step { State.reset with pending := [.encoderPulse] } = .next t :=
  ⟨fun _ => rfl, by decide, _, rfl⟩

end Sys2Proof.Tests
end

section
/-! SUPPORT. The belt-run output and the lamp along a step (R13, R179). `Follows s t`: t stands in the
station state of s, meets the two laws where s does, and still holds RESTART where s does. Every shared
operation is such a change; what is left are reset, the two ends of a load and a press of RUN. -/

namespace Sys2Proof.Machine

variable {s t u : State}

/-! ## The two laws in the model's own terms -/

theorem runWanted_iff (s : State) : runWanted s = true ↔
    s.station = .active ∧ s.stops.own = ReasonSet.none ∧ s.stops.others = [] := by
  simp [runWanted, isActive, noReason, and_assoc]

theorem anyBlocked_iff (s : State) : anyBlocked s = true ↔
    ∃ b : BayNo, b.num ≤ s.settings.bayCount ∧ (s.bays.get b).state = .blocked := by
  have hall : ∀ b : BayNo, b ∈ BayNo.all := by intro b; cases b <;> decide
  simp [anyBlocked, hall]

theorem lampWanted_iff (s : State) : lampWanted s = true ↔ s.station = .active ∧
    (s.stops.own ≠ ReasonSet.none
      ∨ (∃ b : BayNo, b.num ≤ s.settings.bayCount ∧ (s.bays.get b).state = .blocked)
      ∨ s.belt.speedHigh = true) := by
  rw [← anyBlocked_iff]
  simp [lampWanted, isActive, noReason, or_assoc]

theorem runLaw_iff (s : State) : RunLaw s ↔ s.belt.run = runWanted s := by
  rw [RunLaw, ← runWanted_iff]; exact Bool.eq_iff_iff.symm

theorem lampLaw_iff (s : State) : LampLaw s ↔ s.panel.lamp = lampWanted s := by
  rw [LampLaw, ← lampWanted_iff]; exact Bool.eq_iff_iff.symm

theorem RunLaw.run_off (h : RunLaw s) {r : StopReason} (hr : hasReason s.stops.own r = true) :
    s.belt.run = false :=
  Bool.eq_false_iff.2 fun hon => ne_none_of_hasReason hr (h.1 hon).2.1

/-- Outside ACTIVE both laws ask for outputs that are off. -/
theorem laws_of_inactive (ha : s.station ≠ .active) (hrun : s.belt.run = false)
    (hlamp : s.panel.lamp = false) : RunLaw s ∧ LampLaw s :=
  ⟨by simp [RunLaw, ha, hrun], by simp [LampLaw, ha, hlamp]⟩

/-! ## What the laws read -/

/-- What the two outputs and their conditions are made of. -/
def watched (s : State) :
    Station × Nat × (BayNo → BayState) × ReasonSet × List Nat × Bool × Bool × Bool :=
  (s.station, s.settings.bayCount, fun b => (s.bays.get b).state, s.stops.own, s.stops.others,
    s.belt.speedHigh, s.belt.run, s.panel.lamp)

/-- The parts of State from which `watched` reads. -/
def watchedParts : List Part := [.station, .settings, .bays, .own, .others, .high, .run, .lamp]

theorem KeepsBut.watched {ps : List Part} (h : KeepsBut ps s t) (hp : ∀ p ∈ watchedParts, p ∉ ps) :
    watched t = watched s := by
  have hstation : t.station = s.station := h .station (hp _ (by decide))
  have hsettings : t.settings = s.settings := h .settings (hp _ (by decide))
  have hbays : t.bays = s.bays := h .bays (hp _ (by decide))
  have hown : t.stops.own = s.stops.own := h .own (hp _ (by decide))
  have hothers : t.stops.others = s.stops.others := h .others (hp _ (by decide))
  have hrun : t.belt.run = s.belt.run := h .run (hp _ (by decide))
  have hlamp : t.panel.lamp = s.panel.lamp := h .lamp (hp _ (by decide))
  obtain ⟨-, -, hhigh⟩ := h .high (hp _ (by decide))
  simp only [Machine.watched, hstation, hsettings, hbays, hown, hothers, hrun, hlamp, hhigh]

/-! ## Changes the outputs follow -/

/-- The station state stands, the two laws are kept, and RESTART is not taken away. -/
structure Follows (s t : State) : Prop where
  station : t.station = s.station
  run : RunLaw s → RunLaw t
  lamp : LampLaw s → LampLaw t
  restart : hasReason s.stops.own .restart = true → hasReason t.stops.own .restart = true

theorem Follows.of_watched (h : watched t = watched s) : Follows s t := by
  simp only [watched, Prod.mk.injEq] at h
  obtain ⟨hstation, hcount, hbays, hown, hothers, hhigh, hrun, hlamp⟩ := h
  have hstate : ∀ b, (t.bays.get b).state = (s.bays.get b).state := congrFun hbays
  refine ⟨hstation, ?_, ?_, ?_⟩
  · simp only [RunLaw, hrun, hstation, hown, hothers, imp_self]
  · simp only [LampLaw, hlamp, hstation, hown, hcount, hstate, hhigh, imp_self]
  · simp only [hown, imp_self]

theorem Follows.of_keeps {ps : List Part} (h : KeepsBut ps s t)
    (hp : ∀ p ∈ watchedParts, p ∉ ps) : Follows s t := .of_watched (h.watched hp)

theorem Follows.refl (s : State) : Follows s s := .of_watched rfl

theorem Follows.trans (h1 : Follows s t) (h2 : Follows t u) : Follows s u where
  station := h2.station.trans h1.station
  run := h2.run ∘ h1.run
  lamp := h2.lamp ∘ h1.lamp
  restart := h2.restart ∘ h1.restart

/-- The later change first, so that it fixes the state between. -/
theorem Follows.after (h2 : Follows t u) (h1 : Follows s t) : Follows s u := h1.trans h2

/-- A change behind one that the laws do not read. -/
theorem Follows.behind (h : Follows t u) (h1 : watched t = watched s) : Follows s u :=
  (Follows.of_watched h1).trans h

/-- A change made under a condition. -/
theorem Follows.ite {c : Prop} [Decidable c] (h : Follows s t) : Follows s (if c then t else s) := by
  split
  · exact h
  · exact .refl s

theorem Follows.foldl {α : Type} {f : State → α → State} (h : ∀ s a, Follows s (f s a))
    (l : List α) : ∀ s, Follows s (l.foldl f s) := by
  induction l with
  | nil => exact .refl
  | cons a l ih => exact fun s => (h s a).trans (ih _)

/-- The lamp brought up to date behind any change that leaves the stops and the belt-run output. -/
theorem followLamp_follows (hstation : t.station = s.station) (hown : t.stops.own = s.stops.own)
    (hothers : t.stops.others = s.stops.others) (hrun : t.belt.run = s.belt.run) :
    Follows s (followLamp t) where
  station := hstation
  run hl := by simpa only [RunLaw, followLamp, hstation, hown, hothers, hrun] using hl
  lamp _ := (lampLaw_iff _).2 rfl
  restart hr := by simpa only [followLamp, hown] using hr

variable (s)

/-! ## The stop sets -/

/-- A replacement of the stop sets brings both outputs to their conditions, however they stood. -/
theorem setStops_laws (st : Stops) : RunLaw (setStops st s) ∧ LampLaw (setStops st s) :=
  ⟨(runLaw_iff _).2 ((followRun_run _).trans (by simp [setStops, followLamp, runWanted, isActive])),
    (lampLaw_iff _).2 rfl⟩

theorem setStops_follows {st : Stops}
    (h : hasReason s.stops.own .restart = true → hasReason st.own .restart = true) :
    Follows s (setStops st s) where
  station := setStops_keeps s st .station (by decide)
  run _ := (setStops_laws s st).1
  lamp _ := (setStops_laws s st).2
  restart hr := by rw [setStops_stops]; exact h hr

theorem askFrame_follows (body : FrameBody) : Follows s (askFrame body s) :=
  .of_keeps (askFrame_keeps s body) (by decide)

theorem evalPace_follows : Follows s (evalPace s) := .of_keeps (evalPace_keeps s) (by decide)

theorem insertReason_keeps_restart {r : ReasonSet} (x : StopReason) (h : hasReason r .restart = true) :
    hasReason (insertReason r x) .restart = true := by
  cases x with
  | restart => rfl
  | _ => exact h

/-- A reason that was absent brings both outputs to their conditions, however they stood. -/
theorem addReason_laws_of_absent {r : StopReason} (h : hasReason s.stops.own r = false) :
    RunLaw (addReason r s) ∧ LampLaw (addReason r s) := by
  have hlaws := setStops_laws s { s.stops with own := insertReason s.stops.own r }
  unfold addReason
  rw [if_neg (by simp [h])]
  dsimp only; split
  · exact ⟨(askFrame_follows _ _).run hlaws.1, (askFrame_follows _ _).lamp hlaws.2⟩
  · exact hlaws

theorem addReason_follows (r : StopReason) : Follows s (addReason r s) := by
  unfold addReason; dsimp only; split
  · exact .refl s
  · have hset : Follows s (setStops { s.stops with own := insertReason s.stops.own r } s) :=
      setStops_follows s (insertReason_keeps_restart r)
    split
    · exact (askFrame_follows _ _).after hset
    · exact hset

/-! ## The bays -/

/-- A bay's record replaced by one in the same bay state. -/
theorem setBay_follows {b : BayNo} {x : Bay} (hx : x.state = (s.bays.get b).state) :
    Follows s { s with bays := s.bays.set b x } := by
  have hstate : ∀ c, ((s.bays.set b x).get c).state = (s.bays.get c).state := by
    intro c; rw [Four.get_set]; split
    next hc => rw [hx, hc]
    next => rfl
  exact .of_watched (by simp only [watched, hstate])

/-- Where the bay state changes the lamp is brought up to date (R179). -/
theorem putBay_follows (b : BayNo) (x : Bay) : Follows s (putBay b x s) := by
  unfold putBay; dsimp only; split
  next hx => exact setBay_follows s hx
  next =>
    have hk := evalPace_keeps { s with bays := s.bays.set b x }
    exact followLamp_follows (hk .station (by decide)) (hk .own (by decide)) (hk .others (by decide))
      (hk .run (by decide))

theorem discharge_follows (b : BayNo) : Follows s (discharge b s) :=
  (putBay_follows _ _ _).after ((askFrame_follows _ _).after (.of_keeps (pushOut_keeps s b) (by decide)))

theorem settleExpire_follows (b : BayNo) : Follows s (settleExpire b s) := by
  unfold settleExpire; split
  · exact putBay_follows _ _ _
  · exact discharge_follows s b

theorem startSettle_follows (b : BayNo) : Follows s (startSettle b s) := by
  unfold startSettle; split
  · exact settleExpire_follows s b
  · exact putBay_follows _ _ _

/-- A bay's record is replaced, and in one case its settle timer starts behind: the shape of a closing, a
landing and a purge. -/
theorem putBay_settle_follows (b : BayNo) (x : Bay) (c : Prop) [Decidable c] :
    Follows s (if c then startSettle b (putBay b x s) else putBay b x s) := by
  split
  · exact (startSettle_follows _ b).after (putBay_follows s b x)
  · exact putBay_follows s b x

theorem closeBay_follows (b : BayNo) (r : CloseReason) : Follows s (closeBay b r s) :=
  .ite (putBay_settle_follows s b _ _)

theorem landPiece_follows (b : BayNo) : Follows s (landPiece b s) :=
  .ite (putBay_settle_follows s b _ _)

theorem purgeBay_follows (b : BayNo) : Follows s (purgeBay b s) :=
  .ite (putBay_settle_follows s b _ _)

theorem closeLotBay_follows (lot : Lot) (b : BayNo) : Follows s (closeLotBay lot b s) :=
  .ite (closeBay_follows s b _)

theorem closeLot_follows (lot : Lot) : Follows s (closeLot lot s) :=
  (((closeLotBay_follows s lot .b1).trans (closeLotBay_follows _ lot .b2)).trans
    (closeLotBay_follows _ lot .b3)).trans (closeLotBay_follows _ lot .b4)

theorem clearBay_follows (b : BayNo) : Follows s (clearBay b s) := .ite (putBay_follows s b _)

/-! ## Markers and fates -/

theorem setTally_follows (x : Tally) : Follows s { s with tally := x } := .of_watched rfl

theorem setTracks_follows (xs : List Record) : Follows s (setTracks xs s) := .of_watched rfl

theorem processMarker_follows (lot : Lot) : Follows s (processMarker lot s) := by
  unfold processMarker; dsimp only
  refine Follows.after (.of_keeps (queueHandover_keeps _ _) (by decide)) ?_
  exact (closeLot_follows s lot).trans (setTally_follows _ _)

theorem processHeads_follows (n : Nat) : ∀ s, Follows s (processHeads n s) := by
  induction n with
  | zero => exact .refl
  | succ n ih =>
    intro s; unfold processHeads; split
    next _ lot _ _ => exact (ih _).after ((setTracks_follows _ _).after (processMarker_follows s lot))
    next => exact .refl s

theorem lookAtHead_follows : Follows s (lookAtHead s) := processHeads_follows _ s

theorem endPiece_follows (f : Fate) (n : LocalNo) : Follows s (endPiece f n s) := by
  unfold endPiece; split
  · exact .refl s
  · exact (lookAtHead_follows _).after (Follows.behind (.of_keeps (takeOut_keeps _ _) (by decide)) rfl)

theorem stackPiece_follows (b : BayNo) (n : LocalNo) : Follows s (stackPiece b n s) := by
  unfold stackPiece; split
  · exact .refl s
  · exact (endPiece_follows _ _ _).after (landPiece_follows s b)

theorem passPiece_follows (n : LocalNo) : Follows s (passPiece n s) := by
  unfold passPiece; split
  · exact .refl s
  · exact (endPiece_follows _ _ _).after (.of_keeps (queueHandover_keeps _ _) (by decide))

/-! ## The schedule -/

theorem setGate_follows (g : Gate) (o : Bool) : Follows s (setGate g o s) := by
  cases g <;> exact .of_watched rfl

theorem closeFate_follows (g : Gate) (n : LocalNo) : Follows s (closeFate g s n) := by
  cases g
  case bay b => exact stackPiece_follows s b n
  case reject => exact endPiece_follows s _ n

theorem checkExit_follows (n : LocalNo) : Follows s (checkExit s n) := by
  unfold checkExit; split
  · split
    · exact .refl s
    · exact endPiece_follows s _ n
  · exact .refl s

theorem fireEntry_follows (e : SchedEntry) : Follows s (fireEntry e s) := by
  unfold fireEntry; split
  next j _ => cases j <;> exact .of_watched rfl
  next => exact setGate_follows _ _ _
  next g _ => exact (Follows.foldl (fun s n => closeFate_follows s g n) _ _).after (setGate_follows _ _ _)
  next => exact Follows.foldl checkExit_follows _ _

theorem fireReached_follows (n : Nat) : ∀ s, Follows s (fireReached n s) := by
  induction n with
  | zero => exact .refl
  | succ n ih =>
    intro s; unfold fireReached; split
    · exact .refl s
    · split
      · exact (ih _).after ((fireEntry_follows _ _).behind rfl)
      · exact .refl s

theorem fireSchedule_follows : Follows s (fireSchedule s) := fireReached_follows _ s

/-! ## Planning and arrival -/

theorem claimBay_follows (b : BayNo) (lot : Lot) (c : Code) (n : Nat) :
    Follows s (claimBay b lot c n s) := .ite (putBay_follows s b _)

theorem reserveBay_follows (b : BayNo) : Follows s (reserveBay b s) := by
  unfold reserveBay; dsimp only; split <;> exact putBay_follows _ _ _

theorem stageJudge_follows (w : Work) : Follows s (stageJudge w s).2 := by
  unfold stageJudge; split
  · exact .refl s
  · split
    · exact .refl s
    · split
      · exact .refl s
      · split
        · split
          · exact (lookAtHead_follows _).behind rfl
          · exact .of_watched rfl
        · exact .refl s

theorem stageRoute_follows (w : Work) : Follows s (stageRoute w s).2 := by
  unfold stageRoute; split
  · exact .refl s
  · split
    · exact .refl s
    · dsimp only; split
      · exact (reserveBay_follows _ _).after (claimBay_follows _ _ _ _ _)
      · exact .refl s

theorem planStages_follows (w : Work) : Follows s (planStages w s) := by
  unfold planStages; dsimp only
  refine Follows.trans (t := stageInsert _ _) ?_ (.of_watched rfl)
  refine Follows.after (.of_keeps (stageInsert_keeps _ _) (by decide)) ?_
  refine (stageRoute_follows _ _).after ?_
  refine Follows.after (.of_keeps (stageFold_keeps _ _) (by decide)) ?_
  exact Follows.after (.of_keeps (stageResolve_keeps _ _) (by decide)) (stageJudge_follows _ _)

theorem planPiece_follows (p : Pos) : Follows s (planPiece p s) := by
  unfold planPiece; split
  · exact .refl s
  · exact planStages_follows _ _

theorem consumeOldest_follows : Follows s (consumeOldest s) :=
  .ite ((lookAtHead_follows _).behind rfl)

theorem overrun_follows : Follows s (overrun s) :=
  (addReason_follows _ _).after ((consumeOldest_follows s).trans (.of_watched rfl))

theorem arrive_follows (p : Pos) : Follows s (arrive p s) := by
  unfold arrive; dsimp only; split
  · exact overrun_follows s
  · split
    · exact (evalPace_follows _).behind rfl
    · split
      · exact overrun_follows s
      · exact (evalPace_follows _).behind rfl

/-! ## Eyes, pulses and windows -/

theorem putEye_follows (e : Eye) (ch : EyeChannel) : Follows s (putEye e ch s) := by
  cases e <;> exact .of_watched rfl

theorem testJam_follows (e : Eye) : Follows s (testJam e s) := by
  unfold testJam; dsimp only; split
  · exact .refl s
  · split
    · exact (addReason_follows _ _).after (putEye_follows _ _ _)
    · exact .refl s

theorem judgeExit_follows (q : Pos) : Follows s (judgeExit q s) := by
  unfold judgeExit; split
  · exact .of_watched rfl
  · split <;> exact .of_watched rfl

theorem reportLeading_follows (e : Eye) (q : Pos) : Follows s (reportLeading e q s) := by
  cases e
  · exact arrive_follows s q
  · exact judgeExit_follows s q

theorem leadingEdge_follows (e : Eye) (q : Pos) : Follows s (leadingEdge e q s) := by
  unfold leadingEdge; dsimp only; split
  · exact (testJam_follows _ _).after (putEye_follows _ _ _)
  · exact (reportLeading_follows _ _ _).after (putEye_follows _ _ _)

theorem recogniseEdge_follows (e : Eye) (p : PendingEdge) : Follows s (recogniseEdge e p s) := by
  unfold recogniseEdge; dsimp only; split
  · exact (leadingEdge_follows _ _ _).after (putEye_follows _ _ _)
  · exact putEye_follows _ _ _

theorem confirmEntry_follows (p : Pos) : Follows s (confirmEntry p s) := by
  unfold confirmEntry; split
  · exact .of_watched rfl
  · exact planPiece_follows s p

theorem passOwned_follows : Follows s (passOwned s) := by
  unfold passOwned; split
  · exact passPiece_follows s _
  · exact .refl s
  · exact .refl s

theorem reportConfirmed_follows (e : Eye) (p : Pos) : Follows s (reportConfirmed e p s) := by
  cases e
  · exact confirmEntry_follows s p
  · exact (passOwned_follows s).trans (.of_watched rfl)

theorem testConfirm_follows (e : Eye) : Follows s (testConfirm e s) := by
  unfold testConfirm; dsimp only; split
  · exact .refl s
  · split
    · exact (reportConfirmed_follows _ _ _).after (putEye_follows _ _ _)
    · exact .refl s

theorem testEyeKeys_follows (e : Eye) : Follows s (testEyeKeys e s) :=
  (testConfirm_follows s e).trans (testJam_follows _ e)

theorem reachKeys_follows (o : PulseOrder) : Follows s (reachKeys o s) := by
  have hn := fun s => testEyeKeys_follows s .entry
  have hx := fun s => testEyeKeys_follows s .exit
  have hs := fireSchedule_follows
  cases o
  case nxs => exact ((hn _).trans (hx _)).trans (hs _)
  case nsx => exact ((hn _).trans (hs _)).trans (hx _)
  case xns => exact ((hx _).trans (hn _)).trans (hs _)
  case xsn => exact ((hx _).trans (hs _)).trans (hn _)
  case snx => exact ((hs _).trans (hn _)).trans (hx _)
  case sxn => exact ((hs _).trans (hx _)).trans (hn _)

theorem countPulse_run_high (x : BeltUnit) :
    (countPulse x).run = x.run ∧ (countPulse x).speedHigh = x.speedHigh := by
  unfold countPulse; dsimp only; split <;> exact ⟨rfl, rfl⟩

theorem pulseInOrder_follows (o : PulseOrder) : Follows s (pulseInOrder o s) := by
  refine (reachKeys_follows _ _).after (.of_watched ?_)
  obtain ⟨hrun, hhigh⟩ := countPulse_run_high s.belt
  simp only [watched, advancePulse, hrun, hhigh]

theorem setBelt_follows {x : BeltUnit} (hrun : x.run = s.belt.run)
    (hhigh : x.speedHigh = s.belt.speedHigh) : Follows s (setBelt x s) :=
  .of_watched (by simp only [watched, setBelt, hrun, hhigh])

theorem highAlarm_run (c : Settings) (x : BeltUnit) : (highAlarm c x).run = x.run := by
  unfold highAlarm; split
  · split <;> rfl
  · split
    · rfl
    · split <;> rfl

theorem spendGrace_run_high (x : BeltUnit) :
    (spendGrace x).run = x.run ∧ (spendGrace x).speedHigh = x.speedHigh := by
  unfold spendGrace; split <;> exact ⟨rfl, rfl⟩

theorem lowRearmRun_run_high (c : Settings) (x : BeltUnit) :
    (lowRearmRun c x).run = x.run ∧ (lowRearmRun c x).speedHigh = x.speedHigh := by
  unfold lowRearmRun; split
  · exact ⟨rfl, rfl⟩
  · split
    · exact ⟨rfl, rfl⟩
    · split <;> exact ⟨rfl, rfl⟩

theorem stallTest_follows : Follows s (stallTest s) := by
  unfold stallTest; split
  · exact (addReason_follows _ _).behind rfl
  · exact setBelt_follows s (spendGrace_run_high _).1 (spendGrace_run_high _).2

/-- The high alarm may change SPEED_HIGH: the lamp follows at once (R8, R9, R179). -/
theorem windowEnd_follows : Follows s (windowEnd s) :=
  Follows.after (setBelt_follows _ (lowRearmRun_run_high _ _).1 (lowRearmRun_run_high _ _).2)
    ((stallTest_follows _).after (followLamp_follows rfl rfl rfl (highAlarm_run _ _)))

/-! ## Windows and admission -/

theorem ghostOldest_follows : Follows s (ghostOldest s) := by
  unfold ghostOldest; split
  · exact (lookAtHead_follows _).behind rfl
  · exact .refl s

theorem ghostAll_follows (n : Nat) : ∀ s, Follows s (ghostAll n s) := by
  induction n with
  | zero => exact .refl
  | succ n ih =>
    intro s; unfold ghostAll; split
    · exact (ih _).after (ghostOldest_follows s)
    · exact .refl s

theorem tickWindows_follows : Follows s (tickWindows s) := (ghostAll_follows _ _).behind rfl

theorem appendRecord_follows (r : Record) : Follows s (appendRecord r s) := by
  unfold appendRecord; split <;> exact .of_watched rfl

theorem appendPlaceholders_follows (n : Nat) : ∀ q s, Follows s (appendPlaceholders n q s) := by
  induction n with
  | zero => exact fun _ => .refl
  | succ n ih => exact fun q s => (ih _ _).after (appendRecord_follows _ _)

theorem appendChecked_follows (q : Seq) (r : Record) : Follows s (appendChecked q r s) := by
  unfold appendChecked; dsimp only; split
  · exact (appendRecord_follows _ _).behind rfl
  · split
    · exact (appendRecord_follows _ _).after ((appendPlaceholders_follows _ _ _).behind rfl)
    · exact (appendRecord_follows _ _).behind rfl

theorem takeHandover_follows (q : Seq) (r : Record) : Follows s (takeHandover q r s) := by
  unfold takeHandover; split
  · exact .refl s
  · exact (lookAtHead_follows _).after (appendChecked_follows _ _ _)

/-! ## The link -/

/-- STOP, RUN and START frames change the others' stop set alone. -/
theorem setOthers_follows (others : List Nat) :
    Follows s (setStops { s.stops with others := others } s) := setStops_follows s id

theorem upstreamRestart_follows : Follows s (upstreamRestart s) := by
  unfold upstreamRestart; dsimp only; split
  · exact .of_watched rfl
  · exact (askFrame_follows _ _).behind rfl

theorem setPaceIn_follows (gap : Nat) : Follows s (setPaceIn gap s) :=
  .of_keeps (setPaceIn_keeps s gap) (by decide)

theorem takeStart_follows (n : Nat) : Follows s (takeStart n s) :=
  (Follows.ite (setPaceIn_follows _ _)).after
    ((Follows.ite (upstreamRestart_follows _)).after (setOthers_follows s _))

theorem acceptFrame_follows (n : Nat) (body : FrameBody) : Follows s (acceptFrame n body s) := by
  cases body
  case stop => exact setOthers_follows s _
  case run => exact setOthers_follows s _
  case start => exact takeStart_follows s n
  case announce => exact Follows.ite (takeHandover_follows s _ _)
  case lotEnd => exact Follows.ite (takeHandover_follows s _ _)
  case pace => exact Follows.ite (setPaceIn_follows s _)
  case stack => exact .refl s
  case tallyQuery => exact Follows.ite (askFrame_follows s _)
  case tally => exact .refl s

theorem receiveFrame_follows (n : BitVec 5) (body : FrameBody) : Follows s (receiveFrame n body s) := by
  unfold receiveFrame; dsimp only; split
  · split
    · exact .of_watched rfl
    · split
      · exact .of_watched rfl
      · exact (acceptFrame_follows _ _ _).behind rfl
  · exact .refl s

theorem receiveBits_follows (bits : List Bool) : Follows s (receiveBits bits s) := by
  unfold receiveBits; split
  · split
    · exact receiveFrame_follows _ _ _
    · exact Follows.ite (.of_watched rfl)
    · exact Follows.ite (.of_watched rfl)
  · exact .refl s

/-! ## The purge -/

theorem purgePiece_follows (n : LocalNo) : Follows s (purgePiece s n) := by
  unfold purgePiece; split
  · exact .refl s
  · exact Follows.behind (.of_keeps (takeOut_keeps _ _) (by decide)) rfl

theorem purgeSchedule_follows : Follows s (purgeSchedule s) :=
  .of_keeps (purgeSchedule_keeps s) (by decide)

theorem purgeEyeChannels_follows : Follows s (purgeEyeChannels s) :=
  .of_keeps (purgeEyeChannels_keeps s) (by decide)

theorem purgeBays_follows : Follows s (purgeBays s) :=
  (((purgeBay_follows s .b1).trans (purgeBay_follows _ .b2)).trans (purgeBay_follows _ .b3)).trans
    (purgeBay_follows _ .b4)

theorem purge_follows : Follows s (purge s) := by
  have hpieces : Follows s (purgePieces s) := Follows.foldl purgePiece_follows _ s
  have hbays := (purgeBays_follows _).after ((purgeSchedule_follows _).after hpieces)
  have heyes := (purgeEyeChannels_follows _).after hbays
  exact (evalPace_follows _).after ((lookAtHead_follows _).after heyes)

/-! ## The panel -/

theorem putButton_follows (b : Button) (x : CondInput) : Follows s (putButton b x s) := by
  cases b <;> exact .of_watched rfl

theorem setBayInput_follows (i : BayInput) (b : BayNo) (l : Bool) : Follows s (setBayInput i b l s) := by
  cases i <;> exact .of_watched rfl

theorem pressStop_follows : Follows s (pressStop s) := by
  have hadd : Follows s (addReason .operator (putButton .stop (recognised true) s)) :=
    (addReason_follows _ _).after (putButton_follows s _ _)
  unfold pressStop; dsimp only; split
  · exact hadd.trans (.of_watched rfl)
  · exact hadd

theorem pressClose_follows : Follows s (pressClose s) := by
  unfold pressClose; dsimp only; split
  · exact (closeBay_follows _ _ _).after (putButton_follows s _ _)
  · exact putButton_follows s _ _

theorem releaseButton_follows (b : Button) : Follows s (releaseButton b s) := by
  cases b <;> exact .of_watched rfl

/-- RUN replaces the own reasons: both outputs come to their conditions, however they stood (R149). -/
theorem clearReasons_laws : RunLaw (clearReasons s) ∧ LampLaw (clearReasons s) := by
  have hlaws := setStops_laws s { s.stops with own := reasonsAfterRun s.eyes s.stops.own }
  unfold clearReasons; dsimp only; split
  · exact ⟨(askFrame_follows _ _).run hlaws.1, (askFrame_follows _ _).lamp hlaws.2⟩
  · exact hlaws

theorem pressRun_laws : (RunLaw s → RunLaw (pressRun s)) ∧ (LampLaw s → LampLaw (pressRun s)) := by
  unfold pressRun; dsimp only; split
  · have hhold : Follows s (startHold s.belt.run (putButton .run (recognised true) s)) :=
      .of_watched rfl
    exact ⟨hhold.run, hhold.lamp⟩
  · exact ⟨fun _ => (clearReasons_laws _).1, fun _ => (clearReasons_laws _).2⟩

/-! ## Reset and load -/

theorem afterReset_laws : RunLaw (afterReset s) ∧ LampLaw (afterReset s) :=
  laws_of_inactive nofun rfl rfl

theorem enterFault_laws (code : Nat) (table : List CategoryEntry) (map : List (Option Nat)) :
    RunLaw (enterFault code table map s) ∧ LampLaw (enterFault code table map s) :=
  laws_of_inactive nofun rfl rfl

/-- The entry to ACTIVE: RESTART stands and both outputs are at their conditions (R184). -/
theorem enterActive_spec (c : Settings) (table : List CategoryEntry) (map : List (Option Nat))
    (counters : List Counter) :
    RunLaw (enterActive c table map counters s) ∧ LampLaw (enterActive c table map counters s)
      ∧ hasReason (enterActive c table map counters s).stops.own .restart = true := by
  have hown : (askRaw (startFrameOf c) (startBlocks c table map counters s)).stops.own = ReasonSet.none :=
    askRaw_keeps _ _ .own (by decide)
  unfold enterActive
  generalize askRaw (startFrameOf c) (startBlocks c table map counters s) = u at hown
  obtain ⟨hrun, hlamp⟩ := addReason_laws_of_absent u (r := .restart) (by rw [hown]; rfl)
  have hpace := evalPace_follows (addReason .restart u)
  refine ⟨hpace.run hrun, hpace.lamp hlamp, hpace.restart ?_⟩
  rw [addReason_own]; exact hasReason_insertReason _ _

/-! ## What a step can do -/

/-- An outcome that, where it is a next state, is one the outputs follow to. -/
def FollowsIn (s : State) (o : Host.Outcome State Fault Refusal) : Prop :=
  ∀ t, o = .next t → Follows s t

variable {s}

theorem FollowsIn.next (h : Follows s t) : FollowsIn s (.next t) := by
  rintro _ ⟨⟩; exact h

/-- A command that acts under a condition and leaves the state otherwise. -/
theorem FollowsIn.guarded {c : Prop} [Decidable c] (h : Follows s t) :
    FollowsIn s (if c then .next t else .next s) := by
  split
  · exact .next h
  · exact .next (.refl s)

variable (s)

theorem execEyeRawChange_follows (e : Eye) (l : EyeLevel) : FollowsIn s (execEyeRawChange e l s) := by
  unfold execEyeRawChange; dsimp only; split
  · exact .next (.refl s)
  · split <;> exact .next (putEye_follows _ _ _)

theorem execEdgeRecognition_follows (e : Eye) : FollowsIn s (execEdgeRecognition e s) := by
  unfold execEdgeRecognition; split
  · exact .next (.refl s)
  · exact .guarded (recogniseEdge_follows _ _ _)

theorem execConditionedInputRawChange_follows (i : Input) (l : Bool) :
    FollowsIn s (execConditionedInputRawChange i l s) := by
  unfold execConditionedInputRawChange; split
  · exact .next (putButton_follows _ _ _)
  · exact .next (.of_watched rfl)
  · exact .next (.of_watched rfl)

theorem execPurgeHoldExpiry_follows : FollowsIn s (execPurgeHoldExpiry s) := by
  have hend : Follows s (endHold s) := .of_keeps (endHold_keeps s) (by decide)
  unfold execPurgeHoldExpiry; split
  · exact .next (.refl s)
  · split
    · exact .next ((purge_follows _).behind rfl)
    · exact .next hend

theorem execJetPulseExpiry_follows (j : Jet) : FollowsIn s (execJetPulseExpiry j s) := by
  cases j <;> exact .guarded (.of_watched rfl)

theorem execTransmitStart_follows : FollowsIn s (execTransmitStart s) := by
  unfold execTransmitStart; split
  · exact .next (.refl s)
  · exact .guarded (.of_watched rfl)

theorem execFrameSent_follows : FollowsIn s (execFrameSent s) :=
  .guarded (Follows.behind (.of_keeps (evalIfKeptChanged_keeps _ s) (by decide)) rfl)

theorem execDisplayDigitRefresh_follows : FollowsIn s (execDisplayDigitRefresh s) := by
  unfold execDisplayDigitRefresh; split <;> exact .next (.of_watched rfl)

/-- What a command can do: reset, enter FAULT or ACTIVE at the end of a load, take a press of RUN, or make
a change that the outputs follow. -/
inductive StepKind : Instr → State → State → Prop where
  | reset (s : State) : StepKind .reset s (afterReset s)
  | fault (img : List Byte) (code : Nat) (table : List CategoryEntry) (map : List (Option Nat))
      (s : State) : StepKind (.loadComplete img) s (enterFault code table map s)
  | active (img : List Byte) (c : Settings) (table : List CategoryEntry) (map : List (Option Nat))
      (counters : List Counter) {s : State} (h : s.station = .loading) :
      StepKind (.loadComplete img) s (enterActive c table map counters s)
  | run {s : State} (h : s.station = .active) : StepKind .runPress s (pressRun s)
  | follows {i : Instr} {s t : State} (h : Follows s t) : StepKind i s t

variable {s}

theorem execLoadComplete_kind {img : List Byte} (h : execLoadComplete img s = .next t) :
    StepKind (.loadComplete img) s t := by
  unfold execLoadComplete at h; split at h
  next hs =>
    split at h
    next code table map _ => exact Host.Outcome.next.inj h ▸ .fault img code table map s
    next c table map counters _ => exact Host.Outcome.next.inj h ▸ .active img c table map counters hs
  next => exact Host.Outcome.next.inj h ▸ .follows (.refl s)

theorem execRunPress_kind (h : execRunPress s = .next t) : StepKind .runPress s t := by
  unfold execRunPress at h; split at h
  next ha => cases h; exact .run (by simpa [isActive] using ha)
  next => cases h; exact .follows (.refl s)

theorem FollowsIn.kind {i : Instr} (hf : FollowsIn s (exec i s)) (h : exec i s = .next t) :
    StepKind i s t := .follows (hf t h)

/-- Every command is of one of these kinds. -/
theorem exec_kind {i : Instr} (h : exec i s = .next t) : StepKind i s t := by
  cases i with
  | reset => cases h; exact .reset s
  | loadComplete img => exact execLoadComplete_kind h
  | runPress => exact execRunPress_kind h
  | encoderPulse => exact FollowsIn.kind (.guarded (pulseInOrder_follows s _)) h
  | windowEnd => exact FollowsIn.kind (.guarded (windowEnd_follows s)) h
  | eyeRawChange e l => exact FollowsIn.kind (execEyeRawChange_follows s e l) h
  | edgeRecognition e => exact FollowsIn.kind (execEdgeRecognition_follows s e) h
  | conditionedInputRawChange i l => exact FollowsIn.kind (execConditionedInputRawChange_follows s i l) h
  | stopPress => exact FollowsIn.kind (.guarded (pressStop_follows s)) h
  | selectPress => exact FollowsIn.kind (.guarded (.of_watched rfl)) h
  | closePress => exact FollowsIn.kind (.guarded (pressClose_follows s)) h
  | buttonRelease b => exact FollowsIn.kind (.guarded (releaseButton_follows s b)) h
  | bayHighRise b =>
    exact FollowsIn.kind (.guarded ((closeBay_follows _ b _).after (setBayInput_follows s _ b _))) h
  | bayClearRise b =>
    exact FollowsIn.kind (.guarded ((clearBay_follows _ b).after (setBayInput_follows s _ b _))) h
  | bayInputFall b i => exact FollowsIn.kind (.guarded (setBayInput_follows s i b _)) h
  | purgeHoldExpiry => exact FollowsIn.kind (execPurgeHoldExpiry_follows s) h
  | timeBaseTick => exact FollowsIn.kind (.guarded (tickWindows_follows s)) h
  | ghost => exact FollowsIn.kind (.guarded (ghostOldest_follows s)) h
  | jetPulseExpiry j => exact FollowsIn.kind (execJetPulseExpiry_follows s j) h
  | settleTimerExpiry b =>
    exact FollowsIn.kind (.guarded ((settleExpire_follows _ b).after (setBay_follows s rfl))) h
  | dischargeTimeout b => exact FollowsIn.kind (.guarded (putBay_follows s b _)) h
  | pusherPulseExpiry b => exact FollowsIn.kind (.guarded (.of_watched rfl)) h
  | stopFrame n r => exact FollowsIn.kind (.next (receiveFrame_follows s n _)) h
  | runFrame n => exact FollowsIn.kind (.next (receiveFrame_follows s n _)) h
  | startFrame n up down => exact FollowsIn.kind (.next (receiveFrame_follows s n _)) h
  | announceFrame n seq lot code len flags => exact FollowsIn.kind (.next (receiveFrame_follows s n _)) h
  | lotEndFrame n seq lot => exact FollowsIn.kind (.next (receiveFrame_follows s n _)) h
  | paceFrame n gap => exact FollowsIn.kind (.next (receiveFrame_follows s n _)) h
  | tallyQuery n target item index => exact FollowsIn.kind (.next (receiveFrame_follows s n _)) h
  | framePassedOver n body => exact FollowsIn.kind (.next (receiveFrame_follows s n _)) h
  | damagedFrame bits => exact FollowsIn.kind (.next (receiveBits_follows s bits)) h
  | transmitStart => exact FollowsIn.kind (execTransmitStart_follows s) h
  | arbitrationLost => exact FollowsIn.kind (.guarded (.of_watched rfl)) h
  | bitError => exact FollowsIn.kind (.guarded (.of_watched rfl)) h
  | frameSent => exact FollowsIn.kind (execFrameSent_follows s) h
  | displayDigitRefresh => exact FollowsIn.kind (execDisplayDigitRefresh_follows s) h
  | lineIdle => exact FollowsIn.kind (.guarded (.of_keeps (seeIdle_keeps s) (by decide))) h

/-- What a step can do: nothing on an empty queue, else what its front command does; taking that command
off the queue is no change the laws read. -/
theorem step_kind (h : step s = .next t) :
    Follows s t ∨ ∃ i rest, s.pending = i :: rest ∧ StepKind i { s with pending := rest } t := by
  unfold step at h; split at h
  next => cases h; exact .inl (.refl s)
  next i rest hp => exact .inr ⟨i, rest, hp, exec_kind h⟩

/-! ## The laws along a step -/

theorem StepKind.runLaw {i : Instr} (h : StepKind i s t) (hl : RunLaw s) : RunLaw t := by
  cases h with
  | reset => exact (afterReset_laws s).1
  | fault => exact (enterFault_laws s _ _ _).1
  | active => exact (enterActive_spec s _ _ _ _).1
  | run => exact (pressRun_laws s).1 hl
  | follows h => exact h.run hl

theorem StepKind.lampLaw {i : Instr} (h : StepKind i s t) (hl : LampLaw s) : LampLaw t := by
  cases h with
  | reset => exact (afterReset_laws s).2
  | fault => exact (enterFault_laws s _ _ _).2
  | active => exact (enterActive_spec s _ _ _ _).2.1
  | run => exact (pressRun_laws s).2 hl
  | follows h => exact h.lamp hl

theorem step_runLaw (hl : RunLaw s) (h : step s = .next t) : RunLaw t := by
  rcases step_kind h with h | ⟨i, rest, -, h⟩
  · exact h.run hl
  · exact h.runLaw hl

theorem step_lampLaw (hl : LampLaw s) (h : step s = .next t) : LampLaw t := by
  rcases step_kind h with h | ⟨i, rest, -, h⟩
  · exact h.lamp hl
  · exact h.lampLaw hl

/-- A station comes to ACTIVE by a load alone, which leaves RESTART and the output off (R184). -/
theorem StepKind.restart_on_entry {i : Instr} (h : StepKind i s t) (hs : s.station ≠ .active)
    (ht : t.station = .active) : hasReason t.stops.own .restart = true ∧ t.belt.run = false := by
  cases h with
  | reset => cases ht
  | fault => cases ht
  | active _ c table map counters _ =>
    obtain ⟨hrun, -, hrestart⟩ := enterActive_spec s c table map counters
    exact ⟨hrestart, hrun.run_off hrestart⟩
  | run ha => exact absurd ha hs
  | follows h => exact absurd (h.station.symm.trans ht) hs

/-- While the station stays ACTIVE, RUN alone takes RESTART away (R149). -/
theorem StepKind.runPress_of_restart_cleared {i : Instr} (h : StepKind i s t) (hs : s.station = .active)
    (hr : hasReason s.stops.own .restart = true) (ht : t.station = .active)
    (hc : hasReason t.stops.own .restart = false) : i = .runPress := by
  cases h with
  | reset => cases ht
  | fault => cases ht
  | active _ _ _ _ _ hl => rw [hs] at hl; cases hl
  | run => rfl
  | follows h => rw [h.restart hr] at hc; cases hc

theorem step_restart_on_entry (hs : s.station ≠ .active) (h : step s = .next t)
    (ht : t.station = .active) : hasReason t.stops.own .restart = true ∧ t.belt.run = false := by
  rcases step_kind h with h | ⟨i, rest, -, h⟩
  · exact absurd (h.station.symm.trans ht) hs
  · exact h.restart_on_entry hs ht

theorem step_runPress_of_restart_cleared (hs : s.station = .active)
    (hr : hasReason s.stops.own .restart = true) (h : step s = .next t) (ht : t.station = .active)
    (hc : hasReason t.stops.own .restart = false) : ∃ rest, s.pending = .runPress :: rest := by
  rcases step_kind h with h | ⟨i, rest, hp, h⟩
  · rw [h.restart hr] at hc; cases hc
  · exact ⟨rest, h.runPress_of_restart_cleared hs hr ht hc ▸ hp⟩

/-- Settles O55: a step is of one of the kinds of `StepKind`, each of which keeps the laws. -/
theorem outputsFollowTheirConditions : Obligations.OutputsFollowTheirConditions := by
  unfold Obligations.OutputsFollowTheirConditions
  obtain ⟨hrun, hlamp⟩ : RunLaw State.reset ∧ LampLaw State.reset := laws_of_inactive nofun rfl rfl
  exact ⟨hrun, hlamp, fun _ _ => step_runLaw, fun _ _ => step_lampLaw, fun _ _ => step_restart_on_entry,
    fun _ _ => step_runPress_of_restart_cleared⟩

end Sys2Proof.Machine
end

section
/-! SUPPORT. The balance of R91 along a step. `ledger` is what the balance reads. Only an arrival, a fate, a
reset and a load change it: an arrival counts ENTERED with one ON_BELT record more, a fate counts itself
with one fewer, a reset and a load clear it. Every other operation leaves the balance as it stands. -/

namespace Sys2Proof.Machine

variable {s t : State}

/-! ## What the balance reads -/

/-- ENTERED, the five fates, and the number of ON_BELT records (R91). -/
def ledger (s : State) :
    BitVec 32 × BitVec 32 × BitVec 32 × BitVec 32 × BitVec 32 × BitVec 32 × Nat :=
  (s.tally.counts.entered, s.tally.counts.passed, s.tally.counts.stacked, s.tally.counts.rejected,
    s.tally.counts.lost, s.tally.counts.purged, onBeltCount s.tracks)

theorem CountLaw.of_ledger (h : ledger t = ledger s) (hl : CountLaw s) : CountLaw t := by
  simp only [ledger, Prod.mk.injEq] at h
  obtain ⟨hentered, hpassed, hstacked, hrejected, hlost, hpurged, hbelt⟩ := h
  unfold CountLaw
  rw [hentered, hpassed, hstacked, hrejected, hlost, hpurged, hbelt]
  exact hl

theorem KeepsBut.ledger {ps : List Part} (h : KeepsBut ps s t) (hf : Part.fates ∉ ps)
    (hc : onBeltCount t.tracks = onBeltCount s.tracks) : ledger t = ledger s := by
  obtain ⟨hentered, hpassed, hstacked, hrejected, hlost, hpurged⟩ := h .fates hf
  simp only [Machine.ledger, hentered, hpassed, hstacked, hrejected, hlost, hpurged, hc]

/-- A change that reaches neither the fate counts nor the track list. -/
theorem KeepsBut.countLaw_of_tracks {ps : List Part} (h : KeepsBut ps s t) (hf : Part.fates ∉ ps)
    (ht : Part.tracks ∉ ps) (hl : CountLaw s) : CountLaw t :=
  h.countLaw hf (by rw [h .tracks ht]) hl

/-- A change made under a condition. -/
theorem CountLaw.ite {c : Prop} [Decidable c] (hl : CountLaw s) (h : CountLaw t) :
    CountLaw (if c then t else s) := by
  split
  · exact h
  · exact hl

theorem setTracks_countLaw {xs : List Record} (hc : onBeltCount xs = onBeltCount s.tracks)
    (hl : CountLaw s) : CountLaw (setTracks xs s) :=
  (setTracks_keeps xs s).countLaw (by decide) hc hl

/-- Removing an unseen record. -/
theorem eraseUnseen_countLaw {p : Record → Bool} (hp : ∀ r, p r = true → isUnseen r = true)
    (hl : CountLaw s) : CountLaw (setTracks (s.tracks.eraseP p) s) :=
  setTracks_countLaw (onBeltCount_eraseP (fun r hr => isOnBelt_of_unseen (hp r hr)) _) hl

theorem evalPace_countLaw (hl : CountLaw s) : CountLaw (evalPace s) :=
  (evalPace_keeps s).countLaw_of_tracks (by decide) (by decide) hl

theorem askFrame_countLaw (body : FrameBody) (hl : CountLaw s) : CountLaw (askFrame body s) :=
  (askFrame_keeps s body).countLaw_of_tracks (by decide) (by decide) hl

theorem addReason_countLaw (r : StopReason) (hl : CountLaw s) : CountLaw (addReason r s) :=
  (addReason_keeps s r).countLaw_of_tracks (by decide) (by decide) hl

theorem setStops_countLaw (st : Stops) (hl : CountLaw s) : CountLaw (setStops st s) :=
  (setStops_keeps s st).countLaw_of_tracks (by decide) (by decide) hl

theorem setPaceIn_countLaw (gap : Nat) (hl : CountLaw s) : CountLaw (setPaceIn gap s) :=
  (setPaceIn_keeps s gap).countLaw_of_tracks (by decide) (by decide) hl

theorem putBay_countLaw (b : BayNo) (x : Bay) (hl : CountLaw s) : CountLaw (putBay b x s) :=
  (putBay_keeps s b x).countLaw_of_tracks (by decide) (by decide) hl

theorem closeBay_countLaw (b : BayNo) (r : CloseReason) (hl : CountLaw s) : CountLaw (closeBay b r s) :=
  (closeBay_keeps s b r).countLaw_of_tracks (by decide) (by decide) hl

/-- A piece event that is no fate. -/
theorem countPiece_countLaw (ev : TallyEvent) (l : Lot) (c : Code)
    (h : ev = .orphan ∨ ev = .ghost ∨ ev = .lengthDisagree ∨ ev = .skipAhead ∨ ev = .chainFault
      ∨ ev = .late ∨ ev = .jetBusy) (hl : CountLaw s) : CountLaw (countPiece ev l c s) :=
  (countPiece_keeps_fates ev l c s h).countLaw (by decide) rfl hl

theorem countLine_countLaw (ev : TallyEvent) (n : Nat)
    (h : ev = .seqGap ∨ ev = .syncLoss ∨ ev = .expectOverflow ∨ ev = .stray ∨ ev = .linkCheck
      ∨ ev = .linkDrop) (hl : CountLaw s) : CountLaw (countLine ev n s) :=
  (countLine_keeps_fates ev n s h).countLaw (by decide) rfl hl

theorem putEye_countLaw (e : Eye) (ch : EyeChannel) (hl : CountLaw s) : CountLaw (putEye e ch s) := by
  cases e <;> exact hl

/-! ## Planning and arrival -/

theorem stageJudge_countLaw (w : Work) (hl : CountLaw s) : CountLaw (stageJudge w s).2 := by
  unfold stageJudge; split
  · exact hl
  · split
    · exact hl
    · split
      · exact hl
      · split
        · split
          · exact lookAtHead_countLaw (countPiece_countLaw _ _ _ (by simp)
              (countPiece_countLaw _ _ _ (by simp) (eraseUnseen_countLaw (fun _ h => h) hl)))
          · exact countPiece_countLaw _ _ _ (by simp) hl
        · exact hl

/-- The planned record is written back ON_BELT in its place (R70). -/
theorem planStages_countLaw (w : Work) (hl : CountLaw s) : CountLaw (planStages w s) := by
  unfold planStages; dsimp only
  refine setTracks_countLaw (count_kinds (updateLocal_kinds _ _ (fun _ _ => rfl) _)) ?_
  refine (stageInsert_keeps _ _).countLaw_of_tracks (by decide) (by decide) ?_
  refine (stageRoute_keeps _ _).countLaw_of_tracks (by decide) (by decide) ?_
  refine (stageFold_keeps _ _).countLaw_of_tracks (by decide) (by decide) ?_
  refine (stageResolve_keeps _ _).countLaw_of_tracks (by decide) (by decide) ?_
  exact stageJudge_countLaw _ hl

theorem planPiece_countLaw (p : Pos) (hl : CountLaw s) : CountLaw (planPiece p s) := by
  unfold planPiece; split
  · exact hl
  · exact planStages_countLaw _ hl

theorem consumeOldest_countLaw (hl : CountLaw s) : CountLaw (consumeOldest s) :=
  .ite hl (lookAtHead_countLaw (eraseUnseen_countLaw (fun _ h => h) hl))

theorem overrun_countLaw (hl : CountLaw s) : CountLaw (overrun s) := by
  have hconsumed : CountLaw (consumeOldest s) := consumeOldest_countLaw hl
  exact addReason_countLaw _ hconsumed

theorem onBeltCount_append_orphan (i : BeltInfo) (xs : List Record) :
    onBeltCount (xs ++ [orphanRecord i]) = onBeltCount xs + 1 := by
  simp [onBeltCount, orphanRecord, isOnBelt]

/-- A paired piece and an orphan count ENTERED with one ON_BELT record more, an overrun neither (R60 to
R62). -/
theorem arrive_countLaw (q : Pos) (hl : CountLaw s) : CountLaw (arrive q s) := by
  unfold arrive; dsimp only; split
  · exact overrun_countLaw hl
  · split
    next hunseen => exact evalPace_countLaw (countEntered_countLaw (pairFirst_count _ hunseen) hl)
    next =>
      split
      · exact overrun_countLaw hl
      · exact evalPace_countLaw (countPiece_countLaw _ _ _ (by simp)
          (countEntered_countLaw (onBeltCount_append_orphan _ _) hl))

/-! ## Eyes, pulses and windows -/

theorem testJam_countLaw (e : Eye) (hl : CountLaw s) : CountLaw (testJam e s) := by
  unfold testJam; dsimp only; split
  · exact hl
  · split
    · exact addReason_countLaw _ (putEye_countLaw _ _ hl)
    · exact hl

theorem strayEdge_countLaw (hl : CountLaw s) : CountLaw (strayEdge s) :=
  countLine_countLaw _ _ (by simp) hl

theorem judgeExit_countLaw (q : Pos) (hl : CountLaw s) : CountLaw (judgeExit q s) := by
  unfold judgeExit; split
  · exact strayEdge_countLaw hl
  next i _ =>
    split
    · have hseen : CountLaw (setTracks (updateLocal i.localNo markSeen s.tracks) s) :=
        setTracks_countLaw (count_kinds (updateLocal_kinds _ _ (fun _ _ => rfl) _)) hl
      exact hseen
    · exact strayEdge_countLaw hl

theorem reportLeading_countLaw (e : Eye) (q : Pos) (hl : CountLaw s) :
    CountLaw (reportLeading e q s) := by
  cases e
  case entry => exact arrive_countLaw q hl
  case exit => exact judgeExit_countLaw q hl

theorem leadingEdge_countLaw (e : Eye) (q : Pos) (hl : CountLaw s) : CountLaw (leadingEdge e q s) := by
  unfold leadingEdge; dsimp only; split
  · exact testJam_countLaw _ (putEye_countLaw _ _ hl)
  · exact reportLeading_countLaw _ _ (putEye_countLaw _ _ hl)

theorem recogniseEdge_countLaw (e : Eye) (p : PendingEdge) (hl : CountLaw s) :
    CountLaw (recogniseEdge e p s) := by
  unfold recogniseEdge; dsimp only; split
  · exact leadingEdge_countLaw _ _ (putEye_countLaw _ _ hl)
  · exact putEye_countLaw _ _ hl

theorem confirmEntry_countLaw (p : Pos) (hl : CountLaw s) : CountLaw (confirmEntry p s) := by
  unfold confirmEntry; split
  · exact hl
  · exact planPiece_countLaw p hl

theorem passOwned_countLaw (hl : CountLaw s) : CountLaw (passOwned s) := by
  unfold passOwned; split
  · exact passPiece_countLaw _ hl
  · exact hl
  · exact hl

theorem reportConfirmed_countLaw (e : Eye) (p : Pos) (hl : CountLaw s) :
    CountLaw (reportConfirmed e p s) := by
  cases e
  case entry => exact confirmEntry_countLaw p hl
  case exit => exact passOwned_countLaw hl

theorem testConfirm_countLaw (e : Eye) (hl : CountLaw s) : CountLaw (testConfirm e s) := by
  unfold testConfirm; dsimp only; split
  · exact hl
  · split
    · exact reportConfirmed_countLaw _ _ (putEye_countLaw _ _ hl)
    · exact hl

theorem testEyeKeys_countLaw (e : Eye) (hl : CountLaw s) : CountLaw (testEyeKeys e s) :=
  testJam_countLaw e (testConfirm_countLaw e hl)

theorem fireSchedule_countLaw (hl : CountLaw s) : CountLaw (fireSchedule s) :=
  (fireReached_laws _ s hl).1

theorem reachKeys_countLaw (o : PulseOrder) (hl : CountLaw s) : CountLaw (reachKeys o s) := by
  have hn {s : State} (h : CountLaw s) := testEyeKeys_countLaw .entry h
  have hx {s : State} (h : CountLaw s) := testEyeKeys_countLaw .exit h
  have hs {s : State} (h : CountLaw s) := fireSchedule_countLaw h
  cases o
  case nxs => exact hs (hx (hn hl))
  case nsx => exact hx (hs (hn hl))
  case xns => exact hs (hn (hx hl))
  case xsn => exact hn (hs (hx hl))
  case snx => exact hx (hn (hs hl))
  case sxn => exact hn (hx (hs hl))

theorem pulseInOrder_countLaw (o : PulseOrder) (hl : CountLaw s) : CountLaw (pulseInOrder o s) :=
  reachKeys_countLaw o (CountLaw.of_ledger (s := s) (t := advancePulse s) rfl hl)

theorem stallTest_countLaw (hl : CountLaw s) : CountLaw (stallTest s) := by
  unfold stallTest; split
  · exact addReason_countLaw _ hl
  · exact hl

theorem windowEnd_countLaw (hl : CountLaw s) : CountLaw (windowEnd s) := by
  have hstall : CountLaw (stallTest
      (followLamp (setBelt (highAlarm s.settings (closeWindow s.belt)) s))) := stallTest_countLaw hl
  exact hstall

/-! ## Run-outs and admission -/

theorem ghostOldest_countLaw (hl : CountLaw s) : CountLaw (ghostOldest s) := by
  unfold ghostOldest; split
  · exact lookAtHead_countLaw (countPiece_countLaw _ _ _ (by simp)
      (eraseUnseen_countLaw (fun _ => isUnseen_of_hasRunOut) hl))
  · exact hl

theorem ghostAll_countLaw (n : Nat) : ∀ s : State, CountLaw s → CountLaw (ghostAll n s) := by
  induction n with
  | zero => exact fun _ hl => hl
  | succ n ih =>
    intro s hl; unfold ghostAll; split
    · exact ih _ (ghostOldest_countLaw hl)
    · exact hl

theorem tickWindows_countLaw (hl : CountLaw s) : CountLaw (tickWindows s) :=
  ghostAll_countLaw _ _ (setTracks_countLaw (count_kinds (lowerWindow_kinds _)) hl)

theorem appendRecord_countLaw {r : Record} (hr : isOnBelt r = false) (hl : CountLaw s) :
    CountLaw (appendRecord r s) := by
  unfold appendRecord; split
  · have hc : onBeltCount (s.tracks ++ [r]) = onBeltCount s.tracks := by
      simp [onBeltCount, List.countP_append, hr]
    exact setTracks_countLaw hc hl
  · exact countLine_countLaw _ _ (by simp) hl

theorem appendPlaceholders_countLaw (n : Nat) : ∀ (q : Seq) (s : State), CountLaw s →
    CountLaw (appendPlaceholders n q s) := by
  induction n with
  | zero => exact fun _ _ hl => hl
  | succ n ih => exact fun q s hl => ih _ _ (appendRecord_countLaw rfl hl)

theorem appendChecked_countLaw {r : Record} (q : Seq) (hr : isOnBelt r = false) (hl : CountLaw s) :
    CountLaw (appendChecked q r s) := by
  unfold appendChecked; dsimp only; split
  · exact appendRecord_countLaw hr hl
  · split
    · exact appendRecord_countLaw hr (appendPlaceholders_countLaw _ _ _
        (countLine_countLaw _ _ (by simp) hl))
    · exact appendRecord_countLaw hr (countLine_countLaw _ _ (by simp) hl)

theorem takeHandover_countLaw {r : Record} (q : Seq) (hr : isOnBelt r = false) (hl : CountLaw s) :
    CountLaw (takeHandover q r s) := by
  unfold takeHandover; split
  · exact hl
  · exact lookAtHead_countLaw (appendChecked_countLaw q hr hl)

/-! ## The link -/

theorem upstreamRestart_countLaw (hl : CountLaw s) : CountLaw (upstreamRestart s) := by
  unfold upstreamRestart; dsimp only; split
  · exact hl
  · exact askFrame_countLaw _ hl

theorem takeStart_countLaw (n : Nat) (hl : CountLaw s) : CountLaw (takeStart n s) := by
  have hrun : CountLaw (takeRun n s) := setStops_countLaw _ hl
  have hup : CountLaw
      (if n = s.settings.upstream then upstreamRestart (takeRun n s) else takeRun n s) :=
    .ite hrun (upstreamRestart_countLaw hrun)
  exact .ite hup (setPaceIn_countLaw _ hup)

theorem acceptFrame_countLaw (n : Nat) (body : FrameBody) (hl : CountLaw s) :
    CountLaw (acceptFrame n body s) := by
  cases body
  case stop => exact setStops_countLaw _ hl
  case run => exact setStops_countLaw _ hl
  case start => exact takeStart_countLaw n hl
  case announce => exact .ite hl (takeHandover_countLaw _ rfl hl)
  case lotEnd => exact .ite hl (takeHandover_countLaw _ rfl hl)
  case pace => exact .ite hl (setPaceIn_countLaw _ hl)
  case stack => exact hl
  case tallyQuery => exact .ite hl (askFrame_countLaw _ hl)
  case tally => exact hl

theorem receiveFrame_countLaw (n : BitVec 5) (body : FrameBody) (hl : CountLaw s) :
    CountLaw (receiveFrame n body s) := by
  unfold receiveFrame; dsimp only; split
  · split
    · exact countLine_countLaw _ _ (by simp) hl
    · split
      · exact hl
      · exact acceptFrame_countLaw _ _ hl
  · exact hl

theorem receiveBits_countLaw (bits : List Bool) (hl : CountLaw s) : CountLaw (receiveBits bits s) := by
  unfold receiveBits; split
  · split
    · exact receiveFrame_countLaw _ _ hl
    · exact .ite hl (countLine_countLaw _ _ (by simp) hl)
    · exact .ite hl (countLine_countLaw _ _ (by simp) hl)
  · exact hl

theorem seeIdle_countLaw (hl : CountLaw s) : CountLaw (seeIdle s) := by
  unfold seeIdle; split
  · exact hl
  · exact countLine_countLaw _ _ (by simp) hl
  · exact hl
  · exact hl
  · exact hl

/-! ## The purge -/

/-- For the ledger a piece purged is a piece that met the fate PURGED (R82, R89). -/
theorem purgePiece_ledger (s : State) (n : LocalNo) :
    ledger (purgePiece s n) = ledger (endPiece .purged n s) := by
  have hhead (u : State) : ledger (lookAtHead u) = ledger u :=
    (lookAtHead_keeps u).ledger (by decide) (lookAtHead_count u)
  have hpace (u : State) : ledger (evalPace u) = ledger u :=
    (evalPace_keeps u).ledger (by decide) (by rw [(evalPace_keeps u) .tracks (by decide)])
  unfold purgePiece endPiece
  cases findLocal n s.tracks with
  | none => rfl
  | some x => dsimp only [takeOut]; rw [hhead, hpace, hpace]; rfl

theorem purgePiece_countLaw (n : LocalNo) (hl : CountLaw s) : CountLaw (purgePiece s n) :=
  .of_ledger (purgePiece_ledger s n) (endPiece_countLaw _ n hl)

theorem purgePieces_countLaw (hl : CountLaw s) : CountLaw (purgePieces s) :=
  List.foldlRecOn (motive := CountLaw) _ purgePiece hl fun _ h n _ => purgePiece_countLaw n h

theorem purge_countLaw (hl : CountLaw s) : CountLaw (purge s) := by
  have hsched := (purgeSchedule_keeps _).countLaw_of_tracks (by decide) (by decide)
    (purgePieces_countLaw hl)
  have hbays := (purgeBays_keeps _).countLaw_of_tracks (by decide) (by decide) hsched
  have heyes := (purgeEyeChannels_keeps _).countLaw_of_tracks (by decide) (by decide) hbays
  exact evalPace_countLaw (lookAtHead_countLaw heyes)

/-! ## The panel and the bays -/

theorem putButton_countLaw (b : Button) (x : CondInput) (hl : CountLaw s) :
    CountLaw (putButton b x s) := by cases b <;> exact hl

theorem setBayInput_countLaw (i : BayInput) (b : BayNo) (l : Bool) (hl : CountLaw s) :
    CountLaw (setBayInput i b l s) := by cases i <;> exact hl

theorem pressStop_countLaw (hl : CountLaw s) : CountLaw (pressStop s) := by
  have hadd : CountLaw (addReason .operator (putButton .stop (recognised true) s)) :=
    addReason_countLaw _ hl
  unfold pressStop; dsimp only; split <;> exact hadd

theorem clearReasons_countLaw (hl : CountLaw s) : CountLaw (clearReasons s) := by
  unfold clearReasons; dsimp only; split
  · exact askFrame_countLaw _ (setStops_countLaw _ hl)
  · exact setStops_countLaw _ hl

theorem pressRun_countLaw (hl : CountLaw s) : CountLaw (pressRun s) := by
  unfold pressRun; dsimp only; split
  · exact hl
  · exact clearReasons_countLaw hl

theorem pressClose_countLaw (hl : CountLaw s) : CountLaw (pressClose s) := by
  unfold pressClose; dsimp only; split
  · exact closeBay_countLaw _ _ hl
  · exact hl

theorem releaseButton_countLaw (b : Button) (hl : CountLaw s) : CountLaw (releaseButton b s) := by
  cases b <;> exact hl

theorem clearBay_countLaw (b : BayNo) (hl : CountLaw s) : CountLaw (clearBay b s) :=
  .ite hl (putBay_countLaw _ _ hl)

theorem settleExpire_countLaw (b : BayNo) (hl : CountLaw s) : CountLaw (settleExpire b s) :=
  (settleExpire_keeps s b).countLaw_of_tracks (by decide) (by decide) hl

/-! ## Reset and load -/

theorem reset_countLaw : CountLaw State.reset := rfl

theorem afterReset_countLaw (s : State) : CountLaw (afterReset s) :=
  .of_ledger (s := State.reset) rfl reset_countLaw

theorem enterFault_countLaw (code : Nat) (table : List CategoryEntry) (map : List (Option Nat))
    (s : State) : CountLaw (enterFault code table map s) := afterReset_countLaw s

theorem enterActive_countLaw (c : Settings) (table : List CategoryEntry) (map : List (Option Nat))
    (counters : List Counter) (s : State) : CountLaw (enterActive c table map counters s) := by
  have hstart : CountLaw (startBlocks c table map counters s) := afterReset_countLaw s
  refine evalPace_countLaw (addReason_countLaw _ ?_)
  exact (askRaw_keeps _ _).countLaw_of_tracks (by decide) (by decide) hstart

/-! ## The balance along a step -/

/-- An outcome that, where it is a next state, balances. -/
def BalancedIn (o : Host.Outcome State Fault Refusal) : Prop := ∀ t, o = .next t → CountLaw t

theorem BalancedIn.next (h : CountLaw t) : BalancedIn (.next t) := by
  rintro _ ⟨⟩; exact h

/-- A command that acts under a condition and leaves the state otherwise. -/
theorem BalancedIn.guarded {c : Prop} [Decidable c] (hl : CountLaw s) (h : CountLaw t) :
    BalancedIn (if c then .next t else .next s) := by
  split
  · exact .next h
  · exact .next hl

theorem execLoadComplete_balanced (img : List Byte) (hl : CountLaw s) :
    BalancedIn (execLoadComplete img s) := by
  unfold execLoadComplete; split
  · split
    · exact .next (enterFault_countLaw _ _ _ s)
    · exact .next (enterActive_countLaw _ _ _ _ s)
  · exact .next hl

theorem execEyeRawChange_balanced (e : Eye) (l : EyeLevel) (hl : CountLaw s) :
    BalancedIn (execEyeRawChange e l s) := by
  unfold execEyeRawChange; dsimp only; split
  · exact .next hl
  · split <;> exact .next (putEye_countLaw _ _ hl)

theorem execEdgeRecognition_balanced (e : Eye) (hl : CountLaw s) :
    BalancedIn (execEdgeRecognition e s) := by
  unfold execEdgeRecognition; split
  · exact .next hl
  · exact .guarded hl (recogniseEdge_countLaw _ _ hl)

theorem execConditionedInputRawChange_balanced (i : Input) (l : Bool) (hl : CountLaw s) :
    BalancedIn (execConditionedInputRawChange i l s) := by
  unfold execConditionedInputRawChange; split
  · exact .next (putButton_countLaw _ _ hl)
  · exact .next hl
  · exact .next hl

theorem execPurgeHoldExpiry_balanced (hl : CountLaw s) : BalancedIn (execPurgeHoldExpiry s) := by
  unfold execPurgeHoldExpiry; split
  · exact .next hl
  · split
    · exact .next (purge_countLaw hl)
    · exact .next hl

theorem execJetPulseExpiry_balanced (j : Jet) (hl : CountLaw s) :
    BalancedIn (execJetPulseExpiry j s) := by cases j <;> exact .guarded hl hl

theorem execTransmitStart_balanced (hl : CountLaw s) : BalancedIn (execTransmitStart s) := by
  unfold execTransmitStart; split
  · exact .next hl
  · exact .guarded hl hl

theorem execFrameSent_balanced (hl : CountLaw s) : BalancedIn (execFrameSent s) := by
  have hsent : CountLaw { s with link := dequeueSent s.link } := hl
  exact .guarded hl
    ((evalIfKeptChanged_keeps _ s).countLaw_of_tracks (by decide) (by decide) hsent)

theorem execDisplayDigitRefresh_balanced (hl : CountLaw s) :
    BalancedIn (execDisplayDigitRefresh s) := by
  unfold execDisplayDigitRefresh; split <;> exact .next hl

/-- Every command keeps the balance. -/
theorem exec_balanced (i : Instr) (hl : CountLaw s) : BalancedIn (exec i s) := by
  cases i with
  | reset => exact .next (afterReset_countLaw s)
  | loadComplete img =>
    change BalancedIn (execLoadComplete img s)
    exact execLoadComplete_balanced img hl
  | encoderPulse => exact .guarded hl (pulseInOrder_countLaw _ hl)
  | windowEnd => exact .guarded hl (windowEnd_countLaw hl)
  | eyeRawChange e l => exact execEyeRawChange_balanced e l hl
  | edgeRecognition e => exact execEdgeRecognition_balanced e hl
  | conditionedInputRawChange i l => exact execConditionedInputRawChange_balanced i l hl
  | stopPress => exact .guarded hl (pressStop_countLaw hl)
  | runPress => exact .guarded hl (pressRun_countLaw hl)
  | selectPress => exact .guarded hl hl
  | closePress => exact .guarded hl (pressClose_countLaw hl)
  | buttonRelease b => exact .guarded hl (releaseButton_countLaw b hl)
  | bayHighRise b => exact .guarded hl (closeBay_countLaw b _ (setBayInput_countLaw .high b true hl))
  | bayClearRise b => exact .guarded hl (clearBay_countLaw b (setBayInput_countLaw .clear b true hl))
  | bayInputFall b i => exact .guarded hl (setBayInput_countLaw i b false hl)
  | purgeHoldExpiry => exact execPurgeHoldExpiry_balanced hl
  | timeBaseTick => exact .guarded hl (tickWindows_countLaw hl)
  | ghost => exact .guarded hl (ghostOldest_countLaw hl)
  | jetPulseExpiry j => exact execJetPulseExpiry_balanced j hl
  | settleTimerExpiry b => exact .guarded hl (settleExpire_countLaw b hl)
  | dischargeTimeout b => exact .guarded hl (putBay_countLaw b _ hl)
  | pusherPulseExpiry b => exact .guarded hl hl
  | stopFrame n r => exact .next (receiveFrame_countLaw n _ hl)
  | runFrame n => exact .next (receiveFrame_countLaw n _ hl)
  | startFrame n up down => exact .next (receiveFrame_countLaw n _ hl)
  | announceFrame n seq lot code len flags => exact .next (receiveFrame_countLaw n _ hl)
  | lotEndFrame n seq lot => exact .next (receiveFrame_countLaw n _ hl)
  | paceFrame n gap => exact .next (receiveFrame_countLaw n _ hl)
  | tallyQuery n target item index => exact .next (receiveFrame_countLaw n _ hl)
  | framePassedOver n body => exact .next (receiveFrame_countLaw n body hl)
  | damagedFrame bits => exact .next (receiveBits_countLaw bits hl)
  | transmitStart => exact execTransmitStart_balanced hl
  | arbitrationLost => exact .guarded hl hl
  | bitError => exact .guarded hl hl
  | frameSent => exact execFrameSent_balanced hl
  | displayDigitRefresh => exact execDisplayDigitRefresh_balanced hl
  | lineIdle => exact .guarded hl (seeIdle_countLaw hl)

/-- Taking the front command off the queue is no change the balance reads. -/
theorem step_countLaw (hl : CountLaw s) (h : step s = .next t) : CountLaw t := by
  unfold step at h; split at h
  next => cases h; exact hl
  next i rest _ =>
    have hrest : CountLaw { s with pending := rest } := hl
    exact exec_balanced i hrest t h

/-- Settles O56: the reset ledger balances, and every command keeps the balance. -/
theorem everyStepKeepsTheBalance : Obligations.EveryStepKeepsTheBalance :=
  ⟨reset_countLaw, fun _ _ => step_countLaw⟩

end Sys2Proof.Machine
end

section
/-! SUPPORT. The frames of the composed operations and of the commands: which parts of State each may
change. `commandParts` gives them for every command but reset and load. -/

namespace Sys2Proof.Machine

variable {s t u : State}

/-! ## Changes under a condition and in a row -/

/-- A change made under a condition. -/
theorem KeepsBut.ite {ps : List Part} {c : Prop} [Decidable c] (h : KeepsBut ps s t) :
    KeepsBut ps s (if c then t else s) := by
  split
  · exact h
  · exact KeepsBut.refl _ _

theorem KeepsBut.foldl {α : Type} {ps : List Part} {f : State → α → State}
    (h : ∀ s a, KeepsBut ps s (f s a)) (l : List α) : ∀ s, KeepsBut ps s (l.foldl f s) := by
  induction l with
  | nil => exact KeepsBut.refl _
  | cons a l ih => exact fun s => (h s a).trans (ih _)

/-- The later change first, so that it fixes the state between. -/
theorem KeepsBut.after {ps : List Part} (h2 : KeepsBut ps t u) (h1 : KeepsBut ps s t) :
    KeepsBut ps s u := h1.trans h2

variable (s)

/-! ## Named updates -/

theorem putEye_keeps (e : Eye) (ch : EyeChannel) : KeepsBut [eyePart e] s (putEye e ch s) := by
  intro p hp; cases e <;> cases p <;> simp_all [Part.same, putEye, eyePart]

theorem setLine_keeps (l : LineView) : KeepsBut [.line] s (setLine l s) := by
  intro p hp; cases p <;> simp_all [Part.same, setLine]

theorem setOwner_keeps (o : Option ExitOwner) : KeepsBut [.exitOwner] s (setOwner o s) := by
  intro p hp; cases p <;> simp_all [Part.same, setOwner]

theorem markUntracked_keeps : KeepsBut [.untracked] s (markUntracked s) := by
  intro p hp; cases p <;> simp_all [Part.same, markUntracked]

theorem clearUntracked_keeps :
    KeepsBut [.untracked] s { s with eyes := { s.eyes with untracked := false } } := by
  intro p hp; cases p <;> simp_all [Part.same]

theorem putButton_keeps (b : Button) (x : CondInput) : KeepsBut [.buttons] s (putButton b x s) := by
  intro p hp; cases b <;> cases p <;> simp_all [Part.same, putButton]

theorem startHold_keeps (r : Bool) : KeepsBut [.purgeHold] s (startHold r s) := by
  intro p hp; cases p <;> simp_all [Part.same, startHold]

theorem setBayInput_keeps (i : BayInput) (b : BayNo) (l : Bool) :
    KeepsBut [match i with | .high => .bayHigh | .clear => .bayClear] s (setBayInput i b l s) := by
  intro p hp; cases i <;> cases p <;> simp_all [Part.same, setBayInput]

theorem setBays_keeps (x : Four Bay) : KeepsBut [.bays] s { s with bays := x } := by
  intro p hp; cases p <;> simp_all [Part.same]

theorem countEntered_keeps : KeepsBut [.fates] s (countEntered s) := by
  intro p hp; cases p <;> simp_all [Part.same, countEntered]

theorem countOverrun_keeps : KeepsBut [.events] s (countOverrun s) := by
  intro p hp; cases p <;> simp_all [Part.same, countOverrun]

theorem countLine_events_keeps (ev : TallyEvent) (n : Nat)
    (h : ev = .seqGap ∨ ev = .syncLoss ∨ ev = .expectOverflow ∨ ev = .stray ∨ ev = .linkCheck) :
    KeepsBut [.events, .counters] s (countLine ev n s) := by
  intro p hp
  rcases h with rfl | rfl | rfl | rfl | rfl <;> cases p <;>
    simp_all [Part.same, countLine, offerTally, bumpCounts]

theorem advancePulse_keeps :
    KeepsBut [.position, .window, .schedule, .openCount] s (advancePulse s) := by
  have hbelt : ∀ x : BeltUnit, (countPulse x).v = x.v ∧ (countPulse x).speedSaturated = x.speedSaturated
      ∧ (countPulse x).highArmed = x.highArmed ∧ (countPulse x).highRearm = x.highRearm
      ∧ (countPulse x).speedHigh = x.speedHigh ∧ (countPulse x).lowArmed = x.lowArmed
      ∧ (countPulse x).lowRearm = x.lowRearm ∧ (countPulse x).grace = x.grace
      ∧ (countPulse x).run = x.run := by
    intro x; unfold countPulse; dsimp only; split <;> simp
  obtain ⟨hv, hss, hha, hhr, hsh, hla, hlr, hg, hr⟩ := hbelt s.belt
  intro p hp; cases p <;> simp_all [Part.same, advancePulse]

/-! ## The schedule -/

/-- What the firing of an entry may change (R118 to R122). -/
def fireParts : List Part := [.jetA, .jetB, .gates, .reject] ++ fateParts

theorem fireJet_keeps (j : Jet) : KeepsBut [.jetA, .jetB] s (fireJet j s) := by
  intro p hp; cases j <;> cases p <;> simp_all [Part.same, fireJet]

theorem setGate_keeps (g : Gate) (o : Bool) : KeepsBut [.gates, .reject] s (setGate g o s) := by
  intro p hp; cases g <;> cases p <;> simp_all [Part.same, setGate]

theorem closeFate_keeps (g : Gate) (n : LocalNo) : KeepsBut fateParts s (closeFate g s n) := by
  cases g
  case bay b => exact stackPiece_keeps s b n
  case reject => exact endPiece_keeps s _ n

theorem checkExit_keeps (n : LocalNo) : KeepsBut fateParts s (checkExit s n) := by
  unfold checkExit; split
  · split
    · exact KeepsBut.refl _ _
    · exact endPiece_keeps s _ n
  · exact KeepsBut.refl _ _

theorem fireEntry_keeps (e : SchedEntry) : KeepsBut fireParts s (fireEntry e s) := by
  unfold fireEntry; split
  · exact (fireJet_keeps s _).mono (by decide)
  · exact (setGate_keeps s _ _).mono (by decide)
  next g _ =>
    exact ((setGate_keeps s g false).mono (by decide)).trans
      ((KeepsBut.foldl (fun s n => closeFate_keeps s g n) _ _).mono (by decide))
  · exact (KeepsBut.foldl checkExit_keeps _ _).mono (by decide)

theorem setSchedule_keeps (x : List SchedEntry) : KeepsBut [.schedule] s { s with schedule := x } := by
  intro p hp; cases p <;> simp_all [Part.same]

theorem fireReached_keeps (n : Nat) : ∀ s, KeepsBut fireParts s (fireReached n s) := by
  induction n with
  | zero => exact KeepsBut.refl _
  | succ n ih =>
    intro s; unfold fireReached; split
    · exact KeepsBut.refl _ _
    · split
      · exact (((setSchedule_keeps s _).mono (by decide)).trans (fireEntry_keeps _ _)).trans (ih _)
      · exact KeepsBut.refl _ _

theorem fireSchedule_keeps : KeepsBut fireParts s (fireSchedule s) := fireReached_keeps _ s

/-! ## Planning and arrival -/

/-- What a planning may change (R70 to R79). -/
def planParts : List Part := [.table, .schedule, .nextSerial, .events] ++ markerParts

theorem skipAhead_keeps (cand : Piece) (w : Work) :
    KeepsBut (.events :: markerParts) s (skipAhead cand w s).2 :=
  ((((setTracks_keeps _ s).mono (by decide)).trans
    ((countPiece_keeps_fates _ _ _ _ (by simp)).mono (by decide))).trans
      ((countPiece_keeps_fates _ _ _ _ (by simp)).mono (by decide))).trans
        ((lookAtHead_keeps _).mono (by decide))

theorem stageJudge_keeps (w : Work) : KeepsBut (.events :: markerParts) s (stageJudge w s).2 := by
  unfold stageJudge; split
  · exact KeepsBut.refl _ _
  · split
    · exact KeepsBut.refl _ _
    · split
      · exact KeepsBut.refl _ _
      · split
        · split
          · exact skipAhead_keeps s _ w
          · exact (countPiece_keeps_fates _ _ _ _ (by simp)).mono (by decide)
        · exact KeepsBut.refl _ _

theorem planStages_keeps (w : Work) : KeepsBut planParts s (planStages w s) := by
  unfold planStages; dsimp only
  refine KeepsBut.after ((setTracks_keeps _ _).mono (by decide)) ?_
  refine KeepsBut.after ((stageInsert_keeps _ _).mono (by decide)) ?_
  refine KeepsBut.after ((stageRoute_keeps _ _).mono (by decide)) ?_
  refine KeepsBut.after ((stageFold_keeps _ _).mono (by decide)) ?_
  refine KeepsBut.after ((stageResolve_keeps _ _).mono (by decide)) ?_
  exact (stageJudge_keeps _ _).mono (by decide)

theorem planPiece_keeps (p : Pos) : KeepsBut planParts s (planPiece p s) := by
  unfold planPiece; split
  · exact KeepsBut.refl _ _
  · exact planStages_keeps _ _

theorem consumeOldest_keeps : KeepsBut markerParts s (consumeOldest s) :=
  .ite (((setTracks_keeps _ s).mono (by decide)).trans (lookAtHead_keeps _))

/-- What an arrival may change (R59 to R62). -/
def arriveParts : List Part :=
  [.untracked, .nextLocal, .fates, .events] ++ markerParts ++ stopParts

theorem overrun_keeps : KeepsBut arriveParts s (overrun s) :=
  ((((consumeOldest_keeps s).mono (by decide)).trans ((countOverrun_keeps _).mono (by decide))).trans
    ((markUntracked_keeps _).mono (by decide))).trans ((addReason_keeps _ _).mono (by decide))

/-- The list and the next local piece number replaced, as an arrival does (R59 to R61). -/
theorem setArrived_keeps (xs : List Record) (n : LocalNo) :
    KeepsBut [.tracks, .nextLocal] s { s with tracks := xs, nextLocal := n } := by
  intro p hp; cases p <;> simp_all [Part.same]

theorem arrive_keeps (q : Pos) : KeepsBut arriveParts s (arrive q s) := by
  have hset := fun xs n => (setArrived_keeps s xs n).mono (qs := arriveParts) (by decide)
  unfold arrive; dsimp only; split
  · exact overrun_keeps s
  · split
    · exact ((hset _ _).trans ((countEntered_keeps _).mono (by decide))).trans
        ((evalPace_keeps _).mono (by decide))
    · split
      · exact overrun_keeps s
      · exact (((hset _ _).trans ((countEntered_keeps _).mono (by decide))).trans
          ((countPiece_keeps_fates _ _ _ _ (by simp)).mono (by decide))).trans
          ((evalPace_keeps _).mono (by decide))

/-! ## Eyes, pulses and windows -/

theorem testJam_keeps (e : Eye) : KeepsBut (eyePart e :: stopParts) s (testJam e s) := by
  unfold testJam; dsimp only; split
  · exact KeepsBut.refl _ _
  · split
    · exact ((putEye_keeps s e _).mono (by simp)).trans
        ((addReason_keeps _ _).mono fun _ => List.mem_cons_of_mem _)
    · exact KeepsBut.refl _ _

theorem strayEdge_keeps : KeepsBut [.exitOwner, .events, .counters] s (strayEdge s) :=
  ((setOwner_keeps s (some .ignored)).mono (by decide)).trans
    ((countLine_events_keeps _ .stray 1 (by simp)).mono (by decide))

theorem judgeExit_keeps (q : Pos) :
    KeepsBut [.exitOwner, .tracks, .schedule, .events, .counters] s (judgeExit q s) := by
  unfold judgeExit; split
  · exact (strayEdge_keeps s).mono (by decide)
  · split
    · intro p hp; cases p <;> simp_all [Part.same]
    · exact (strayEdge_keeps s).mono (by decide)

/-- What a recognised edge may change (R20 to R29). -/
def edgeParts : List Part := [.entryEye, .exitEye, .exitOwner, .schedule] ++ arriveParts

theorem eyePart_mem_edgeParts (e : Eye) : eyePart e ∈ edgeParts := by cases e <;> decide

theorem putEye_keeps_edgeParts (e : Eye) (ch : EyeChannel) : KeepsBut edgeParts s (putEye e ch s) :=
  (putEye_keeps s e ch).mono (by simpa using eyePart_mem_edgeParts e)

theorem testJam_keeps_edgeParts (e : Eye) : KeepsBut edgeParts s (testJam e s) :=
  (testJam_keeps s e).mono (by cases e <;> decide)

theorem leadingEdge_keeps (e : Eye) (q : Pos) : KeepsBut edgeParts s (leadingEdge e q s) := by
  unfold leadingEdge; dsimp only; split
  · exact (putEye_keeps_edgeParts s e _).trans (testJam_keeps_edgeParts _ e)
  · refine KeepsBut.after (t := putEye e { eyeOf e s with coveredSince := some q } s) ?_
      (putEye_keeps_edgeParts s e _)
    cases e
    · exact (arrive_keeps _ q).mono (by decide)
    · exact (judgeExit_keeps _ q).mono (by decide)

theorem recogniseEdge_keeps (e : Eye) (p : PendingEdge) : KeepsBut edgeParts s (recogniseEdge e p s) := by
  unfold recogniseEdge; dsimp only; split
  · exact (putEye_keeps_edgeParts s e _).trans (leadingEdge_keeps _ e _)
  · exact putEye_keeps_edgeParts s e _

/-- What the keys of an eye may change at a pulse (R23, R24). -/
def keyParts : List Part :=
  [.entryEye, .exitEye, .untracked, .exitOwner, .fates] ++ planParts ++ stopParts

theorem passOwned_keeps : KeepsBut fateParts s (passOwned s) := by
  unfold passOwned; split
  · exact passPiece_keeps s _
  · exact KeepsBut.refl _ _
  · exact KeepsBut.refl _ _

theorem reportConfirmed_keeps (e : Eye) (p : Pos) : KeepsBut keyParts s (reportConfirmed e p s) := by
  cases e
  case entry =>
    change KeepsBut keyParts s (confirmEntry p s)
    unfold confirmEntry; split
    · exact (clearUntracked_keeps s).mono (by decide)
    · exact (planPiece_keeps s p).mono (by decide)
  case exit =>
    exact ((passOwned_keeps s).mono (by decide)).trans ((setOwner_keeps _ none).mono (by decide))

theorem testConfirm_keeps (e : Eye) : KeepsBut keyParts s (testConfirm e s) := by
  unfold testConfirm; dsimp only; split
  · exact KeepsBut.refl _ _
  · split
    · exact ((putEye_keeps s e _).mono (by cases e <;> decide)).trans (reportConfirmed_keeps _ e _)
    · exact KeepsBut.refl _ _

theorem testEyeKeys_keeps (e : Eye) : KeepsBut keyParts s (testEyeKeys e s) :=
  (testConfirm_keeps s e).trans ((testJam_keeps _ e).mono (by cases e <;> decide))

/-- What a pulse may change once it is counted (R2, R70, R117). -/
def reachParts : List Part := fireParts ++ keyParts

theorem reachKeys_keeps (o : PulseOrder) : KeepsBut reachParts s (reachKeys o s) := by
  have hk := fun e s => (testEyeKeys_keeps s e).mono (qs := reachParts) (by decide)
  have hf := fun s => (fireSchedule_keeps s).mono (qs := reachParts) (by decide)
  cases o
  case nxs => exact ((hk .entry s).trans (hk .exit _)).trans (hf _)
  case nsx => exact ((hk .entry s).trans (hf _)).trans (hk .exit _)
  case xns => exact ((hk .exit s).trans (hk .entry _)).trans (hf _)
  case xsn => exact ((hk .exit s).trans (hf _)).trans (hk .entry _)
  case snx => exact ((hf s).trans (hk .entry _)).trans (hk .exit _)
  case sxn => exact ((hf s).trans (hk .exit _)).trans (hk .entry _)

/-- What an encoder pulse may change. -/
def encoderParts : List Part := [.position, .window, .schedule, .openCount] ++ reachParts

theorem pulseInOrder_keeps (o : PulseOrder) : KeepsBut encoderParts s (pulseInOrder o s) :=
  ((advancePulse_keeps s).mono (by decide)).trans ((reachKeys_keeps _ o).mono (by decide))

theorem closeWindow_highAlarm_keeps (c : Settings) :
    KeepsBut [.window, .speed, .high] s (setBelt (highAlarm c (closeWindow s.belt)) s) := by
  have hbelt : ∀ x : BeltUnit, (highAlarm c x).position = x.position ∧ (highAlarm c x).lowArmed = x.lowArmed
      ∧ (highAlarm c x).lowRearm = x.lowRearm ∧ (highAlarm c x).grace = x.grace
      ∧ (highAlarm c x).run = x.run := by
    intro x; unfold highAlarm; (repeat' split) <;> simp
  obtain ⟨hp, hla, hlr, hg, hr⟩ := hbelt (closeWindow s.belt)
  intro p hp'; cases p <;> simp_all [Part.same, setBelt] <;> simp [closeWindow]

theorem spendGrace_keeps : KeepsBut [.grace] s (setBelt (spendGrace s.belt) s) := by
  unfold spendGrace; split <;> (intro p hp; cases p <;> simp_all [Part.same, setBelt])

theorem disarmLow_keeps :
    KeepsBut [.low] s (setBelt { s.belt with lowArmed := false, lowRearm := 0 } s) := by
  intro p hp; cases p <;> simp_all [Part.same, setBelt]

theorem lowRearmRun_keeps (c : Settings) : KeepsBut [.low] s (setBelt (lowRearmRun c s.belt) s) := by
  unfold lowRearmRun; (repeat' split) <;> (intro p hp; cases p <;> simp_all [Part.same, setBelt])

theorem stallTest_keeps : KeepsBut stopParts s (stallTest s) := by
  unfold stallTest; split
  · exact ((disarmLow_keeps s).mono (by decide)).trans (addReason_keeps _ _)
  · exact (spendGrace_keeps s).mono (by decide)

/-- What a window end may change (R6 to R12). -/
def windowParts : List Part := [.window, .speed, .high] ++ stopParts

theorem windowEnd_keeps : KeepsBut windowParts s (windowEnd s) :=
  ((((closeWindow_highAlarm_keeps s s.settings).mono (by decide)).trans
    ((followLamp_keeps _).mono (by decide))).trans ((stallTest_keeps _).mono (by decide))).trans
      ((lowRearmRun_keeps _ _).mono (by decide))

/-! ## Windows and admission -/

theorem ghostOldest_keeps : KeepsBut (.events :: markerParts) s (ghostOldest s) := by
  unfold ghostOldest; split
  · exact (((setTracks_keeps _ s).mono (by decide)).trans
      ((countPiece_keeps_fates _ _ _ _ (by simp)).mono (by decide))).trans
        ((lookAtHead_keeps _).mono (by decide))
  · exact KeepsBut.refl _ _

theorem ghostAll_keeps (n : Nat) : ∀ s, KeepsBut (.events :: markerParts) s (ghostAll n s) := by
  induction n with
  | zero => exact KeepsBut.refl _
  | succ n ih => exact fun s => .ite ((ghostOldest_keeps s).trans (ih _))

theorem tickWindows_keeps : KeepsBut (.events :: markerParts) s (tickWindows s) :=
  ((setTracks_keeps _ s).mono (by decide)).trans (ghostAll_keeps _ _)

theorem appendRecord_keeps (r : Record) : KeepsBut [.tracks, .events, .counters] s (appendRecord r s) := by
  unfold appendRecord; split
  · exact (setTracks_keeps _ s).mono (by decide)
  · exact (countLine_events_keeps s _ _ (by simp)).mono (by decide)

theorem appendPlaceholders_keeps (n : Nat) : ∀ q s,
    KeepsBut [.tracks, .events, .counters] s (appendPlaceholders n q s) := by
  induction n with
  | zero => exact fun _ => KeepsBut.refl _
  | succ n ih => exact fun q s => (appendRecord_keeps s _).trans (ih _ _)

theorem setExpected_keeps (e : Option Seq) :
    KeepsBut [.expectedSeq] s { s with link := { s.link with expectedSeq := e } } := by
  intro p hp; cases p <;> simp_all [Part.same]

/-- What an admission from upstream may change before the list looks at its head (R54, R56). -/
def admitParts : List Part := [.expectedSeq, .tracks, .events, .counters]

theorem appendChecked_keeps (q : Seq) (r : Record) : KeepsBut admitParts s (appendChecked q r s) := by
  have hset := (setExpected_keeps s (some (q + 1#8))).mono (qs := admitParts) (by decide)
  unfold appendChecked; dsimp only; split
  · exact hset.trans ((appendRecord_keeps _ r).mono (by decide))
  · split
    · exact ((hset.trans ((countLine_events_keeps _ _ _ (by simp)).mono (by decide))).trans
        ((appendPlaceholders_keeps _ _ _).mono (by decide))).trans
          ((appendRecord_keeps _ r).mono (by decide))
    · exact (hset.trans ((countLine_events_keeps _ _ _ (by simp)).mono (by decide))).trans
        ((appendRecord_keeps _ r).mono (by decide))

/-! ## The link -/

/-- What an accepted frame may change (R150 to R155, R169 to R171). -/
def acceptParts : List Part := [.others, .run, .grace, .low, .expectedSeq, .events] ++ markerParts

/-- What a received frame may change: the line is busy besides (R160, R168). -/
def receiveParts : List Part := .line :: acceptParts

theorem takeHandover_keeps (q : Seq) (r : Record) : KeepsBut acceptParts s (takeHandover q r s) := by
  unfold takeHandover; split
  · exact KeepsBut.refl _ _
  · exact ((appendChecked_keeps s q r).mono (by decide)).trans ((lookAtHead_keeps _).mono (by decide))

theorem setOthers_keeps (others : List Nat) :
    KeepsBut [.others, .run, .grace, .low, .lamp] s (setStops { s.stops with others := others } s) := by
  have h0 := setStops_keeps s { s.stops with others := others }
  intro p hp
  by_cases hown : p = .own
  · subst hown; simp [Part.same]
  · exact h0 p (by simp_all)

theorem upstreamRestart_keeps : KeepsBut (.expectedSeq :: sendParts) s (upstreamRestart s) := by
  have hset := (setExpected_keeps s none).mono (qs := .expectedSeq :: sendParts) (by decide)
  unfold upstreamRestart; dsimp only; split
  · exact hset
  · exact hset.trans ((askFrame_keeps _ _).mono (by decide))

theorem takeStart_keeps (n : Nat) : KeepsBut acceptParts s (takeStart n s) :=
  ((((setOthers_keeps s _).mono (by decide)).trans
    (KeepsBut.ite ((upstreamRestart_keeps _).mono (by decide)))).trans
      (KeepsBut.ite ((setPaceIn_keeps _ _).mono (by decide))))

theorem acceptFrame_keeps (n : Nat) (body : FrameBody) : KeepsBut acceptParts s (acceptFrame n body s) := by
  cases body
  case stop => exact (setOthers_keeps s _).mono (by decide)
  case run => exact (setOthers_keeps s _).mono (by decide)
  case start => exact takeStart_keeps s n
  case announce => exact KeepsBut.ite (takeHandover_keeps s _ _)
  case lotEnd => exact KeepsBut.ite (takeHandover_keeps s _ _)
  case pace => exact KeepsBut.ite ((setPaceIn_keeps s _).mono (by decide))
  case stack => exact KeepsBut.refl _ _
  case tallyQuery => exact KeepsBut.ite ((askFrame_keeps s _).mono (by decide))
  case tally => exact KeepsBut.refl _ _

/-- A frame that fails a judgement: the line is busy and the frame is counted (R168). -/
theorem discardFrame_keeps :
    KeepsBut [.line, .events, .counters] s (countLine .linkCheck 1 (setLine .busy s)) :=
  ((setLine_keeps s _).mono (by decide)).trans
    ((countLine_events_keeps _ _ _ (by simp)).mono (by decide))

theorem receiveFrame_keeps (n : BitVec 5) (body : FrameBody) :
    KeepsBut receiveParts s (receiveFrame n body s) := by
  have hline := (setLine_keeps s .busy).mono (qs := receiveParts) (by decide)
  unfold receiveFrame; dsimp only; split
  · split
    · exact (discardFrame_keeps s).mono (by decide)
    · split
      · exact hline
      · exact hline.trans ((acceptFrame_keeps _ _ _).mono (by decide))
  · exact KeepsBut.refl _ _

theorem receiveBits_keeps (bits : List Bool) : KeepsBut receiveParts s (receiveBits bits s) := by
  unfold receiveBits; split
  · split
    · exact receiveFrame_keeps s _ _
    · exact KeepsBut.ite ((discardFrame_keeps s).mono (by decide))
    · exact KeepsBut.ite ((discardFrame_keeps s).mono (by decide))
  · exact KeepsBut.refl _ _

theorem seeIdle_keeps_events : KeepsBut [.line, .events, .counters] s (seeIdle s) := by
  have h := (setLine_keeps s .idle).mono (qs := [.line, .events, .counters]) (by decide)
  unfold seeIdle; split
  · exact KeepsBut.refl _ _
  · exact h.trans ((countLine_events_keeps _ _ _ (by simp)).mono (by decide))
  · exact KeepsBut.refl _ _
  · exact h
  · exact h

/-! ## The purge -/

/-- What a purge may change (R89, R125, R144, R31). -/
def purgeParts : List Part :=
  [.schedule, .jetA, .jetB, .gates, .reject, .untracked, .exitOwner, .fates, .purgeHold] ++ markerParts

theorem countPurged_keeps (l : Lot) (c : Code) :
    KeepsBut [.fates, .counters] s (countPiece .purged l c s) := by
  intro p hp; cases p <;> simp_all [Part.same, countPiece, offerTally, bumpCounts]

theorem purgePiece_keeps (n : LocalNo) :
    KeepsBut (([.fates, .tracks, .counters] : List Part) ++ sendParts) s (purgePiece s n) := by
  unfold purgePiece; split
  · exact KeepsBut.refl _ _
  · exact ((countPurged_keeps s _ _).mono (by decide)).trans ((takeOut_keeps _ _).mono (by decide))

theorem purgePieces_keeps :
    KeepsBut (([.fates, .tracks, .counters] : List Part) ++ sendParts) s (purgePieces s) :=
  KeepsBut.foldl purgePiece_keeps _ s

theorem purge_keeps : KeepsBut purgeParts s (purge s) :=
  (((((purgePieces_keeps s).mono (by decide)).trans ((purgeSchedule_keeps _).mono (by decide))).trans
    ((purgeBays_keeps _).mono (by decide))).trans ((purgeEyeChannels_keeps _).mono (by decide))).trans
      (((lookAtHead_keeps _).mono (by decide)).trans ((evalPace_keeps _).mono (by decide)))

theorem takePurge_keeps : KeepsBut purgeParts s (takePurge s) := by
  refine KeepsBut.after (purge_keeps _) ?_
  intro p hp; cases p <;> simp_all [Part.same, purgeParts]

/-! ## The panel and the bays -/

theorem pressStop_keeps : KeepsBut ([.buttons, .purgeHold] ++ stopParts) s (pressStop s) := by
  have hadd := ((putButton_keeps s .stop (recognised true)).mono
    (qs := [.buttons, .purgeHold] ++ stopParts) (by decide)).trans
      ((addReason_keeps _ .operator).mono (by decide))
  unfold pressStop; dsimp only; split
  · exact hadd.trans ((startHold_keeps _ _).mono (by decide))
  · exact hadd

theorem setOwn_keeps (own : ReasonSet) :
    KeepsBut [.own, .run, .grace, .low, .lamp] s (setStops { s.stops with own := own } s) := by
  have h0 := setStops_keeps s { s.stops with own := own }
  intro p hp
  by_cases hothers : p = .others
  · subst hothers; simp [Part.same]
  · exact h0 p (by simp_all)

theorem clearReasons_keeps : KeepsBut stopParts s (clearReasons s) := by
  have hset := (setOwn_keeps s (reasonsAfterRun s.eyes s.stops.own)).mono (qs := stopParts) (by decide)
  unfold clearReasons; dsimp only; split
  · exact hset.trans ((askFrame_keeps _ _).mono (by decide))
  · exact hset

theorem pressRun_keeps : KeepsBut ([.buttons, .purgeHold] ++ stopParts) s (pressRun s) := by
  have hput := (putButton_keeps s .run (recognised true)).mono
    (qs := [.buttons, .purgeHold] ++ stopParts) (by decide)
  unfold pressRun; dsimp only; split
  · exact hput.trans ((startHold_keeps _ _).mono (by decide))
  · exact hput.trans ((clearReasons_keeps _).mono (by decide))

theorem pressClose_keeps : KeepsBut (.buttons :: bayParts) s (pressClose s) := by
  have hput := (putButton_keeps s .close (recognised true)).mono (qs := .buttons :: bayParts) (by decide)
  unfold pressClose; dsimp only; split
  · exact hput.trans ((closeBay_keeps _ _ _).mono (by decide))
  · exact hput

theorem releaseButton_keeps (b : Button) : KeepsBut [.buttons, .purgeHold] s (releaseButton b s) := by
  intro p hp; cases b <;> cases p <;> simp_all [Part.same, releaseButton, putButton]

theorem clearBay_keeps (b : BayNo) : KeepsBut bayParts s (clearBay b s) :=
  .ite ((putBay_keeps s b _).mono (by decide))

/-! ## The commands -/

/-- What a command other than reset and load may change. -/
def commandParts : Instr → List Part
  | .reset => []
  | .loadComplete _ => []
  | .encoderPulse => encoderParts
  | .windowEnd => windowParts
  | .eyeRawChange e _ => [eyePart e]
  | .edgeRecognition _ => edgeParts
  | .conditionedInputRawChange _ _ => [.buttons, .bayHigh, .bayClear]
  | .stopPress => [.buttons, .purgeHold] ++ stopParts
  | .runPress => [.buttons, .purgeHold] ++ stopParts
  | .selectPress => [.buttons, .selected]
  | .closePress => .buttons :: bayParts
  | .buttonRelease _ => [.buttons, .purgeHold]
  | .bayHighRise _ => .bayHigh :: bayParts
  | .bayClearRise _ => .bayClear :: bayParts
  | .bayInputFall _ _ => [.bayHigh, .bayClear]
  | .purgeHoldExpiry => purgeParts
  | .timeBaseTick => .events :: markerParts
  | .ghost => .events :: markerParts
  | .jetPulseExpiry _ => [.jetA, .jetB]
  | .settleTimerExpiry _ => bayParts
  | .dischargeTimeout _ => bayParts
  | .pusherPulseExpiry _ => [.pushers]
  | .stopFrame _ _ => receiveParts
  | .runFrame _ => receiveParts
  | .startFrame _ _ _ => receiveParts
  | .announceFrame _ _ _ _ _ _ => receiveParts
  | .lotEndFrame _ _ _ => receiveParts
  | .paceFrame _ _ => receiveParts
  | .tallyQuery _ _ _ _ => receiveParts
  | .framePassedOver _ _ => receiveParts
  | .damagedFrame _ => receiveParts
  | .transmitStart => [.inFlight, .line]
  | .arbitrationLost => [.inFlight, .line]
  | .bitError => [.inFlight, .line]
  | .frameSent => [.inFlight, .line] ++ sendParts
  | .displayDigitRefresh => [.display]
  | .lineIdle => [.line, .events, .counters]

/-- Reset and load, the commands that begin every block anew. -/
def isRestart : Instr → Bool
  | .reset => true
  | .loadComplete _ => true
  | _ => false

variable {s}

/-- An outcome that, where it is a next state, changes no part outside the list. -/
def KeepsIn (ps : List Part) (s : State) (o : Host.Outcome State Fault Refusal) : Prop :=
  ∀ t, o = .next t → KeepsBut ps s t

theorem KeepsIn.next {ps : List Part} (h : KeepsBut ps s t) : KeepsIn ps s (.next t) := by
  rintro _ ⟨⟩; exact h

/-- A command that acts under a condition and leaves the state otherwise. -/
theorem KeepsIn.guarded {ps : List Part} {c : Prop} [Decidable c] (h : KeepsBut ps s t) :
    KeepsIn ps s (if c then .next t else .next s) := by
  split
  · exact .next h
  · exact .next (KeepsBut.refl _ _)

variable (s)

theorem execEyeRawChange_keeps (e : Eye) (l : EyeLevel) :
    KeepsIn [eyePart e] s (execEyeRawChange e l s) := by
  unfold execEyeRawChange; dsimp only; split
  · exact .next (KeepsBut.refl _ _)
  · split <;> exact .next (putEye_keeps _ _ _)

theorem execEdgeRecognition_keeps (e : Eye) : KeepsIn edgeParts s (execEdgeRecognition e s) := by
  unfold execEdgeRecognition; split
  · exact .next (KeepsBut.refl _ _)
  · exact .guarded (recogniseEdge_keeps _ _ _)

theorem setBayHigh_keeps (x : Four CondInput) : KeepsBut [.bayHigh] s { s with bayHigh := x } := by
  intro p hp; cases p <;> simp_all [Part.same]

theorem setBayClear_keeps (x : Four CondInput) : KeepsBut [.bayClear] s { s with bayClear := x } := by
  intro p hp; cases p <;> simp_all [Part.same]

theorem execConditionedInputRawChange_keeps (i : Input) (l : Bool) :
    KeepsIn [.buttons, .bayHigh, .bayClear] s (execConditionedInputRawChange i l s) := by
  unfold execConditionedInputRawChange; split
  · exact .next ((putButton_keeps _ _ _).mono (by decide))
  · exact .next ((setBayHigh_keeps s _).mono (by decide))
  · exact .next ((setBayClear_keeps s _).mono (by decide))

theorem setSelected_keeps (x : Option BayNo) :
    KeepsBut [.selected] s { s with panel := { s.panel with selected := x } } := by
  intro p hp; cases p <;> simp_all [Part.same]

theorem execPurgeHoldExpiry_keeps : KeepsIn purgeParts s (execPurgeHoldExpiry s) := by
  have hend := (endHold_keeps s).mono (qs := purgeParts) (by decide)
  unfold execPurgeHoldExpiry; split
  · exact .next (KeepsBut.refl _ _)
  · split
    · exact .next (hend.trans (takePurge_keeps _))
    · exact .next hend

theorem execJetPulseExpiry_keeps (j : Jet) : KeepsIn [.jetA, .jetB] s (execJetPulseExpiry j s) := by
  cases j <;> refine .guarded ?_ <;> intro p hp <;> cases p <;> simp_all [Part.same]

theorem setPushers_keeps (x : Four PulseOut) : KeepsBut [.pushers] s { s with pushers := x } := by
  intro p hp; cases p <;> simp_all [Part.same]

theorem setFlight_keeps (f : Option QFrame) (l : LineView) :
    KeepsBut [.inFlight, .line] s { s with link := { s.link with inFlight := f, line := l } } := by
  intro p hp; cases p <;> simp_all [Part.same]

theorem execTransmitStart_keeps : KeepsIn [.inFlight, .line] s (execTransmitStart s) := by
  unfold execTransmitStart; split
  · exact .next (KeepsBut.refl _ _)
  · exact .guarded (setFlight_keeps s _ _)

theorem dequeueSent_keeps :
    KeepsBut [.inFlight, .line, .queue] s { s with link := dequeueSent s.link } := by
  intro p hp; cases p <;> simp_all [Part.same, dequeueSent]

theorem execFrameSent_keeps : KeepsIn ([.inFlight, .line] ++ sendParts) s (execFrameSent s) :=
  .guarded (((dequeueSent_keeps s).mono (by decide)).trans
    ((evalIfKeptChanged_keeps _ _).mono (by decide)))

theorem execDisplayDigitRefresh_keeps : KeepsIn [.display] s (execDisplayDigitRefresh s) := by
  unfold execDisplayDigitRefresh; split <;>
    exact .next (by intro p hp; cases p <;> simp_all [Part.same, refreshDisplay])

/-- Every command but reset and load changes no part outside its list. -/
theorem exec_keeps {i : Instr} (hi : isRestart i = false) (h : exec i s = .next t) :
    KeepsBut (commandParts i) s t := by
  suffices hk : KeepsIn (commandParts i) s (exec i s) from hk t h
  have hrecv := fun n body => KeepsIn.next (receiveFrame_keeps s n body)
  cases i with
  | reset => cases hi
  | loadComplete img => cases hi
  | encoderPulse => exact .guarded (pulseInOrder_keeps s _)
  | windowEnd => exact .guarded (windowEnd_keeps s)
  | eyeRawChange e l => exact execEyeRawChange_keeps s e l
  | edgeRecognition e => exact execEdgeRecognition_keeps s e
  | conditionedInputRawChange i l => exact execConditionedInputRawChange_keeps s i l
  | stopPress => exact .guarded (pressStop_keeps s)
  | runPress => exact .guarded (pressRun_keeps s)
  | selectPress =>
    exact .guarded (((putButton_keeps s .select _).mono (by decide)).trans
      ((setSelected_keeps _ _).mono (by decide)))
  | closePress => exact .guarded (pressClose_keeps s)
  | buttonRelease b => exact .guarded (releaseButton_keeps s b)
  | bayHighRise b =>
    change KeepsIn (.bayHigh :: bayParts) s (execBayHighRise b s)
    exact .guarded (((setBayInput_keeps s .high b _).mono (by decide)).trans
      ((closeBay_keeps _ b _).mono (by decide)))
  | bayClearRise b =>
    change KeepsIn (.bayClear :: bayParts) s (execBayClearRise b s)
    exact .guarded (((setBayInput_keeps s .clear b _).mono (by decide)).trans
      ((clearBay_keeps _ b).mono (by decide)))
  | bayInputFall b i =>
    change KeepsIn [.bayHigh, .bayClear] s (execBayInputFall b i s)
    exact .guarded ((setBayInput_keeps s i b _).mono (by cases i <;> decide))
  | purgeHoldExpiry => exact execPurgeHoldExpiry_keeps s
  | timeBaseTick => exact .guarded (tickWindows_keeps s)
  | ghost => exact .guarded (ghostOldest_keeps s)
  | jetPulseExpiry j => exact execJetPulseExpiry_keeps s j
  | settleTimerExpiry b =>
    change KeepsIn bayParts s (execSettleTimerExpiry b s)
    exact .guarded (((setBays_keeps s _).mono (by decide)).trans (settleExpire_keeps _ b))
  | dischargeTimeout b =>
    change KeepsIn bayParts s (execDischargeTimeout b s)
    exact .guarded ((putBay_keeps s b _).mono (by decide))
  | pusherPulseExpiry b => exact .guarded (setPushers_keeps s _)
  | stopFrame n r => exact hrecv n _
  | runFrame n => exact hrecv n _
  | startFrame n up down => exact hrecv n _
  | announceFrame n seq lot code len flags => exact hrecv n _
  | lotEndFrame n seq lot => exact hrecv n _
  | paceFrame n gap => exact hrecv n _
  | tallyQuery n target item index => exact hrecv n _
  | framePassedOver n body => exact hrecv n body
  | damagedFrame bits => exact .next (receiveBits_keeps s bits)
  | transmitStart => exact execTransmitStart_keeps s
  | arbitrationLost => exact .guarded (setFlight_keeps s _ _)
  | bitError => exact .guarded (setFlight_keeps s _ _)
  | frameSent => exact execFrameSent_keeps s
  | displayDigitRefresh => exact execDisplayDigitRefresh_keeps s
  | lineIdle => exact .guarded (seeIdle_keeps_events s)

theorem station_not_mem_commandParts (i : Instr) : Part.station ∉ commandParts i := by
  cases i with
  | eyeRawChange e l => cases e <;> simp [commandParts, eyePart]
  | _ => simp [commandParts, encoderParts, reachParts, fireParts, fateParts, keyParts, planParts,
      windowParts, stopParts, sendParts, bayParts, edgeParts, arriveParts, markerParts, purgeParts,
      receiveParts, acceptParts]

theorem settings_not_mem_commandParts (i : Instr) : Part.settings ∉ commandParts i := by
  cases i with
  | eyeRawChange e l => cases e <;> simp [commandParts, eyePart]
  | _ => simp [commandParts, encoderParts, reachParts, fireParts, fateParts, keyParts, planParts,
      windowParts, stopParts, sendParts, bayParts, edgeParts, arriveParts, markerParts, purgeParts,
      receiveParts, acceptParts]

/-- A command other than reset and load leaves the station state. -/
theorem exec_station {i : Instr} (hi : isRestart i = false) (h : exec i s = .next t) :
    t.station = s.station := exec_keeps s hi h .station (station_not_mem_commandParts i)

/-! ## Laws along a step -/

variable {s}

/-- A law that does not read the queue of commands is kept by every step when every command keeps it. -/
theorem step_keeps_law {P : State → Prop} (hpend : ∀ s rest, P s → P { s with pending := rest })
    (hexec : ∀ i s t, P s → exec i s = .next t → P t) (hs : P s) (h : step s = .next t) : P t := by
  unfold step at h; split at h
  next => cases h; exact hs
  next i rest _ => exact hexec i _ t (hpend s rest hs) h

end Sys2Proof.Machine
end

section
/-! SUPPORT. The track list along a step (R50, R51): every command but the pulses, edges, ticks, frames and
the purge leaves the list; those shorten it, change records in their places, or add one within the limits. -/

namespace Sys2Proof.Machine

variable {s t : State}

/-- A change of the list to a part of it keeps the law. -/
theorem RecordLaw.of_sublist (hs : t.tracks.Sublist s.tracks) (hl : RecordLaw s) : RecordLaw t :=
  RecordsOk.sublist hl hs

theorem RecordLaw.ite {c : Prop} [Decidable c] (hl : RecordLaw s) (h : RecordLaw t) :
    RecordLaw (if c then t else s) := by
  split
  · exact h
  · exact hl

theorem RecordLaw.foldl {α : Type} {f : State → α → State} (h : ∀ s a, RecordLaw s → RecordLaw (f s a))
    (l : List α) (hl : RecordLaw s) : RecordLaw (l.foldl f s) :=
  List.foldlRecOn (motive := RecordLaw) l f hl fun _ hs a _ => h _ a hs

theorem evalPace_recordLaw (hl : RecordLaw s) : RecordLaw (evalPace s) :=
  (evalPace_keeps s).recordLaw (by decide) hl

theorem addReason_recordLaw (r : StopReason) (hl : RecordLaw s) : RecordLaw (addReason r s) :=
  (addReason_keeps s r).recordLaw (by decide) hl

theorem putEye_recordLaw (e : Eye) (ch : EyeChannel) (hl : RecordLaw s) : RecordLaw (putEye e ch s) :=
  (putEye_keeps s e ch).recordLaw (by cases e <;> decide) hl

theorem endPiece_recordLaw (f : Fate) (n : LocalNo) (hl : RecordLaw s) : RecordLaw (endPiece f n s) :=
  hl.of_sublist (endPiece_tracks_sublist f n s)

/-! ## Pulses -/

theorem closeFate_recordLaw (g : Gate) (n : LocalNo) (hl : RecordLaw s) : RecordLaw (closeFate g s n) := by
  cases g
  case bay b => exact hl.of_sublist (stackPiece_tracks_sublist b n s)
  case reject => exact endPiece_recordLaw _ n hl

theorem checkExit_recordLaw (n : LocalNo) (hl : RecordLaw s) : RecordLaw (checkExit s n) := by
  unfold checkExit; split
  · split
    · exact hl
    · exact endPiece_recordLaw _ n hl
  · exact hl

theorem fireEntry_recordLaw (e : SchedEntry) (hl : RecordLaw s) : RecordLaw (fireEntry e s) := by
  have hg : ∀ g o, RecordLaw (setGate g o s) := fun g o =>
    (setGate_keeps s g o).recordLaw (by decide) hl
  unfold fireEntry; split
  · exact (fireJet_keeps s _).recordLaw (by decide) hl
  · exact hg _ _
  · exact RecordLaw.foldl (fun _ n h => closeFate_recordLaw _ n h) _ (hg _ _)
  · exact RecordLaw.foldl (fun _ n h => checkExit_recordLaw n h) _ hl

theorem fireReached_recordLaw (n : Nat) : ∀ s : State, RecordLaw s → RecordLaw (fireReached n s) := by
  induction n with
  | zero => exact fun _ h => h
  | succ n ih =>
    intro s hl; unfold fireReached; split
    · exact hl
    · split
      · exact ih _ (fireEntry_recordLaw _ hl)
      · exact hl

theorem setTracks_recordLaw {xs : List Record} (hl : RecordLaw s)
    (hk : xs.map (fun r => (isUnseen r, isOnBelt r)) = s.tracks.map fun r => (isUnseen r, isOnBelt r)) :
    RecordLaw (setTracks xs s) := RecordsOk.of_kinds hl hk

theorem erase_recordLaw (p : Record → Bool) (hl : RecordLaw s) :
    RecordLaw (setTracks (s.tracks.eraseP p) s) := RecordsOk.sublist hl List.eraseP_sublist

theorem stageJudge_recordLaw (w : Work) (hl : RecordLaw s) : RecordLaw (stageJudge w s).2 := by
  unfold stageJudge; split
  · exact hl
  · split
    · exact hl
    · split
      · exact hl
      · split
        · split
          · exact lookAtHead_recordLaw (erase_recordLaw isUnseen hl)
          · exact hl
        · exact hl

theorem planPiece_recordLaw (q : Pos) (hl : RecordLaw s) : RecordLaw (planPiece q s) := by
  unfold planPiece; split
  · exact hl
  · unfold planStages; dsimp only
    refine setTracks_recordLaw ?_ (updateLocal_kinds _ _ (fun _ _ => rfl) _)
    refine (stageInsert_keeps _ _).recordLaw (by decide) ?_
    refine (stageRoute_keeps _ _).recordLaw (by decide) ?_
    refine (stageFold_keeps _ _).recordLaw (by decide) ?_
    refine (stageResolve_keeps _ _).recordLaw (by decide) ?_
    exact stageJudge_recordLaw _ hl

theorem confirmEntry_recordLaw (q : Pos) (hl : RecordLaw s) : RecordLaw (confirmEntry q s) := by
  unfold confirmEntry; split
  · exact hl
  · exact planPiece_recordLaw q hl

theorem passOwned_recordLaw (hl : RecordLaw s) : RecordLaw (passOwned s) := by
  unfold passOwned; split
  · exact hl.of_sublist (passPiece_tracks_sublist _ s)
  · exact hl
  · exact hl

theorem testJam_recordLaw (e : Eye) (hl : RecordLaw s) : RecordLaw (testJam e s) :=
  (testJam_keeps s e).recordLaw (by cases e <;> decide) hl

theorem testConfirm_recordLaw (e : Eye) (hl : RecordLaw s) : RecordLaw (testConfirm e s) := by
  unfold testConfirm; dsimp only; split
  · exact hl
  · split
    · cases e
      case entry => exact confirmEntry_recordLaw _ (putEye_recordLaw .entry _ hl)
      case exit => exact passOwned_recordLaw (putEye_recordLaw .exit _ hl)
    · exact hl

theorem testEyeKeys_recordLaw (e : Eye) (hl : RecordLaw s) : RecordLaw (testEyeKeys e s) :=
  testJam_recordLaw e (testConfirm_recordLaw e hl)

/-- What the two eyes and the schedule each keep, a pulse keeps in whatever order it takes them (log 7). -/
theorem reachKeys_keeps_law {P : State → Prop} (hk : ∀ e s, P s → P (testEyeKeys e s))
    (hf : ∀ s, P s → P (fireSchedule s)) (o : PulseOrder) (hl : P s) : P (reachKeys o s) := by
  cases o
  case nxs => exact hf _ (hk .exit _ (hk .entry _ hl))
  case nsx => exact hk .exit _ (hf _ (hk .entry _ hl))
  case xns => exact hf _ (hk .entry _ (hk .exit _ hl))
  case xsn => exact hk .entry _ (hf _ (hk .exit _ hl))
  case snx => exact hk .exit _ (hk .entry _ (hf _ hl))
  case sxn => exact hk .entry _ (hk .exit _ (hf _ hl))

theorem pulseInOrder_recordLaw (o : PulseOrder) (hl : RecordLaw s) : RecordLaw (pulseInOrder o s) :=
  reachKeys_keeps_law (fun e _ => testEyeKeys_recordLaw e) (fun _ => fireReached_recordLaw _ _) o hl

/-! ## Arrival and edges -/

theorem overrun_recordLaw (hl : RecordLaw s) : RecordLaw (overrun s) := by
  have hc : RecordLaw (consumeOldest s) := .ite hl (lookAtHead_recordLaw (erase_recordLaw _ hl))
  exact addReason_recordLaw _ hc

/-- A record is made only below both limits, and an orphan only behind a list with no unseen record (R50,
R51, R59 to R62). -/
theorem arrive_recordLaw (q : Pos) (hl : RecordLaw s) : RecordLaw (arrive q s) := by
  unfold arrive; dsimp only; split
  · exact overrun_recordLaw hl
  next hlim =>
    have hlt : onBeltCount s.tracks < 12 := Nat.lt_of_not_le hlim
    split
    next hu =>
      obtain ⟨hlen, -, horder⟩ := hl
      refine evalPace_recordLaw ⟨?_, ?_, pairFirst_order _ horder⟩
      · exact (pairFirst_length _ s.tracks).trans_le hlen
      · exact (pairFirst_count _ hu).trans_le hlt
    next hu =>
      split
      · exact overrun_recordLaw hl
      next hfull =>
        obtain ⟨-, -, horder⟩ := hl
        refine evalPace_recordLaw ⟨?_, ?_, ?_⟩
        · exact (List.length_append ..).trans_le (Nat.lt_of_not_le hfull)
        · exact (onBeltCount_append_orphan _ s.tracks).trans_le hlt
        · refine List.pairwise_append.2 ⟨horder, List.pairwise_singleton _ _, ?_⟩
          exact fun x hx _ _ hx' => absurd (List.any_eq_true.2 ⟨x, hx, hx'⟩) hu

theorem judgeExit_recordLaw (q : Pos) (hl : RecordLaw s) : RecordLaw (judgeExit q s) := by
  unfold judgeExit; split
  · exact hl
  · split
    · exact RecordsOk.of_kinds hl (updateLocal_kinds _ _ (fun _ _ => rfl) _)
    · exact hl

theorem recogniseEdge_recordLaw (e : Eye) (p : PendingEdge) (hl : RecordLaw s) :
    RecordLaw (recogniseEdge e p s) := by
  have hlead : ∀ (q : Pos) (s : State), RecordLaw s → RecordLaw (leadingEdge e q s) := by
    intro q s hl; unfold leadingEdge; dsimp only; split
    · exact testJam_recordLaw _ (putEye_recordLaw _ _ hl)
    · cases e
      case entry => exact arrive_recordLaw q (putEye_recordLaw .entry _ hl)
      case exit => exact judgeExit_recordLaw q (putEye_recordLaw .exit _ hl)
  unfold recogniseEdge; dsimp only; split
  · exact hlead _ _ (putEye_recordLaw _ _ hl)
  · exact putEye_recordLaw _ _ hl

/-! ## Run-outs, admission and the purge -/

theorem ghostOldest_recordLaw (hl : RecordLaw s) : RecordLaw (ghostOldest s) := by
  unfold ghostOldest; split
  · exact lookAtHead_recordLaw (erase_recordLaw hasRunOut hl)
  · exact hl

theorem ghostAll_recordLaw (n : Nat) : ∀ s : State, RecordLaw s → RecordLaw (ghostAll n s) := by
  induction n with
  | zero => exact fun _ h => h
  | succ n ih => exact fun s hl => .ite hl (ih _ (ghostOldest_recordLaw hl))

theorem tickWindows_recordLaw (hl : RecordLaw s) : RecordLaw (tickWindows s) :=
  ghostAll_recordLaw _ _ (setTracks_recordLaw hl (lowerWindow_kinds _))

theorem appendRecord_recordLaw {r : Record} (hr : isOnBelt r = false) (hl : RecordLaw s) :
    RecordLaw (appendRecord r s) := by
  unfold appendRecord; split
  next h => exact RecordsOk.append hl h hr
  · exact hl

theorem appendPlaceholders_recordLaw (n : Nat) : ∀ (q : Seq) (s : State), RecordLaw s →
    RecordLaw (appendPlaceholders n q s) := by
  induction n with
  | zero => exact fun _ _ h => h
  | succ n ih => exact fun q s hl => ih _ _ (appendRecord_recordLaw rfl hl)

theorem takeHandover_recordLaw {r : Record} (q : Seq) (hr : isOnBelt r = false) (hl : RecordLaw s) :
    RecordLaw (takeHandover q r s) := by
  unfold takeHandover; split
  · exact hl
  · refine lookAtHead_recordLaw ?_
    unfold appendChecked; dsimp only; split
    · exact appendRecord_recordLaw hr hl
    · split
      · exact appendRecord_recordLaw hr (appendPlaceholders_recordLaw _ _ _ hl)
      · exact appendRecord_recordLaw hr hl

theorem acceptFrame_recordLaw (n : Nat) (body : FrameBody) (hl : RecordLaw s) :
    RecordLaw (acceptFrame n body s) := by
  cases body
  case announce => exact .ite hl (takeHandover_recordLaw _ rfl hl)
  case lotEnd => exact .ite hl (takeHandover_recordLaw _ rfl hl)
  case stop => exact (setOthers_keeps s _).recordLaw (by decide) hl
  case run => exact (setOthers_keeps s _).recordLaw (by decide) hl
  case start =>
    have hrun : RecordLaw (takeRun n s) := (setOthers_keeps s _).recordLaw (by decide) hl
    have hup := RecordLaw.ite (c := n = s.settings.upstream) hrun
      ((upstreamRestart_keeps _).recordLaw (by decide) hrun)
    exact .ite hup ((setPaceIn_keeps _ 0).recordLaw (by decide) hup)
  case pace => exact .ite hl ((setPaceIn_keeps s _).recordLaw (by decide) hl)
  case stack => exact hl
  case tallyQuery => exact .ite hl ((askFrame_keeps s _).recordLaw (by decide) hl)
  case tally => exact hl

theorem receiveFrame_recordLaw (n : BitVec 5) (body : FrameBody) (hl : RecordLaw s) :
    RecordLaw (receiveFrame n body s) := by
  unfold receiveFrame; dsimp only; split
  · split
    · exact hl
    · split
      · exact hl
      · exact acceptFrame_recordLaw (s := setLine .busy s) _ _ hl
  · exact hl

theorem receiveBits_recordLaw (bits : List Bool) (hl : RecordLaw s) : RecordLaw (receiveBits bits s) := by
  unfold receiveBits; split
  · split
    · exact receiveFrame_recordLaw _ _ hl
    · exact .ite hl hl
    · exact .ite hl hl
  · exact hl

theorem purgePiece_recordLaw (s : State) (n : LocalNo) (hl : RecordLaw s) : RecordLaw (purgePiece s n) := by
  unfold purgePiece; split
  · exact hl
  · exact evalPace_recordLaw (erase_recordLaw (hasLocal n) hl)

theorem purge_recordLaw (hl : RecordLaw s) : RecordLaw (purge s) := by
  have hpieces := RecordLaw.foldl purgePiece_recordLaw
    ((s.tracks.filterMap beltOf).map fun x => x.2.localNo) hl
  have hbays := (purgeBays_keeps _).recordLaw (by decide)
    ((purgeSchedule_keeps _).recordLaw (by decide) hpieces)
  exact evalPace_recordLaw (lookAtHead_recordLaw ((purgeEyeChannels_keeps _).recordLaw (by decide) hbays))

/-! ## Every command -/

theorem emptyTracks_recordLaw (h : t.tracks = []) : RecordLaw t := by
  unfold RecordLaw; rw [h]; exact ⟨by decide, by decide, List.Pairwise.nil⟩

theorem enterActive_tracks (c : Settings) (table : List CategoryEntry) (map : List (Option Nat))
    (counters : List Counter) (s : State) : (enterActive c table map counters s).tracks = [] := by
  have hask := askRaw_keeps (startBlocks c table map counters s) (startFrameOf c) .tracks (by decide)
  exact (evalPace_keeps _ .tracks (by decide)).trans ((addReason_keeps _ _ .tracks (by decide)).trans hask)

/-- What a load ends in: FAULT, ACTIVE, or nothing where no load runs. -/
theorem execLoadComplete_cases {img : List Byte} (h : execLoadComplete img s = .next t) :
    (∃ code table map, s.station = .loading ∧ loadImage img = .failed code table map
        ∧ t = enterFault code table map s)
      ∨ (∃ c table map counters, s.station = .loading ∧ loadImage img = .loaded c table map counters
        ∧ t = enterActive c table map counters s)
      ∨ (s.station ≠ .loading ∧ t = s) := by
  unfold execLoadComplete at h; split at h
  next hs =>
    split at h
    next code table map hl => exact .inl ⟨code, table, map, hs, hl, (Host.Outcome.next.inj h).symm⟩
    next c table map counters hl => 
      exact .inr (.inl ⟨c, table, map, counters, hs, hl, (Host.Outcome.next.inj h).symm⟩)
  next hs => exact .inr (.inr ⟨hs, (Host.Outcome.next.inj h).symm⟩)

theorem execLoadComplete_recordLaw {img : List Byte} (hl : RecordLaw s)
    (h : execLoadComplete img s = .next t) : RecordLaw t := by
  rcases execLoadComplete_cases h with ⟨_, _, _, -, -, ht⟩ | ⟨_, _, _, _, -, -, ht⟩ | ⟨-, ht⟩
  · rw [ht]; exact emptyTracks_recordLaw rfl
  · rw [ht]; exact emptyTracks_recordLaw (enterActive_tracks ..)
  · rw [ht]; exact hl

/-- An outcome that, where it is a next state, meets a law. -/
def LawIn (P : State → Prop) (o : Host.Outcome State Fault Refusal) : Prop := ∀ t, o = .next t → P t

theorem LawIn.next {P : State → Prop} (h : P t) : LawIn P (.next t) := by rintro _ ⟨⟩; exact h

/-- A command that acts under a condition and leaves the state otherwise. -/
theorem LawIn.guarded {P : State → Prop} {c : Prop} [Decidable c] (hl : P s) (h : c → P t) :
    LawIn P (if c then .next t else .next s) := by
  split
  next hc => exact .next (h hc)
  · exact .next hl

theorem execEdgeRecognition_recordLaw (e : Eye) (hl : RecordLaw s) :
    LawIn RecordLaw (execEdgeRecognition e s) := by
  unfold execEdgeRecognition; split
  · exact .next hl
  · exact .guarded hl fun _ => recogniseEdge_recordLaw _ _ hl

theorem execPurgeHoldExpiry_recordLaw (hl : RecordLaw s) : LawIn RecordLaw (execPurgeHoldExpiry s) := by
  unfold execPurgeHoldExpiry; split
  · exact .next hl
  · split
    · exact .next (purge_recordLaw hl)
    · exact .next hl

theorem exec_recordLaw (i : Instr) (s t : State) (hl : RecordLaw s) (h : exec i s = .next t) :
    RecordLaw t := by
  have hkeep : isRestart i = false → Part.tracks ∉ commandParts i → RecordLaw t :=
    fun hi hp => (exec_keeps s hi h).recordLaw hp hl
  cases i with
  | reset => exact LawIn.next (emptyTracks_recordLaw rfl) t h
  | loadComplete img => exact execLoadComplete_recordLaw (img := img) hl h
  | encoderPulse => exact LawIn.guarded hl (fun _ => pulseInOrder_recordLaw _ hl) t h
  | edgeRecognition e => exact execEdgeRecognition_recordLaw e hl t h
  | purgeHoldExpiry => exact execPurgeHoldExpiry_recordLaw hl t h
  | timeBaseTick => exact LawIn.guarded hl (fun _ => tickWindows_recordLaw hl) t h
  | ghost => exact LawIn.guarded hl (fun _ => ghostOldest_recordLaw hl) t h
  | damagedFrame bits => exact LawIn.next (receiveBits_recordLaw bits hl) t h
  | stopFrame n r => exact LawIn.next (receiveFrame_recordLaw n _ hl) t h
  | runFrame n => exact LawIn.next (receiveFrame_recordLaw n _ hl) t h
  | startFrame n up down => exact LawIn.next (receiveFrame_recordLaw n _ hl) t h
  | announceFrame n seq lot code len flags => exact LawIn.next (receiveFrame_recordLaw n _ hl) t h
  | lotEndFrame n seq lot => exact LawIn.next (receiveFrame_recordLaw n _ hl) t h
  | paceFrame n gap => exact LawIn.next (receiveFrame_recordLaw n _ hl) t h
  | tallyQuery n target item index => exact LawIn.next (receiveFrame_recordLaw n _ hl) t h
  | framePassedOver n body => exact LawIn.next (receiveFrame_recordLaw n body hl) t h
  | eyeRawChange e l => exact hkeep rfl (by cases e <;> simp [commandParts, eyePart])
  | _ => exact hkeep rfl (by simp [commandParts, windowParts, stopParts, sendParts, bayParts])

/-- Settles O57: every command keeps the bounds and the order of the track list. -/
theorem everyStepKeepsTheTrackList : Obligations.EveryStepKeepsTheTrackList :=
  fun _ _ => step_keeps_law (fun _ _ h => h) exec_recordLaw

end Sys2Proof.Machine
end

section
/-! SUPPORT. The transmit queue along a step (R165, R166): every command is an asking for frames, leaves the
queue, takes the sent frame out of it, or begins it anew. -/

namespace Sys2Proof.Machine

variable {s t : State}

/-- Outside reset, load and FRAME_SENT a command comes to askings for frames. -/
def SendsIn (s : State) (o : Host.Outcome State Fault Refusal) : Prop := ∀ t, o = .next t → Sends s t

theorem SendsIn.next (h : Sends s t) : SendsIn s (.next t) := by rintro _ ⟨⟩; exact h

theorem SendsIn.guarded {c : Prop} [Decidable c] (h : Sends s t) :
    SendsIn s (if c then .next t else .next s) := by
  split
  · exact .next h
  · exact .next (.refl s)

theorem execEdgeRecognition_sends (e : Eye) : SendsIn s (execEdgeRecognition e s) := by
  unfold execEdgeRecognition; split
  · exact .next (.refl s)
  · exact .guarded (recogniseEdge_sends _ _ _)

theorem execPurgeHoldExpiry_sends : SendsIn s (execPurgeHoldExpiry s) := by
  unfold execPurgeHoldExpiry; split
  · exact .next (.refl s)
  · split
    · exact .next ((endHold_sends s).trans (takePurge_sends _))
    · exact .next (endHold_sends s)

theorem pressStop_sends : Sends s (pressStop s) := by
  have hadd : Sends s (addReason .operator (putButton .stop (recognised true) s)) :=
    (addReason_sends _ _).behind
  unfold pressStop; dsimp only; split
  · exact hadd.trans (.of_eq rfl rfl)
  · exact hadd

theorem clearReasons_sends : Sends s (clearReasons s) := by
  unfold clearReasons; dsimp only; split
  · exact (askFrame_sends _ _).after (setStops_sends s _)
  · exact setStops_sends s _

theorem pressRun_sends : Sends s (pressRun s) := by
  unfold pressRun; dsimp only; split
  · exact .of_eq rfl rfl
  · exact clearReasons_sends.behind

theorem pressClose_sends : Sends s (pressClose s) := by
  unfold pressClose; dsimp only; split
  · exact (closeBay_sends _ _ _).behind
  · exact .of_eq rfl rfl

theorem clearBay_sends (b : BayNo) : Sends s (clearBay b s) := by
  unfold clearBay; split
  · exact putBay_sends s b _
  · exact .refl s

theorem exec_sends {i : Instr} (hi : isRestart i = false) (hsent : i ≠ .frameSent)
    (h : exec i s = .next t) : Sends s t := by
  have hkeep : Part.queue ∉ commandParts i → Sends s t := fun hp => .of_keeps (exec_keeps s hi h) hp
  cases i with
  | reset => cases hi
  | loadComplete img => cases hi
  | frameSent => cases hsent rfl
  | encoderPulse => exact SendsIn.guarded (pulseInOrder_sends s _) t h
  | windowEnd => exact SendsIn.guarded (windowEnd_sends s) t h
  | edgeRecognition e => exact execEdgeRecognition_sends e t h
  | stopPress => exact SendsIn.guarded pressStop_sends t h
  | runPress => exact SendsIn.guarded pressRun_sends t h
  | closePress => exact SendsIn.guarded pressClose_sends t h
  | bayHighRise b => exact SendsIn.guarded (closeBay_sends _ b _).behind t h
  | bayClearRise b => exact SendsIn.guarded (clearBay_sends b).behind t h
  | purgeHoldExpiry => exact execPurgeHoldExpiry_sends t h
  | timeBaseTick => exact SendsIn.guarded (tickWindows_sends s) t h
  | ghost => exact SendsIn.guarded (ghostOldest_sends s) t h
  | settleTimerExpiry b => exact SendsIn.guarded (settleExpire_sends _ b).behind t h
  | dischargeTimeout b => exact SendsIn.guarded (putBay_sends s b _) t h
  | damagedFrame bits => exact SendsIn.next (receiveBits_sends s bits) t h
  | stopFrame n r => exact SendsIn.next (receiveFrame_sends s n _) t h
  | runFrame n => exact SendsIn.next (receiveFrame_sends s n _) t h
  | startFrame n up down => exact SendsIn.next (receiveFrame_sends s n _) t h
  | announceFrame n seq lot code len flags => exact SendsIn.next (receiveFrame_sends s n _) t h
  | lotEndFrame n seq lot => exact SendsIn.next (receiveFrame_sends s n _) t h
  | paceFrame n gap => exact SendsIn.next (receiveFrame_sends s n _) t h
  | tallyQuery n target item index => exact SendsIn.next (receiveFrame_sends s n _) t h
  | framePassedOver n body => exact SendsIn.next (receiveFrame_sends s n body) t h
  | eyeRawChange e l => exact hkeep (by cases e <;> simp [commandParts, eyePart])
  | _ => exact hkeep (by simp [commandParts])

theorem queueOk_nil (n : Nat) : QueueOk [] n := by simp [QueueOk]

/-- The sent frame leaves the queue: what is left keeps its order (R164). -/
theorem dequeueSent_queueLaw (hl : QueueLaw s) : QueueLaw { s with link := dequeueSent s.link } := by
  unfold QueueLaw dequeueSent; dsimp only; split
  · exact QueueOk.sublist hl List.filter_sublist
  · exact hl

theorem enterActive_sends (c : Settings) (table : List CategoryEntry) (map : List (Option Nat))
    (counters : List Counter) :
    Sends (startBlocks c table map counters s) (enterActive c table map counters s) :=
  ((Sends.ask _ _).trans (addReason_sends _ _)).trans (evalPace_sends _)

theorem execLoadComplete_queueLaw {img : List Byte} (hl : QueueLaw s)
    (h : execLoadComplete img s = .next t) : QueueLaw t := by
  rcases execLoadComplete_cases h with ⟨_, _, _, -, -, ht⟩ | ⟨c, table, map, counters, -, -, ht⟩ | ⟨-, ht⟩
  · rw [ht]; exact queueOk_nil _
  · rw [ht]; exact (enterActive_sends c table map counters).queueLaw (queueOk_nil _)
  · rw [ht]; exact hl

theorem exec_queueLaw (i : Instr) (s t : State) (hl : QueueLaw s) (h : exec i s = .next t) :
    QueueLaw t := by
  by_cases hsent : i = .frameSent
  · subst hsent
    exact LawIn.guarded hl (fun _ => evalIfKeptChanged_queueLaw s (dequeueSent_queueLaw hl)) t h
  · cases hi : isRestart i with
    | false => exact (exec_sends hi hsent h).queueLaw hl
    | true =>
      cases i with
      | reset => exact LawIn.next (P := QueueLaw) (t := afterReset s) (queueOk_nil _) t h
      | loadComplete img => exact execLoadComplete_queueLaw (img := img) hl h
      | _ => cases hi

/-- Settles O59: a step comes to askings for frames, a removal, or an empty queue. -/
theorem everyStepKeepsTheQueue : Obligations.EveryStepKeepsTheQueue :=
  fun _ _ => step_keeps_law (fun _ _ h => h) exec_queueLaw

end Sys2Proof.Machine
end

section
/-! SUPPORT. The category table (R35, R36, R41 to R48): what a visit leaves of the entries, what a resolution
comes to, and which tables a load files. -/

namespace Sys2Proof.Machine

variable {table : List CategoryEntry}

/-! ## Visits -/

/-- An entry whose use count a visit to a code raises (R44). -/
def raiseEntry (code : Code) (e : CategoryEntry) : CategoryEntry :=
  if e.code = code then { e with uses := min Config.max16 (e.uses + 1) } else e

theorem raiseUse_eq_map (code : Code) (table : List CategoryEntry) :
    raiseUse code table = table.map (raiseEntry code) := rfl

@[simp] theorem raiseEntry_code (c : Code) (e : CategoryEntry) : (raiseEntry c e).code = e.code := by
  unfold raiseEntry; split <;> rfl

@[simp] theorem raiseEntry_kind (c : Code) (e : CategoryEntry) : (raiseEntry c e).kind = e.kind := by
  unfold raiseEntry; split <;> rfl

theorem lookupCode_raiseUse (c code : Code) (table : List CategoryEntry) :
    lookupCode (raiseUse c table) code = (lookupCode table code).map (raiseEntry c) := by
  simp only [lookupCode, raiseUse_eq_map, List.find?_map, Function.comp_def, raiseEntry_code]

/-- The kind of the entry of a code. -/
theorem kind_raiseUse (c code : Code) (table : List CategoryEntry) :
    (lookupCode (raiseUse c table) code).map CategoryEntry.kind =
      (lookupCode table code).map CategoryEntry.kind := by
  simp only [lookupCode_raiseUse, Option.map_map, Function.comp_def, raiseEntry_kind]

@[simp] theorem planOf_raiseUse (c code : Code) (table : List CategoryEntry) :
    planOf code (raiseUse c table) = planOf code table := by
  simp only [planOf, kind_raiseUse]

@[simp] theorem isSome_lookup_raiseUse (c code : Code) (table : List CategoryEntry) :
    (lookupCode (raiseUse c table) code).isSome = (lookupCode table code).isSome := by
  rw [lookupCode_raiseUse, Option.isSome_map]

/-- A run of visits, one after another. -/
def raiseAll (codes : List Code) (table : List CategoryEntry) : List CategoryEntry :=
  codes.foldl (fun t c => raiseUse c t) table

@[simp] theorem raiseAll_cons (c : Code) (cs : List Code) (table : List CategoryEntry) :
    raiseAll (c :: cs) table = raiseAll cs (raiseUse c table) := rfl

/-- A resolution visits entries and changes the table in no other way (R41, R42). -/
theorem visitFrom_table (n : Nat) : ∀ code table,
    ∃ codes, (visitFrom n code table).table = raiseAll codes table := by
  induction n with
  | zero =>
    intro code table; unfold visitFrom; dsimp only; split
    · split
      · exact ⟨[code, 0#8], rfl⟩
      · exact ⟨[code, 0#8], rfl⟩
    · exact ⟨[code], rfl⟩
  | succ n ih =>
    intro code table; unfold visitFrom; dsimp only; split
    · split
      · obtain ⟨codes, h⟩ := ih ‹_› (raiseUse code table)
        exact ⟨code :: codes, h⟩
      · exact ⟨[code, 0#8], rfl⟩
    · exact ⟨[code], rfl⟩

theorem resolveCode_table (code : Code) (table : List CategoryEntry) :
    ∃ codes, (resolveCode code table).table = raiseAll codes table := visitFrom_table _ _ _

@[simp] theorem planOf_raiseAll (cs : List Code) (code : Code) : ∀ table : List CategoryEntry,
    planOf code (raiseAll cs table) = planOf code table := by
  induction cs with
  | nil => exact fun _ => rfl
  | cons c cs ih => exact fun table => (ih _).trans (planOf_raiseUse c code table)

/-! ## Lawful tables -/

/-- R36, R46 and R47 for a table, whatever the station state. -/
def TableOk (table : List CategoryEntry) : Prop :=
  table.length ≤ 64 ∧ (table.map CategoryEntry.code).Nodup ∧ ∀ e ∈ table, EntryLaw e

theorem tableLaw_iff (s : State) : TableLaw s ↔
    TableOk s.table ∧ (s.station = .active → ∃ p, planOf 0#8 s.table = some p) := by
  simp only [TableLaw, TableOk, and_assoc]

theorem tableOk_nil : TableOk [] := by simp [TableOk]

theorem raiseEntry_law (c : Code) {e : CategoryEntry} (h : EntryLaw e) : EntryLaw (raiseEntry c e) := by
  refine ⟨?_, fun p hp => h.2 p (by rwa [raiseEntry_kind] at hp)⟩
  unfold raiseEntry; split
  · exact Nat.min_le_left _ _
  · exact h.1

theorem raiseUse_tableOk (c : Code) (h : TableOk table) : TableOk (raiseUse c table) := by
  obtain ⟨hlen, hnodup, hentries⟩ := h
  rw [raiseUse_eq_map]
  refine ⟨by simpa using hlen, ?_, ?_⟩
  · simpa only [List.map_map, Function.comp_def, raiseEntry_code] using hnodup
  · intro e he
    obtain ⟨e', he', rfl⟩ := List.mem_map.1 he
    exact raiseEntry_law c (hentries e' he')

theorem raiseAll_tableOk (cs : List Code) : ∀ {table : List CategoryEntry}, TableOk table →
    TableOk (raiseAll cs table) := by
  induction cs with
  | nil => exact fun h => h
  | cons c cs ih => exact fun h => ih (raiseUse_tableOk c h)

theorem resolveCode_tableOk (code : Code) (h : TableOk table) :
    TableOk (resolveCode code table).table := by
  obtain ⟨codes, hc⟩ := resolveCode_table code table
  rw [hc]; exact raiseAll_tableOk codes h

theorem planOf_resolveCode_table (c code : Code) (table : List CategoryEntry) :
    planOf c (resolveCode code table).table = planOf c table := by
  obtain ⟨codes, hc⟩ := resolveCode_table code table
  rw [hc, planOf_raiseAll]

/-- A plan of a lawful table has its target from 1 to 99 (R47). -/
theorem planOf_target {code : Code} {p : PlanFields} (h : TableOk table)
    (hp : planOf code table = some p) : 1 ≤ p.target ∧ p.target ≤ 99 := by
  unfold planOf at hp
  cases he : lookupCode table code with
  | none => simp [he] at hp
  | some e =>
    have hkind : e.kind = .plan p := by
      cases hk : e.kind <;> simp_all
    obtain ⟨-, h1, h99, -⟩ := (h.2.2 e (List.mem_of_find?_eq_some he)).2 p hkind
    exact ⟨h1, h99⟩

/-! ## Filing -/

theorem firstFailure_eq_none {checks : List (Nat × Bool)} :
    firstFailure checks = none ↔ ∀ c ∈ checks, c.2 = true := by
  simp [firstFailure]

theorem lookupCode_none {code : Code} (h : (lookupCode table code).isNone = true) :
    code ∉ table.map CategoryEntry.code := by
  simp only [lookupCode, Option.isNone_iff_eq_none, List.find?_eq_none] at h
  rintro hm
  obtain ⟨e, he, rfl⟩ := List.mem_map.1 hm
  exact h e he (by simp)

theorem readFold_some {foldByte fraction : Nat} {f : PlanFold} (h : readFold foldByte fraction = some f) :
    foldByte ≠ 0 ∧ f.fraction = fraction := by
  unfold readFold at h; split at h
  · cases h; exact ⟨by decide, rfl⟩
  · cases h; exact ⟨by decide, rfl⟩
  · cases h

/-- An entry that passes its checks is lawful, and its code is new (R47). -/
theorem readEntry_law {h : Header} {filed : List CategoryEntry} {img : List Byte} {at' : Nat}
    (hc : firstFailure (entryChecks h filed img at') = none) :
    EntryLaw (readEntry img at') ∧ (readEntry img at').code ∉ filed.map CategoryEntry.code := by
  rw [firstFailure_eq_none] at hc
  simp only [entryChecks, List.forall_mem_cons] at hc
  obtain ⟨hkind, hnew, hfold, -, hfrac, hlen, htarget, -, -, -⟩ := hc
  refine ⟨⟨Nat.zero_le _, ?_⟩, lookupCode_none hnew⟩
  intro p hp
  have hp : imageNat img (at' + 1) ≠ 1 ∧ readPlan img at' = p := by
    unfold readEntry at hp; dsimp only at hp; split at hp
    · cases hp
    next hne => exact ⟨hne, EntryKind.plan.inj hp⟩
  obtain ⟨hne, rfl⟩ := hp
  have hk : imageNat img (at' + 1) = 2 := by simpa [hne] using hkind
  simp only [hk, BEq.rfl, Bool.not_true, Bool.false_or, Bool.true_and, decide_eq_true_eq] at hfrac hlen htarget
  refine ⟨hlen, htarget.1, htarget.2, fun f hf => ?_⟩
  obtain ⟨hne0, hfraction⟩ := readFold_some hf
  simpa [hne0, hfraction] using hfrac

theorem tableOk_append {filed : List CategoryEntry} {e : CategoryEntry} (h : TableOk filed)
    (hlen : filed.length < 64) (he : EntryLaw e) (hnew : e.code ∉ filed.map CategoryEntry.code) :
    TableOk (filed ++ [e]) := by
  obtain ⟨-, hnodup, hentries⟩ := h
  refine ⟨by simp; omega, ?_, ?_⟩
  · rw [List.map_append, List.nodup_append]
    refine ⟨hnodup, by simp, ?_⟩
    rintro a ha b hb rfl
    exact hnew (by simp at hb; rwa [hb] at ha)
  · intro x hx
    rcases List.mem_append.1 hx with hx | hx
    · exact hentries x hx
    · rw [List.mem_singleton.1 hx]; exact he

/-- The table a filing comes to, whether or not it failed. -/
def FileResult.entries : FileResult → List CategoryEntry
  | .filed table => table
  | .failed _ table => table

/-- Filing keeps the table lawful, the use counts 0, within the number of entries asked for (R35, R46). -/
theorem fileEntries_ok (h : Header) (img : List Byte) (n : Nat) : ∀ at' filed, TableOk filed →
    filed.length + n ≤ 64 → (∀ e ∈ filed, e.uses = 0) →
    TableOk (fileEntries h img n at' filed).entries
      ∧ ∀ e ∈ (fileEntries h img n at' filed).entries, e.uses = 0 := by
  induction n with
  | zero => exact fun _ _ hok _ huses => ⟨hok, huses⟩
  | succ n ih =>
    intro at' filed hok hlen huses; unfold fileEntries; split
    · exact ⟨hok, huses⟩
    next hc =>
      obtain ⟨hlaw, hnew⟩ := readEntry_law hc
      refine ih _ _ (tableOk_append hok (by omega) hlaw hnew) (by simp; omega) ?_
      intro e he
      rcases List.mem_append.1 he with he | he
      · exact huses e he
      · rw [List.mem_singleton.1 he]; rfl

theorem loadTable_ok (h : Header) (img : List Byte) :
    TableOk (loadTable h img).entries ∧ ∀ e ∈ (loadTable h img).entries, e.uses = 0 := by
  have hnil : TableOk [] ∧ ∀ e ∈ ([] : List CategoryEntry), e.uses = 0 := ⟨tableOk_nil, by simp⟩
  unfold loadTable; split
  · exact hnil
  · split
    · exact hnil
    next hcount =>
      have hfile := fileEntries_ok h img h.entryCount 64 [] tableOk_nil (by simp; omega) (by simp)
      split
      next hf => rw [hf] at hfile; exact hfile
      next hf =>
        rw [hf] at hfile
        split
        · exact hfile
        · split <;> exact hfile

/-- A table that comes into force has a PLAN as entry 0 (R48). -/
theorem loadTable_plan {h : Header} {img : List Byte} (hf : loadTable h img = .filed table) :
    ∃ p, planOf 0#8 table = some p := by
  unfold loadTable at hf
  split at hf
  · cases hf
  · split at hf
    · cases hf
    · split at hf
      · cases hf
      · split at hf
        · cases hf
        next e he =>
          split at hf
          · cases hf
          next p hp => cases hf; exact ⟨p, by simp [planOf, he, hp]⟩

/-! ## What a load comes to -/

/-- A failed load: the image check, a header check with nothing filed, or a later check. -/
theorem loadImage_failed {img : List Byte} {code : Nat} {map : List (Option Nat)}
    (h : loadImage img = .failed code table map) :
    (imageCheckOk img = false ∧ code = 1 ∧ table = [] ∧ map = fixedSegmentMap)
      ∨ (imageCheckOk img = true ∧ firstFailure (headerChecks (readHeader img)) = some code ∧ table = [])
      ∨ (imageCheckOk img = true ∧ firstFailure (headerChecks (readHeader img)) = none
        ∧ table = (loadTable (readHeader img) img).entries
        ∧ (loadTable (readHeader img) img = .failed code table ∨ code = 40
          ∨ firstFailure ((tallyOffsets (readHeader img).entryCount).flatMap (tallyChecks img)) =
            some code)) := by
  unfold loadImage at h; split at h
  next hok =>
    unfold loadChecked at h; dsimp only at h
    cases hh : firstFailure (headerChecks (readHeader img)) with
    | some c => simp only [hh] at h; cases h; exact .inr (.inl ⟨hok, rfl, rfl⟩)
    | none =>
      simp only [hh] at h
      refine .inr (.inr ⟨hok, rfl, ?_⟩)
      cases ht : loadTable (readHeader img) img with
      | failed c f => simp only [ht] at h; cases h; exact ⟨rfl, .inl rfl⟩
      | filed f =>
        simp only [ht] at h; split at h
        · cases h; exact ⟨rfl, .inr (.inl rfl)⟩
        · cases hc : firstFailure ((tallyOffsets (readHeader img).entryCount).flatMap (tallyChecks img)) with
          | some c => simp only [hc] at h; cases h; exact ⟨rfl, .inr (.inr rfl)⟩
          | none => simp only [hc] at h; cases h
  next hok => cases h; exact .inl ⟨by simpa using hok, rfl, rfl, rfl⟩

/-- A load that succeeds: every check passed, and the settings are the header's. -/
theorem loadImage_loaded {img : List Byte} {c : Settings} {map : List (Option Nat)}
    {counters : List Counter} (h : loadImage img = .loaded c table map counters) :
    firstFailure (headerChecks (readHeader img)) = none ∧ c = (readHeader img).settings
      ∧ loadTable (readHeader img) img = .filed table := by
  unfold loadImage at h; split at h
  · unfold loadChecked at h; dsimp only at h
    cases hh : firstFailure (headerChecks (readHeader img)) with
    | some c => simp only [hh] at h; cases h
    | none =>
      simp only [hh] at h
      cases ht : loadTable (readHeader img) img with
      | failed c f => simp only [ht] at h; cases h
      | filed f =>
        simp only [ht] at h; split at h
        · cases h
        · cases hc : firstFailure ((tallyOffsets (readHeader img).entryCount).flatMap (tallyChecks img)) with
          | some c => simp only [hc] at h; cases h
          | none => simp only [hc] at h; cases h; exact ⟨rfl, rfl, rfl⟩
  · cases h

theorem loadImage_failed_tableOk {img : List Byte} {code : Nat} {map : List (Option Nat)}
    (h : loadImage img = .failed code table map) : TableOk table := by
  rcases loadImage_failed h with ⟨-, -, ht, -⟩ | ⟨-, -, ht⟩ | ⟨-, -, ht, -⟩
  · rw [ht]; exact tableOk_nil
  · rw [ht]; exact tableOk_nil
  · rw [ht]; exact (loadTable_ok _ _).1

theorem loadImage_loaded_table {img : List Byte} {c : Settings} {map : List (Option Nat)}
    {counters : List Counter} (h : loadImage img = .loaded c table map counters) :
    TableOk table ∧ (∃ p, planOf 0#8 table = some p) ∧ ∀ e ∈ table, e.uses = 0 := by
  obtain ⟨-, -, ht⟩ := loadImage_loaded h
  have hok := loadTable_ok (readHeader img) img
  rw [ht] at hok
  exact ⟨hok.1, loadTable_plan ht, hok.2⟩

end Sys2Proof.Machine
end

section
/-! SUPPORT. The category table and the bays along a step (R36, R44, R47, R48, R131): planning alone changes
the table and claims bays; the other events of the bays keep their law by `Laws/Bays`. -/

namespace Sys2Proof.Machine

variable {s t : State}

/-! ## The table -/

theorem KeepsBut.tableLaw {ps : List Part} (h : KeepsBut ps s t) (ht : Part.table ∉ ps)
    (hs : Part.station ∉ ps) (hl : TableLaw s) : TableLaw t := by
  have htable : t.table = s.table := h .table ht
  have hstation : t.station = s.station := h .station hs
  rw [tableLaw_iff] at hl ⊢
  rw [htable, hstation]; exact hl

theorem stageResolve_tableLaw (w : Work) (hl : TableLaw s) : TableLaw (stageResolve w s).2 := by
  rw [tableLaw_iff] at hl
  have hset : TableLaw { s with table := (resolveCode w.piece.code s.table).table } := by
    rw [tableLaw_iff]
    refine ⟨resolveCode_tableOk _ hl.1, fun ha => ?_⟩
    obtain ⟨p, hp⟩ := hl.2 ha
    exact ⟨p, (planOf_resolveCode_table _ _ _).trans hp⟩
  unfold stageResolve; split
  · exact (tableLaw_iff s).2 hl
  · dsimp only; split
    · exact (countPiece_keeps_fates _ _ _ _ (by simp)).tableLaw (by decide) (by decide) hset
    · exact hset

/-! ## The plan of a piece in planning -/

@[simp] theorem Work.reject_plan (w : Work) (r : RejectReason) : (w.reject r).plan = w.plan := by
  unfold Work.reject; split <;> rfl

theorem stageJudge_plan (w : Work) (s : State) : (stageJudge w s).1.plan = w.plan := by
  unfold stageJudge; split
  · rfl
  · split
    · rfl
    · split
      · exact Work.reject_plan _ _
      · split
        · split <;> rfl
        · rfl

theorem stageRange_plan (w : Work) : (stageRange w).plan = w.plan := by
  unfold stageRange; split
  · rfl
  · split
    · exact Work.reject_plan _ _
    · split
      · exact Work.reject_plan _ _
      · rfl

theorem stageFold_plan (w : Work) (s : State) : (stageFold w s).1.plan = w.plan := by
  unfold stageFold; split
  · rfl
  · split
    · rfl
    · dsimp only; split
      · exact Work.reject_plan _ _
      · split
        · exact Work.reject_plan _ _
        · rfl

theorem stageResolve_plan (w : Work) (s : State) (h : w.plan = none) :
    (stageResolve w s).1.plan =
      if w.piece.flags.reject then none
      else planOf (resolveCode w.piece.code s.table).code s.table := by
  unfold stageResolve; split
  · rw [Work.reject_plan, h]
  · exact planOf_resolveCode_table _ _ _

/-- The bay a planning chooses qualifies for the piece (R127). -/
theorem chooseBay_qualifies {plan : PlanFields} {lot : Lot} {code : Code} {openDue : BayNo → Pos}
    {pNow : Pos} {b : BayNo} (h : chooseBay s plan lot code openDue pNow = some b) :
    bayQualifies lot code (s.bays.get b) = true := by
  have := List.find?_some h
  simp only [Bool.and_eq_true] at this
  exact this.2

theorem stageRoute_bayLaw {w : Work} (ht : ∀ p, w.plan = some p → 1 ≤ p.target ∧ p.target ≤ 99)
    (hl : BayLaw s) : BayLaw (stageRoute w s).2 := by
  unfold stageRoute; split
  · exact hl
  · split
    · exact hl
    next plan hp =>
      dsimp only; split
      next b hb => exact reserve_claim_bayLaw (ht plan hp).1 (ht plan hp).2 (chooseBay_qualifies hb) hl
      next => exact hl

theorem stageJudge_bayLaw (w : Work) (hl : BayLaw s) : BayLaw (stageJudge w s).2 := by
  unfold stageJudge; split
  · exact hl
  · split
    · exact hl
    · split
      · exact hl
      · split
        · split
          · exact lookAtHead_bayLaw hl
          · exact hl
        · exact hl

/-! ## Planning keeps both laws -/

/-- The laws of the table and of the bays together: a claim takes its target from the table (R128). -/
def TableBayLaw (s : State) : Prop := TableLaw s ∧ BayLaw s

theorem KeepsBut.tableBayLaw {ps : List Part} (h : KeepsBut ps s t) (ht : Part.table ∉ ps)
    (hs : Part.station ∉ ps) (hb : Part.bays ∉ ps) (hl : TableBayLaw s) : TableBayLaw t :=
  ⟨h.tableLaw ht hs hl.1, h.bayLaw hb hl.2⟩

theorem planStages_tableLaw (w : Work) (hl : TableLaw s) : TableLaw (planStages w s) := by
  unfold planStages; dsimp only
  refine (setTracks_keeps _ _).tableLaw (by decide) (by decide) ?_
  refine (stageInsert_keeps _ _).tableLaw (by decide) (by decide) ?_
  refine (stageRoute_keeps _ _).tableLaw (by decide) (by decide) ?_
  refine (stageFold_keeps _ _).tableLaw (by decide) (by decide) ?_
  exact stageResolve_tableLaw _ ((stageJudge_keeps _ _).tableLaw (by decide) (by decide) hl)

theorem planStages_bayLaw {w : Work} (hw : w.plan = none) (ht : TableLaw s) (hl : BayLaw s) :
    BayLaw (planStages w s) := by
  have hjudge := (stageJudge_keeps s (stageMeasure s.settings w)).tableLaw (by decide) (by decide) ht
  have hnone : (stageJudge (stageMeasure s.settings w) s).1.plan = none := (stageJudge_plan _ _).trans hw
  unfold planStages; dsimp only
  refine (setTracks_keeps _ _).bayLaw (by decide) ?_
  refine (stageInsert_keeps _ _).bayLaw (by decide) ?_
  refine stageRoute_bayLaw ?_ ?_
  · intro p hp
    rw [stageFold_plan, stageRange_plan, stageResolve_plan _ _ hnone] at hp
    split at hp
    · cases hp
    · exact planOf_target ((tableLaw_iff _).1 hjudge).1 hp
  · refine (stageFold_keeps _ _).bayLaw (by decide) ?_
    exact (stageResolve_keeps _ _).bayLaw (by decide) (stageJudge_bayLaw _ hl)

theorem planPiece_tableBayLaw (q : Pos) (hl : TableBayLaw s) : TableBayLaw (planPiece q s) := by
  unfold planPiece; split
  · exact hl
  · exact ⟨planStages_tableLaw _ hl.1, planStages_bayLaw rfl hl.1 hl.2⟩

/-! ## Pulses -/

theorem testJam_tableBayLaw (e : Eye) (hl : TableBayLaw s) : TableBayLaw (testJam e s) :=
  (testJam_keeps s e).tableBayLaw (by cases e <;> decide) (by cases e <;> decide)
    (by cases e <;> decide) hl

theorem passOwned_bayLaw (hl : BayLaw s) : BayLaw (passOwned s) := by
  unfold passOwned; split
  · exact passPiece_bayLaw _ hl
  · exact hl
  · exact hl

theorem testConfirm_tableBayLaw (e : Eye) (hl : TableBayLaw s) : TableBayLaw (testConfirm e s) := by
  have hput : ∀ ch, TableBayLaw (putEye e ch s) := fun ch =>
    (putEye_keeps s e ch).tableBayLaw (by cases e <;> decide) (by cases e <;> decide)
      (by cases e <;> decide) hl
  unfold testConfirm; dsimp only; split
  · exact hl
  · split
    · cases e
      case entry =>
        change TableBayLaw (confirmEntry _ _)
        unfold confirmEntry; split
        · exact (clearUntracked_keeps _).tableBayLaw (by decide) (by decide) (by decide) (hput _)
        · exact planPiece_tableBayLaw _ (hput _)
      case exit =>
        refine (setOwner_keeps _ none).tableBayLaw (by decide) (by decide) (by decide) ⟨?_, ?_⟩
        · exact (passOwned_keeps _).tableLaw (by decide) (by decide) (hput _).1
        · exact passOwned_bayLaw (hput _).2
    · exact hl

theorem closeFate_bayLaw (g : Gate) (n : LocalNo) (hl : BayLaw s) : BayLaw (closeFate g s n) := by
  cases g
  case bay b => exact stackPiece_bayLaw b n hl
  case reject => exact endPiece_bayLaw _ n hl

theorem checkExit_bayLaw (n : LocalNo) (hl : BayLaw s) : BayLaw (checkExit s n) := by
  unfold checkExit; split
  · split
    · exact hl
    · exact endPiece_bayLaw _ n hl
  · exact hl

theorem fireEntry_bayLaw (e : SchedEntry) (hl : BayLaw s) : BayLaw (fireEntry e s) := by
  have hg : ∀ g o, BayLaw (setGate g o s) := fun g o => (setGate_keeps s g o).bayLaw (by decide) hl
  unfold fireEntry; split
  · exact (fireJet_keeps s _).bayLaw (by decide) hl
  · exact hg _ _
  · exact List.foldlRecOn (motive := BayLaw) _ _ (hg _ _) fun _ h n _ => closeFate_bayLaw _ n h
  · exact List.foldlRecOn (motive := BayLaw) _ _ hl fun _ h n _ => checkExit_bayLaw n h

theorem fireReached_bayLaw (n : Nat) : ∀ s : State, BayLaw s → BayLaw (fireReached n s) := by
  induction n with
  | zero => exact fun _ h => h
  | succ n ih =>
    intro s hl; unfold fireReached; split
    · exact hl
    next e _ =>
      split
      · exact ih _ (fireEntry_bayLaw (s := { s with schedule := withoutHead s.schedule }) e hl)
      · exact hl

theorem pulseInOrder_tableBayLaw (o : PulseOrder) (hl : TableBayLaw s) :
    TableBayLaw (pulseInOrder o s) := by
  refine reachKeys_keeps_law (P := TableBayLaw) ?_ ?_ o ?_
  · exact fun e s h => testJam_tableBayLaw e (testConfirm_tableBayLaw e h)
  · exact fun s h => ⟨(fireSchedule_keeps s).tableLaw (by decide) (by decide) h.1,
      fireReached_bayLaw _ s h.2⟩
  · exact (advancePulse_keeps s).tableBayLaw (by decide) (by decide) (by decide) hl

/-! ## The other events of the bays -/

theorem recogniseEdge_bayLaw (e : Eye) (p : PendingEdge) (hl : BayLaw s) :
    BayLaw (recogniseEdge e p s) := by
  have hput : ∀ (ch : EyeChannel) (s : State), BayLaw s → BayLaw (putEye e ch s) := fun ch s h =>
    (putEye_keeps s e ch).bayLaw (by cases e <;> decide) h
  have hover : ∀ s : State, BayLaw s → BayLaw (overrun s) := by
    intro s h
    have hc : BayLaw (consumeOldest s) := by
      unfold consumeOldest; split
      · exact lookAtHead_bayLaw (s := setTracks _ s) h
      · exact h
    exact (addReason_keeps _ _).bayLaw (by decide) hc
  have harrive : ∀ (q : Pos) (s : State), BayLaw s → BayLaw (arrive q s) := by
    intro q s h; unfold arrive; dsimp only; split
    · exact hover s h
    · split
      · exact (evalPace_keeps _).bayLaw (by decide) h
      · split
        · exact hover s h
        · exact (evalPace_keeps _).bayLaw (by decide) h
  have hlead : ∀ (q : Pos) (s : State), BayLaw s → BayLaw (leadingEdge e q s) := by
    intro q s h; unfold leadingEdge; dsimp only; split
    · exact (testJam_keeps _ e).bayLaw (by cases e <;> decide) (hput _ _ h)
    · cases e
      case entry => exact harrive q _ (hput _ _ h)
      case exit => exact (judgeExit_keeps _ q).bayLaw (by decide) (hput _ _ h)
  unfold recogniseEdge; dsimp only; split
  · exact hlead _ _ (hput _ _ hl)
  · exact hput _ _ hl

theorem ghostOldest_bayLaw (hl : BayLaw s) : BayLaw (ghostOldest s) := by
  unfold ghostOldest; split
  · exact lookAtHead_bayLaw hl
  · exact hl

theorem ghostAll_bayLaw (n : Nat) : ∀ s : State, BayLaw s → BayLaw (ghostAll n s) := by
  induction n with
  | zero => exact fun _ h => h
  | succ n ih =>
    intro s hl; unfold ghostAll; split
    · exact ih _ (ghostOldest_bayLaw hl)
    · exact hl

theorem tickWindows_bayLaw (hl : BayLaw s) : BayLaw (tickWindows s) :=
  ghostAll_bayLaw _ (setTracks _ s) hl

theorem takeHandover_bayLaw (q : Seq) (r : Record) (hl : BayLaw s) : BayLaw (takeHandover q r s) := by
  unfold takeHandover; split
  · exact hl
  · exact lookAtHead_bayLaw ((appendChecked_keeps s q r).bayLaw (by decide) hl)

theorem acceptFrame_bayLaw (n : Nat) (body : FrameBody) (hl : BayLaw s) :
    BayLaw (acceptFrame n body s) := by
  unfold acceptFrame; split
  · exact (setOthers_keeps s _).bayLaw (by decide) hl
  · exact (setOthers_keeps s _).bayLaw (by decide) hl
  · have hrun : BayLaw (takeRun n s) := (setOthers_keeps s _).bayLaw (by decide) hl
    have hup := (KeepsBut.ite (c := n = s.settings.upstream) (upstreamRestart_keeps _)).bayLaw (by decide) hrun
    exact (KeepsBut.ite (setPaceIn_keeps _ 0)).bayLaw (by decide) hup
  · split
    · exact takeHandover_bayLaw _ _ hl
    · exact hl
  · split
    · exact takeHandover_bayLaw _ _ hl
    · exact hl
  · exact (KeepsBut.ite (setPaceIn_keeps s _)).bayLaw (by decide) hl
  · exact hl
  · exact (KeepsBut.ite (askFrame_keeps s _)).bayLaw (by decide) hl
  · exact hl

theorem receiveFrame_bayLaw (n : BitVec 5) (body : FrameBody) (hl : BayLaw s) :
    BayLaw (receiveFrame n body s) := by
  unfold receiveFrame; dsimp only; split
  · split
    · exact hl
    · split
      · exact hl
      · exact acceptFrame_bayLaw (s := setLine .busy s) _ _ hl
  · exact hl

theorem receiveBits_bayLaw (bits : List Bool) (hl : BayLaw s) : BayLaw (receiveBits bits s) := by
  unfold receiveBits; split
  · split
    · exact receiveFrame_bayLaw _ _ hl
    · exact (KeepsBut.ite (discardFrame_keeps s)).bayLaw (by decide) hl
    · exact (KeepsBut.ite (discardFrame_keeps s)).bayLaw (by decide) hl
  · exact hl

theorem purge_bayLaw (hl : BayLaw s) : BayLaw (purge s) := by
  have hpieces := (purgeSchedule_keeps _).bayLaw (by decide) ((purgePieces_keeps s).bayLaw (by decide) hl)
  have hbays : BayLaw (purgeBays (purgeSchedule (purgePieces s))) :=
    purgeBay_bayLaw .b4 (purgeBay_bayLaw .b3 (purgeBay_bayLaw .b2 (purgeBay_bayLaw .b1 hpieces)))
  exact (evalPace_keeps _).bayLaw (by decide)
    (lookAtHead_bayLaw ((purgeEyeChannels_keeps _).bayLaw (by decide) hbays))

theorem blockedBay_ok (y : Bay) : BayOk (blockedBay y) := by simp [BayOk, blockedBay, Bay.cleared]

theorem clearBay_bayLaw (b : BayNo) (hl : BayLaw s) : BayLaw (clearBay b s) := by
  unfold clearBay; split
  · exact putBay_bayLaw bayOk_cleared hl
  · exact hl

theorem pressClose_bayLaw (hl : BayLaw s) : BayLaw (pressClose s) := by
  have hput := (putButton_keeps s .close (recognised true)).bayLaw (by decide) hl
  unfold pressClose; dsimp only; split
  · exact closeBay_bayLaw _ _ hput
  · exact hput

theorem startBay_ok (count : Nat) (b : BayNo) (x : CondInput) : BayOk (startBay count b x) := by
  unfold startBay; split
  · exact blockedBay_ok Bay.cleared
  · exact bayOk_cleared

/-! ## Reset and load -/

theorem clearedBays_bayLaw (h : t.bays = Four.all Bay.cleared) : BayLaw t := by
  intro b; rw [h, Four.get_all]; exact bayOk_cleared

theorem enterActive_keeps (c : Settings) (table : List CategoryEntry) (map : List (Option Nat))
    (counters : List Counter) (s : State) :
    KeepsBut stopParts (startBlocks c table map counters s) (enterActive c table map counters s) :=
  (((askRaw_keeps _ _).mono (by decide)).trans (addReason_keeps _ _)).trans
    ((evalPace_keeps _).mono (by decide))

theorem execLoadComplete_tableBayLaw {img : List Byte} (h : execLoadComplete img s = .next t) :
    (TableLaw s → TableLaw t) ∧ (BayLaw s → BayLaw t) := by
  rcases execLoadComplete_cases h with
    ⟨code, table, map, -, hload, ht⟩ | ⟨c, table, map, counters, -, hload, ht⟩ | ⟨-, ht⟩
  · rw [ht]
    refine ⟨fun _ => (tableLaw_iff _).2 ⟨loadImage_failed_tableOk hload, nofun⟩, fun _ => ?_⟩
    exact clearedBays_bayLaw rfl
  · rw [ht]
    have hk := enterActive_keeps c table map counters s
    obtain ⟨hok, hplan, -⟩ := loadImage_loaded_table hload
    refine ⟨fun _ => hk.tableLaw (by decide) (by decide) ?_, fun _ => hk.bayLaw (by decide) ?_⟩
    · exact (tableLaw_iff _).2 ⟨hok, fun _ => hplan⟩
    · intro b; cases b <;> exact startBay_ok _ _ _
  · rw [ht]; exact ⟨id, id⟩

/-! ## Every command -/

theorem exec_tableLaw (i : Instr) (s t : State) (hl : TableLaw s) (h : exec i s = .next t) :
    TableLaw t := by
  have hkeep : isRestart i = false → Part.table ∉ commandParts i → Part.station ∉ commandParts i →
      TableLaw t := fun hi hp hs => (exec_keeps s hi h).tableLaw hp hs hl
  have hpulse : ∀ o, TableLaw (pulseInOrder o s) := by
    refine fun o => reachKeys_keeps_law (P := TableLaw) ?_ ?_ o ?_
    · intro e s hl
      refine (testJam_keeps _ e).tableLaw (by cases e <;> decide) (by cases e <;> decide) ?_
      have hput : ∀ ch, TableLaw (putEye e ch s) := fun ch =>
        (putEye_keeps s e ch).tableLaw (by cases e <;> decide) (by cases e <;> decide) hl
      unfold testConfirm; dsimp only; split
      · exact hl
      · split
        · cases e
          case entry =>
            change TableLaw (confirmEntry _ _)
            unfold confirmEntry; split
            · exact (clearUntracked_keeps _).tableLaw (by decide) (by decide) (hput _)
            · unfold planPiece; split
              · exact hput _
              · exact planStages_tableLaw _ (hput _)
          case exit =>
            exact (setOwner_keeps _ none).tableLaw (by decide) (by decide)
              ((passOwned_keeps _).tableLaw (by decide) (by decide) (hput _))
        · exact hl
    · exact fun s h => (fireSchedule_keeps s).tableLaw (by decide) (by decide) h
    · exact (advancePulse_keeps s).tableLaw (by decide) (by decide) hl
  cases i with
  | reset =>
    exact LawIn.next (P := TableLaw) (t := afterReset s) ((tableLaw_iff _).2 ⟨tableOk_nil, nofun⟩) t h
  | loadComplete img => exact (execLoadComplete_tableBayLaw (s := s) (t := t) (img := img) h).1 hl
  | encoderPulse => exact LawIn.guarded hl (fun _ => hpulse _) t h
  | eyeRawChange e l =>
    exact hkeep rfl (by cases e <;> simp [commandParts, eyePart])
      (by cases e <;> simp [commandParts, eyePart])
  | _ =>
    exact hkeep rfl
      (by simp [commandParts, windowParts, stopParts, sendParts, bayParts, edgeParts, arriveParts,
        markerParts, purgeParts, receiveParts, acceptParts])
      (by simp [commandParts, windowParts, stopParts, sendParts, bayParts, edgeParts, arriveParts,
        markerParts, purgeParts, receiveParts, acceptParts])

theorem execEdgeRecognition_bayLaw (e : Eye) (hl : BayLaw s) :
    LawIn BayLaw (execEdgeRecognition e s) := by
  unfold execEdgeRecognition; split
  · exact .next hl
  · exact .guarded hl fun _ => recogniseEdge_bayLaw _ _ hl

theorem execPurgeHoldExpiry_bayLaw (hl : BayLaw s) : LawIn BayLaw (execPurgeHoldExpiry s) := by
  unfold execPurgeHoldExpiry; split
  · exact .next hl
  · split
    · exact .next (purge_bayLaw hl)
    · exact .next hl

theorem exec_bayLaw (i : Instr) (s t : State) (hl : TableBayLaw s) (h : exec i s = .next t) :
    BayLaw t := by
  obtain ⟨htable, hbays⟩ := hl
  have hkeep : isRestart i = false → Part.bays ∉ commandParts i → BayLaw t := fun hi hp =>
    (exec_keeps s hi h).bayLaw hp hbays
  have hrecv := fun n body => LawIn.next (receiveFrame_bayLaw n body hbays)
  cases i with
  | reset => exact LawIn.next (P := BayLaw) (t := afterReset s) (clearedBays_bayLaw rfl) t h
  | loadComplete img => exact (execLoadComplete_tableBayLaw (s := s) (t := t) (img := img) h).2 hbays
  | encoderPulse =>
    exact LawIn.guarded hbays (fun _ => (pulseInOrder_tableBayLaw _ ⟨htable, hbays⟩).2) t h
  | edgeRecognition e => exact execEdgeRecognition_bayLaw e hbays t h
  | closePress => exact LawIn.guarded hbays (fun _ => pressClose_bayLaw hbays) t h
  | bayHighRise b => 
    exact LawIn.guarded hbays (fun _ => closeBay_bayLaw (s := setBayInput .high b true s) b _ hbays) t h
  | bayClearRise b => 
    exact LawIn.guarded hbays (fun _ => clearBay_bayLaw (s := setBayInput .clear b true s) b hbays) t h
  | purgeHoldExpiry => exact execPurgeHoldExpiry_bayLaw hbays t h
  | timeBaseTick => exact LawIn.guarded hbays (fun _ => tickWindows_bayLaw hbays) t h
  | ghost => exact LawIn.guarded hbays (fun _ => ghostOldest_bayLaw hbays) t h
  | settleTimerExpiry b =>
    refine LawIn.guarded (c := bayLive s b = true ∧ _) hbays (fun _ => ?_) t h
    exact settleExpire_bayLaw b (setBays_bayLaw (x := { s.bays.get b with settle := none }) (hbays b) hbays)
  | dischargeTimeout b =>
    exact LawIn.guarded hbays (fun _ => putBay_bayLaw (blockedBay_ok _) hbays) t h
  | damagedFrame bits => exact LawIn.next (receiveBits_bayLaw bits hbays) t h
  | stopFrame n r => exact hrecv n _ t h
  | runFrame n => exact hrecv n _ t h
  | startFrame n up down => exact hrecv n _ t h
  | announceFrame n seq lot code len flags => exact hrecv n _ t h
  | lotEndFrame n seq lot => exact hrecv n _ t h
  | paceFrame n gap => exact hrecv n _ t h
  | tallyQuery n target item index => exact hrecv n _ t h
  | framePassedOver n body => exact hrecv n body t h
  | eyeRawChange e l => exact hkeep rfl (by cases e <;> simp [commandParts, eyePart])
  | _ => exact hkeep rfl (by simp [commandParts, windowParts, stopParts, sendParts])

theorem step_tableLaw (hl : TableLaw s) (h : step s = .next t) : TableLaw t :=
  step_keeps_law (fun _ _ h => h) exec_tableLaw hl h

theorem step_bayLaw (ht : TableLaw s) (hl : BayLaw s) (h : step s = .next t) : BayLaw t :=
  (step_keeps_law (P := TableBayLaw) (fun _ _ h => h)
    (fun i s t hl h => ⟨exec_tableLaw i s t hl.1 h, exec_bayLaw i s t hl h⟩) ⟨ht, hl⟩ h).2

/-- Settles O58: planning takes its targets from a lawful table; every other event of the bays keeps their
law by itself. -/
theorem everyStepKeepsTableAndBays : Obligations.EveryStepKeepsTableAndBays :=
  ⟨fun _ _ => step_tableLaw, fun _ _ => step_bayLaw⟩

end Sys2Proof.Machine
end

section
/-! SUPPORT. The others' stop set, the line and the inactive station along a step (9.2, R150, R163, R172,
R182). -/

namespace Sys2Proof.Machine

variable {s t : State}

/-! ## The others' stop set -/

@[simp] theorem mem_insertStation {n x : Nat} {xs : List Nat} :
    x ∈ insertStation n xs ↔ x = n ∨ x ∈ xs := by
  induction xs with
  | nil => simp [insertStation]
  | cons y ys ih =>
    unfold insertStation; split
    · simp
    · split
      next hn => subst hn; simp
      next => simp only [List.mem_cons, ih]; tauto

@[simp] theorem mem_removeStation {n x : Nat} {xs : List Nat} :
    x ∈ removeStation n xs ↔ x ≠ n ∧ x ∈ xs := by
  simp [removeStation, and_comm]

theorem insertStation_rising {n : Nat} {xs : List Nat} (h : xs.Pairwise (· < ·)) :
    (insertStation n xs).Pairwise (· < ·) := by
  induction xs with
  | nil => exact List.pairwise_singleton _ _
  | cons y ys ih =>
    obtain ⟨hy, hys⟩ := List.pairwise_cons.1 h
    unfold insertStation; split
    next hlt =>
      refine List.pairwise_cons.2 ⟨fun x hx => ?_, h⟩
      rcases List.mem_cons.1 hx with rfl | hx
      · exact hlt
      · exact hlt.trans (hy x hx)
    next hge =>
      split
      · exact h
      next hne =>
        refine List.pairwise_cons.2 ⟨fun x hx => ?_, ih hys⟩
        rcases mem_insertStation.1 hx with rfl | hx
        · omega
        · exact hy x hx

theorem KeepsBut.othersLaw {ps : List Part} (h : KeepsBut ps s t) (ho : Part.others ∉ ps)
    (hc : Part.settings ∉ ps) (hl : OthersLaw s) : OthersLaw t := by
  have hothers : t.stops.others = s.stops.others := h .others ho
  have hsettings : t.settings = s.settings := h .settings hc
  unfold OthersLaw; rw [hothers, hsettings]; exact hl

/-- A replacement of the others' stop set by a lawful one. -/
theorem setOthers_othersLaw {xs : List Nat} (hr : xs.Pairwise (· < ·))
    (hx : ∀ n ∈ xs, 1 ≤ n ∧ n ≤ 30 ∧ n ≠ s.settings.station) :
    OthersLaw (setStops { s.stops with others := xs } s) := by
  have hsettings : (setStops { s.stops with others := xs } s).settings = s.settings :=
    setOthers_keeps s xs .settings (by decide)
  unfold OthersLaw; rw [hsettings, setStops_stops]; exact ⟨hr, hx⟩

theorem takeStop_othersLaw {n : Nat} (hn : 1 ≤ n ∧ n ≤ 30 ∧ n ≠ s.settings.station)
    (hl : OthersLaw s) : OthersLaw (takeStop n s) := by
  refine setOthers_othersLaw (insertStation_rising hl.1) fun x hx => ?_
  rcases mem_insertStation.1 hx with rfl | hx
  · exact hn
  · exact hl.2 x hx

theorem takeRun_othersLaw (n : Nat) (hl : OthersLaw s) : OthersLaw (takeRun n s) :=
  setOthers_othersLaw (hl.1.sublist List.filter_sublist) fun x hx => hl.2 x (mem_removeStation.1 hx).2

theorem takeHandover_keeps_others (q : Seq) (r : Record) :
    KeepsBut (admitParts ++ markerParts) s (takeHandover q r s) := by
  unfold takeHandover; split
  · exact KeepsBut.refl _ _
  · exact ((appendChecked_keeps s q r).mono (by decide)).trans ((lookAtHead_keeps _).mono (by decide))

theorem acceptFrame_othersLaw {n : Nat} (hn : 1 ≤ n ∧ n ≤ 30 ∧ n ≠ s.settings.station)
    (body : FrameBody) (hl : OthersLaw s) : OthersLaw (acceptFrame n body s) := by
  have hadmit := fun q r => (KeepsBut.ite (c := n = s.settings.upstream)
    (takeHandover_keeps_others (s := s) q r)).othersLaw (by decide) (by decide) hl
  cases body
  case stop => exact takeStop_othersLaw hn hl
  case run => exact takeRun_othersLaw n hl
  case start =>
    have hup := (KeepsBut.ite (c := n = s.settings.upstream) (upstreamRestart_keeps _)).othersLaw
      (by decide) (by decide) (takeRun_othersLaw n hl)
    exact (KeepsBut.ite (setPaceIn_keeps _ 0)).othersLaw (by decide) (by decide) hup
  case announce => exact hadmit _ _
  case lotEnd => exact hadmit _ _
  case pace => exact (KeepsBut.ite (setPaceIn_keeps s _)).othersLaw (by decide) (by decide) hl
  case stack => exact hl
  case tallyQuery => exact (KeepsBut.ite (askFrame_keeps s _)).othersLaw (by decide) (by decide) hl
  case tally => exact hl

theorem receiveFrame_othersLaw (n : BitVec 5) (body : FrameBody) (hl : OthersLaw s) :
    OthersLaw (receiveFrame n body s) := by
  unfold receiveFrame; dsimp only; split
  · split
    · exact hl
    next hv =>
      split
      · exact hl
      next hown =>
        have hn : 1 ≤ n.toNat ∧ n.toNat ≤ 30 := by simpa only [validSender, Bool.not_eq_true', decide_eq_false_iff_not, not_not] using hv
        exact acceptFrame_othersLaw (s := setLine .busy s) ⟨hn.1, hn.2, hown⟩ body hl
  · exact hl

theorem receiveBits_othersLaw (bits : List Bool) (hl : OthersLaw s) : OthersLaw (receiveBits bits s) := by
  unfold receiveBits; split
  · split
    · exact receiveFrame_othersLaw _ _ hl
    · exact (KeepsBut.ite (discardFrame_keeps s)).othersLaw (by decide) (by decide) hl
    · exact (KeepsBut.ite (discardFrame_keeps s)).othersLaw (by decide) (by decide) hl
  · exact hl

theorem noOthers_othersLaw (h : t.stops.others = []) : OthersLaw t := by
  unfold OthersLaw; rw [h]; exact ⟨List.Pairwise.nil, by simp⟩

theorem execLoadComplete_othersLaw {img : List Byte} (hl : OthersLaw s)
    (h : execLoadComplete img s = .next t) : OthersLaw t := by
  rcases execLoadComplete_cases h with ⟨_, _, _, -, -, ht⟩ | ⟨c, table, map, counters, -, -, ht⟩ | ⟨-, ht⟩
  · rw [ht]; exact noOthers_othersLaw rfl
  · rw [ht]; exact noOthers_othersLaw (enterActive_keeps c table map counters s .others (by decide))
  · rw [ht]; exact hl

theorem exec_othersLaw (i : Instr) (s t : State) (hl : OthersLaw s) (h : exec i s = .next t) :
    OthersLaw t := by
  have hkeep : isRestart i = false → Part.others ∉ commandParts i → Part.settings ∉ commandParts i →
      OthersLaw t := fun hi ho hc => (exec_keeps s hi h).othersLaw ho hc hl
  have hrecv := fun n body => LawIn.next (receiveFrame_othersLaw n body hl)
  cases i with
  | reset => exact LawIn.next (P := OthersLaw) (t := afterReset s) (noOthers_othersLaw rfl) t h
  | loadComplete img => exact execLoadComplete_othersLaw (img := img) hl h
  | damagedFrame bits => exact LawIn.next (receiveBits_othersLaw bits hl) t h
  | stopFrame n r => exact hrecv n _ t h
  | runFrame n => exact hrecv n _ t h
  | startFrame n up down => exact hrecv n _ t h
  | announceFrame n seq lot code len flags => exact hrecv n _ t h
  | lotEndFrame n seq lot => exact hrecv n _ t h
  | paceFrame n gap => exact hrecv n _ t h
  | tallyQuery n target item index => exact hrecv n _ t h
  | framePassedOver n body => exact hrecv n body t h
  | eyeRawChange e l =>
    exact hkeep rfl (by cases e <;> simp [commandParts, eyePart]) (settings_not_mem_commandParts _)
  | _ => exact hkeep rfl (by simp [commandParts, encoderParts, reachParts, fireParts, fateParts, keyParts, planParts,
        windowParts, stopParts, sendParts, bayParts, edgeParts, arriveParts, markerParts, purgeParts]) (settings_not_mem_commandParts _)

/-! ## The line -/

theorem KeepsBut.lineLaw {ps : List Part} (h : KeepsBut ps s t) (hi : Part.inFlight ∉ ps)
    (hn : Part.line ∉ ps) (hs : Part.station ∉ ps) (hl : LineLaw s) : LineLaw t := by
  have hflight : t.link.inFlight = s.link.inFlight := h .inFlight hi
  have hline : t.link.line = s.link.line := h .line hn
  have hstation : t.station = s.station := h .station hs
  unfold LineLaw; rw [hflight, hline, hstation]; exact hl

/-- In ACTIVE with no frame in flight: the line is busy, idle or followed. -/
theorem lineLaw_of_active (ha : t.station = .active) (hf : t.link.inFlight = none)
    (hs : t.link.line ≠ .sending) (hn : t.link.line ≠ .notFollowed) : LineLaw t := by
  simp [LineLaw, ha, hf, hs, hn]

theorem LineLaw.inFlight_none (hl : LineLaw s) (h : s.link.line ≠ .sending) : s.link.inFlight = none := by
  have := mt hl.1.1 h
  simpa using this

/-- Outside ACTIVE nothing is followed. -/
theorem lineLaw_of_inactive (ha : t.station ≠ .active) (hf : t.link.inFlight = none)
    (hn : t.link.line = .notFollowed) : LineLaw t := by
  simp [LineLaw, ha, hf, hn]

theorem canFollow_iff (s : State) : canFollow s = true ↔
    s.station = .active ∧ (s.link.line = .idle ∨ s.link.line = .following) := by
  simp [canFollow, isActive]

/-- A frame that is followed leaves the line busy and nothing in flight (R160). -/
theorem busy_lineLaw (hl : LineLaw s) (hc : canFollow s = true) : LineLaw (setLine .busy s) := by
  obtain ⟨ha, hline⟩ := (canFollow_iff s).1 hc
  refine lineLaw_of_active ha (hl.inFlight_none ?_) (by simp) (by simp)
  rcases hline with h | h <;> simp [h]

theorem receiveFrame_lineLaw (n : BitVec 5) (body : FrameBody) (hl : LineLaw s) :
    LineLaw (receiveFrame n body s) := by
  unfold receiveFrame; dsimp only; split
  next hc =>
    have hbusy := busy_lineLaw hl hc
    split
    · exact hbusy
    · split
      · exact hbusy
      · exact (acceptFrame_keeps _ _ body).lineLaw (by decide) (by decide) (by decide) hbusy
  · exact hl

theorem receiveBits_lineLaw (bits : List Bool) (hl : LineLaw s) : LineLaw (receiveBits bits s) := by
  have hbad : LineLaw (if canFollow s then countLine .linkCheck 1 (setLine .busy s) else s) := by
    split
    next hc => exact busy_lineLaw hl hc
    · exact hl
  unfold receiveBits; split
  · split
    · exact receiveFrame_lineLaw _ _ hl
    · exact hbad
    · exact hbad
  · exact hl

theorem isActive_iff (s : State) : isActive s = true ↔ s.station = .active := by simp [isActive]

theorem execTransmitStart_lineLaw (hl : LineLaw s) : LawIn LineLaw (execTransmitStart s) := by
  unfold execTransmitStart; split
  · exact .next hl
  · refine .guarded hl fun ⟨ha, _⟩ => ?_
    simp [LineLaw, (isActive_iff s).1 ha]

theorem stopSending_lineLaw {l : LineView} (ha : isActive s = true) (hs : l ≠ .sending)
    (hn : l ≠ .notFollowed) : LineLaw (stopSending l s) :=
  lineLaw_of_active ((isActive_iff s).1 ha) rfl hs hn

theorem seeIdle_lineLaw (hl : LineLaw s) (ha : isActive s = true) : LineLaw (seeIdle s) := by
  have ha := (isActive_iff s).1 ha
  have hidle : s.link.line ≠ .sending → LineLaw (setLine .idle s) := fun h =>
    lineLaw_of_active ha (hl.inFlight_none h) (by simp) (by simp)
  unfold seeIdle; split
  · exact hl
  next h => exact hidle (by simp [h])
  · exact hl
  next h => exact hidle (by simp [h])
  next h => exact hidle (by simp [h])

theorem execLoadComplete_lineLaw {img : List Byte} (hl : LineLaw s)
    (h : execLoadComplete img s = .next t) : LineLaw t := by
  rcases execLoadComplete_cases h with ⟨_, _, _, -, -, ht⟩ | ⟨c, table, map, counters, -, -, ht⟩ | ⟨-, ht⟩
  · rw [ht]; exact lineLaw_of_inactive nofun rfl rfl
  · rw [ht]
    exact (enterActive_keeps c table map counters s).lineLaw (by decide) (by decide) (by decide)
      (lineLaw_of_active rfl rfl nofun nofun)
  · rw [ht]; exact hl

theorem exec_lineLaw (i : Instr) (s t : State) (hl : LineLaw s) (h : exec i s = .next t) :
    LineLaw t := by
  have hkeep : isRestart i = false → Part.inFlight ∉ commandParts i → Part.line ∉ commandParts i →
      Part.station ∉ commandParts i → LineLaw t :=
    fun hi hf hn hs => (exec_keeps s hi h).lineLaw hf hn hs hl
  have hrecv := fun n body => LawIn.next (receiveFrame_lineLaw n body hl)
  cases i with
  | reset =>
    exact LawIn.next (P := LineLaw) (t := afterReset s) (lineLaw_of_inactive nofun rfl rfl) t h
  | loadComplete img => exact execLoadComplete_lineLaw (img := img) hl h
  | damagedFrame bits => exact LawIn.next (receiveBits_lineLaw bits hl) t h
  | stopFrame n r => exact hrecv n _ t h
  | runFrame n => exact hrecv n _ t h
  | startFrame n up down => exact hrecv n _ t h
  | announceFrame n seq lot code len flags => exact hrecv n _ t h
  | lotEndFrame n seq lot => exact hrecv n _ t h
  | paceFrame n gap => exact hrecv n _ t h
  | tallyQuery n target item index => exact hrecv n _ t h
  | framePassedOver n body => exact hrecv n body t h
  | transmitStart => exact execTransmitStart_lineLaw hl t h
  | arbitrationLost =>
    exact LawIn.guarded (c := isActive s = true ∧ _) (t := stopSending .following s) hl (fun hc => stopSending_lineLaw hc.1 (by simp) (by simp)) t h
  | bitError =>
    exact LawIn.guarded (c := isActive s = true ∧ _) (t := stopSending .busy s) hl (fun hc => stopSending_lineLaw hc.1 (by simp) (by simp)) t h
  | frameSent =>
    refine LawIn.guarded hl (fun hc => ?_) t h
    exact (evalIfKeptChanged_keeps _ s).lineLaw (by decide) (by decide) (by decide)
      (lineLaw_of_active ((isActive_iff s).1 hc.1) rfl nofun nofun)
  | lineIdle => exact LawIn.guarded hl (fun ha => seeIdle_lineLaw hl ha) t h
  | eyeRawChange e l =>
    exact hkeep rfl (by cases e <;> simp [commandParts, eyePart])
      (by cases e <;> simp [commandParts, eyePart]) (station_not_mem_commandParts _)
  | _ =>
    exact hkeep rfl
      (by simp [commandParts, encoderParts, reachParts, fireParts, fateParts, keyParts, planParts,
        windowParts, stopParts, sendParts, bayParts, edgeParts, arriveParts, markerParts, purgeParts])
      (by simp [commandParts, encoderParts, reachParts, fireParts, fateParts, keyParts, planParts,
        windowParts, stopParts, sendParts, bayParts, edgeParts, arriveParts, markerParts, purgeParts])
      (station_not_mem_commandParts _)

/-! ## The inactive station -/

/-- The station that stands outside ACTIVE with the station state, pins, table and display of another. -/
def idleOf (d : State) : State :=
  { afterReset d with
    station := d.station
    table := d.table
    panel := { (afterReset d).panel with
      digit := d.panel.digit, lines := d.panel.lines, segmentMap := d.panel.segmentMap } }

theorem inactiveLaw_idleOf (d : State) : InactiveLaw (idleOf d) := fun _ => rfl

theorem isActive_eq_false {s : State} (h : s.station ≠ .active) : isActive s = false := by
  simp [isActive, h]

/-- A command that acts in ACTIVE alone leaves the inactive station. -/
theorem guarded_inactive {d : State} {c : Prop} [Decidable c] {u : State} (hc : ¬ c)
    (h : (if c then Host.Outcome.next u else .next (idleOf d) : Host.Outcome State Fault Refusal)
      = .next t) : InactiveLaw t := by
  rw [if_neg hc] at h; cases h; exact inactiveLaw_idleOf d

theorem receiveFrame_idleOf {d : State} (n : BitVec 5) (body : FrameBody) :
    receiveFrame n body (idleOf d) = idleOf d := by
  have : canFollow (idleOf d) = false := by
    have hline : (idleOf d).link.line = .notFollowed := rfl
    simp [canFollow, hline]
  simp [receiveFrame, this]

theorem receiveBits_idleOf {d : State} (bits : List Bool) : receiveBits bits (idleOf d) = idleOf d := by
  have : canFollow (idleOf d) = false := by
    have hline : (idleOf d).link.line = .notFollowed := rfl
    simp [canFollow, hline]
  unfold receiveBits; split
  · split
    · exact receiveFrame_idleOf _ _
    · simp [this]
    · simp [this]
  · rfl

theorem execEyeRawChange_inactive {d : State} (hd : d.station ≠ .active) (e : Eye) (l : EyeLevel) :
    LawIn InactiveLaw (execEyeRawChange e l (idleOf d)) := by
  have ha : isActive (idleOf d) = false := isActive_eq_false hd
  unfold execEyeRawChange; dsimp only; split
  · exact .next (inactiveLaw_idleOf d)
  · rw [ha]; cases e <;> exact .next (fun _ => rfl)

/-- Outside ACTIVE an input moves with its pin alone (R34; log 27). -/
theorem inputRaw_not_taken (l : Bool) (x : CondInput) : inputRaw false l x = { x with raw := l } := by
  unfold inputRaw; split
  next h => subst h; rfl
  · rfl

theorem execConditionedInputRawChange_inactive {d : State} (hd : d.station ≠ .active) (i : Input)
    (l : Bool) : LawIn InactiveLaw (execConditionedInputRawChange i l (idleOf d)) := by
  have ha : isActive (idleOf d) = false := isActive_eq_false hd
  have hb : ∀ b, bayLive (idleOf d) b = false := by intro b; simp [bayLive, ha]
  unfold execConditionedInputRawChange; split
  next b => rw [ha, inputRaw_not_taken]; cases b <;> exact .next (fun _ => rfl)
  next b => rw [hb, inputRaw_not_taken]; cases b <;> exact .next (fun _ => rfl)
  next b => rw [hb, inputRaw_not_taken]; cases b <;> exact .next (fun _ => rfl)

theorem execLoadComplete_inactive {img : List Byte} (hl : InactiveLaw s)
    (h : execLoadComplete img s = .next t) : InactiveLaw t := by
  rcases execLoadComplete_cases h with ⟨_, _, _, -, -, ht⟩ | ⟨c, table, map, counters, -, -, ht⟩ | ⟨-, ht⟩
  · rw [ht]; exact fun _ => rfl
  · rw [ht]
    exact fun hn => absurd (enterActive_keeps c table map counters s .station (by decide)) hn
  · rw [ht]; exact hl

theorem execDisplayDigitRefresh_inactive (d : State) :
    LawIn InactiveLaw (execDisplayDigitRefresh (idleOf d)) := by
  unfold execDisplayDigitRefresh; split <;> exact .next fun _ => rfl

/-- Outside ACTIVE a command moves pins, the display and, at the end of a load, the station state (R182;
log 27). -/
theorem exec_idleOf (i : Instr) {d : State} (hd : d.station ≠ .active)
    (h : exec i (idleOf d) = .next t) : InactiveLaw t := by
  have ha : ¬ isActive (idleOf d) = true := by simp [isActive, idleOf, hd]
  have hb : ∀ b, ¬ bayLive (idleOf d) b = true := by
    intro b; unfold bayLive; simp [Bool.eq_false_iff.2 ha]
  have hrecv : ∀ n body, LawIn InactiveLaw (.next (receiveFrame n body (idleOf d))) := by
    intro n body; rw [receiveFrame_idleOf]; exact .next (inactiveLaw_idleOf d)
  cases i with
  | reset => exact LawIn.next (P := InactiveLaw) (t := afterReset (idleOf d)) (fun _ => rfl) t h
  | loadComplete img => exact execLoadComplete_inactive (img := img) (inactiveLaw_idleOf d) h
  | encoderPulse => exact guarded_inactive ha h
  | windowEnd => exact guarded_inactive ha h
  | eyeRawChange e l => exact execEyeRawChange_inactive hd e l t h
  | edgeRecognition e => cases e <;> exact LawIn.next (inactiveLaw_idleOf d) t h
  | conditionedInputRawChange i l => exact execConditionedInputRawChange_inactive hd i l t h
  | stopPress => exact guarded_inactive ha h
  | runPress => exact guarded_inactive ha h
  | selectPress => exact guarded_inactive ha h
  | closePress => exact guarded_inactive ha h
  | buttonRelease b => exact guarded_inactive ha h
  | bayHighRise b => exact guarded_inactive (hb b) h
  | bayClearRise b => exact guarded_inactive (hb b) h
  | bayInputFall b i => exact guarded_inactive (hb b) h
  | purgeHoldExpiry => exact LawIn.next (inactiveLaw_idleOf d) t h
  | timeBaseTick => exact guarded_inactive (fun hc => ha hc.1) h
  | ghost => exact guarded_inactive ha h
  | jetPulseExpiry j => cases j <;> exact LawIn.next (inactiveLaw_idleOf d) t h
  | settleTimerExpiry b => exact guarded_inactive (fun hc => hb b hc.1) h
  | dischargeTimeout b => exact guarded_inactive (fun hc => hb b hc.1) h
  | pusherPulseExpiry b => cases b <;> exact LawIn.next (inactiveLaw_idleOf d) t h
  | stopFrame n r => exact hrecv n _ t h
  | runFrame n => exact hrecv n _ t h
  | startFrame n up down => exact hrecv n _ t h
  | announceFrame n seq lot code len flags => exact hrecv n _ t h
  | lotEndFrame n seq lot => exact hrecv n _ t h
  | paceFrame n gap => exact hrecv n _ t h
  | tallyQuery n target item index => exact hrecv n _ t h
  | framePassedOver n body => exact hrecv n body t h
  | damagedFrame bits =>
    refine LawIn.next (t := receiveBits bits (idleOf d)) ?_ t h
    rw [receiveBits_idleOf]; exact inactiveLaw_idleOf d
  | transmitStart => exact LawIn.next (inactiveLaw_idleOf d) t h
  | arbitrationLost => exact guarded_inactive (fun hc => ha hc.1) h
  | bitError => exact guarded_inactive (fun hc => ha hc.1) h
  | frameSent => exact guarded_inactive (fun hc => ha hc.1) h
  | displayDigitRefresh => exact execDisplayDigitRefresh_inactive d t h
  | lineIdle => exact guarded_inactive ha h

theorem exec_inactiveLaw (i : Instr) (s t : State) (hl : InactiveLaw s) (h : exec i s = .next t) :
    InactiveLaw t := by
  by_cases hs : s.station = .active
  · cases hi : isRestart i with
    | false => exact fun hn => absurd ((exec_station s hi h).trans hs) hn
    | true =>
      cases i with
      | reset => exact LawIn.next (P := InactiveLaw) (t := afterReset s) (fun _ => rfl) t h
      | loadComplete img => exact execLoadComplete_inactive (img := img) hl h
      | _ => cases hi
  · have hidle : s = idleOf s := hl hs
    rw [hidle] at h
    exact exec_idleOf i hs h

/-- Taking a command off the queue changes no block. -/
theorem inactiveLaw_pending (s : State) (rest : List Instr) (hl : InactiveLaw s) :
    InactiveLaw { s with pending := rest } := by
  intro hs
  have hidle : s = idleOf s := hl hs
  rw [hidle]; rfl

/-- Settles O60: frames alone change the others' stop set and the line, and outside ACTIVE only pins, the
display and a load change anything. -/
theorem everyStepKeepsLineAndIdleState : Obligations.EveryStepKeepsLineAndIdleState :=
  ⟨fun _ _ => step_keeps_law (fun _ _ h => h) exec_othersLaw,
    fun _ _ => step_keeps_law (fun _ _ h => h) exec_lineLaw,
    fun _ _ => step_keeps_law inactiveLaw_pending exec_inactiveLaw⟩

end Sys2Proof.Machine
end

section
/-! SUPPORT. A queue with places left (R165 to R167): what the pace unit and a joining leave there, with no
frame lost and no LINK_DROP. `Room n s` counts the places; `Paced s t` says that the pace alone was
evaluated between s and t. -/

namespace Sys2Proof.Machine

variable {s t u : State}

/-- The frames that a PACE does not replace (R166). -/
def otherFrames (q : List QFrame) : List QFrame := q.filter fun x => frameGroup x.body != .pace

/-- At most `n` frames that are no PACE, and one place besides for a PACE. -/
def Room (n : Nat) (s : State) : Prop :=
  s.link.queue.length ≤ n + 1 ∧ (otherFrames s.link.queue).length ≤ n

theorem room_of_length {n : Nat} (h : s.link.queue.length ≤ n) : Room n s :=
  ⟨by omega, (List.length_filter_le _ _).trans h⟩

theorem Room.mono {m n : Nat} (h : Room m s) (hn : m ≤ n) : Room n s := ⟨by have := h.1; omega, h.2.trans hn⟩

theorem mem_otherFrames {x : QFrame} {q : List QFrame} :
    x ∈ otherFrames q ↔ x ∈ q ∧ frameGroup x.body ≠ .pace := by simp [otherFrames]

theorem filter_insertFrame_of_neg {p : QFrame → Bool} {f : QFrame} (hf : p f = false) (q : List QFrame) :
    (insertFrame f q).filter p = q.filter p := by
  induction q with
  | nil => simp [insertFrame, hf]
  | cons x xs ih =>
    unfold insertFrame; split
    · simp [hf]
    · simp only [List.filter_cons, ih]

theorem otherFrames_insert_pace (g : BitVec 16) (age : Nat) (q : List QFrame) :
    otherFrames (insertFrame ⟨.pace g, age⟩ (otherFrames q)) = otherFrames q := by
  unfold otherFrames
  rw [filter_insertFrame_of_neg (by rfl), List.filter_filter]
  simp only [Bool.and_self]

theorem length_otherFrames_insert (f : QFrame) (q : List QFrame) :
    (otherFrames (insertFrame f q)).length ≤ (otherFrames q).length + 1 := by
  unfold otherFrames
  rw [← List.countP_eq_length_filter, ← List.countP_eq_length_filter, countP_insertFrame]
  split <;> omega

/-! ## A PACE joins -/

/-- A PACE that finds a place, or one to replace, joins and no frame is lost (R165, R166). -/
theorem askPace_room {n : Nat} (hn : n ≤ 11) (h : Room n s) (g : BitVec 16) :
    askRaw (.pace g) s = { s with link := { s.link with
      queue := insertFrame ⟨.pace g, s.link.nextAge⟩ (otherFrames s.link.queue)
      nextAge := s.link.nextAge + 1 } } := by
  have hjoin : joinOf (.pace g) s =
      ⟨insertFrame ⟨.pace g, s.link.nextAge⟩ (otherFrames s.link.queue), true, false⟩ := by
    unfold joinOf joinQueue
    split
    · rfl
    next hc =>
      have hself : otherFrames s.link.queue = s.link.queue :=
        notReplaced_eq_self (f := ⟨.pace g, s.link.nextAge⟩) fun hlt => hc ⟨rfl, hlt⟩
      have hlen : s.link.queue.length < Config.queuePlaces := by
        obtain ⟨-, h2⟩ := h
        rw [hself] at h2
        exact Nat.lt_of_le_of_lt (h2.trans hn) (by decide)
      rw [if_pos hlen, hself]
  simp [askRaw, hjoin]

/-- The state once the pace is evaluated, no frame being lost (R156, R157). -/
def pacedState (s : State) : State :=
  if paceNeed s = s.pace.paceOwn then s
  else
    let out := min (max s.pace.paceIn (paceNeed s)) 5000
    { s with
      pace := ⟨s.pace.paceIn, paceNeed s, out⟩
      link := if out = s.pace.paceOut ∨ s.settings.upstream = 0 then s.link
        else { s.link with
          queue := insertFrame ⟨.pace (BitVec.ofNat 16 out), s.link.nextAge⟩ (otherFrames s.link.queue)
          nextAge := s.link.nextAge + 1 } }

/-- A relay with places left (R157). -/
theorem relayPace_room {n : Nat} (hn : n ≤ 11) (h : Room n s) :
    relayPace s = { s with
      pace := { s.pace with paceOut := paceResult s.pace }
      link := if paceResult s.pace = s.pace.paceOut ∨ s.settings.upstream = 0 then s.link
        else { s.link with
          queue := insertFrame ⟨.pace (BitVec.ofNat 16 (paceResult s.pace)), s.link.nextAge⟩
            (otherFrames s.link.queue)
          nextAge := s.link.nextAge + 1 } } := by
  unfold relayPace; dsimp only
  by_cases hout : paceResult s.pace = s.pace.paceOut
  · rw [if_pos hout, if_pos (.inl hout), hout]
  · rw [if_neg hout]
    by_cases hup : s.settings.upstream = 0
    · rw [if_pos hup, if_pos (.inr hup)]
    · rw [if_neg hup, if_neg (by simp [hout, hup]),
        askPace_room hn (s := { s with pace := { s.pace with paceOut := paceResult s.pace } }) h]

theorem paceOnce_room {n : Nat} (hn : n ≤ 11) (h : Room n s) : paceOnce s = pacedState s := by
  unfold paceOnce pacedState; split
  · rfl
  · rw [relayPace_room hn (s := { s with pace := { s.pace with paceOwn := paceNeed s } }) h]
    rfl

theorem countP_kept_otherFrames (q : List QFrame) :
    ((otherFrames q).countP fun x => frameGroup x.body == .kept) =
      q.countP fun x => frameGroup x.body == .kept :=
  countP_kept_notReplaced (f := ⟨.pace 0#16, 0⟩) (by decide) q

theorem keptCount_pacedState (s : State) : keptCount (pacedState s) = keptCount s := by
  unfold pacedState; split
  · rfl
  · unfold keptCount; dsimp only; split
    · rfl
    · dsimp only
      rw [countP_insertFrame, countP_kept_otherFrames]
      rfl

theorem paceNeed_pacedState (s : State) : paceNeed (pacedState s) = paceNeed s := by
  refine paceNeed_congr ?_ ?_ ?_ (keptCount_pacedState s) <;> (unfold pacedState; split <;> rfl)

theorem pacedState_own (s : State) : (pacedState s).pace.paceOwn = paceNeed s := by
  unfold pacedState; split
  next h => exact h.symm
  · rfl

/-- With places left one evaluation is enough: the pace comes to its conditions and no frame is lost. -/
theorem evalPace_room {n : Nat} (hn : n ≤ 11) (h : Room n s) : evalPace s = pacedState s := by
  unfold evalPace
  rw [paceOnce_room hn h]
  exact if_pos ((paceNeed_pacedState s).trans (pacedState_own s).symm)

/-! ## Evaluations alone -/

/-- The pace alone was evaluated: every frame but a PACE stands in its place, and no place is lost. -/
structure Paced (s t : State) : Prop where
  keeps : KeepsBut [.pace, .queue] s t
  others : otherFrames t.link.queue = otherFrames s.link.queue
  length : t.link.queue.length ≤ max s.link.queue.length ((otherFrames s.link.queue).length + 1)

theorem Paced.refl (s : State) : Paced s s := ⟨KeepsBut.refl _ _, rfl, Nat.le_max_left _ _⟩

theorem Paced.room {n : Nat} (h : Paced s t) (hr : Room n s) : Room n t := by
  refine ⟨h.length.trans ?_, by rw [h.others]; exact hr.2⟩
  have := hr.1; have := hr.2; omega

theorem Paced.mem_iff (h : Paced s t) {x : QFrame} (hx : frameGroup x.body ≠ .pace) :
    x ∈ t.link.queue ↔ x ∈ s.link.queue := by
  have := h.others
  have hm : x ∈ otherFrames t.link.queue ↔ x ∈ otherFrames s.link.queue := by rw [this]
  simpa [mem_otherFrames, hx] using hm

theorem evalPace_paced {n : Nat} (hn : n ≤ 11) (h : Room n s) : Paced s (evalPace s) := by
  rw [evalPace_room hn h]
  unfold pacedState; split
  · exact Paced.refl s
  · refine ⟨?_, ?_, ?_⟩
    · intro p hp
      cases p <;> simp only [Part.same, List.mem_cons, List.not_mem_nil, or_false, not_true_eq_false,
        reduceCtorEq, or_true, and_self] at hp ⊢ <;> split <;> rfl
    · dsimp only; split
      · rfl
      · exact otherFrames_insert_pace _ _ _
    · dsimp only; split
      · exact Nat.le_max_left _ _
      · rw [length_insertFrame]; exact Nat.le_max_right _ _

/-! ## A joining and the pace behind it -/

/-- A frame that replaces none finds a place, joins, and the pace is evaluated behind it. -/
theorem askFrame_joins {n : Nat} (hn : n ≤ 10) (h : Room n s) {body : FrameBody}
    (hb : isCoalesced (frameGroup body) = false) :
    KeepsBut [.pace, .queue] s (askFrame body s) ∧ Room (n + 1) (askFrame body s)
      ∧ ∀ x, frameGroup x.body ≠ .pace →
        (x ∈ (askFrame body s).link.queue ↔ x = ⟨body, s.link.nextAge⟩ ∨ x ∈ s.link.queue) := by
  have hlen : s.link.queue.length < 12 := by have := h.1; omega
  have hraw := askRaw_room s (body := body) hlen
  have hkb : keptBeside body s.link.queue = s.link.queue := by simp [keptBeside, hb]
  rw [hkb] at hraw
  have hkeep : KeepsBut [.pace, .queue] s (askRaw body s) := by
    rw [hraw]; intro p hp; cases p <;> simp_all [Part.same]
  have hroom : Room (n + 1) (askRaw body s) := by
    rw [hraw]
    refine ⟨?_, (length_otherFrames_insert _ _).trans (Nat.succ_le_succ h.2)⟩
    have := h.1; simp; omega
  have hmem : ∀ x, x ∈ (askRaw body s).link.queue ↔ x = ⟨body, s.link.nextAge⟩ ∨ x ∈ s.link.queue := by
    intro x; rw [hraw]; exact mem_insertFrame
  have hp : Paced (askRaw body s) (askFrame body s) := by
    unfold askFrame evalIfKeptChanged; split
    · exact Paced.refl _
    · exact evalPace_paced (by omega) hroom
  exact ⟨hkeep.trans hp.keeps, hp.room hroom, fun x hx => (hp.mem_iff hx).trans (hmem x)⟩

/-- A bay's record replaced: a change of its state reaches the pace and the lamp (R156, R179). -/
theorem putBay_room {n : Nat} (hn : n ≤ 11) (h : Room n s) (b : BayNo) (x : Bay) :
    KeepsBut [.bays, .lamp, .pace, .queue] s (putBay b x s) ∧ Room n (putBay b x s)
      ∧ ∀ f, frameGroup f.body ≠ .pace → (f ∈ (putBay b x s).link.queue ↔ f ∈ s.link.queue) := by
  have hset := (setBays_keeps s (s.bays.set b x)).mono (qs := [.bays, .lamp, .pace, .queue]) (by decide)
  have hp := evalPace_paced (s := { s with bays := s.bays.set b x }) hn h
  unfold putBay; dsimp only; split
  · exact ⟨hset, h, fun _ _ => Iff.rfl⟩
  · exact ⟨(hset.trans (hp.keeps.mono (by decide))).trans ((followLamp_keeps _).mono (by decide)),
      hp.room h, fun f hf => hp.mem_iff hf⟩

/-- In the same bay state the record alone is replaced. -/
theorem putBay_same {b : BayNo} {x : Bay} (h : x.state = (s.bays.get b).state) :
    putBay b x s = { s with bays := s.bays.set b x } := if_pos h

/-! ## A head that is no MARKER -/

theorem processHeads_noMarker (n : Nat) (h : NoMarkerFirst s.tracks) : processHeads n s = s := by
  cases n with
  | zero => rfl
  | succ n =>
    unfold processHeads; split
    next q l rest ht => exact absurd ht (h q l rest)
    · rfl

theorem lookAtHead_noMarker (h : NoMarkerFirst s.tracks) : lookAtHead s = s := processHeads_noMarker _ h

end Sys2Proof.Machine
end

section
/-! SUPPORT. The queue of commands, reset and load (R182 to R184). -/

namespace Sys2Proof.Machine

/-- Settles O1: both clauses are the equations of `step`. -/
theorem stepRunsFrontCommand : Obligations.StepRunsFrontCommand :=
  ⟨fun _ _ _ => rfl, fun s hs => by unfold step; rw [hs]⟩

/-- Settles O2: each column is a field of `afterReset`. -/
theorem resetReturnsEveryBlock : Obligations.ResetReturnsEveryBlock := by
  intro s
  have hbays : ∀ b, (afterReset s).bays.get b = Bay.cleared ∧ (afterReset s).pushers.get b = PulseOut.off
      ∧ (afterReset s).bayHigh.get b = CondInput.reset (s.bayHigh.get b).raw
      ∧ (afterReset s).bayClear.get b = CondInput.reset (s.bayClear.get b).raw := by
    intro b; cases b <;> exact ⟨rfl, rfl, rfl, rfl⟩
  have hcounters : ∀ c ∈ (afterReset s).tally.counters,
      c.value = 0 ∧ c.saturated = false ∧ c.countingLot = none ∧ c.latch = none := by
    simp [afterReset, State.reset, Tally.reset, Counter.unused]
  have hbuttons : ∀ b, buttonOf b (afterReset s).panel = CondInput.reset (buttonOf b s.panel).raw := by
    intro b; cases b <;> rfl
  exact ⟨afterReset s, rfl, rfl, rfl, rfl, rfl, rfl, rfl, rfl, rfl, rfl, rfl, rfl, rfl, rfl, rfl, rfl, rfl,
    rfl, rfl, rfl, rfl, rfl, rfl, hbays, rfl, rfl, rfl, rfl, rfl, rfl, rfl, rfl, hcounters, hbuttons,
    rfl, rfl, rfl, rfl, rfl, rfl, rfl, rfl, rfl⟩

/-- Settles O54: reset stands outside ACTIVE with empty sets, lists and queue. -/
theorem resetMeetsEveryLaw : Obligations.ResetMeetsEveryLaw := by
  obtain ⟨hrun, hlamp⟩ : RunLaw State.reset ∧ LampLaw State.reset := laws_of_inactive nofun rfl rfl
  exact ⟨hrun, hlamp, nofun, emptyTracks_recordLaw rfl, reset_countLaw,
    (tableLaw_iff _).2 ⟨tableOk_nil, nofun⟩, clearedBays_bayLaw rfl, queueOk_nil _,
    lineLaw_of_inactive nofun rfl rfl, noOthers_othersLaw rfl, fun _ => rfl⟩

/-! ## The end of a load -/

theorem exec_load_failed {img : List Byte} {s : State} (hs : s.station = .loading) {code : Nat}
    {table : List CategoryEntry} {map : List (Option Nat)} (h : loadImage img = .failed code table map) :
    exec (.loadComplete img) s = .next (enterFault code table map s) := by
  change execLoadComplete img s = _
  simp only [execLoadComplete, hs, h, if_true]

theorem exec_load_loaded {img : List Byte} {s : State} (hs : s.station = .loading) {c : Settings}
    {table : List CategoryEntry} {map : List (Option Nat)} {counters : List Counter}
    (h : loadImage img = .loaded c table map counters) :
    exec (.loadComplete img) s = .next (enterActive c table map counters s) := by
  change execLoadComplete img s = _
  simp only [execLoadComplete, hs, h, if_true]

/-- Settles O3: a wrong image check is the load's first failure, with code 01 and nothing filed. -/
theorem loadFaultsOnBadImageCheck : Obligations.LoadFaultsOnBadImageCheck := by
  intro img s hs hcheck
  have hload : loadImage img = .failed 1 [] fixedSegmentMap := by
    simp [loadImage, imageCheckOk, hcheck]
  exact ⟨_, exec_load_failed hs hload, rfl, rfl, rfl, rfl, rfl, rfl, rfl, rfl, rfl, rfl⟩

/-! ## The header checks -/

/-- The code of the first failing check, where the codes rise along the list (R182). -/
theorem firstFailure_eq_some {code : Nat} : ∀ {checks : List (Nat × Bool)},
    (checks.map Prod.fst).Pairwise (· < ·) → (code, false) ∈ checks →
    (∀ c ∈ checks, c.1 < code → c.2 = true) → firstFailure checks = some code
  | [], _, hmem, _ => by cases hmem
  | c :: cs, hs, hmem, hbefore => by
    obtain ⟨hc, hs⟩ := List.pairwise_cons.1 hs
    rcases List.mem_cons.1 hmem with rfl | hmem
    · simp [firstFailure]
    · have hlt : c.1 < code := hc _ (List.mem_map_of_mem hmem)
      have htrue : c.2 = true := hbefore c List.mem_cons_self hlt
      have ih := firstFailure_eq_some hs hmem fun x hx => hbefore x (List.mem_cons_of_mem _ hx)
      simpa [firstFailure, htrue] using ih

/-- The code of a failing check is one of the codes. -/
theorem firstFailure_mem {code : Nat} {checks : List (Nat × Bool)} (h : firstFailure checks = some code) :
    code ∈ checks.map Prod.fst := by
  obtain ⟨c, hc, rfl⟩ := Option.map_eq_some_iff.1 h
  exact List.mem_map_of_mem (List.mem_of_find?_eq_some hc)

theorem rising_iff : ∀ xs : List Nat, rising xs = true ↔ xs.Pairwise (· < ·)
  | [] => by simp [rising]
  | [x] => by simp [rising]
  | x :: y :: rest => by
    rw [rising, Bool.and_eq_true, decide_eq_true_eq, rising_iff (y :: rest)]
    refine ⟨fun ⟨hxy, h⟩ => List.pairwise_cons.2 ⟨fun z hz => ?_, h⟩, fun h => ?_⟩
    · rcases List.mem_cons.1 hz with rfl | hz
      · exact hxy
      · exact hxy.trans ((List.pairwise_cons.1 h).1 z hz)
    · obtain ⟨hx, h⟩ := List.pairwise_cons.1 h
      exact ⟨hx y List.mem_cons_self, h⟩

/-- With at most four bays the image holds the gate distances side by side (R181). -/
theorem bayDists_readHeader {img : List Byte} (h : imageNat img 3 ≤ 4) :
    (readHeader img).bayDists = gateDistances img := by
  have hcount : (readHeader img).bayCount = imageNat img 3 := rfl
  unfold Header.bayDists gateDistances
  rw [hcount]
  generalize imageNat img 3 = n at h
  interval_cases n <;> rfl

theorem mem_present {d : Nat} {ds : List Nat} : d ∈ present ds ↔ d ∈ ds ∧ d ≠ 0 := by
  simp [present]

section

variable {img : List Byte}

theorem peerCheck_iff (a b st : Nat) :
    (a != st && b != st && (a != b || (a == 0 && b == 0))) = true ↔
      a ≠ st ∧ b ≠ st ∧ (a = b → a = 0) := by
  simp only [Bool.and_eq_true, Bool.or_eq_true, bne_iff_ne, beq_iff_eq, and_assoc]
  refine and_congr_right fun _ => and_congr_right fun _ => ?_
  omega

theorem inRange_iff (h : imageNat img 3 ≤ 4) :
    (readHeader img).inRange = true ↔ headerInRange img := by
  have hd : ([(readHeader img).dA, (readHeader img).dB] ++ (readHeader img).bayDists
      ++ [(readHeader img).dR, (readHeader img).dX]).all (fun d => decide (d ≤ 20000)) = true ↔
      ∀ d ∈ gateDistances img ++ [imageWord img 10, imageWord img 12, imageWord img 22, imageWord img 24],
        d ≤ 20000 := by
    rw [bayDists_readHeader h]
    simp only [List.all_append, List.all_cons, List.all_nil, Bool.and_true, Bool.and_eq_true,
      decide_eq_true_eq, List.all_eq_true, List.forall_mem_append, List.forall_mem_cons, readHeader]
    constructor
    · rintro ⟨⟨⟨ha, hb⟩, hg⟩, hr, hx⟩; exact ⟨hg, ha, hb, hr, hx, nofun⟩
    · rintro ⟨hg, ha, hb, hr, hx, -⟩; exact ⟨⟨⟨ha, hb⟩, hg⟩, hr, hx⟩
  unfold Header.inRange headerInRange
  simp only [Bool.and_eq_true, hd, decide_eq_true_eq, and_assoc]
  exact Iff.rfl

theorem jetsBeforeGates_iff (h : imageNat img 3 ≤ 4) :
    ((present [(readHeader img).dA, (readHeader img).dB]).all fun j =>
        (readHeader img).gateDists.all fun g => decide (j < g)) = true ↔
      ∀ j ∈ [imageWord img 10, imageWord img 12], j ≠ 0 →
        ∀ g ∈ gateDistances img ++ [imageWord img 22], g ≠ 0 → j < g := by
  simp only [List.all_eq_true, Header.gateDists, bayDists_readHeader h, mem_present, decide_eq_true_eq,
    and_imp]
  rfl

theorem beforeExit_iff (h : imageNat img 3 ≤ 4) :
    ((present [(readHeader img).dA, (readHeader img).dB] ++ (readHeader img).gateDists).all fun d =>
        decide (d < (readHeader img).dX)) = true ↔
      ∀ d ∈ [imageWord img 10, imageWord img 12] ++ (gateDistances img ++ [imageWord img 22]),
        d ≠ 0 → d < imageWord img 24 := by
  simp only [List.all_eq_true, Header.gateDists, bayDists_readHeader h, decide_eq_true_eq,
    List.forall_mem_append, mem_present, and_imp]
  rfl

theorem gatesRise_iff (h : imageNat img 3 ≤ 4) :
    (rising (readHeader img).bayDists && ((readHeader img).dR == 0 ||
        (readHeader img).bayDists.all fun d => decide (d < (readHeader img).dR))) = true ↔
      (gateDistances img).Pairwise (· < ·)
        ∧ (imageWord img 22 ≠ 0 → ∀ d ∈ gateDistances img, d < imageWord img 22) := by
  have hR : (readHeader img).dR = imageWord img 22 := rfl
  rw [Bool.and_eq_true, rising_iff, bayDists_readHeader h, hR, Bool.or_eq_true, beq_iff_eq,
    List.all_eq_true, or_iff_not_imp_left]
  simp only [decide_eq_true_eq, ne_eq]

/-- Each check of the loader is the check of R183 with its code, once the bay count is at most 4. -/
theorem headerChecks_iff : ∀ c ∈ headerChecks (readHeader img), (c.1 ≤ 15 ∨ headerCheck img 15) →
    (c.2 = true ↔ headerCheck img c.1) := by
  have hbays : ∀ {n : Nat}, 15 < n → (n ≤ 15 ∨ headerCheck img 15) → imageNat img 3 ≤ 4 := fun hn h =>
    h.resolve_left (Nat.not_le.2 hn)
  simp only [headerChecks, List.forall_mem_cons]
  refine ⟨fun _ => ?_, fun _ => ?_, fun _ => ?_, fun _ => ?_, fun _ => ?_, fun _ => ?_, fun h => ?_,
    fun h => ?_, fun h => ?_, fun h => ?_, fun _ => ?_, fun _ => ?_, fun h => ?_, nofun⟩
  · exact decide_eq_true_iff
  · exact decide_eq_true_iff
  · exact peerCheck_iff _ _ _
  · exact decide_eq_true_iff
  · exact decide_eq_true_iff
  · exact decide_eq_true_iff
  · rw [bayDists_readHeader (hbays (by decide) h), List.all_eq_true]; simp [headerCheck]
  · exact inRange_iff (hbays (by decide) h)
  · exact jetsBeforeGates_iff (hbays (by decide) h)
  · exact beforeExit_iff (hbays (by decide) h)
  · exact decide_eq_true_iff
  · have hrej : ∀ d r : Nat, (d != 0 || r != 0) = true ↔ (d = 0 → r ≠ 0) := by
      intro d r; simp only [Bool.or_eq_true, bne_iff_ne]; omega
    exact hrej _ _
  · exact gatesRise_iff (hbays (by decide) h)

/-- The codes of the header checks are 10 to 22, in this order. -/
theorem headerChecks_codes (h : Header) :
    (headerChecks h).map Prod.fst = [10, 11, 12, 13, 14, 15, 16, 17, 18, 19, 20, 21, 22] := rfl

theorem firstFailure_headerChecks {code : Nat} (hlo : 10 ≤ code) (hhi : code ≤ 22)
    (hfail : ¬ headerCheck img code) (hpass : ∀ c, 10 ≤ c → c < code → headerCheck img c) :
    firstFailure (headerChecks (readHeader img)) = some code := by
  have hcount : ∀ {n : Nat}, n ≤ code → (n ≤ 15 ∨ headerCheck img 15) := fun {n} hn => by
    by_cases h : n ≤ 15
    · exact .inl h
    · exact .inr (hpass 15 (by decide) (by omega))
  have hcode : code ∈ (headerChecks (readHeader img)).map Prod.fst := by
    rw [headerChecks_codes]; simp only [List.mem_cons, List.not_mem_nil]; omega
  obtain ⟨⟨c, b⟩, hmem, rfl⟩ := List.mem_map.1 hcode
  have hb : b = false :=
    Bool.eq_false_iff.2 fun hb => hfail ((headerChecks_iff _ hmem (hcount (le_refl _))).1 hb)
  subst hb
  refine firstFailure_eq_some (by rw [headerChecks_codes]; decide) hmem fun x hx hlt => ?_
  have hx10 : 10 ≤ x.1 := by
    have := List.mem_map_of_mem (f := Prod.fst) hx
    rw [headerChecks_codes] at this
    simp only [List.mem_cons, List.not_mem_nil, or_false] at this
    omega
  exact (headerChecks_iff x hx (hcount hlt.le)).2 (hpass x.1 hx10 hlt)

theorem headerChecks_pass (h : ∀ c, 10 ≤ c → c ≤ 22 → headerCheck img c) :
    firstFailure (headerChecks (readHeader img)) = none := by
  rw [firstFailure_eq_none]
  intro c hc
  have hcode := List.mem_map_of_mem (f := Prod.fst) hc
  rw [headerChecks_codes] at hcode
  simp only [List.mem_cons, List.not_mem_nil, or_false] at hcode
  exact (headerChecks_iff c hc (.inr (h 15 (by decide) (by decide)))).2 (h _ (by omega) (by omega))

end

/-! ## The codes of the later checks -/

theorem fileEntries_failed_code (h : Header) (img : List Byte) (n : Nat) : ∀ {at' filed code table},
    fileEntries h img n at' filed = .failed code table → 30 ≤ code := by
  induction n with
  | zero => intro at' filed code table hf; cases hf
  | succ n ih =>
    intro at' filed code table hf
    unfold fileEntries at hf; split at hf
    next c hc =>
      cases hf
      have := firstFailure_mem hc
      simp only [entryChecks, List.map_cons, List.map_nil, List.mem_cons, List.not_mem_nil,
        or_false] at this
      omega
    · exact ih hf

theorem loadTable_failed_code {h : Header} {img : List Byte} {code : Nat} {table : List CategoryEntry}
    (hf : loadTable h img = .failed code table) : 30 ≤ code := by
  unfold loadTable at hf; split at hf
  · cases hf; decide
  · split at hf
    · cases hf; decide
    · split at hf
      next hfile => cases hf; exact fileEntries_failed_code h img _ hfile
      · split at hf
        · cases hf; decide
        · split at hf <;> cases hf
          decide

theorem tallyChecks_code {img : List Byte} {offsets : List Nat} {code : Nat}
    (h : firstFailure (offsets.flatMap (tallyChecks img)) = some code) : 30 ≤ code := by
  have hmem := firstFailure_mem h
  simp only [List.mem_map, List.mem_flatMap] at hmem
  obtain ⟨x, ⟨i, -, hx⟩, rfl⟩ := hmem
  simp only [tallyChecks, List.mem_cons, List.not_mem_nil, or_false] at hx
  rcases hx with rfl | rfl | rfl <;> simp

/-- A load whose header passes fails with a code of the table, the map or the tally set-ups alone. -/
theorem loadImage_failed_code {img : List Byte} {code : Nat} {table : List CategoryEntry}
    {map : List (Option Nat)} (hok : imageCheckOk img = true)
    (hh : firstFailure (headerChecks (readHeader img)) = none)
    (h : loadImage img = .failed code table map) : 30 ≤ code := by
  rcases loadImage_failed h with ⟨hbad, -⟩ | ⟨-, hc, -⟩ | ⟨-, -, -, ht | rfl | ht⟩
  · rw [hok] at hbad; cases hbad
  · rw [hh] at hc; cases hc
  · exact loadTable_failed_code ht
  · decide
  · exact tallyChecks_code ht

/-- Settles O4: the loader's checks are those of R183, in the order of their codes. -/
theorem firstFailingHeaderCheckGivesCode : Obligations.FirstFailingHeaderCheckGivesCode := by
  intro img s hs hcheck
  have hok : imageCheckOk img = true := by simp [imageCheckOk, hcheck]
  have hload : loadImage img = loadChecked img := if_pos hok
  refine ⟨fun code hlo hhi hfail hpass => ?_, fun hpass => ?_⟩
  · have hfirst := firstFailure_headerChecks hlo hhi hfail hpass
    have hload : loadImage img = .failed code [] fixedSegmentMap := by
      rw [hload]; simp only [loadChecked, hfirst]
    exact ⟨_, exec_load_failed hs hload, rfl, rfl⟩
  · have hfirst := headerChecks_pass hpass
    cases hl : loadImage img with
    | failed code table map =>
      refine ⟨_, exec_load_failed hs hl, fun c hc => ?_⟩
      cases hc
      exact loadImage_failed_code hok hfirst hl
    | loaded c table map counters =>
      refine ⟨_, exec_load_loaded hs hl, fun code hc => ?_⟩
      have hactive : (enterActive c table map counters s).station = .active :=
        enterActive_keeps c table map counters s .station (by decide)
      rw [hactive] at hc; cases hc

/-! ## The entry to ACTIVE -/

/-- A pace gap of an image in force is at most 5,000 (R181, check 17). -/
theorem loaded_paceGap {img : List Byte} {c : Settings} {table : List CategoryEntry}
    {map : List (Option Nat)} {counters : List Counter}
    (h : loadImage img = .loaded c table map counters) : c.paceGap ≤ 5000 := by
  obtain ⟨hh, rfl, -⟩ := loadImage_loaded h
  have hrange := firstFailure_eq_none.1 hh (17, (readHeader img).inRange) (by simp [headerChecks])
  simp only [Header.inRange, Bool.and_eq_true, decide_eq_true_eq] at hrange
  exact hrange.2

/-- The station once RESTART and its two frames stand, before the pace is evaluated (R152, R184). -/
def startedBlocks (c : Settings) (table : List CategoryEntry) (map : List (Option Nat))
    (counters : List Counter) (s : State) : State :=
  let u := startBlocks c table map counters s
  { u with
    stops := ⟨insertReason ReasonSet.none .restart, []⟩
    panel := { u.panel with lamp := true }
    link := { u.link with queue := [⟨startFrameOf c, 0⟩, ⟨.stop 6, 1⟩], nextAge := 2 } }

variable (c : Settings) (table : List CategoryEntry) (map : List (Option Nat)) (counters : List Counter)
  (s : State)

theorem restart_started : addReason .restart (askRaw (startFrameOf c) (startBlocks c table map counters s)) =
    startedBlocks c table map counters s := rfl

theorem started_need : paceNeed (startedBlocks c table map counters s) = entryPace c s := by
  have hall : (BayNo.all.all fun b => !isConfigured (startedBlocks c table map counters s) b
        || isBusy ((startedBlocks c table map counters s).bays.get b)) =
      BayNo.all.all fun b => decide (c.bayCount < b.num) || !(s.bayClear.get b).raw := by
    refine congrArg _ (funext fun b => ?_)
    have hbay : (startedBlocks c table map counters s).bays.get b =
        startBay c.bayCount b (s.bayClear.get b) := by cases b <;> rfl
    have hcount : (startedBlocks c table map counters s).settings.bayCount = c.bayCount := rfl
    rw [hbay, isConfigured, hcount, startBay]
    by_cases hb : b.num ≤ c.bayCount <;> cases hr : (s.bayClear.get b).raw <;>
      simp [hb, isBusy, Bay.cleared, Nat.not_lt.2, Nat.lt_of_not_le]
  have hkept : keptCount (startedBlocks c table map counters s) = 1 := rfl
  have htracks : onBeltCount (startedBlocks c table map counters s).tracks = 0 := rfl
  have hset : (startedBlocks c table map counters s).settings = c := rfl
  simp only [paceNeed, isCrowded, hkept, htracks, hset, hall, entryPace, Config.crowdedBelt,
    Config.crowdedQueue]
  simp

/-- The entry to ACTIVE with the pace at its conditions (R156, R157, R184). -/
theorem enterActive_eq (hgap : c.paceGap ≤ 5000) : enterActive c table map counters s =
    let u := startedBlocks c table map counters s
    let p := entryPace c s
    { u with
      pace := ⟨0, p, p⟩
      link := if p ≠ 0 ∧ c.upstream ≠ 0 then
          { u.link with
            queue := u.link.queue ++ [⟨.pace (BitVec.ofNat 16 p), 2⟩]
            nextAge := 3 }
        else u.link } := by
  have hle : entryPace c s ≤ 5000 := by
    unfold entryPace; dsimp only; split
    · exact hgap
    · exact Nat.zero_le _
  have hroom : Room 2 (startedBlocks c table map counters s) := room_of_length (le_refl 2)
  unfold enterActive
  rw [restart_started, evalPace_room (by decide) hroom, pacedState, started_need]
  by_cases hp : entryPace c s = 0
  · rw [hp]; exact if_pos rfl
  · have hout : min (max 0 (entryPace c s)) 5000 = entryPace c s := by omega
    have hpace : (startedBlocks c table map counters s).pace = ⟨0, 0, 0⟩ := rfl
    have hset : (startedBlocks c table map counters s).settings = c := rfl
    simp only [hpace, hset, hout, hp, if_false, false_or, ne_eq, not_false_eq_true, true_and]
    by_cases hup : c.upstream = 0
    · simp only [hup, if_true, not_true_eq_false, if_false]
    · simp only [hup, if_false, not_false_eq_true, if_true]; rfl

theorem startBay_eq (count : Nat) (b : BayNo) (x : CondInput) : startBay count b x =
    { Bay.cleared with state := if b.num ≤ count ∧ x.raw = false then .blocked else .empty } := by
  unfold startBay; split <;> rfl

/-- Settles O5: the entry to ACTIVE is the starting blocks, the two frames of a restart and the pace. -/
theorem entryToActive : Obligations.EntryToActive := by
  intro img s c table map counters hs hload
  obtain ⟨-, -, huses⟩ := loadImage_loaded_table hload
  have hbays : ∀ b, (fourOf fun b => startBay c.bayCount b (s.bayClear.get b)).get b =
      { Bay.cleared with
        state := if b.num ≤ c.bayCount ∧ (s.bayClear.get b).raw = false then .blocked else .empty } := by
    intro b; cases b <;> exact startBay_eq _ _ _
  have hinputs : ∀ (f : Four CondInput) (b : BayNo), b.num ≤ c.bayCount →
      (fourOf fun b => startBayInput c.bayCount b (f.get b)).get b =
        ⟨(f.get b).raw, (f.get b).raw, none⟩ := by
    intro f b hb; cases b <;> exact if_pos hb
  refine ⟨_, exec_load_loaded hs hload, ?_⟩
  rw [enterActive_eq c table map counters s (loaded_paceGap hload)]
  refine ⟨rfl, rfl, rfl, huses, rfl, rfl, rfl, rfl, rfl, rfl, rfl, rfl, fun b => ⟨hbays b, fun hb => ⟨?_, ?_⟩, ?_⟩, rfl,
    rfl, ?_, ?_, ?_, ?_, ?_, rfl, rfl, rfl, rfl, rfl, rfl, rfl, rfl, fun b => ?_, rfl, rfl⟩
  · exact hinputs s.bayHigh b hb
  · exact hinputs s.bayClear b hb
  · cases b <;> rfl
  · dsimp only; split <;> rfl
  · dsimp only; split <;> rfl
  · dsimp only; split <;> rfl
  · dsimp only; split <;> rfl
  · dsimp only; split <;> rfl
  · cases b <;> rfl

end Sys2Proof.Machine
end

section
/-! SUPPORT. The panel and the bays: conditioned inputs, presses and releases, the display, bay events and
timers, the configurable counters (R34, R118, R134 to R143, R146 to R149, R153, R175 to R180). -/

namespace Sys2Proof.Machine

variable {s t : State}

/-! ## Conditioned inputs -/

theorem bayLive_iff (s : State) (b : BayNo) :
    bayLive s b = true ↔ s.station = .active ∧ b.num ≤ s.settings.bayCount := by
  simp [bayLive, isActive, isConfigured]

/-- A raw change that is taken (R34). -/
theorem inputRaw_taken (level : Bool) (x : CondInput) : inputRaw true level x =
    if x.raw = level then x
    else { x with
      raw := level
      pendingLevel :=
        if level = x.level then none
        else match x.pendingLevel with
          | none => some ⟨level, 16⟩
          | some pending => some pending } := by
  unfold inputRaw inputChanged
  by_cases hraw : x.raw = level
  · simp [hraw]
  by_cases hlevel : level = x.level
  · simp [hlevel]
  cases x.pendingLevel <;> simp [hraw, hlevel, Config.inputFilterTime]

/-- Settles O20: an ACTIVE station takes the level at a button and at a configured bay. -/
theorem conditionedInputStartsFilter : Obligations.ConditionedInputStartsFilter := by
  intro s level hs after
  have hafter : ∀ x, inputRaw true level x = after x := inputRaw_taken level
  refine ⟨fun b => ?_, fun b hb => ?_⟩
  · change Host.Outcome.next (putButton b (inputRaw (isActive s) level _) s) = _
    rw [(isActive_iff s).2 hs, hafter]
  · have hlive := (bayLive_iff s b).2 ⟨hs, hb⟩
    constructor
    · change Host.Outcome.next { s with bayHigh := s.bayHigh.set b (inputRaw (bayLive s b) level _) } = _
      rw [hlive, hafter]
    · change Host.Outcome.next { s with bayClear := s.bayClear.set b (inputRaw (bayLive s b) level _) } = _
      rw [hlive, hafter]

/-! ## Pulse expiries -/

/-- Settles O38: each expiry is guarded by its own timer. -/
theorem pulseExpiriesTurnOutputsOff : Obligations.PulseExpiriesTurnOutputsOff := by
  intro s
  have hoff : ∀ {x : Option Nat}, x = none → ¬ x.isSome = true := by rintro _ rfl; simp
  exact ⟨fun h => if_pos h, fun h => if_pos h, fun h => if_neg (hoff h), fun h => if_neg (hoff h),
    fun b => ⟨fun h => if_pos h, fun h => if_neg (hoff h)⟩⟩

/-! ## Releases and the selection -/

/-- Settles O35: a release puts the button's level down, and STOP and RUN end the hold. -/
theorem releasesStopTheHold : Obligations.ReleasesStopTheHold := by
  intro s hs
  have hexec : ∀ b, exec (.buttonRelease b) s = .next (releaseButton b s) :=
    fun b => if_pos ((isActive_iff s).2 hs)
  exact ⟨hexec .stop, hexec .run, hexec .select, hexec .close⟩

theorem bayAfter_num {b : BayNo} (h : b.num < 4) : (bayAfter b).num = b.num + 1 := by
  cases b <;> simp_all [bayAfter, BayNo.num]

/-- Settles O32: the selection goes through `nextSelected`. -/
theorem selectPressMovesSelection : Obligations.SelectPressMovesSelection := by
  intro s hs
  refine ⟨{ s with panel := { s.panel with
    select := recognised true, selected := nextSelected s.settings s.panel.selected } },
    if_pos ((isActive_iff s).2 hs), rfl, ?_, ?_, ?_, rfl, rfl, rfl, ?_⟩
  · intro h; simp [nextSelected, h]
  · intro b h hlt hcount
    exact ⟨bayAfter b, by simp [nextSelected, h, hlt], bayAfter_num (by omega)⟩
  · intro b h hle
    simp [nextSelected, h, Nat.not_lt.2 hle]
  · exact ((putButton_keeps s .select (recognised true)).mono (by decide)).trans
      ((setSelected_keeps _ _).mono (by decide))

/-! ## The counters -/

theorem raiseCounter_raised (n : Nat) (c : Counter) :
    Raised n c (raiseCounter n c) ∧ (raiseCounter n c).countingLot = c.countingLot := by
  unfold raiseCounter; split
  next h =>
    have h : 16777215 < c.value + n := h
    exact ⟨⟨fun h' => absurd h (by omega), fun _ => ⟨rfl, rfl⟩, rfl, rfl, rfl, rfl⟩, rfl⟩
  next h =>
    have h : ¬ 16777215 < c.value + n := h
    exact ⟨⟨fun _ => ⟨rfl, rfl⟩, fun h' => absurd h' h, rfl, rfl, rfl, rfl⟩, rfl⟩

theorem filterPasses_iff (c : Counter) (lot : Lot) (code : Code) :
    filterPasses c (some (lot, code)) = true ↔ c.oneCode = none ∨ c.oneCode = some code := by
  unfold filterPasses
  cases c.oneCode with
  | none => simp
  | some k => simpa using eq_comm

section
variable {c : Counter} {ev : TallyEvent} {n : Nat} {lot : Lot} {code : Code}

/-- An offer that a counter of every lot counts (R175). -/
theorem offerCounter_plain {id : Option (Lot × Code)} (he : c.event = some ev)
    (hf : filterPasses c id = true) (hl : c.perLot = false) :
    offerCounter ev n id c = raiseCounter n c := by
  simp [offerCounter, he, hf, hl]

/-- An offer of the lot that a PER_LOT counter counts, or is opened by (R176). -/
theorem offerCounter_perLot (he : c.event = some ev) (hf : filterPasses c (some (lot, code)) = true)
    (hl : c.perLot = true) (hc : c.countingLot = none ∨ c.countingLot = some lot) :
    Raised n c (offerCounter ev n (some (lot, code)) c)
      ∧ (offerCounter ev n (some (lot, code)) c).countingLot = some lot := by
  have hr := raiseCounter_raised n c
  rcases hc with hc | hc
  · have : offerCounter ev n (some (lot, code)) c = { raiseCounter n c with countingLot := some lot } := by
      simp [offerCounter, he, hf, hl, hc]
    rw [this]
    exact ⟨hr.1, rfl⟩
  · have : offerCounter ev n (some (lot, code)) c = raiseCounter n c := by
      simp [offerCounter, he, hf, hl, hc]
    rw [this]
    exact ⟨hr.1, hr.2.trans hc⟩

end

/-- Settles O40: the offer passes the event, the filter and the counting lot in turn. -/
theorem countersCountAndLatch : Obligations.CountersCountAndLatch := by
  intro c ev n lot code offered
  refine ⟨fun he id => if_neg fun h => he h.1, fun k hk hne => if_neg fun h => ?_,
    fun other hl hc hne => ?_, fun he hf hl => ?_, fun he hf hl hc => ?_, fun he hf hl => ?_,
    fun hl hc => if_pos ⟨hl, hc⟩, fun h => if_neg ?_⟩
  · rcases (filterPasses_iff c lot code).1 h.2 with h | h <;> simp_all
  · simp [offered, offerCounter, hl, hc, hne]
  · have : offered = raiseCounter n c := offerCounter_plain he ((filterPasses_iff c lot code).2 hf) hl
    rw [this]; exact raiseCounter_raised n c
  · exact offerCounter_perLot he ((filterPasses_iff c lot code).2 hf) hl hc
  · rw [offerCounter_plain he (by simp [filterPasses, hf]) hl]
    exact (raiseCounter_raised n c).1
  · rcases h with h | h <;> simp [h]

/-! ## The display -/

theorem mem_reasonList (r : ReasonSet) (x : StopReason) : x ∈ reasonList r ↔ hasReason r x = true := by
  simp only [reasonList, List.mem_filter, and_iff_right_iff_imp]
  intro _; cases x <;> simp

theorem reasonList_sorted (r : ReasonSet) :
    (reasonList r).Pairwise fun x y => reasonNumber x ≤ reasonNumber y :=
  List.Pairwise.filter _ (by decide)

theorem hasReason_of_ne_none {r : ReasonSet} (h : r ≠ ReasonSet.none) : ∃ x, hasReason r x = true := by
  by_contra hc
  simp only [not_exists, Bool.not_eq_true] at hc
  have ho := hc .operator
  have hst := hc .stall
  have hov := hc .overrun
  have hen := hc .jamEntry
  have hex := hc .jamExit
  have hre := hc .restart
  cases r
  simp_all [hasReason, ReasonSet.none]

/-- The number the display shows is the lowest of the set (R178). -/
theorem lowestReason_spec {r : ReasonSet} (h : r ≠ ReasonSet.none) :
    (∃ x, hasReason r x = true ∧ reasonNumber x = lowestReason r)
      ∧ ∀ x, hasReason r x = true → lowestReason r ≤ reasonNumber x := by
  obtain ⟨y, hy⟩ := hasReason_of_ne_none h
  have hmem := (mem_reasonList r y).2 hy
  have hsort := reasonList_sorted r
  unfold lowestReason
  cases hl : reasonList r with
  | nil => simp [hl] at hmem
  | cons x xs =>
    refine ⟨⟨x, (mem_reasonList r x).1 (by simp [hl]), rfl⟩, fun z hz => ?_⟩
    have hz : z ∈ x :: xs := hl ▸ (mem_reasonList r z).2 hz
    rw [hl] at hsort
    rcases List.mem_cons.1 hz with rfl | hz
    · exact le_rfl
    · exact (List.pairwise_cons.1 hsort).1 z hz

theorem countDigits_small {n : Nat} (h : n < 10) : countDigits n = [.blank, .digit n] := by
  simp [countDigits, Nat.mod_eq_of_lt h, Nat.div_eq_of_lt h]

theorem countDigits_two {n : Nat} (h10 : 10 ≤ n) (h : n < 100) :
    countDigits n = [.digit (n / 10), .digit (n % 10)] := by
  have h1 : n / 10 % 10 = n / 10 := Nat.mod_eq_of_lt (by omega)
  have h2 : n / 10 ≠ 0 := by omega
  simp [countDigits, h1, h2]

theorem nextDigit_val (d : Option (Fin 4)) :
    (nextDigit d).val = (match d with | none => 0 | some i => (i.val + 1) % 4) := by
  cases d with
  | none => rfl
  | some i => exact Fin.val_add i 1

/-- Settles O41: `displayGlyphs` tests the conditions in the order of R178. -/
theorem displayShowsFirstCondition : Obligations.DisplayShowsFirstCondition := by
  intro s
  refine ⟨fun h => if_pos h, fun h => ⟨nextDigit s.panel.digit, if_neg h, nextDigit_val _⟩, ?_, ?_, ?_, ?_⟩
  · intro code h; simp [displayGlyphs, h, twoDigits]
  · intro ha ho
    exact ⟨lowestReason s.stops.own, by simp [displayGlyphs, ha, noReason, ho], lowestReason_spec ho⟩
  · intro n rest ha ho hn; simp [displayGlyphs, ha, noReason, ho, hn, twoDigits]
  · intro ha ho hn
    have hbay : ∀ b, s.belt.speedHigh = false → s.panel.selected = some b → displayGlyphs s =
        [.letterB, .digit b.num] ++ (if (s.bays.get b).state = .blocked then [.dash, .dash]
          else countDigits (s.bays.get b).landed) := by
      intro b hf hb; simp [displayGlyphs, ha, noReason, ho, hn, hf, hb]
    refine ⟨fun hf => by simp [displayGlyphs, ha, noReason, ho, hn, hf],
      fun hf hb => by simp [displayGlyphs, ha, noReason, ho, hn, hf, hb], fun b hf hb => ?_⟩
    rw [hbay b hf hb]
    refine ⟨fun h => by simp [h], fun h hlt => ?_, fun h h10 hlt => ?_⟩
    · rw [if_neg h, countDigits_small hlt]; rfl
    · rw [if_neg h, countDigits_two h10 hlt]; rfl

end Sys2Proof.Machine
end

section
/-! SUPPORT. The presses of STOP, RUN and CLOSE, the bay events and the bay timers (R13, R134 to R142,
R146 to R149, R153, R179). -/

namespace Sys2Proof.Machine

variable {s t : State}

/-! ## The belt-run output under a change of the stop sets -/

/-- A change after which the belt may not run loads nothing (R13, R14). -/
theorem setStops_off_keeps {st : Stops} (h : runWanted { s with stops := st } = false) :
    KeepsBut [.own, .others, .run, .lamp] s (setStops st s) := by
  have hrun : KeepsBut [.run] { s with stops := st } (followRun { s with stops := st }) := by
    unfold followRun
    by_cases hb : s.belt.run = false
    · rw [if_pos (h.trans hb.symm)]; exact KeepsBut.refl _ _
    · rw [if_neg (by simpa [h] using hb), if_neg (by simp [h])]
      intro p hp; cases p <;> simp_all [Part.same]
  have hset : KeepsBut [.own, .others] s { s with stops := st } := by
    intro p hp; cases p <;> simp_all [Part.same]
  exact ((hset.mono (by decide)).trans (hrun.mono (by decide))).trans ((followLamp_keeps _).mono (by decide))

/-- A turn-on loads the grace and arms the low threshold (R14). -/
theorem setStops_turnOn {st : Stops} (hoff : s.belt.run = false)
    (hon : runWanted { s with stops := st } = true) :
    (setStops st s).belt.grace = 10 ∧ (setStops st s).belt.lowArmed = true
      ∧ (setStops st s).belt.lowRearm = 0 := by
  have : followRun { s with stops := st } = { s with
      stops := st
      belt := { s.belt with run := true, grace := Config.stallGrace, lowArmed := true, lowRearm := 0 } } := by
    unfold followRun
    rw [if_neg (by simp [hon, hoff]), if_pos hon]
  rw [setStops, this]
  exact ⟨rfl, rfl, rfl⟩

/-- Where the output stays as it is, nothing is loaded. -/
theorem setStops_steady {st : Stops} (h : s.belt.run = runWanted { s with stops := st }) :
    Part.grace.same s (setStops st s) ∧ Part.low.same s (setStops st s) := by
  have : followRun { s with stops := st } = { s with stops := st } := if_pos h.symm
  rw [setStops, this]
  exact ⟨rfl, rfl, rfl⟩

theorem runWanted_insertReason (r : StopReason) :
    runWanted { s with stops := { s.stops with own := insertReason s.stops.own r } } = false := by
  simp [runWanted, noReason, insertReason_ne_none]

/-- The frame of a reason added: the belt goes off, and no turn-on loads anything (R13, R146). -/
theorem addReason_keeps_off (s : State) (r : StopReason) :
    KeepsBut (([.own, .run, .lamp] : List Part) ++ sendParts) s (addReason r s) := by
  have hoff := setStops_off_keeps (runWanted_insertReason (s := s) r)
  intro p hp
  by_cases hne : p = .others
  · subst hne; exact addReason_keeps s r .others (by decide)
  · have hset : KeepsBut (.others :: (([.own, .run, .lamp] : List Part) ++ sendParts)) s (addReason r s) := by
      unfold addReason; split
      · exact KeepsBut.refl _ _
      · dsimp only; split
        · exact (hoff.mono (by decide)).trans ((askFrame_keeps _ _).mono (by decide))
        · exact hoff.mono (by decide)
    exact hset p (by simp only [List.mem_cons, not_or]; exact ⟨hne, hp⟩)

/-! ## A frame that is no kept one joins -/

/-- A joining that loses no kept frame and adds none does not reach the pace unit (R156). -/
theorem askFrame_room_other {body : FrameBody} (h : s.link.queue.length < 12)
    (hb : frameGroup body ≠ .kept) :
    askFrame body s = { s with link := { s.link with
      queue := insertFrame ⟨body, s.link.nextAge⟩ (keptBeside body s.link.queue)
      nextAge := s.link.nextAge + 1 } } := by
  have hraw := askRaw_room s (body := body) h
  have hbeside : ((keptBeside body s.link.queue).countP fun x => frameGroup x.body == .kept) =
      s.link.queue.countP fun x => frameGroup x.body == .kept := by
    unfold keptBeside; split
    · exact countP_kept_notReplaced (f := ⟨body, 0⟩) hb _
    · rfl
  have hkept : keptCount (askRaw body s) = keptCount s := by
    rw [hraw]
    unfold keptCount
    dsimp only
    rw [countP_insertFrame, hbeside, if_neg (by simpa using hb)]
    rfl
  rw [askFrame, evalIfKeptChanged, if_pos hkept, hraw]

/-- The queue after STOP or RUN has joined with a place left (R165, R166). -/
theorem askFrame_stopRun_queue {body : FrameBody} (h : s.link.queue.length < 12)
    (hb : frameGroup body = .stopRun) :
    (askFrame body s).link.queue = insertFrame ⟨body, s.link.nextAge⟩
      (s.link.queue.filter fun f => frameGroup f.body != .stopRun) := by
  rw [askFrame_room_other h (by simp [hb])]
  simp [keptBeside, hb, isCoalesced]

/-! ## STOP -/

/-- A reason added to an empty set queues STOP with its number (R147). -/
theorem addReason_queue_first {r : StopReason} (ho : s.stops.own = ReasonSet.none)
    (hq : s.link.queue.length < 12) : (addReason r s).link.queue =
      insertFrame ⟨.stop (BitVec.ofNat 8 (reasonNumber r)), s.link.nextAge⟩
        (s.link.queue.filter fun f => frameGroup f.body != .stopRun) := by
  have hr : hasReason s.stops.own r = false := by rw [ho]; cases r <;> rfl
  obtain ⟨hqueue, hage⟩ := setStops_keeps s { s.stops with own := insertReason s.stops.own r } .queue
    (by decide)
  unfold addReason
  rw [if_neg (by simp [hr])]
  dsimp only
  rw [if_pos (by simp [noReason, ho]), askFrame_stopRun_queue (by rw [hqueue]; exact hq) rfl, hqueue, hage]

/-- Added to a set that holds one, it queues nothing (R147). -/
theorem addReason_queue_later {r : StopReason} (ho : s.stops.own ≠ ReasonSet.none) :
    Part.queue.same s (addReason r s) := by
  unfold addReason; split
  · exact ⟨rfl, rfl⟩
  · dsimp only
    rw [if_neg (by simp [noReason, ho])]
    exact setStops_keeps s _ .queue (by decide)

/-- Settles O30: OPERATOR is added before the hold is looked at. -/
theorem stopPressAddsOperator : Obligations.StopPressAddsOperator := by
  intro s hs hrun hlamp
  have hactive := (isActive_iff s).2 hs
  refine ⟨?_, releaseButton .stop s, if_pos hactive, rfl⟩
  let s1 := putButton .stop (recognised true) s
  let s2 := addReason .operator s1
  have hkeep := addReason_keeps_off s1 .operator
  obtain ⟨hstop, hpanelRun, hselect, hclose⟩ := hkeep .buttons (by decide)
  have hhold : ∀ b : Bool, KeepsBut [.purgeHold] s2 (if b then startHold s.belt.run s2 else s2) :=
    fun b => .ite (startHold_keeps s2 _)
  refine ⟨pressStop s, if_pos hactive, ?_⟩
  have hpress : pressStop s = if s.panel.run.level then startHold s.belt.run s2 else s2 := rfl
  rw [hpress]
  have hh := hhold s.panel.run.level
  generalize ht : (if s.panel.run.level then startHold s.belt.run s2 else s2) = u at hh
  obtain ⟨bstop, brun, bselect, bclose⟩ := hh .buttons (by decide)
  refine ⟨?_, ?_, ?_, bstop.trans hstop, brun.trans hpanelRun, bselect.trans hselect,
    bclose.trans hclose, ?_, ?_, ?_, ?_⟩
  · exact (hh .own (by decide)).trans (addReason_own s1 .operator)
  · exact (hh .run (by decide)).trans (addReason_run s1 .operator hrun)
  · exact (hh .lamp (by decide)).trans (addReason_lamp s1 .operator hs hlamp)
  · rw [← ht]
    by_cases hr : s.panel.run.level = true
    · rw [if_pos hr]; simp [hr, startHold, Config.purgeHoldTime]
    · rw [if_neg hr, if_neg hr]
      exact (hkeep .purgeHold (by decide)).1
  · intro ho hq
    exact (hh .queue (by decide)).1.trans (addReason_queue_first (s := s1) ho hq)
  · intro ho
    obtain ⟨h1, h2⟩ := addReason_queue_later (s := s1) (r := .operator) ho
    obtain ⟨h3, h4⟩ := hh .queue (by decide)
    exact ⟨h3.trans h1, h4.trans h2⟩
  · exact (((putButton_keeps s .stop _).mono (by decide)).trans (hkeep.mono (by decide))).trans
      (hh.mono (by decide))

/-! ## RUN -/

theorem reasonsAfterRun_eq (s : State) : reasonsAfterRun s.eyes s.stops.own = reasonsLeft s := rfl

theorem clearReasons_eq (s : State) : clearReasons s =
    let u := setStops { s.stops with own := reasonsLeft s } s
    if reasonsLeft s = ReasonSet.none then askFrame .run u else u := by
  unfold clearReasons
  rw [reasonsAfterRun_eq]
  simp [noReason]

theorem runWanted_own (ha : s.station = .active) (own : ReasonSet) :
    runWanted { s with stops := { s.stops with own := own } } = true ↔
      own = ReasonSet.none ∧ s.stops.others = [] := by
  simp [runWanted_iff, ha]

/-- What RUN leaves of the sets, the belt and the queue (R13, R14, R147, R149). -/
theorem clearReasons_spec (ha : s.station = .active) :
    (clearReasons s).stops.own = reasonsLeft s
      ∧ ((clearReasons s).belt.run = true ↔ reasonsLeft s = ReasonSet.none ∧ s.stops.others = [])
      ∧ (s.belt.run = false → (clearReasons s).belt.run = true →
          (clearReasons s).belt.grace = 10 ∧ (clearReasons s).belt.lowArmed = true
            ∧ (clearReasons s).belt.lowRearm = 0)
      ∧ (s.belt.run = (clearReasons s).belt.run →
          Part.grace.same s (clearReasons s) ∧ Part.low.same s (clearReasons s))
      ∧ (reasonsLeft s = ReasonSet.none → s.link.queue.length < 12 →
          (clearReasons s).link.queue = insertFrame ⟨.run, s.link.nextAge⟩
            (s.link.queue.filter fun f => frameGroup f.body != .stopRun))
      ∧ (reasonsLeft s ≠ ReasonSet.none → Part.queue.same s (clearReasons s)) := by
  let u := setStops { s.stops with own := reasonsLeft s } s
  have hsend : KeepsBut sendParts u (clearReasons s) := by
    rw [clearReasons_eq]
    exact .ite (askFrame_keeps u .run)
  have hrun : (clearReasons s).belt.run =
      runWanted { s with stops := { s.stops with own := reasonsLeft s } } :=
    (hsend .run (by decide)).trans (setStops_run s _)
  have hgrace := hsend .grace (by decide)
  obtain ⟨harmed, hrearm⟩ := hsend .low (by decide)
  obtain ⟨hqueue, hage⟩ := setStops_keeps s { s.stops with own := reasonsLeft s } .queue (by decide)
  refine ⟨(hsend .own (by decide)).trans (by simp [u]), ?_, ?_, ?_, ?_, ?_⟩
  · rw [hrun, runWanted_own ha]
  · intro hoff hon
    rw [hrun] at hon
    obtain ⟨h1, h2, h3⟩ := setStops_turnOn hoff hon
    exact ⟨hgrace.trans h1, harmed.trans h2, hrearm.trans h3⟩
  · intro hsteady
    rw [hrun] at hsteady
    obtain ⟨h1, h2, h3⟩ := setStops_steady hsteady
    exact ⟨hgrace.trans h1, harmed.trans h2, hrearm.trans h3⟩
  · intro hnone hq
    rw [clearReasons_eq, if_pos hnone, askFrame_stopRun_queue (by rw [hqueue]; exact hq) rfl, hqueue, hage]
  · intro hne
    rw [clearReasons_eq, if_neg hne]
    exact ⟨hqueue, hage⟩

/-- Settles O31: with STOP up the press is `clearReasons`, with STOP held `startHold`. -/
theorem runPressClearsReasons : Obligations.RunPressClearsReasons := by
  intro s hs
  have hexec : exec .runPress s = .next (pressRun s) := if_pos ((isActive_iff s).2 hs)
  refine ⟨fun hstop => ?_, fun hstop => ?_⟩
  · let s1 := putButton .run (recognised true) s
    have hpress : pressRun s = clearReasons s1 := by simp [pressRun, hstop, s1]
    obtain ⟨hown, hrun, hon, hsteady, hqueue, hsame⟩ := clearReasons_spec (s := s1) hs
    have hkeep := clearReasons_keeps s1
    refine ⟨clearReasons s1, by rw [hexec, hpress], hown, (hkeep .buttons (by decide)).2.1, hrun, hon,
      hsteady, hqueue, hsame, ?_⟩
    exact ((putButton_keeps s .run _).mono (by decide)).trans (hkeep.mono (by decide))
  · rw [hexec, pressRun, if_pos hstop]
    rfl

/-! ## A bay closes -/

theorem pushOut_pushers (b : BayNo) (s : State) :
    (pushOut b s).pushers = s.pushers.set b ⟨true, some s.settings.pusherPulse⟩ := rfl

theorem discharge_pushers (b : BayNo) (s : State) :
    (discharge b s).pushers = s.pushers.set b ⟨true, some s.settings.pusherPulse⟩ :=
  ((putBay_keeps _ b _ .pushers (by decide)).trans (askFrame_keeps _ _ .pushers (by decide))).trans
    (pushOut_pushers b s)

/-- What the start of a settle timer comes to (R137). -/
theorem startSettle_running {b : BayNo} (h : s.settings.settle ≠ 0) :
    startSettle b s = putBay b { s.bays.get b with settle := some s.settings.settle } s := if_neg h

theorem startSettle_empties {b : BayNo} (h : s.settings.settle = 0) (hl : (s.bays.get b).landed = 0) :
    startSettle b s = putBay b Bay.cleared s := by
  rw [startSettle, if_pos h, settleExpire, if_pos hl]

theorem startSettle_discharges {b : BayNo} (h : s.settings.settle = 0) (hl : (s.bays.get b).landed ≠ 0) :
    startSettle b s = discharge b s := by
  rw [startSettle, if_pos h, settleExpire, if_neg hl]

theorem closeBay_closed (b : BayNo) (r : CloseReason) (s : State) : ClosedBay b r s (closeBay b r s) := by
  unfold ClosedBay; intro y closing
  let s1 := putBay b closing s
  have hclose : y.state = .filling → closeBay b r s = if y.reserved = 0 then startSettle b s1 else s1 :=
    fun h => if_pos h
  have hbays : s1.bays = s.bays.set b closing := putBay_bays b closing s
  have hget : s1.bays.get b = closing := by rw [hbays]; simp
  have hpush : s1.pushers = s.pushers := putBay_keeps s b closing .pushers (by decide)
  have hset : s1.settings = s.settings := putBay_keeps s b closing .settings (by decide)
  refine ⟨fun h => ?_, fun h hr => ?_, fun h hr hs => ?_, fun h hr hs hl => ?_, fun h hr hs hl => ?_⟩
  · have : closeBay b r s = s := if_neg h
    rw [this]
    exact ⟨rfl, rfl⟩
  · rw [hclose h, if_neg (by omega)]
    exact ⟨hbays, hpush⟩
  · rw [hclose h, if_pos hr, startSettle_running (by rwa [hset]), hget, hset]
    refine ⟨?_, (putBay_keeps s1 b _ .pushers (by decide)).trans hpush⟩
    rw [putBay_bays, hbays, Four.set_set]
  · rw [hclose h, if_pos hr, startSettle_empties (by rwa [hset]) (by rw [hget]; exact hl)]
    refine ⟨?_, (putBay_keeps s1 b _ .pushers (by decide)).trans hpush⟩
    rw [putBay_bays, hbays, Four.set_set]
  · rw [hclose h, if_pos hr, startSettle_discharges (by rwa [hset]) (by rw [hget]; exact hl.ne'),
      discharge_bays, discharge_pushers, Four.get_set_same, hget, hset, hpush]
    exact ⟨rfl, rfl, rfl, rfl, rfl⟩

/-- Settles O33: both presses and the high bay end in `closeBay`. -/
theorem heightAndClosePressCloseBay : Obligations.HeightAndClosePressCloseBay := by
  intro s b hs
  have hpress : exec .closePress s = .next (pressClose s) := if_pos ((isActive_iff s).2 hs)
  refine ⟨fun hb => ?_, fun hb => ?_, fun hb => ?_⟩
  · let s1 := setBayInput .high b true s
    refine ⟨closeBay b .height s1, if_pos ((bayLive_iff s b).2 ⟨hs, hb⟩), ?_, closeBay_closed b .height s1, ?_⟩
    · exact closeBay_keeps s1 b .height .bayHigh (by decide)
    · exact ((setBayInput_keeps s .high b true).mono (by decide)).trans
        ((closeBay_keeps s1 b .height).mono (by decide))
  · let s1 := putButton .close (recognised true) s
    refine ⟨closeBay b .forced s1, ?_, ?_, closeBay_closed b .forced s1, ?_⟩
    · rw [hpress]; simp [pressClose, hb, s1]
    · exact (closeBay_keeps s1 b .forced .buttons (by decide)).2.2.2
    · exact ((putButton_keeps s .close _).mono (by decide)).trans
        ((closeBay_keeps s1 b .forced).mono (by decide))
  · refine ⟨putButton .close (recognised true) s, ?_, rfl, putButton_keeps s .close _⟩
    rw [hpress]; simp [pressClose, hb]

/-! ## A clear floor -/

theorem clearBay_of_not {b : BayNo} (h : ¬ ((s.bays.get b).state = .discharging ∨ (s.bays.get b).state = .blocked)) :
    clearBay b s = s := if_neg h

/-- Settles O34: only a DISCHARGING or BLOCKED bay has anything to clear. -/
theorem bayClearEmptiesAndFallsDoNothing : Obligations.BayClearEmptiesAndFallsDoNothing := by
  intro s b hs hb
  have hlive := (bayLive_iff s b).2 ⟨hs, hb⟩
  let s1 := setBayInput .clear b true s
  have hrise : exec (.bayClearRise b) s = .next (clearBay b s1) := if_pos hlive
  refine ⟨fun h => ?_, fun h => ?_, if_pos hlive, if_pos hlive⟩
  · have hclear : clearBay b s1 = putBay b Bay.cleared s1 := if_pos h
    refine ⟨putBay b Bay.cleared s1, by rw [hrise, hclear], putBay_bays b _ s1, ?_, ?_⟩
    · exact putBay_keeps s1 b _ .bayClear (by decide)
    · exact ((setBayInput_keeps s .clear b true).mono (by decide)).trans
        ((putBay_keeps s1 b _).mono (by decide))
  · have hstands : clearBay b s1 = s1 := clearBay_of_not (by
      change ¬ ((s.bays.get b).state = .discharging ∨ (s.bays.get b).state = .blocked)
      rcases h with h | h | h <;> simp [h])
    rw [hrise, hstands]
    rfl

/-! ## The bay timers -/

/-- A bay that comes to another state is seen by the lamp (R179). -/
theorem putBay_lamp {b : BayNo} {x : Bay} (h : x.state ≠ (s.bays.get b).state) :
    (putBay b x s).panel.lamp = lampWanted { s with bays := s.bays.set b x } := by
  have hk := evalPace_keeps { s with bays := s.bays.set b x }
  unfold putBay
  rw [if_neg h]
  have hstation := hk .station (by decide)
  have hsettings := hk .settings (by decide)
  have hbays := hk .bays (by decide)
  have hown := hk .own (by decide)
  obtain ⟨-, -, hhigh⟩ := hk .high (by decide)
  change lampWanted (evalPace _) = _
  simp only [Part.same] at hstation hsettings hbays hown
  simp only [lampWanted, isActive, anyBlocked, hstation, hsettings, hbays, hown, hhigh]

theorem stackFrame_eq {b : BayNo} {y : Bay} {lot : Lot} {code : Code} {r : CloseReason}
    (hl : y.lot = some lot) (hc : y.planCode = some code) (hr : y.reason = some r) :
    stackFrame b y = stackReport b lot code y.landed r := by
  simp only [stackFrame, stackReport, hl, hc, hr, Option.map_some, Option.getD_some]
  cases r <;> rfl

/-- A discharge with places left in the queue: the STACK joins and the flag says so (R138, R140). -/
theorem discharge_room {n : Nat} (hn : n ≤ 10) (h : Room n s) (b : BayNo) :
    KeepsBut [.bays, .pushers, .lamp, .pace, .queue] s (discharge b s)
      ∧ (discharge b s).bays =
          s.bays.set b (dischargingBay s.settings.dischargeTimeout true (s.bays.get b))
      ∧ (⟨stackFrame b (s.bays.get b), s.link.nextAge⟩ : QFrame) ∈ (discharge b s).link.queue := by
  let frame := stackFrame b (s.bays.get b)
  have hkind : frameGroup frame ≠ .pace := QGroup.noConfusion
  have hpush := pushOut_keeps s b
  have hroom : Room n (pushOut b s) := h
  obtain ⟨hkeep, hroom', hmem⟩ := askFrame_joins hn hroom (body := frame) rfl
  let u := askFrame frame (pushOut b s)
  let x := dischargingBay s.settings.dischargeTimeout (joinOf frame s).accepted (s.bays.get b)
  obtain ⟨hput, -, hmem'⟩ := putBay_room (s := u) (Nat.succ_le_succ hn) hroom' b x
  refine ⟨((hpush.mono (by decide)).trans (hkeep.mono (by decide))).trans (hput.mono (by decide)), ?_, ?_⟩
  · have hlen : s.link.queue.length < 12 := by have := h.1; omega
    rw [discharge_bays, joinOf_room s hlen]
  · exact (hmem' _ hkind).2 ((hmem _ hkind).2 (Or.inl rfl))

/-- Settles O39: the settle timer ends in `settleExpire`, the discharge timer in a BLOCKED bay. -/
theorem bayTimersEmptyDischargeOrBlock : Obligations.BayTimersEmptyDischargeOrBlock := by
  intro s b lot code r hs hb
  have hlive := (bayLive_iff s b).2 ⟨hs, hb⟩
  let s1 : State := { s with bays := s.bays.set b { s.bays.get b with settle := none } }
  have hget : s1.bays.get b = { s.bays.get b with settle := none } := Four.get_set_same _ _ _
  have hstop := setBays_keeps s (s.bays.set b { s.bays.get b with settle := none })
  have hexpire : (s.bays.get b).state = .closing → (s.bays.get b).settle.isSome = true →
      exec (.settleTimerExpiry b) s = .next (settleExpire b s1) :=
    fun hc hset => if_pos ⟨hlive, hc, hset⟩
  refine ⟨fun hc hset hl => ?_, fun hc hset hl hlot hcode hreason hq => ?_, fun hset => if_neg ?_,
    fun hd hset => ?_, fun hset => if_neg ?_⟩
  · have hcleared : settleExpire b s1 = putBay b Bay.cleared s1 := if_pos (by rw [hget]; exact hl)
    refine ⟨putBay b Bay.cleared s1, by rw [hexpire hc hset, hcleared], ?_, ?_⟩
    · rw [putBay_bays]; exact Four.set_set _ _ _ _
    · exact (hstop.mono (by decide)).trans ((putBay_keeps s1 b _).mono (by decide))
  · have hdischarge : settleExpire b s1 = discharge b s1 := if_neg (by rw [hget]; exact hl.ne')
    obtain ⟨hkeep, hbays, hmem⟩ := discharge_room (s := s1) le_rfl (room_of_length hq) b
    refine ⟨discharge b s1, by rw [hexpire hc hset, hdischarge], discharge_pushers b s1, ?_, ?_, ?_⟩
    · have hframe : stackFrame b (s1.bays.get b) = stackReport b lot code (s.bays.get b).landed r := by
        rw [stackFrame_eq (y := s1.bays.get b) (by rw [hget]; exact hlot) (by rw [hget]; exact hcode)
          (by rw [hget]; exact hreason), hget]
      exact hframe ▸ hmem
    · rw [hbays, hget]; exact Four.set_set _ _ _ _
    · exact (hstop.mono (by decide)).trans hkeep
  · simp [hset]
  · refine ⟨putBay b (blockedBay (s.bays.get b)) s, if_pos ⟨hlive, hd, hset⟩, putBay_bays _ _ _, ?_,
      putBay_keeps s b _⟩
    rw [putBay_lamp (by simp [blockedBay, hd]), lampWanted_iff]
    exact ⟨hs, Or.inr (Or.inl ⟨b, hb, by simp [blockedBay]⟩)⟩
  · simp [hset]

end Sys2Proof.Machine
end

section
/-! SUPPORT. The line: what is heard and passed over, STOP, RUN and START frames, tally queries, sending
and the full queue (R150, R151, R163 to R171). -/

namespace Sys2Proof.Machine

variable {s t : State}

/-! ## Receiving -/

/-- A frame that is heard reaches the acceptance filter, the line busy behind it (R160, R169). -/
theorem receiveFrame_heard {sender : BitVec 5} (h : Hears s sender) (body : FrameBody) :
    receiveFrame sender body s = acceptFrame sender.toNat body (setLine .busy s) := by
  obtain ⟨hs, hline, h1, h30, hne⟩ := h
  unfold receiveFrame
  rw [if_pos ((canFollow_iff s).2 ⟨hs, hline⟩)]
  simp [validSender, h1, h30, hne]

/-- The filter passes over what no block of this station owns (R169). -/
theorem acceptFrame_passedOver {n : Nat} {body : FrameBody} (h : match body with
      | .stack _ _ _ _ _ => True
      | .tally _ _ _ _ => True
      | .announce _ _ _ _ _ => n ≠ s.settings.upstream
      | .lotEnd _ _ => n ≠ s.settings.upstream
      | .pace _ => n ≠ s.settings.downstream
      | .tallyQuery target _ _ => target.toNat ≠ s.settings.station
      | .stop _ => False
      | .run => False
      | .start _ _ => False) : acceptFrame n body s = s := by
  cases body <;> simp_all [acceptFrame]

/-- Settles O48: the own number is passed over before the filter, the other frames in it. -/
theorem passedOverFramesChangeNothing : Obligations.PassedOverFramesChangeNothing := by
  intro s sender body hs hline h1 h30 hover
  change Host.Outcome.next (receiveFrame sender body s) = .next (setLine .busy s)
  congr 1
  by_cases hown : sender.toNat = s.settings.station
  · unfold receiveFrame
    have hvalid : validSender sender = true := by simp [validSender, h1, h30]
    rw [if_pos ((canFollow_iff s).2 ⟨hs, hline⟩)]
    simp [hvalid, hown]
  · rw [receiveFrame_heard ⟨hs, hline, h1, h30, hown⟩]
    exact acceptFrame_passedOver (s := setLine .busy s) (hover.resolve_left hown)

theorem receiveBits_bad {bits : List Bool} (h : judgeBits bits = .linkCheck ∨ judgeBits bits = .linkFormat) :
    receiveBits (false :: bits) s =
      if canFollow s then countLine .linkCheck 1 (setLine .busy s) else s := by
  unfold receiveBits
  rcases h with h | h <;> (dsimp only; rw [h])

theorem countLine_linkCheck_counts (s : State) : (countLine .linkCheck 1 s).tally.counts =
    { s.tally.counts with linkCheck := s.tally.counts.linkCheck + 1 } := by
  simp [countLine, offerTally, bumpCounts]

/-- Settles O49: both judgements end in the same discard. -/
theorem damagedFrameIsCountedOnce : Obligations.DamagedFrameIsCountedOnce := by
  intro s bits hbad
  have hexec : exec (.damagedFrame (false :: bits)) s =
      .next (if canFollow s then countLine .linkCheck 1 (setLine .busy s) else s) :=
    congrArg Host.Outcome.next (receiveBits_bad hbad)
  refine ⟨fun hs hline => ?_, fun h => ?_⟩
  · rw [if_pos ((canFollow_iff s).2 ⟨hs, hline⟩)] at hexec
    exact ⟨_, hexec, rfl, countLine_linkCheck_counts _, rfl, discardFrame_keeps s⟩
  · rw [hexec, if_neg]
    rw [canFollow_iff, not_and_or, not_or]
    exact h

/-! ## STOP, RUN and START -/

/-- A station in the others' stop set: the belt goes off and nothing is loaded (R13, R150). -/
theorem setOthers_off_keeps {others : List Nat} (h : others ≠ []) :
    KeepsBut [.others, .run, .lamp] s (setStops { s.stops with others := others } s) := by
  have hoff := setStops_off_keeps (s := s) (st := { s.stops with others := others })
    (by simp [runWanted, h])
  intro p hp
  by_cases hown : p = .own
  · subst hown; exact setOthers_keeps s others .own (by decide)
  · refine hoff p ?_
    simp only [List.mem_cons, not_or] at hp ⊢
    exact ⟨hown, hp⟩

theorem insertStation_ne_nil (n : Nat) (xs : List Nat) : insertStation n xs ≠ [] :=
  List.ne_nil_of_mem (mem_insertStation.2 (Or.inl rfl))

/-- What a RUN frame leaves (R13, R14, R150). -/
theorem takeRun_spec (n : Nat) (ha : s.station = .active) :
    (takeRun n s).stops = { s.stops with others := removeStation n s.stops.others }
      ∧ ((takeRun n s).belt.run = true ↔
          s.stops.own = ReasonSet.none ∧ (takeRun n s).stops.others = [])
      ∧ (s.belt.run = false → (takeRun n s).belt.run = true →
          (takeRun n s).belt.grace = 10 ∧ (takeRun n s).belt.lowArmed = true
            ∧ (takeRun n s).belt.lowRearm = 0)
      ∧ KeepsBut [.others, .run, .grace, .low, .lamp] s (takeRun n s) := by
  have hrun : (takeRun n s).belt.run = _ := setStops_run s _
  refine ⟨setStops_stops s _, ?_, fun hoff hon => setStops_turnOn hoff (hrun ▸ hon), setOthers_keeps s _⟩
  rw [hrun, runWanted_iff, takeRun, setStops_stops]
  simp [ha]

/-- Settles O42: the sender goes into the set or out of it, and the output follows. -/
theorem stopAndRunFramesFileTheSender : Obligations.StopAndRunFramesFileTheSender := by
  intro s sender reason hears _
  have hline := setLine_keeps s .busy
  constructor
  · have hexec : exec (.stopFrame sender reason) s = .next (takeStop sender.toNat (setLine .busy s)) :=
      congrArg Host.Outcome.next (receiveFrame_heard hears _)
    have hkeep := setOthers_off_keeps (s := setLine .busy s)
      (insertStation_ne_nil sender.toNat s.stops.others)
    refine ⟨_, hexec, fun n => ?_, ?_, hkeep .line (by decide),
      (hline.mono (by decide)).trans (hkeep.mono (by decide))⟩
    · simp [takeStop]
    · simp [takeStop, runWanted, insertStation_ne_nil]
  · have hexec : exec (.runFrame sender) s = .next (takeRun sender.toNat (setLine .busy s)) :=
      congrArg Host.Outcome.next (receiveFrame_heard hears _)
    obtain ⟨hstops, hrun, hon, hkeep⟩ := takeRun_spec (s := setLine .busy s) sender.toNat hears.1
    refine ⟨_, hexec, fun n => ?_, hrun, hon, hkeep .line (by decide),
      (hline.mono (by decide)).trans (hkeep.mono (by decide))⟩
    rw [hstops]; exact mem_removeStation

theorem paceOnce_paceIn (s : State) : (paceOnce s).pace.paceIn = s.pace.paceIn := by
  unfold paceOnce; split
  · rfl
  · exact (relayPace_spec _).2.1

theorem setPaceIn_paceIn (gap : Nat) (s : State) : (setPaceIn gap s).pace.paceIn = gap := by
  unfold setPaceIn; split
  next h => exact h.symm
  · unfold evalIfKeptChanged; split
    · exact (relayPace_spec _).2.1
    · exact ((paceOnce_paceIn _).trans (paceOnce_paceIn _)).trans (relayPace_spec _).2.1

/-- A START from the upstream peer: with a place left the pace in force is sent again (R151, R157). -/
theorem upstreamRestart_spec (s : State) :
    (upstreamRestart s).link.expectedSeq = none
      ∧ (s.pace.paceOut ≠ 0 → s.link.queue.length < 12 →
          (⟨.pace (BitVec.ofNat 16 s.pace.paceOut), s.link.nextAge⟩ : QFrame)
            ∈ (upstreamRestart s).link.queue) := by
  let s1 : State := { s with link := { s.link with expectedSeq := none } }
  unfold upstreamRestart
  constructor
  · dsimp only; split
    · rfl
    · exact askFrame_keeps s1 _ .expectedSeq (by decide)
  · intro hout hq
    dsimp only
    rw [if_neg hout, askFrame_room_other (s := s1) hq QGroup.noConfusion]
    exact mem_insertFrame.2 (Or.inl rfl)

/-- Settles O43: the release of the sender, then the peer's own clause. -/
theorem startFrameForgetsThePeer : Obligations.StartFrameForgetsThePeer := by
  intro s sender up down hears hpeers
  let n := sender.toNat
  let s1 := takeRun n (setLine .busy s)
  let s2 := if n = s.settings.upstream then upstreamRestart s1 else s1
  let u := if n = s.settings.downstream then setPaceIn 0 s2 else s2
  have hexec : exec (.startFrame sender up down) s = .next u :=
    congrArg Host.Outcome.next (receiveFrame_heard hears _)
  obtain ⟨hstops, hrun, -, hkeep⟩ := takeRun_spec (s := setLine .busy s) n hears.1
  have hpace : s1.pace = s.pace := hkeep .pace (by decide)
  obtain ⟨hqueue, hage⟩ : Part.queue.same s s1 := hkeep .queue (by decide)
  have hfirst : KeepsBut [.others, .run, .grace, .low, .lamp, .line] s s1 :=
    ((setLine_keeps s .busy).mono (by decide)).trans (hkeep.mono (by decide))
  have hsecond : KeepsBut (.expectedSeq :: sendParts) s1 s2 := .ite (upstreamRestart_keeps s1)
  have hthird : KeepsBut sendParts s2 u := .ite (setPaceIn_keeps s2 0)
  have hrest : KeepsBut (.expectedSeq :: sendParts) s1 u := hsecond.trans (hthird.mono (by decide))
  have hothers : u.stops.others = s1.stops.others := hrest .others (by decide)
  refine ⟨u, hexec, fun x => ?_, ?_, ?_, fun hup => ?_, fun hdown => ?_, fun hup hdown => ?_⟩
  · rw [hothers, hstops]; exact mem_removeStation
  · rw [hothers, hrest .run (by decide)]; exact hrun
  · exact (hrest .line (by decide)).trans (hkeep .line (by decide))
  · have hs2 : s2 = upstreamRestart s1 := if_pos hup
    have hu : u = s2 := if_neg fun hdown => hpeers (hup.symm.trans hdown)
    obtain ⟨hexpected, hframe⟩ := upstreamRestart_spec s1
    rw [hpace, hqueue, hage] at hframe
    rw [hu, hs2]
    exact ⟨hexpected, hframe, (hfirst.mono (by decide)).trans ((upstreamRestart_keeps s1).mono (by decide))⟩
  · have hs2 : s2 = s1 := if_neg fun hup => hpeers (hup.symm.trans hdown)
    have hu : u = setPaceIn 0 s1 := by rw [← hs2]; exact if_pos hdown
    have hset := setPaceIn_keeps s1 0
    rw [hu]
    exact ⟨setPaceIn_paceIn 0 s1, (hset .expectedSeq (by decide)).trans (hfirst .expectedSeq (by decide)),
      (hfirst.mono (by decide)).trans (hset.mono (by decide))⟩
  · have hs2 : s2 = s1 := if_neg hup
    have hu : u = s2 := if_neg hdown
    rw [hu, hs2]; exact hfirst

/-! ## The tally exchange -/

theorem bayOfNumber_num (b : BayNo) : bayOfNumber b.num = some b := by cases b <;> rfl

theorem bayOfNumber_eq_some {n : Nat} {b : BayNo} (h : bayOfNumber n = some b) : n = b.num := by
  unfold bayOfNumber at h; split at h <;> simp_all <;> subst h <;> rfl

section
variable {index : Nat}

theorem readCount_spec : (countList s.tally.counts)[index]? =
    if (readCount index s).absent = true then none else some (readCount index s).value := by
  unfold readCount; split
  next h => simpa using h
  next h => simpa [absentReading] using h

/-- The counter items by thirds of their range (R171). -/
theorem readCounterItem_value {c : Counter} (h : index < 4) (hc : s.tally.counters[index]? = some c) :
    readCounterItem index s = readValue c := by
  have h1 : index % 4 = index := Nat.mod_eq_of_lt h
  have h2 : index / 4 = 0 := Nat.div_eq_of_lt h
  simp [readCounterItem, h1, h2, hc]

theorem readCounterItem_latch {c : Counter} (h4 : 4 ≤ index) (h8 : index < 8)
    (hc : s.tally.counters[index % 4]? = some c) : readCounterItem index s = readLatch c := by
  have h2 : index / 4 = 1 := by omega
  simp [readCounterItem, h2, hc]

theorem readCounterItem_lot {c : Counter} (h8 : 8 ≤ index) (h12 : index < 12)
    (hc : s.tally.counters[index % 4]? = some c) : readCounterItem index s = readLatchLot c := by
  have h2 : index / 4 = 2 := by omega
  simp [readCounterItem, h2, hc]

theorem readCounterItem_beyond (h : 12 ≤ index) : readCounterItem index s = absentReading := by
  have h2 : 3 ≤ index / 4 := by omega
  unfold readCounterItem; split
  · omega
  · omega
  · omega
  · rfl

/-- A reading that holds no value of a counter, and so no SATURATED. -/
theorem readCounterItem_saturated (h : 8 ≤ index) : (readCounterItem index s).saturated = false := by
  have h2 : 2 ≤ index / 4 := by omega
  unfold readCounterItem; split
  · omega
  · omega
  · unfold readLatchLot; split <;> rfl
  · rfl

/-- Every reading without a value is 0. -/
theorem readItem_absent {item i : Byte} (h : (readItem item i s).absent = true) :
    (readItem item i s).value = 0 := by
  revert h
  unfold readItem
  split
  · unfold readCount; split <;> simp [absentReading]
  · unfold readCounterItem; split
    · simp [readValue]
    · unfold readLatch; split <;> simp [absentReading]
    · unfold readLatchLot; split <;> simp [absentReading]
    · simp [absentReading]
  · unfold readCategory; split <;> simp [absentReading]
  · unfold readBay; split
    · split <;> simp [absentReading]
    · simp [absentReading]
  · simp [absentReading]

theorem readItem_saturated {item i : Byte} (h : item ≠ 2 ∨ 8 ≤ i.toNat) :
    (readItem item i s).saturated = false := by
  unfold readItem; split
  · unfold readCount; split <;> rfl
  next h2 =>
    exact readCounterItem_saturated (h.resolve_left (not_not.2 (BitVec.eq_of_toNat_eq h2)))
  · unfold readCategory; split <;> rfl
  · unfold readBay; split
    · split <;> rfl
    · rfl
  · rfl

theorem readItem_stackQueued {item i : Byte} (h : item ≠ 4) : (readItem item i s).stackQueued = false := by
  unfold readItem; split
  · unfold readCount; split <;> rfl
  · unfold readCounterItem; split
    · rfl
    · unfold readLatch; split <;> rfl
    · unfold readLatchLot; split <;> rfl
    · rfl
  · unfold readCategory; split <;> rfl
  next h4 => exact absurd (BitVec.eq_of_toNat_eq h4) h
  · rfl

theorem readItem_other {item i : Byte} (h : item.toNat = 0 ∨ 4 < item.toNat) :
    readItem item i s = absentReading := by
  unfold readItem; split
  · omega
  · omega
  · omega
  · omega
  · rfl

theorem readBay_configured {b : BayNo} (h : b.num ≤ s.settings.bayCount) :
    readBay b.num s = ⟨bayValue (s.bays.get b), false, false, (s.bays.get b).stackQueued⟩ := by
  simp [readBay, bayOfNumber_num, isConfigured, h]

theorem readBay_beyond (h : s.settings.bayCount < index ∨ index = 0) :
    (readBay index s).absent = true := by
  unfold readBay; split
  next b hb =>
    have hnum := bayOfNumber_eq_some hb
    have hpos : 0 < b.num := by cases b <;> decide
    rw [if_neg]
    · rfl
    · simp only [isConfigured, decide_eq_true_eq]; omega
  · rfl

end

/-- Settles O47: the reading is `readItem`, and the TALLY that carries it replaces no frame. -/
theorem tallyQueryIsAnswered : Obligations.TallyQueryIsAnswered := by
  intro s sender target item index hears htarget hq
  let r := readItem item index s
  let s1 := setLine .busy s
  let body : FrameBody := .tally item index r.value (tallyFlags r.absent r.saturated r.stackQueued)
  have hask := askFrame_room_other (s := s1) (body := body) hq QGroup.noConfusion
  have hexec : exec (.tallyQuery sender target item index) s = .next (askFrame body s1) :=
    congrArg Host.Outcome.next ((receiveFrame_heard hears _).trans (if_pos htarget))
  refine ⟨askFrame body s1, r.value, r.absent, r.saturated, r.stackQueued, hexec, ?_, readItem_absent,
    ?_, ?_, ?_, ?_, ?_, ?_, ?_, ?_, ?_, ?_, ?_, readItem_saturated, readItem_stackQueued, ?_, ?_⟩
  · rw [hask]; rfl
  · rintro rfl; exact readCount_spec
  · rintro c rfl h4 hc
    have hr : r = readValue c := readCounterItem_value h4 hc
    rw [hr]; exact ⟨rfl, rfl, rfl⟩
  · rintro c l rfl h4 h8 hc hl
    have hmod : index.toNat % 4 = index.toNat - 4 := by omega
    have hr : r = readLatch c := readCounterItem_latch h4 h8 (hmod ▸ hc)
    rw [hr, readLatch, hl]; exact ⟨rfl, rfl, rfl⟩
  · rintro c l rfl h8 h12 hc hl
    have hmod : index.toNat % 4 = index.toNat - 8 := by omega
    have hr : r = readLatchLot c := readCounterItem_lot h8 h12 (hmod ▸ hc)
    rw [hr, readLatchLot, hl]; exact ⟨rfl, rfl⟩
  · rintro c rfl h4 h12 hc hl
    rcases Nat.lt_or_ge index.toNat 8 with h8 | h8
    · have hr : r = readLatch c := readCounterItem_latch h4 h8 hc
      rw [hr, readLatch, hl]; rfl
    · have hr : r = readLatchLot c := readCounterItem_lot h8 h12 hc
      rw [hr, readLatchLot, hl]; rfl
  · rintro rfl h12
    have hr : r = absentReading := readCounterItem_beyond h12
    rw [hr]; rfl
  · rintro e rfl he
    have hr : r = readCategory index s := rfl
    rw [hr, readCategory, he]; exact ⟨rfl, rfl⟩
  · rintro rfl he
    have hr : r = readCategory index s := rfl
    rw [hr, readCategory, he]; rfl
  · rintro b rfl hb hcount
    have hr : r = readBay index.toNat s := rfl
    rw [hr, hb, readBay_configured hcount]; exact ⟨rfl, rfl, rfl⟩
  · rintro rfl h; exact readBay_beyond h
  · intro h
    have hr : r = absentReading := readItem_other h
    rw [hr]; rfl
  · rw [hask]; rfl
  · rw [hask]
    intro p hp; cases p <;> simp_all [Part.same, s1, setLine]

/-! ## Sending -/

/-- Settles O50: each line event is guarded by the view of the line. -/
theorem framesStartAndComeBack : Obligations.FramesStartAndComeBack := by
  intro s hs
  have hactive := (isActive_iff s).2 hs
  have hidle : exec .lineIdle s = .next (seeIdle s) := if_pos hactive
  refine ⟨fun f rest hline hq => ?_, fun h => ?_, fun hline => ⟨if_pos ⟨hactive, hline⟩,
    if_pos ⟨hactive, hline⟩, ?_⟩, fun hline => ⟨if_neg fun h => hline h.2, if_neg fun h => hline h.2⟩,
    fun hsend hfollow => ?_, fun hline => ?_⟩
  · change execTransmitStart s = _
    simp [execTransmitStart, hq, hactive, hline]
  · change execTransmitStart s = _
    cases hq : s.link.queue with
    | nil => simp [execTransmitStart, hq]
    | cons f rest =>
      have hline : s.link.line ≠ .idle := h.resolve_left (by simp [hq])
      simp [execTransmitStart, hq, hline]
  · simp [hidle, seeIdle, hline]
  · rw [hidle]
    cases hline : s.link.line with
    | sending => exact absurd hline hsend
    | following => exact absurd hline hfollow
    | idle =>
      have hstands : seeIdle s = s := by rw [seeIdle, hline]
      rw [hstands, ← hline]
    | busy => rw [seeIdle, hline]; rfl
    | notFollowed => rw [seeIdle, hline]; rfl
  · have hsee : seeIdle s = countLine .linkCheck 1 (setLine .idle s) := by rw [seeIdle, hline]
    refine ⟨seeIdle s, hidle, ?_, ?_, ?_, seeIdle_keeps_events s⟩
    · rw [hsee]; rfl
    · rw [hsee]; exact countLine_linkCheck_counts _
    · rw [hsee]; rfl

/-- Whatever becomes of a joining, no frame but the one asked for comes into the queue. -/
theorem mem_joinQueue {fl : Option Nat} {f x : QFrame} {q : List QFrame}
    (h : x ∈ (joinQueue fl f q).queue) : x = f ∨ x ∈ q := by
  have hroom : ∀ a, x ∈ insertFrame f (removeAge a q) → x = f ∨ x ∈ q := fun a hx =>
    (mem_insertFrame.1 hx).imp_right List.mem_of_mem_filter
  unfold joinQueue at h; split at h
  · exact (mem_insertFrame.1 h).imp_right List.mem_of_mem_filter
  · split at h
    · exact mem_insertFrame.1 h
    · unfold joinFull at h; dsimp only at h
      split at h
      · exact Or.inr h
      · exact hroom _ h
      · exact Or.inr h
      · exact hroom _ h
      · exact hroom _ h
      · exact Or.inr h
      · exact hroom _ h
      · exact hroom _ h
      · exact Or.inr h

/-- An evaluation of the pace brings no frame but a PACE into the queue. -/
theorem evalPace_mem {x : QFrame} (hx : frameGroup x.body ≠ .pace) (h : x ∈ (evalPace s).link.queue) :
    x ∈ s.link.queue := by
  have hrelay : ∀ u : State, x ∈ (relayPace u).link.queue → x ∈ u.link.queue := by
    intro u hu; unfold relayPace at hu; dsimp only at hu; split at hu
    · exact hu
    · split at hu
      · exact hu
      · rw [askRaw_queue] at hu
        rcases mem_joinQueue hu with rfl | hu
        · exact absurd rfl hx
        · exact hu
  have honce : ∀ u : State, x ∈ (paceOnce u).link.queue → x ∈ u.link.queue := by
    intro u hu; unfold paceOnce at hu; split at hu
    · exact hu
    · exact hrelay { u with pace := { u.pace with paceOwn := paceNeed u } } hu
  exact honce _ (honce _ h)

/-- Settles O51: the frame is taken out, and a kept one reaches the pace unit. -/
theorem sentFrameLeavesTheQueue : Obligations.SentFrameLeavesTheQueue := by
  intro s f hs hline hflight
  let s1 : State := { s with link := dequeueSent s.link }
  have hqueue : s1.link.queue = s.link.queue.filter fun x => x.age != f.age := by
    simp [s1, dequeueSent, hflight, removeAge]
  have hexec : exec .frameSent s = .next (evalIfKeptChanged s s1) :=
    if_pos ⟨(isActive_iff s).2 hs, hline⟩
  have hfirst := dequeueSent_keeps s
  have hsecond := evalIfKeptChanged_keeps s1 s
  refine ⟨_, hexec, hsecond .inFlight (by decide), hsecond .line (by decide), fun hkept => ?_,
    fun x hx hage hpace hlen => ?_, fun x hx hpace => ?_, ?_⟩
  · have hsame : evalIfKeptChanged s s1 = s1 := by
      refine if_pos ?_
      unfold keptCount
      rw [hqueue]; exact hkept
    rw [hsame]
    exact ⟨hqueue, hfirst.mono (by decide)⟩
  · have hx1 : x ∈ s1.link.queue := by
      rw [hqueue]; exact List.mem_filter.2 ⟨hx, by simpa using hage⟩
    have hroom : Room 11 s1 := room_of_length (by
      rw [hqueue]; exact (List.length_filter_le _ _).trans (by omega))
    unfold evalIfKeptChanged; split
    · exact hx1
    · exact ((evalPace_paced le_rfl hroom).mem_iff hpace).2 hx1
  · have hx1 : x ∈ s1.link.queue := by
      unfold evalIfKeptChanged at hx; split at hx
      · exact hx
      · exact evalPace_mem hpace hx
    rw [hqueue, List.mem_filter] at hx1
    exact ⟨hx1.1, by simpa using hx1.2⟩
  · exact (hfirst.mono (by decide)).trans (hsecond.mono (by decide))

/-! ## The full queue -/

section
variable {q : List QFrame} {fl : Option Nat} {g : QGroup}

theorem mem_waitingOf {x : QFrame} :
    x ∈ waitingOf g fl q ↔ x ∈ q ∧ frameGroup x.body = g ∧ fl ≠ some x.age := by
  simp only [waitingOf, List.mem_filter, Bool.and_eq_true, beq_iff_eq, bne_iff_ne]
  rw [ne_comm]

theorem newestAge_waiting {x : QFrame} (hx : x ∈ waitingOf g fl q)
    (h : ∀ y ∈ waitingOf g fl q, y.age ≤ x.age) : newestAge (waitingOf g fl q) = some x.age := by
  refine List.max?_eq_some_iff.2 ⟨List.mem_map_of_mem hx, ?_⟩
  simpa using h

theorem newestAge_none (h : ∀ x, x ∉ waitingOf g fl q) : newestAge (waitingOf g fl q) = none := by
  rw [List.eq_nil_iff_forall_not_mem.2 h]; rfl

/-- In a full queue a frame that replaces none is handled by its group (R167). -/
theorem joinQueue_full {f : QFrame} (hq : q.length = 12)
    (h : ∀ x ∈ q, frameGroup x.body = frameGroup f.body → isCoalesced (frameGroup f.body) = false) :
    joinQueue fl f q = joinFull fl f q := by
  have hnone : ¬ (isCoalesced (frameGroup f.body) = true ∧ (notReplaced f q).length < q.length) := by
    rintro ⟨hc, hlt⟩
    obtain ⟨x, hx, hg⟩ := List.length_filter_lt_length_iff_exists.1 hlt
    have hg : frameGroup x.body = frameGroup f.body := by simpa using hg
    simp [h x hx hg] at hc
  unfold joinQueue
  rw [if_neg hnone, if_neg (by simp [hq, Config.queuePlaces])]

end

/-- Settles O52: `joinFull` by the group, the newest ages read off the waiting frames. -/
theorem fullQueueJoinsByGroup : Obligations.FullQueueJoinsByGroup := by
  intro q f fl hq hrep waiting newest j
  have hj : j = joinFull fl f q := joinQueue_full hq hrep
  have hsome : ∀ {g x}, newest g x → newestAge (waitingOf g fl q) = some x.age := fun ⟨hx, hmax⟩ =>
    newestAge_waiting (mem_waitingOf.2 hx) fun y hy => hmax y (mem_waitingOf.1 hy)
  have hnone : ∀ {g}, (∀ x, ¬ waiting g x) → newestAge (waitingOf g fl q) = none := fun h =>
    newestAge_none fun x hx => h x (mem_waitingOf.1 hx)
  rw [hj]
  refine ⟨fun hg => by simp [joinFull, hg], fun x hg hx => ?_, fun hg hx => ?_, fun x hg hy hx => ?_⟩
  · have ht := hsome hx
    cases hgroup : frameGroup f.body with
    | tally => exact absurd hgroup hg
    | _ => simp [joinFull, hgroup, ht, removeAge]
  · simp [joinFull, hg, hnone hx]
  · rcases hg with hg | hg <;> simp [joinFull, hg, hnone hy, hsome hx, removeAge]

end Sys2Proof.Machine
end

section
/-! SUPPORT. Window ends and eyes: the speed, the high alarm and the stall detector, the filter of an eye,
arrivals, the judgement at the exit eye (R5 to R12, R19 to R29, R59 to R62). -/

namespace Sys2Proof.Machine

variable {s t : State}

/-! ## Window ends -/

/-- The belt unit once a window has closed and the high alarm has looked at it (R6 to R9). -/
def measured (s : State) : BeltUnit := highAlarm s.settings (closeWindow s.belt)

/-- What the stall detector and the rearm run do behind the measurement (R10 to R12). -/
theorem windowEnd_behind (s : State) : KeepsBut stopParts (setBelt (measured s) s) (windowEnd s) :=
  (((followLamp_keeps _).mono (by decide)).trans (stallTest_keeps _)).trans
    ((lowRearmRun_keeps _ _).mono (by decide))

theorem overSpeed_iff (c : Settings) (u : BeltUnit) : overSpeed c (closeWindow u) = true ↔
    (if c.highThreshold = 0 then 4095 else c.highThreshold) < u.windowCount ∨ u.windowSaturated = true := by
  rw [overSpeed, Bool.or_eq_true, decide_eq_true_eq]; exact Iff.rfl

section
variable {c : Settings} {u : BeltUnit}

theorem highAlarm_crosses (ha : u.highArmed = true) (hf : overSpeed c u = true) :
    highAlarm c u = { u with speedHigh := true, highArmed := false, highRearm := 0 } := by
  rw [highAlarm, if_pos ha, if_pos hf]

theorem highAlarm_armed (ha : u.highArmed = true) (hf : ¬ overSpeed c u = true) : highAlarm c u = u := by
  rw [highAlarm, if_pos ha, if_neg hf]

theorem highAlarm_fast (ha : u.highArmed = false) (hf : overSpeed c u = true) :
    highAlarm c u = { u with highRearm := 0 } := by
  rw [highAlarm, if_neg (by simp [ha]), if_pos hf]

theorem highAlarm_counts (ha : u.highArmed = false) (hf : ¬ overSpeed c u = true)
    (hr : u.highRearm + 1 < 25) : highAlarm c u = { u with highRearm := u.highRearm + 1 } := by
  rw [highAlarm, if_neg (by simp [ha]), if_neg hf]; exact if_neg (Nat.not_le.2 hr)

theorem highAlarm_rearms (ha : u.highArmed = false) (hf : ¬ overSpeed c u = true)
    (hr : 25 ≤ u.highRearm + 1) :
    highAlarm c u = { u with highArmed := true, speedHigh := false, highRearm := 0 } := by
  rw [highAlarm, if_neg (by simp [ha]), if_neg hf]; exact if_pos hr

theorem highAlarm_window (c : Settings) (u : BeltUnit) :
    (highAlarm c u).v = u.v ∧ (highAlarm c u).speedSaturated = u.speedSaturated
      ∧ (highAlarm c u).windowCount = u.windowCount
      ∧ (highAlarm c u).windowSaturated = u.windowSaturated := by
  unfold highAlarm; (repeat' split) <;> exact ⟨rfl, rfl, rfl, rfl⟩

end

/-- Settles O12: the measurement and the alarm come first, and nothing behind them touches their parts. -/
theorem windowEndMeasuresAndWatchesHigh : Obligations.WindowEndMeasuresAndWatchesHigh := by
  intro s hs high fast
  have hfast : overSpeed s.settings (closeWindow s.belt) = true ↔ fast := overSpeed_iff _ _
  have hbehind := windowEnd_behind s
  obtain ⟨hv, hvs⟩ := hbehind .speed (by decide)
  obtain ⟨hc, hcs⟩ := hbehind .window (by decide)
  obtain ⟨harmed, hrearm, hhigh⟩ := hbehind .high (by decide)
  obtain ⟨mv, mvs, mc, mcs⟩ := highAlarm_window s.settings (closeWindow s.belt)
  have hsame : ∀ {u}, measured s = u →
      (windowEnd s).belt.speedHigh = u.speedHigh ∧ (windowEnd s).belt.highArmed = u.highArmed
        ∧ (windowEnd s).belt.highRearm = u.highRearm := by
    rintro _ rfl; exact ⟨hhigh, harmed, hrearm⟩
  refine ⟨windowEnd s, if_pos ((isActive_iff s).2 hs), hv.trans mv, hvs.trans mvs, hc.trans mc,
    hcs.trans mcs, fun ha hf => hsame (highAlarm_crosses ha (hfast.2 hf)), fun ha hf => ?_,
    fun ha hf => ?_, fun ha hf hr => ?_, fun ha hf hr => hsame (highAlarm_rearms ha (mt hfast.1 hf) hr), ?_⟩
  · obtain ⟨h1, h2, h3⟩ := hsame (highAlarm_armed ha (mt hfast.1 hf))
    exact ⟨h2, h3, h1⟩
  · obtain ⟨h1, h2, h3⟩ := hsame (highAlarm_fast ha (hfast.2 hf))
    exact ⟨h1, h2.trans ha, h3⟩
  · obtain ⟨h1, h2, h3⟩ := hsame (highAlarm_counts ha (mt hfast.1 hf) hr)
    exact ⟨h1, h2.trans ha, h3⟩
  · exact windowEnd_keeps s

/-- The state at the stall test (R12). -/
def atStallTest (s : State) : State := followLamp (setBelt (measured s) s)

theorem measured_stall (s : State) : (measured s).run = s.belt.run ∧ (measured s).grace = s.belt.grace
    ∧ (measured s).lowArmed = s.belt.lowArmed ∧ (measured s).lowRearm = s.belt.lowRearm := by
  unfold measured highAlarm; (repeat' split) <;> exact ⟨rfl, rfl, rfl, rfl⟩

theorem windowEnd_eq (s : State) : windowEnd s =
    setBelt (lowRearmRun (stallTest (atStallTest s)).settings (stallTest (atStallTest s)).belt)
      (stallTest (atStallTest s)) := rfl

theorem findsStall_iff (s : State) : findsStall s.settings (measured s) = true ↔
    s.belt.run = true ∧ s.belt.grace = 0 ∧ s.belt.lowArmed = true
      ∧ s.belt.windowCount < s.settings.lowThreshold := by
  obtain ⟨hr, hg, ha, -⟩ := measured_stall s
  have hv : (measured s).v = s.belt.windowCount := (highAlarm_window _ _).1
  simp [findsStall, hr, hg, ha, hv, and_assoc]

section
variable {c : Settings} {u : BeltUnit}

theorem lowRearmRun_armed (h : u.lowArmed = true) : lowRearmRun c u = u := if_pos h

theorem lowRearmRun_slow (h : u.lowArmed = false) (hv : u.v < c.lowThreshold) :
    lowRearmRun c u = { u with lowRearm := 0 } := by
  rw [lowRearmRun, if_neg (by simp [h]), if_pos hv]

theorem lowRearmRun_counts (h : u.lowArmed = false) (hv : c.lowThreshold ≤ u.v) (hr : u.lowRearm + 1 < 25) :
    lowRearmRun c u = { u with lowRearm := u.lowRearm + 1 } := by
  rw [lowRearmRun, if_neg (by simp [h]), if_neg (Nat.not_lt.2 hv)]; exact if_neg (Nat.not_le.2 hr)

theorem lowRearmRun_rearms (h : u.lowArmed = false) (hv : c.lowThreshold ≤ u.v) (hr : 25 ≤ u.lowRearm + 1) :
    lowRearmRun c u = { u with lowArmed := true, lowRearm := 0 } := by
  rw [lowRearmRun, if_neg (by simp [h]), if_neg (Nat.not_lt.2 hv)]; exact if_pos hr

theorem lowRearmRun_grace (c : Settings) (u : BeltUnit) : (lowRearmRun c u).grace = u.grace := by
  unfold lowRearmRun; (repeat' split) <;> rfl

theorem spendGrace_eq (u : BeltUnit) : spendGrace u =
    { u with grace := if u.run = true then u.grace - 1 else u.grace } := by
  unfold spendGrace
  by_cases h : u.run = true
  · rw [if_pos h, if_pos h]
  · rw [if_neg h, if_neg h]

end

/-- Settles O13: the detector adds STALL through `addReason`; without a stall only the grace and the rearm
run move. -/
theorem windowEndFindsStall : Obligations.WindowEndFindsStall := by
  intro s hs hrun stall
  have hexec : exec .windowEnd s = .next (windowEnd s) := if_pos ((isActive_iff s).2 hs)
  obtain ⟨mrun, mgrace, marmed, mrearm⟩ := measured_stall s
  have mv : (measured s).v = s.belt.windowCount := (highAlarm_window _ _).1
  let u := measured s
  refine ⟨fun hstall => ⟨windowEnd s, hexec, ?_⟩, fun hstall => ⟨windowEnd s, hexec, ?_⟩⟩
  · obtain ⟨hon, hgrace, harmed, hslow⟩ := hstall
    obtain ⟨-, hown, -⟩ := hrun.1 hon
    let s1 := setBelt { u with lowArmed := false, lowRearm := 0 } (atStallTest s)
    have hlaw : LampLaw s1 := (lampLaw_iff s1).2 rfl
    have hrun1 : RunLaw s1 := by
      rw [runLaw_iff] at hrun ⊢
      exact mrun.trans hrun
    have htest : stallTest (atStallTest s) = addReason .stall s1 :=
      if_pos ((findsStall_iff s).2 ⟨hon, hgrace, harmed, hslow⟩)
    have hkeep := addReason_keeps_off s1 .stall
    obtain ⟨hlow, hrearm⟩ := hkeep .low (by decide)
    have hset : (addReason .stall s1).settings = s.settings := hkeep .settings (by decide)
    have hv : (addReason .stall s1).belt.v = s.belt.windowCount := (hkeep .speed (by decide)).1.trans mv
    have hend : windowEnd s =
        setBelt { (addReason .stall s1).belt with lowRearm := 0 } (addReason .stall s1) := by
      rw [windowEnd_eq, htest, lowRearmRun_slow hlow (by rw [hv, hset]; exact hslow)]
    rw [hend]
    refine ⟨?_, addReason_run s1 .stall hrun1, addReason_lamp s1 .stall hs hlaw, hlow, rfl, ?_, fun hq => ?_⟩
    · exact (addReason_own s1 .stall).trans (congrArg (insertReason · .stall) hown)
    · exact (hkeep .grace (by decide)).trans (mgrace.trans hgrace)
    · have hqueue : (addReason .stall s1).link.queue = _ := addReason_queue_first (s := s1) hown hq
      change _ ∈ (addReason .stall s1).link.queue
      rw [hqueue]
      exact mem_insertFrame.2 (Or.inl rfl)
  · have htest : stallTest (atStallTest s) = setBelt (spendGrace u) (atStallTest s) :=
      if_neg (mt (findsStall_iff s).1 hstall)
    have hend : windowEnd s = setBelt (lowRearmRun s.settings (spendGrace u)) (atStallTest s) := by
      rw [windowEnd_eq, htest]; rfl
    have hspend := spendGrace_eq u
    have sarmed : (spendGrace u).lowArmed = s.belt.lowArmed := by rw [hspend]; exact marmed
    have srearm : (spendGrace u).lowRearm = s.belt.lowRearm := by rw [hspend]; exact mrearm
    have sv : (spendGrace u).v = s.belt.windowCount := by rw [hspend]; exact mv
    have hbelt : (windowEnd s).belt = lowRearmRun s.settings (spendGrace u) := by rw [hend]; rfl
    rw [hbelt]
    refine ⟨?_, fun ha => ?_, fun ha hv => ?_, fun ha hv hr => ?_, fun ha hv hr => ?_, ?_⟩
    · rw [lowRearmRun_grace, hspend]
      change (if (measured s).run = true then (measured s).grace - 1 else (measured s).grace) = _
      rw [mrun, mgrace]
    · change (windowEnd s).belt.lowArmed = _ ∧ (windowEnd s).belt.lowRearm = _
      rw [hbelt, lowRearmRun_armed (sarmed.trans ha)]
      exact ⟨sarmed, srearm⟩
    · rw [lowRearmRun_slow (sarmed.trans ha) (sv ▸ hv)]
      exact ⟨sarmed.trans ha, rfl⟩
    · rw [lowRearmRun_counts (sarmed.trans ha) (sv ▸ hv) (srearm ▸ hr)]
      exact ⟨sarmed.trans ha, congrArg (· + 1) srearm⟩
    · rw [lowRearmRun_rearms (sarmed.trans ha) (sv ▸ hv) (srearm ▸ hr)]
      exact ⟨rfl, rfl⟩
    · rw [hend]
      exact ((((closeWindow_highAlarm_keeps s s.settings).mono (by decide)).trans
        ((followLamp_keeps _).mono (by decide))).trans ((spendGrace_keeps _).mono (by decide))).trans
          ((lowRearmRun_keeps (setBelt (spendGrace u) (atStallTest s)) s.settings).mono (by decide))

/-! ## The filter of an eye -/

@[simp] theorem putEye_putEye (e : Eye) (x y : EyeChannel) (s : State) :
    putEye e x (putEye e y s) = putEye e x s := by cases e <;> rfl

theorem exec_edgeRecognition {e : Eye} {p : PendingEdge} (hs : s.station = .active)
    (hp : (eyeOf e s).pendingEdge = some p) : exec (.edgeRecognition e) s = .next (recogniseEdge e p s) := by
  change execEdgeRecognition e s = _
  simp [execEdgeRecognition, hp, (isActive_iff s).2 hs]

theorem recogniseEdge_covered {e : Eye} {q : Pos} {timer : Nat} :
    recogniseEdge e ⟨.covered, q, timer⟩ s =
      leadingEdge e q (putEye e { eyeOf e s with level := .covered, pendingEdge := none } s) := rfl

/-- No jam is asked for: asked already, CLEAR, or the key ahead (R24). -/
theorem testJam_waits {e : Eye} (h : (eyeOf e s).jamRequested = true ∨ (eyeOf e s).level = .clear
      ∨ ∀ since, (eyeOf e s).coveredSince = some since →
        posDiff s.belt.position (jamKey s.settings since) < 0) : testJam e s = s := by
  unfold testJam; dsimp only; split
  · rfl
  next since hsince =>
    refine if_neg ?_
    rintro ⟨hlevel, hnot, hreach⟩
    rcases h with h | h | h
    · simp [h] at hnot
    · simp [h] at hlevel
    · have := h since hsince
      simp only [reached, decide_eq_true_eq] at hreach
      omega

/-- A leading edge into a hole: the pending trailing edge is cancelled, then the jam key is looked at
(R21, R24). -/
theorem recogniseEdge_merge {e : Eye} {q : Pos} {timer : Nat} (hm : (eyeOf e s).mergePending.isSome = true) :
    recogniseEdge e ⟨.covered, q, timer⟩ s = testJam e (putEye e
      { eyeOf e s with level := .covered, pendingEdge := none, mergePending := none } s) := by
  rw [recogniseEdge_covered, leadingEdge]
  simp [hm]

/-- A leading edge that begins a new piece (R21). -/
theorem recogniseEdge_leading {e : Eye} {q : Pos} {timer : Nat} (hm : (eyeOf e s).mergePending = none) :
    recogniseEdge e ⟨.covered, q, timer⟩ s = reportLeading e q (putEye e (leadingChannel (eyeOf e s) q) s) := by
  rw [recogniseEdge_covered, leadingEdge]
  simp [hm, leadingChannel]

theorem rawChanged_eq {level : EyeLevel} {position : Pos} {filter : Nat} {ch : EyeChannel} :
    rawChanged level position filter ch = { ch with
      raw := level
      pendingEdge :=
        if level = ch.level then none
        else match ch.pendingEdge with
          | none => some ⟨level, position, filter⟩
          | some pending => some pending } := by
  unfold rawChanged
  by_cases hlevel : level = ch.level
  · simp [hlevel]
  · cases ch.pendingEdge <;> simp [hlevel]

/-- Settles O14: the raw change is `rawChanged`, the recognition `recogniseEdge`. -/
theorem eyeFilterLatchesAndMerges : Obligations.EyeFilterLatchesAndMerges := by
  intro s e level q timer hs filter
  refine ⟨fun h => if_pos h, fun h => ?_, fun hp => ?_, fun hp hm hjam => ?_, fun hp => ?_⟩
  · have hfilter : eyeFilter e s.settings = filter := by cases e <;> rfl
    change execEyeRawChange e level s = _
    unfold execEyeRawChange
    dsimp only
    rw [if_neg h, if_pos ((isActive_iff s).2 hs), hfilter]
    exact congrArg (fun ch => Host.Outcome.next (putEye e ch s)) rawChanged_eq
  · rw [exec_edgeRecognition hs hp]; rfl
  · rw [exec_edgeRecognition hs hp, recogniseEdge_merge hm, testJam_waits]
    rw [eyeOf_putEye, putEye_belt, putEye_settings]
    exact hjam.imp_right Or.inr
  · change execEdgeRecognition e s = _
    simp [execEdgeRecognition, hp]

/-! ## Arrivals -/

/-- The local numbers the ON_BELT records hold. -/
def heldLocals (tracks : List Record) : List LocalNo :=
  (tracks.filterMap beltOf).map fun x => x.2.localNo

theorem length_heldLocals (tracks : List Record) : (heldLocals tracks).length = onBeltCount tracks := by
  unfold heldLocals onBeltCount
  rw [List.length_map, List.length_filterMap_eq_countP]
  exact List.countP_congr fun r _ => by rw [onBelt_iff_beltOf]

theorem any_hasLocal_iff {n : LocalNo} {tracks : List Record} :
    tracks.any (hasLocal n) = true ↔ n ∈ heldLocals tracks := by
  simp only [List.any_eq_true, hasLocal, heldLocals, beq_iff_eq, Option.map_eq_some_iff, List.mem_map,
    List.mem_filterMap]
  exact ⟨fun ⟨r, hr, x, hx, hn⟩ => ⟨x, ⟨r, hr, hx⟩, hn⟩, fun ⟨x, ⟨r, hr, hx⟩, hn⟩ => ⟨r, hr, x, hx, hn⟩⟩

/-- The search ends at a number that is free, or has found all it tried held. -/
theorem freeLocal_spec (tracks : List Record) : ∀ (k : Nat) (n : LocalNo),
    tracks.any (hasLocal (freeLocal k n tracks)) = false
      ∨ ∀ i < k, n + BitVec.ofNat 8 i ∈ heldLocals tracks
  | 0, _ => Or.inr (by simp)
  | k + 1, n => by
    unfold freeLocal; split
    next hn =>
      refine (freeLocal_spec tracks k (n + 1#8)).imp_right fun h i hi => ?_
      cases i with
      | zero => simpa using any_hasLocal_iff.1 hn
      | succ i =>
        have := h i (Nat.lt_of_succ_lt_succ hi)
        rwa [BitVec.add_assoc, ← BitVec.ofNat_add, Nat.add_comm] at this
    next hn => exact Or.inl (by simpa using hn)

/-- With fewer than 256 records on the belt a number is free (R59). -/
theorem freeLocal_free {tracks : List Record} (h : onBeltCount tracks < 256) (n : LocalNo) :
    tracks.any (hasLocal (freeLocal 256 n tracks)) = false := by
  refine (freeLocal_spec tracks 256 n).resolve_right fun hall => ?_
  have hsub : List.range 256 ⊆ (heldLocals tracks).map BitVec.toNat := by
    intro m hm
    have hm : m < 256 := List.mem_range.1 hm
    have := hall (BitVec.ofNat 8 m - n).toNat (BitVec.isLt _)
    rw [BitVec.ofNat_toNat, BitVec.setWidth_eq, BitVec.add_comm, BitVec.sub_add_cancel] at this
    exact List.mem_map.2 ⟨_, this, by simpa using hm⟩
  have := (List.nodup_range.subperm hsub).length_le
  simp [length_heldLocals] at this
  omega

theorem freeLocal_next {tracks : List Record} {n : LocalNo} (h : tracks.any (hasLocal n) = false) :
    freeLocal 256 n tracks = n := by
  unfold freeLocal; simp [h]

theorem pairFirst_append {i : BeltInfo} {p : Piece} (hp : isUnseen (.piece p) = true) (after : List Record) :
    ∀ {before : List Record}, (∀ r ∈ before, isUnseen r = false) →
      pairFirst i (before ++ .piece p :: after) = before ++ .piece { p with stage := .onBelt i } :: after
  | [], _ => by simp [pairFirst, hp]
  | .piece q :: before, h => by
    have hq : isUnseen (.piece q) = false := h _ List.mem_cons_self
    simp [pairFirst, hq, pairFirst_append hp after fun r hr => h r (List.mem_cons_of_mem _ hr)]
  | .marker q l :: before, h => by
    simp [pairFirst, pairFirst_append hp after fun r hr => h r (List.mem_cons_of_mem _ hr)]

/-- Only LINK_DROP may count where the other counts stand. -/
theorem KeepsBut.counts {ps : List Part} (h : KeepsBut ps s t) (hf : Part.fates ∉ ps) (he : Part.events ∉ ps) :
    t.tally.counts = { s.tally.counts with linkDrop := t.tally.counts.linkDrop } := by
  obtain ⟨h1, h2, h3, h4, h5, h6⟩ := h .fates hf
  obtain ⟨g1, g2, g3, g4, g5⟩ := h .events he
  cases hx : t.tally.counts; cases hy : s.tally.counts
  simp_all

theorem exec_leadingEdge {e : Eye} {q : Pos} {timer : Nat} (hs : s.station = .active)
    (hp : (eyeOf e s).pendingEdge = some ⟨.covered, q, timer⟩) (hm : (eyeOf e s).mergePending = none) :
    exec (.edgeRecognition e) s =
      .next (reportLeading e q (putEye e (leadingChannel (eyeOf e s) q) s)) := by
  rw [exec_edgeRecognition hs hp, recogniseEdge_leading hm]

/-- Settles O16: the pairing arm of `arrive`, the free number by counting the records on the belt. -/
theorem arrivalPairsOldestUnseen : Obligations.ArrivalPairsOldestUnseen := by
  intro s q timer before after p hs hp hm htracks hbefore hunseen hcount
  let s1 := putEye .entry (leadingChannel s.eyes.entry q) s
  let n := freeLocal 256 s.nextLocal s.tracks
  let s2 := countEntered { s1 with
    tracks := pairFirst (arrivedInfo n q false) s.tracks, nextLocal := n + 1#8 }
  have hany : s.tracks.any isUnseen = true :=
    List.any_eq_true.2 ⟨_, by rw [htracks]; exact List.mem_append_right _ List.mem_cons_self, hunseen⟩
  have harrive : arrive q s1 = evalPace s2 := by
    unfold arrive
    exact (if_neg (Nat.not_le.2 hcount)).trans (if_pos hany)
  have hkeep := evalPace_keeps s2
  refine ⟨evalPace s2, n, ?_, freeLocal_free (by omega) _, freeLocal_next, hkeep .nextLocal (by decide), ?_,
    hkeep .entryEye (by decide), ?_, ?_⟩
  · rw [exec_leadingEdge (e := .entry) hs hp hm]
    exact congrArg Host.Outcome.next harrive
  · refine (hkeep .tracks (by decide)).trans ?_
    change pairFirst (arrivedInfo n q false) s.tracks = _
    rw [htracks]
    exact pairFirst_append hunseen after hbefore
  · exact hkeep.counts (by decide) (by decide)
  · exact ((((putEye_keeps s .entry _).mono (by decide)).trans
      ((setArrived_keeps s1 _ _).mono (by decide))).trans ((countEntered_keeps _).mono (by decide))).trans
        (hkeep.mono (by decide))

/-- Settles O17: the orphan arm of `arrive`. -/
theorem arrivalWithoutRecordIsOrphan : Obligations.ArrivalWithoutRecordIsOrphan := by
  intro s q timer hs hp hm hunseen hcount hlen
  let s1 := putEye .entry (leadingChannel s.eyes.entry q) s
  let n := freeLocal 256 s.nextLocal s.tracks
  let s2 := countEntered { s1 with
    tracks := s.tracks ++ [orphanRecord (arrivedInfo n q true)], nextLocal := n + 1#8 }
  let s3 := countPiece .orphan 0#16 0#8 s2
  have hany : ¬ s.tracks.any isUnseen = true := by simpa using hunseen
  have harrive : arrive q s1 = evalPace s3 := by
    unfold arrive
    exact ((if_neg (Nat.not_le.2 hcount)).trans (if_neg hany)).trans (if_neg (Nat.not_le.2 hlen))
  have hkeep := evalPace_keeps s3
  refine ⟨evalPace s3, n, ?_, freeLocal_free (by omega) _, hkeep .nextLocal (by decide), freeLocal_next,
    hkeep .tracks (by decide), hkeep .entryEye (by decide), hkeep.counts (by decide) (by decide), ?_⟩
  · rw [exec_leadingEdge (e := .entry) hs hp hm]
    exact congrArg Host.Outcome.next harrive
  · exact ((((putEye_keeps s .entry _).mono (by decide)).trans
      ((setArrived_keeps s1 _ _).mono (by decide))).trans ((countEntered_keeps _).mono (by decide))).trans
        (((countPiece_keeps_fates _ _ _ s2 (by simp)).mono (by decide)).trans (hkeep.mono (by decide)))

theorem consumeOldest_noMarker (h : NoMarkerFirst (s.tracks.eraseP isUnseen)) :
    consumeOldest s = setTracks (s.tracks.eraseP isUnseen) s := by
  unfold consumeOldest; split
  · exact lookAtHead_noMarker h
  next hnone =>
    have hself : s.tracks.eraseP isUnseen = s.tracks :=
      List.eraseP_of_forall_not fun r hr hu => hnone (List.any_eq_true.2 ⟨r, hr, hu⟩)
    rw [hself]; rfl

/-- Settles O18: both limits end in `overrun`. -/
theorem arrivalBeyondTheLimitsIsOverrun : Obligations.ArrivalBeyondTheLimitsIsOverrun := by
  intro s q timer hs hrun hp hm hlimit hmarker
  let s1 := putEye .entry (leadingChannel s.eyes.entry q) s
  let s2 := setTracks (s.tracks.eraseP isUnseen) s1
  let s3 := markUntracked (countOverrun s2)
  have harrive : arrive q s1 = addReason .overrun s3 := by
    have hover : overrun s1 = addReason .overrun s3 := by
      unfold overrun
      rw [consumeOldest_noMarker (s := s1) hmarker]
      rfl
    rw [← hover]
    unfold arrive
    by_cases hcount : 12 ≤ onBeltCount s.tracks
    · exact if_pos hcount
    · obtain ⟨hany, hlen⟩ := hlimit.resolve_left hcount
      exact ((if_neg hcount).trans (if_neg (by rw [show s1.tracks = s.tracks from rfl, hany]; simp))).trans
        (if_pos hlen)
  have hkeep := addReason_keeps s3 .overrun
  refine ⟨addReason .overrun s3, ?_, hkeep .tracks (by decide), hkeep .untracked (by decide),
    hkeep.counts (by decide) (by decide), addReason_own s3 .overrun, addReason_run s3 .overrun hrun,
    hkeep .entryEye (by decide), ?_⟩
  · rw [exec_leadingEdge (e := .entry) hs hp hm]
    exact congrArg Host.Outcome.next harrive
  · exact ((((putEye_keeps s .entry _).mono (by decide)).trans ((setTracks_keeps _ s1).mono (by decide))).trans
      ((countOverrun_keeps s2).mono (by decide))).trans
        (((markUntracked_keeps _).mono (by decide)).trans (hkeep.mono (by decide)))

/-! ## The exit eye -/

theorem exitCandidate_eq (s : State) : exitCandidate s.tracks = exitCandidateOf s := by
  unfold exitCandidate exitCandidateOf
  rw [List.find?_map]
  rfl

theorem setJudged_keeps (s : State) (xs : List Record) (es : List SchedEntry) (o : Option ExitOwner) :
    KeepsBut [.exitOwner, .tracks, .schedule] s
      { s with tracks := xs, schedule := es, eyes := { s.eyes with exitOwner := o } } := by
  intro p hp; cases p <;> simp_all [Part.same]

theorem judgeExit_owned {q : Pos} {i : BeltInfo} {ex : Pos} (hc : exitCandidateOf s = some i)
    (hex : i.exitPos = some ex) (hd : (posDiff q ex).natAbs ≤ s.settings.exitTol) :
    judgeExit q s = { s with
      tracks := updateLocal i.localNo markSeen s.tracks
      schedule := withoutExitCheck i.localNo s.schedule
      eyes := { s.eyes with exitOwner := some (.piece i.localNo) } } := by
  simp [judgeExit, exitCandidate_eq, hc, hex, withinTolerance, hd]

theorem judgeExit_stray {q : Pos}
    (hfar : ∀ i ex, exitCandidateOf s = some i → i.exitPos = some ex →
      s.settings.exitTol < (posDiff q ex).natAbs)
    (hset : ∀ i, exitCandidateOf s = some i → i.exitPos.isSome = true) : judgeExit q s = strayEdge s := by
  unfold judgeExit
  rw [exitCandidate_eq]
  cases hc : exitCandidateOf s with
  | none => rfl
  | some i =>
    obtain ⟨ex, hex⟩ := Option.isSome_iff_exists.1 (hset i hc)
    have := hfar i ex hc hex
    simp [hex, withinTolerance, Nat.not_le.2 this]

theorem mem_withoutExitCheck {n : LocalNo} {e : SchedEntry} {xs : List SchedEntry} :
    e ∈ withoutExitCheck n xs ↔ e ∈ xs ∧ ¬ (e.action = .exitCheck ∧ n ∈ e.pieces) := by
  simp only [withoutExitCheck, List.mem_filter, Bool.not_eq_true', Bool.and_eq_false_iff,
    decide_eq_false_iff_not, not_and_or, List.contains_eq_mem]

/-- Settles O19: the two arms of `judgeExit`. -/
theorem exitLeadingEdgeIsJudged : Obligations.ExitLeadingEdgeIsJudged := by
  intro s q timer hs hp hm
  let s1 := putEye .exit (leadingChannel s.eyes.exit q) s
  have hexec : exec (.edgeRecognition .exit) s = .next (judgeExit q s1) :=
    exec_leadingEdge (e := .exit) hs hp hm
  have hput := putEye_keeps s .exit (leadingChannel s.eyes.exit q)
  refine ⟨fun i ex hc hex hd => ?_, fun hfar hset => ?_⟩
  · rw [judgeExit_owned (s := s1) hc hex hd] at hexec
    refine ⟨_, hexec, rfl, rfl, rfl, fun e => mem_withoutExitCheck, ?_⟩
    exact (hput.mono (by decide)).trans ((setJudged_keeps s1 _ _ _).mono (by decide))
  · rw [judgeExit_stray (s := s1) hfar hset] at hexec
    have hkeep := strayEdge_keeps s1
    refine ⟨_, hexec, rfl, hkeep .exitEye (by decide), ?_, rfl,
      (hput.mono (by decide)).trans (hkeep.mono (by decide)), ?_⟩
    · simp [strayEdge, countLine, offerTally, bumpCounts, s1, putEye]
    · simp [strayEdge, countLine, offerTally, bumpCounts, s1, putEye]

end Sys2Proof.Machine
end

section
/-! SUPPORT. Resolution, the choice of a bay and the stages of planning that judge and fold (R41 to R44,
R64, R65, R99, R100, R114, R127 to R129). -/

namespace Sys2Proof.Machine

variable {s t : State}

/-! ## Resolution -/

section
variable {table : List CategoryEntry}

/-- The kind of the entry of a code. -/
def kindOf (table : List CategoryEntry) (code : Code) : Option EntryKind :=
  (lookupCode table code).map CategoryEntry.kind

/-- A visit that finds no link ends the resolution (R41). -/
theorem visitFrom_end {n : Nat} {code : Code} (h : ∀ target, kindOf table code ≠ some (.link target)) :
    visitFrom n code table = ⟨code, false, raiseUse code table⟩ := by
  unfold visitFrom; dsimp only; split
  next target ht => exact absurd ht (h target)
  · rfl

/-- A visited link goes on, or is a chain fault: at an absent code, and past the last visit allowed
(R42). -/
theorem visitFrom_link {n : Nat} {code target : Code} (h : kindOf table code = some (.link target)) :
    visitFrom n code table =
      if (lookupCode table target).isSome = true ∧ 0 < n then visitFrom (n - 1) target (raiseUse code table)
      else ⟨0#8, true, raiseUse 0#8 (raiseUse code table)⟩ := by
  rw [visitFrom.eq_def]
  change (match kindOf table code with | some (.link target) => _ | _ => _) = _
  rw [h]
  dsimp only
  by_cases ht : (lookupCode table target).isSome = true
  · cases n <;> simp [ht]
  · simp [ht]

theorem kindOf_plan {code : Code} {p : PlanFields} (h : planOf code table = some p) :
    kindOf table code = some (.plan p) := by
  unfold planOf at h; split at h
  next hk => rw [kindOf, hk, Option.some.inj h]
  · cases h

theorem isSome_of_kindOf {code : Code} {k : EntryKind} (h : kindOf table code = some k) :
    (lookupCode table code).isSome = true := by
  rw [← Option.isSome_map (f := CategoryEntry.kind)]
  exact Option.isSome_of_eq_some h

theorem visitFrom_plan_end {n : Nat} {code : Code} {p : PlanFields} (h : planOf code table = some p) :
    visitFrom n code table = ⟨code, false, raiseUse code table⟩ :=
  visitFrom_end fun target ht => by simp [kindOf_plan h] at ht

theorem resolveCode_present {code : Code} (h : (lookupCode table code).isSome = true) :
    resolveCode code table = visitFrom 3 code table := by
  unfold resolveCode; rw [if_pos h]; rfl

theorem resolveCode_absent {code : Code} (h : lookupCode table code = none) :
    resolveCode code table = visitFrom 3 0#8 table := by
  unfold resolveCode; rw [if_neg (by simp [h])]; rfl

theorem kindOf_of_followsLinks {code visited last : Code} {path : List Code}
    (h : FollowsLinks table code (visited :: path) last) :
    visited = code ∧ ∃ target, kindOf table code = some (.link target) ∧ FollowsLinks table target path last := by
  obtain ⟨hv, entry, target, he, hk, hrest⟩ := h
  exact ⟨hv, target, by simp [kindOf, he, hk], hrest⟩

theorem followsLinks_raiseUse (c : Code) : ∀ {path : List Code} {code last : Code},
    FollowsLinks table code path last → FollowsLinks (raiseUse c table) code path last
  | [], _, _, h => h
  | _ :: _, _, _, ⟨hv, entry, target, he, hk, hrest⟩ =>
    ⟨hv, raiseEntry c entry, target, by rw [lookupCode_raiseUse, he]; rfl, by simpa using hk,
      followsLinks_raiseUse c hrest⟩

/-- The code a path of links starts at is present, unless the path is empty. -/
theorem isSome_of_followsLinks {code last : Code} : ∀ {path : List Code},
    FollowsLinks table code path last → (path = [] → (lookupCode table last).isSome = true) →
      (lookupCode table code).isSome = true
  | [], h, hlast => by rw [show code = last from h]; exact hlast rfl
  | _ :: _, h, _ => by
    obtain ⟨-, target, hk, -⟩ := kindOf_of_followsLinks h
    exact isSome_of_kindOf hk

/-- Links followed within the visits allowed end at the plan behind them (R42, R43). -/
theorem visitFrom_follows {last : Code} {p : PlanFields} : ∀ {path : List Code} {n : Nat} {code : Code}
    {table : List CategoryEntry}, FollowsLinks table code path last → planOf last table = some p →
    path.length ≤ n → visitFrom n code table = ⟨last, false, raiseAll (path ++ [last]) table⟩
  | [], n, code, table, h, hp, _ => by
    rw [show code = last from h]
    exact visitFrom_plan_end hp
  | visited :: path, n, code, table, h, hp, hlen => by
    obtain ⟨rfl, target, hk, hrest⟩ := kindOf_of_followsLinks h
    have hlen : path.length + 1 ≤ n := hlen
    have htarget := isSome_of_followsLinks hrest fun _ => isSome_of_kindOf (kindOf_plan hp)
    rw [visitFrom_link hk, if_pos ⟨htarget, by omega⟩,
      visitFrom_follows (followsLinks_raiseUse visited hrest) (by rwa [planOf_raiseUse]) (by omega)]
    rfl

/-- A link to an absent code, and a link visited last, is a chain fault (R42). -/
theorem visitFrom_fault {last : Code} : ∀ {path : List Code} {n : Nat} {code : Code}
    {table : List CategoryEntry}, FollowsLinks table code path last → path ≠ [] → path.length ≤ n + 1 →
    (lookupCode table last = none ∨ path.length = n + 1) →
    visitFrom n code table = ⟨0#8, true, raiseAll (path ++ [0#8]) table⟩
  | [], _, _, _, _, hne, _, _ => absurd rfl hne
  | [visited], n, code, table, h, _, _, hend => by
    obtain ⟨rfl, target, hk, rfl⟩ := kindOf_of_followsLinks h
    rw [visitFrom_link hk, if_neg]
    · rfl
    · rcases hend with hend | hend
      · simp [hend]
      · have hn : n = 0 := by simpa using hend.symm
        simp [hn]
  | visited :: next :: path, n, code, table, h, _, hlen, hend => by
    obtain ⟨rfl, target, hk, hrest⟩ := kindOf_of_followsLinks h
    have hlen : path.length + 2 ≤ n + 1 := hlen
    have htarget := isSome_of_followsLinks hrest (by simp)
    have hend : lookupCode (raiseUse visited table) last = none ∨ (next :: path).length = n - 1 + 1 := by
      refine hend.imp (fun h => by rw [lookupCode_raiseUse, h]; rfl) fun h => ?_
      simp only [List.length_cons] at h ⊢; omega
    rw [visitFrom_link hk, if_pos ⟨htarget, by omega⟩,
      visitFrom_fault (followsLinks_raiseUse visited hrest) (by simp) (by simp only [List.length_cons]; omega) hend]
    rfl

/-- Whatever is visited, the result is a plan, and a chain fault's result is entry 0 (R42, R43). -/
theorem visitFrom_result (n : Nat) : ∀ {code : Code} {table : List CategoryEntry},
    (lookupCode table code).isSome = true → (∃ p, planOf 0#8 table = some p) →
    (∃ p, planOf (visitFrom n code table).code table = some p)
      ∧ ((visitFrom n code table).chainFault = true → (visitFrom n code table).code = 0#8) := by
  induction n with
  | zero =>
    intro code table hcode hzero
    cases hk : kindOf table code with
    | none => simp [kindOf] at hk; simp [hk] at hcode
    | some k =>
      cases k with
      | link target => rw [visitFrom_link hk, if_neg (by simp)]; exact ⟨hzero, fun _ => rfl⟩
      | plan p =>
        have hp : planOf code table = some p := by unfold planOf; rw [← kindOf, hk]
        rw [visitFrom_plan_end hp]; exact ⟨⟨p, hp⟩, nofun⟩
  | succ n ih =>
    intro code table hcode hzero
    cases hk : kindOf table code with
    | none => simp [kindOf] at hk; simp [hk] at hcode
    | some k =>
      cases k with
      | link target =>
        rw [visitFrom_link hk]; split
        next h =>
          have := ih (code := target) (table := raiseUse code table) (by simpa using h.1) (by simpa using hzero)
          simpa using this
        · exact ⟨hzero, fun _ => rfl⟩
      | plan p =>
        have hp : planOf code table = some p := by unfold planOf; rw [← kindOf, hk]
        rw [visitFrom_plan_end hp]; exact ⟨⟨p, hp⟩, nofun⟩

theorem map_codeKind_raiseAll (cs : List Code) : ∀ table : List CategoryEntry,
    (raiseAll cs table).map (fun e => (e.code, e.kind)) = table.map fun e => (e.code, e.kind) := by
  induction cs with
  | nil => exact fun _ => rfl
  | cons c cs ih =>
    intro table
    rw [raiseAll_cons, ih, raiseUse_eq_map, List.map_map]
    exact List.map_congr_left fun e _ => by simp

/-- Visits never lower a use count, and it stops at 65,535 (R44). -/
theorem uses_raiseAll (cs : List Code) : ∀ {table : List CategoryEntry} {c : Code} {e e' : CategoryEntry},
    lookupCode table c = some e → lookupCode (raiseAll cs table) c = some e' → e.uses ≤ 65535 →
    e.uses ≤ e'.uses ∧ e'.uses ≤ 65535 := by
  induction cs with
  | nil =>
    intro table c e e' he he' hmax
    cases he.symm.trans he'
    exact ⟨le_rfl, hmax⟩
  | cons x cs ih =>
    intro table c e e' he he' hmax
    have hraise : e.uses ≤ (raiseEntry x e).uses ∧ (raiseEntry x e).uses ≤ 65535 := by
      unfold raiseEntry; split
      · exact ⟨le_min hmax (Nat.le_succ _), Nat.min_le_left _ _⟩
      · exact ⟨le_rfl, hmax⟩
    obtain ⟨h1, h2⟩ := ih (table := raiseUse x table) (by rw [lookupCode_raiseUse, he]; rfl) he' hraise.2
    exact ⟨hraise.1.trans h1, h2⟩

end

/-- Settles O21: the path of links is followed visit by visit. -/
theorem resolutionEndsAtPlan : Obligations.ResolutionEndsAtPlan := by
  intro code table _ hzero
  obtain ⟨p0, hp0⟩ := hzero
  have h0 : (lookupCode table 0#8).isSome = true := isSome_of_kindOf (kindOf_plan hp0)
  obtain ⟨codes, hcodes⟩ := resolveCode_table code table
  obtain ⟨hplan, hfault⟩ : (∃ p, planOf (resolveCode code table).code table = some p)
      ∧ ((resolveCode code table).chainFault = true → (resolveCode code table).code = 0#8) := by
    cases hcode : lookupCode table code with
    | none => rw [resolveCode_absent hcode]; exact visitFrom_result 3 h0 ⟨p0, hp0⟩
    | some e =>
      have hsome : (lookupCode table code).isSome = true := Option.isSome_of_eq_some hcode
      rw [resolveCode_present hsome]; exact visitFrom_result 3 hsome ⟨p0, hp0⟩
  have hstart : ∀ {path last}, FollowsLinks table code path last →
      (path = [] → (lookupCode table last).isSome = true) →
      resolveCode code table = visitFrom 3 code table :=
    fun h hlast => resolveCode_present (isSome_of_followsLinks h hlast)
  refine ⟨?_, fun p hp => ?_, fun hnone => ?_, hfault, fun path last hpath => ⟨fun p hlen hp => ?_,
    fun h1 h4 hlast => ?_, fun h4 => ?_⟩, ?_, fun c e e' he he' hmax => ?_⟩
  · simpa only [planOf_resolveCode_table] using hplan
  · rw [resolveCode_present (isSome_of_kindOf (kindOf_plan hp)), visitFrom_plan_end hp]
  · rw [resolveCode_absent hnone]; exact visitFrom_plan_end hp0
  · rw [hstart hpath fun _ => isSome_of_kindOf (kindOf_plan hp)]
    exact visitFrom_follows hpath hp hlen
  · have hne : path ≠ [] := List.ne_nil_of_length_pos h1
    rw [hstart hpath fun h => absurd h hne]
    exact visitFrom_fault hpath hne h4 (Or.inl hlast)
  · have hne : path ≠ [] := List.ne_nil_of_length_pos (by omega)
    rw [hstart hpath fun h => absurd h hne]
    exact visitFrom_fault hpath hne h4.le (Or.inr h4)
  · rw [hcodes]; exact map_codeKind_raiseAll codes table
  · rw [hcodes] at he'
    exact uses_raiseAll codes he he' hmax

/-! ## The choice of a bay -/

/-- In a list that rises by a number, the first that passes is the lowest that passes. -/
theorem find?_eq_some_iff_lowest {α : Type} {f : α → Nat} {p : α → Bool} {b : α} : ∀ {l : List α},
    l.Pairwise (fun x y => f x < f y) → b ∈ l →
    (l.find? p = some b ↔ p b = true ∧ ∀ c ∈ l, f c < f b → ¬ p c = true)
  | [], _, hb => by cases hb
  | a :: l, hs, hb => by
    obtain ⟨ha, hs⟩ := List.pairwise_cons.1 hs
    rcases List.mem_cons.1 hb with rfl | hb
    · by_cases hp : p b = true
      · simp only [List.find?_cons_of_pos hp, hp, true_and, true_iff, List.forall_mem_cons, lt_irrefl,
          false_imp_iff]
        exact fun c hc hlt => absurd (ha c hc) (Nat.lt_asymm hlt)
      · have hne : l.find? p ≠ some b := fun h => hp (List.find?_some h)
        simp [List.find?_cons_of_neg hp, hp, hne]
    · by_cases hp : p a = true
      · have hab : a ≠ b := fun h => Nat.lt_irrefl _ (h ▸ ha b hb)
        simp [List.find?_cons_of_pos hp, hp, hab, ha b hb]
      · rw [List.find?_cons_of_neg hp, find?_eq_some_iff_lowest hs hb, List.forall_mem_cons]
        simp [hp]

theorem mem_allBays (b : BayNo) : b ∈ BayNo.all := by cases b <;> decide

/-- The test `chooseBay` makes is `MayTake` (R127). -/
theorem mayTake_iff {plan : PlanFields} {lot : Lot} {code : Code} {openDue : BayNo → Pos} {pNow : Pos}
    {b : BayNo} :
    (isConfigured s b && plan.allowed.get b && !isLate s.settings (openDue b) pNow
      && bayQualifies lot code (s.bays.get b)) = true ↔ MayTake s plan lot code openDue pNow b := by
  have hlate : (!isLate s.settings (openDue b) pNow) = true ↔
      (s.settings.lateMargin : Int) ≤ posDiff (openDue b) pNow := by simp [isLate]
  have hroom : ∀ y : Bay, y.landed + y.reserved < y.target.getD 0 ↔
      ∃ n, y.target = some n ∧ y.landed + y.reserved < n := by
    intro y; cases y.target <;> simp
  rw [Bool.and_eq_true, Bool.and_eq_true, Bool.and_eq_true, hlate, bayQualifies]
  simp only [isConfigured, Bool.or_eq_true, Bool.and_eq_true, decide_eq_true_eq, hroom, and_assoc, MayTake]

/-- The bay chosen is the lowest that may take the piece; the bays stand in number order in `BayNo.all`. -/
theorem chooseBay_eq_some_iff {plan : PlanFields} {lot : Lot} {code : Code} {openDue : BayNo → Pos}
    {pNow : Pos} {b : BayNo} : chooseBay s plan lot code openDue pNow = some b ↔
      MayTake s plan lot code openDue pNow b
        ∧ ∀ c : BayNo, c.num < b.num → ¬ MayTake s plan lot code openDue pNow c := by
  have hsorted : BayNo.all.Pairwise fun x y => x.num < y.num := by decide
  rw [chooseBay, find?_eq_some_iff_lowest hsorted (mem_allBays b), mayTake_iff]
  exact and_congr_right fun _ => ⟨fun h c hlt hc => h c (mem_allBays c) hlt (mayTake_iff.2 hc),
    fun h c _ hlt hc => h c hlt (mayTake_iff.1 hc)⟩

theorem chooseBay_eq_none_iff {plan : PlanFields} {lot : Lot} {code : Code} {openDue : BayNo → Pos}
    {pNow : Pos} : chooseBay s plan lot code openDue pNow = none ↔
      ∀ b, ¬ MayTake s plan lot code openDue pNow b := by
  rw [chooseBay, List.find?_eq_none]
  exact ⟨fun h b hb => h b (mem_allBays b) (mayTake_iff.2 hb), fun h b _ hb => h b (mayTake_iff.1 hb)⟩

/-- Settles O22: the test of `chooseBay` is R127's, and it takes the bays in number order. -/
theorem lowestQualifyingBayIsChosen : Obligations.LowestQualifyingBayIsChosen :=
  fun _ _ _ _ _ _ _ => ⟨fun _ => chooseBay_eq_some_iff, chooseBay_eq_none_iff⟩

/-! ## Claim and reservation -/

theorem reserveBay_get (b : BayNo) (s : State) : (reserveBay b s).bays = s.bays.set b
    { s.bays.get b with
      reserved := (s.bays.get b).reserved + 1
      state := if (s.bays.get b).target = some ((s.bays.get b).landed + (s.bays.get b).reserved + 1)
        then .closing else (s.bays.get b).state
      reason := if (s.bays.get b).target = some ((s.bays.get b).landed + (s.bays.get b).reserved + 1)
        then some .target else (s.bays.get b).reason } := by
  unfold reserveBay
  by_cases h : (s.bays.get b).target = some ((s.bays.get b).landed + (s.bays.get b).reserved + 1)
  · simp only [if_pos h, putBay_bays]
  · simp only [if_neg h, putBay_bays]

theorem claimBay_other {b c : BayNo} (h : c ≠ b) (lot : Lot) (code : Code) (n : Nat) (s : State) :
    (claimBay b lot code n s).bays.get c = s.bays.get c := by
  unfold claimBay; dsimp only; split
  · rw [putBay_bays, Four.get_set_other _ _ h]
  · rfl

/-- Settles O23: the claim, then the reservation of `reserveBay`. -/
theorem claimAndReservation : Obligations.ClaimAndReservation := by
  intro s b lot code target hlaw h1
  let s1 := claimBay b lot code target s
  have hreserve := reserveBay_get b s1
  refine ⟨fun hempty => ?_, fun n hfilling htarget => ?_, fun c hc => ?_, ?_⟩
  · have hbay : (s.bays.get b).landed = 0 ∧ (s.bays.get b).reserved = 0 := by
      have := hlaw b; rwa [BayOk, if_pos (Or.inl hempty)] at this
    have hclaim : s1.bays.get b = { s.bays.get b with
        state := .filling, lot := some lot, planCode := some code, target := some target, landed := 0
        reason := none, stackQueued := false } := by
      simp [s1, claimBay, hempty]
    rw [hreserve, Four.get_set_same, hclaim]
    simp [hbay.2]
  · have hclaim : s1 = s := if_neg (by simp [hfilling])
    rw [hreserve, Four.get_set_same, hclaim]
    simp only [htarget, hfilling, Option.some.injEq, eq_comm (a := n)]
  · rw [hreserve, Four.get_set_other _ _ hc]
    exact claimBay_other hc lot code target s
  · exact (claimBay_keeps b lot code target s).trans (reserveBay_keeps b s1)

/-! ## Skip-ahead -/

section
variable {w : Work} {cand : Piece} {before after : List Record}

theorem takeWhile_before (hcand : isUnseen (.piece cand) = true)
    (hbefore : ∀ r ∈ before, isUnseen r = false) :
    (before ++ .piece cand :: after).takeWhile (fun r => !isUnseen r) = before := by
  rw [List.takeWhile_append_of_pos (by simpa using hbefore), List.takeWhile_cons_of_neg (by simp [hcand])]
  simp

theorem oldestUnseen_append (hcand : isUnseen (.piece cand) = true)
    (hbefore : ∀ r ∈ before, isUnseen r = false) :
    oldestUnseen (before ++ .piece cand :: after) = some (.piece cand) := by
  unfold oldestUnseen
  rw [List.find?_append, List.find?_eq_none.2 (by simpa using hbefore)]
  simp [hcand]

theorem eraseP_unseen_append (hcand : isUnseen (.piece cand) = true)
    (hbefore : ∀ r ∈ before, isUnseen r = false) :
    (before ++ .piece cand :: after).eraseP isUnseen = before ++ after := by
  rw [List.eraseP_append_right _ (by simpa using hbefore), List.eraseP_cons_of_pos hcand]

/-- The candidate found and taken (R64, R65). -/
theorem skipCandidate_eq {c window tol lmm : Nat} {cfg : Settings} {n : LocalNo}
    (hstage : cand.stage = .announced window) (hlen : cand.announcedLen = some c) (hc : 0 < c)
    (htol : cfg.tol = tol) (hagree : ((lmm - c) + (c - lmm)) * 64 ≤ tol * c)
    (hbefore : ∀ r ∈ before, isUnseen r = false)
    (hmarker : ∀ r ∈ before.dropWhile (fun r => !hasLocal n r), isMarker r = false) :
    skipCandidate cfg n lmm (before ++ .piece cand :: after) = some cand := by
  have hunseen : isUnseen (.piece cand) = true := by simp [isUnseen, hstage]
  have hbetween : markerBetween n (before ++ .piece cand :: after) = false := by
    unfold markerBetween
    rw [takeWhile_before hunseen hbefore]
    simpa using hmarker
  unfold skipCandidate
  rw [oldestUnseen_append hunseen hbefore]
  simp only [hstage, hlen, hbetween]
  refine if_pos ⟨hc, ?_, trivial⟩
  simp [disagrees, lengthGap, htol, hagree]

theorem skipAhead_keeps_noMarker (h : NoMarkerFirst (s.tracks.eraseP isUnseen)) :
    (skipAhead cand w s).2 = countPiece .skipAhead cand.lot cand.code
      (countPiece .ghost w.piece.lot w.piece.code (setTracks (s.tracks.eraseP isUnseen) s)) :=
  lookAtHead_noMarker h

end

/-- Settles O24: the disagreeing arm of stage 2, where `skipCandidate` answers. -/
theorem skipAheadTakesNextIdentity : Obligations.SkipAheadTakesNextIdentity := by
  intro s w cand a c window before after ha hpos hdouble hgap htracks hbefore hstage hlen hc hagree hmarker hhead
  have hunseen : isUnseen (.piece cand) = true := by simp [isUnseen, hstage]
  have herase : s.tracks.eraseP isUnseen = before ++ after := by
    rw [htracks]; exact eraseP_unseen_append hunseen hbefore
  have hjudge : stageJudge w s = skipAhead cand w s := by
    have hcand := skipCandidate_eq (cfg := s.settings) (lmm := w.lmm) (after := after) hstage hlen hc rfl
      hagree hbefore hmarker
    have hnot : isDouble s.settings.tol w.lmm a = false := by simp [isDouble]; omega
    have hdis : disagrees s.settings.tol w.lmm a = true := by simp [disagrees, lengthGap, hgap]
    unfold stageJudge
    simp only [ha, if_neg hpos.ne', hnot, hdis, htracks, hcand]
    rfl
  have hstate := skipAhead_keeps_noMarker (s := s) (w := w) (cand := cand) (by rwa [herase])
  rw [herase] at hstate
  rw [hjudge, hstate]
  refine ⟨rfl, rfl, ?_, rfl, ?_⟩
  · simp [countPiece, offerTally, bumpCounts, setTracks]
  · intro p hp; cases p <;> simp_all [Part.same, countPiece, offerTally, bumpCounts, setTracks]

/-! ## The fold -/

theorem jetDue_eq (s : State) (j : Jet) (pLead : Pos) (a : Nat) :
    jetDue s.settings s.belt.v j pLead a = jetDueOf s pLead j a := by cases j <;> rfl

theorem isLate_iff (s : State) (due pNow : Pos) : isLate s.settings due pNow = true ↔ IsLateAt s due pNow := by
  simp [isLate, IsLateAt]

theorem guardRefuses_iff (s : State) (j : Jet) (due : Pos) :
    guardRefuses j due s = true ↔ JetIsBusy s j due := by
  simp [guardRefuses, JetIsBusy, withinGuard]

/-- Settles O25: the three arms of `stageFold`, in its order. -/
theorem keptFoldIsInTimeAndGuarded : Obligations.KeptFoldIsInTimeAndGuarded := by
  intro s w
  refine ⟨fun plan f hplan hfold hreject => ?_, fun h => ?_⟩
  · intro a due
    have hcount : ∀ ev, ev = .late ∨ ev = .jetBusy →
        KeepsBut [.counters] s (countPiece ev w.piece.lot w.piece.code s) := by
      rintro ev (rfl | rfl) <;>
        (intro p hp; cases p <;> simp_all [Part.same, countPiece, offerTally, bumpCounts])
    have hstage : stageFold w s =
        if isLate s.settings due (w.pNow s.settings) then
          (w.reject .late, countPiece .late w.piece.lot w.piece.code s)
        else if guardRefuses f.jet due s then
          (w.reject .jetBusy, countPiece .jetBusy w.piece.lot w.piece.code s)
        else ({ w with info := { w.info with fold := some ⟨f.jet, a, due⟩ } }, s) := by
      unfold stageFold
      simp only [hplan, Option.bind_some, hfold, hreject, Option.isSome_none, Bool.false_eq_true, if_false,
        jetDue_eq]
      rfl
    have hrej : ∀ r, w.reject r = { w with info := { w.info with rejectReason := some r } } :=
      fun r => if_neg (by simp [hreject])
    rw [hstage]
    refine ⟨fun hlate => ?_, fun hlate hbusy => ?_, fun hlate hbusy => ?_⟩
    · rw [if_pos ((isLate_iff s _ _).2 hlate)]
      exact ⟨hrej _, rfl, hcount _ (Or.inl rfl)⟩
    · rw [if_neg (mt (isLate_iff s _ _).1 hlate), if_pos ((guardRefuses_iff s _ _).2 hbusy)]
      exact ⟨hrej _, rfl, hcount _ (Or.inr rfl)⟩
    · rw [if_neg (mt (isLate_iff s _ _).1 hlate), if_neg (mt (guardRefuses_iff s _ _).1 hbusy)]
  · unfold stageFold
    cases hfold : w.plan.bind PlanFields.fold with
    | none => rfl
    | some f =>
      obtain ⟨plan, hplan, hf⟩ := Option.bind_eq_some_iff.1 hfold
      have hreject := h.resolve_right fun hnone => by simp [hnone plan hplan] at hf
      exact if_pos hreject

end Sys2Proof.Machine
end

section
/-! SUPPORT. The action schedule (R111 to R116, R123, R124): its order under insertion, merge, removal and
every step, and the entries a planning stores. -/

namespace Sys2Proof.Machine

variable {s t : State}

/-! ## The order -/

/-- Entry x stands before entry y at a belt position (R111). -/
def EntryBefore (position : Pos) (x y : SchedEntry) : Prop :=
  posDiff x.due position < posDiff y.due position
    ∨ (posDiff x.due position = posDiff y.due position ∧ x.serial < y.serial)

theorem standsBefore_iff (position : Pos) (x y : SchedEntry) :
    standsBefore position x y = true ↔ EntryBefore position x y := by
  simp [standsBefore, EntryBefore]

theorem EntryBefore.trans {position : Pos} {x y z : SchedEntry} (h1 : EntryBefore position x y)
    (h2 : EntryBefore position y z) : EntryBefore position x z := by
  unfold EntryBefore at *; omega

/-- Entries of different serials stand one before the other. -/
theorem EntryBefore.of_not {position : Pos} {x y : SchedEntry} (h : ¬ EntryBefore position x y)
    (hne : y.serial ≠ x.serial) : EntryBefore position y x := by
  unfold EntryBefore at *; omega

theorem placeEntry_perm (position : Pos) (e : SchedEntry) (xs : List SchedEntry) :
    (placeEntry position e xs).Perm (e :: xs) := by
  induction xs with
  | nil => exact List.Perm.refl _
  | cons x xs ih =>
    unfold placeEntry; split
    · exact List.Perm.refl _
    · exact (ih.cons x).trans (List.Perm.swap e x xs)

theorem placeEntry_inOrder {position : Pos} {e : SchedEntry} {xs : List SchedEntry}
    (hs : InOrder position xs) (hne : ∀ x ∈ xs, x.serial ≠ e.serial) :
    InOrder position (placeEntry position e xs) := by
  induction xs with
  | nil => simp [placeEntry, InOrder]
  | cons x xs ih =>
    obtain ⟨hx, hs⟩ := List.pairwise_cons.1 hs
    unfold placeEntry; split
    next hb =>
      have hb := (standsBefore_iff position e x).1 hb
      refine List.pairwise_cons.2 ⟨fun y hy => ?_, List.pairwise_cons.2 ⟨hx, hs⟩⟩
      rcases List.mem_cons.1 hy with rfl | hy
      · exact hb
      · exact hb.trans (hx y hy)
    next hb =>
      have hb := EntryBefore.of_not (mt (standsBefore_iff position e x).2 hb) (hne x List.mem_cons_self)
      refine List.pairwise_cons.2 ⟨fun y hy => ?_, ih hs fun y hy => hne y (List.mem_cons_of_mem _ hy)⟩
      rcases List.mem_cons.1 ((placeEntry_perm position e xs).mem_iff.1 hy) with rfl | hy
      · exact hb
      · exact hx y hy

/-- Removals and changes in place that leave due and serial keep the order. -/
theorem inOrder_filterMap {position : Pos} {xs : List SchedEntry} {f : SchedEntry → Option SchedEntry}
    (h : InOrder position xs) (hf : ∀ e e', f e = some e' → e'.due = e.due ∧ e'.serial = e.serial) :
    InOrder position (xs.filterMap f) := by
  refine List.Pairwise.filterMap f (fun x y hxy x' hx y' hy => ?_) h
  obtain ⟨hxd, hxs⟩ := hf x x' hx
  obtain ⟨hyd, hys⟩ := hf y y' hy
  rw [hxd, hxs, hyd, hys]
  exact hxy

/-! ## Insertion and merge -/

/-- Order and serials together: what every operation but the advance of the belt keeps. -/
def Ordered (s : State) : Prop := InOrder s.belt.position s.schedule ∧ SerialsOk s

theorem addEntry_perm (a : Action) (due : Pos) (pieces : List LocalNo) (s : State) :
    (addEntry a due pieces s).schedule.Perm (⟨due, a, pieces, s.nextSerial, true⟩ :: s.schedule) :=
  placeEntry_perm _ _ _

theorem addEntry_ordered (a : Action) (due : Pos) (pieces : List LocalNo) (h : Ordered s) :
    Ordered (addEntry a due pieces s) := by
  obtain ⟨hs, hlt, hnodup⟩ := h
  have hperm := addEntry_perm a due pieces s
  refine ⟨placeEntry_inOrder hs fun x hx => (hlt x hx).ne, fun e he => ?_, ?_⟩
  · rcases List.mem_cons.1 (hperm.mem_iff.1 he) with rfl | he
    · exact Nat.lt_succ_self _
    · exact Nat.lt_succ_of_lt (hlt e he)
  · refine (hperm.map SchedEntry.serial).nodup_iff.2 (List.nodup_cons.2 ⟨fun hmem => ?_, hnodup⟩)
    obtain ⟨x, hx, heq⟩ := List.mem_map.1 hmem
    exact (hlt x hx).ne heq

/-- A schedule made smaller in place. -/
theorem Ordered.filterMap {f : SchedEntry → Option SchedEntry} (h : Ordered s)
    (hf : ∀ e e', f e = some e' → e'.due = e.due ∧ e'.serial = e.serial) :
    Ordered { s with schedule := s.schedule.filterMap f } := by
  obtain ⟨hs, hlt, hnodup⟩ := h
  refine ⟨inOrder_filterMap hs hf, fun e he => ?_, ?_⟩
  · obtain ⟨x, hx, hxe⟩ := List.mem_filterMap.1 he
    rw [(hf x e hxe).2]; exact hlt x hx
  · refine List.pairwise_map.2 (List.Pairwise.filterMap f (fun x y hxy x' hx y' hy => ?_)
      (List.pairwise_map.1 hnodup))
    rw [(hf x x' hx).2, (hf y y' hy).2]; exact hxy

theorem Ordered.sublist {xs : List SchedEntry} (h : Ordered s) (hsub : xs.Sublist s.schedule) :
    Ordered { s with schedule := xs } := by
  obtain ⟨hs, hlt, hnodup⟩ := h
  exact ⟨List.Pairwise.sublist hsub hs, fun e he => hlt e (hsub.subset he), hnodup.sublist (hsub.map _)⟩

theorem ordered_of_empty (h : s.schedule = []) : Ordered s := by
  unfold Ordered SerialsOk; rw [h]; simp [InOrder]

/-- A pending open that a merge brings forward, any other entry as it stands (R116). -/
def movedOpen (g : Gate) (openDue : Pos) (e : SchedEntry) : SchedEntry :=
  if e.action = .gateOpen g ∧ 0 < posDiff e.due openDue then { e with due := openDue, fresh := true } else e

theorem movedOpen_serial (g : Gate) (openDue : Pos) (e : SchedEntry) :
    (movedOpen g openDue e).serial = e.serial := by
  unfold movedOpen; split <;> rfl

theorem opensLater_iff (g : Gate) (openDue : Pos) (e : SchedEntry) :
    opensLater g openDue e = true ↔ e.action = .gateOpen g ∧ 0 < posDiff e.due openDue := by
  simp [opensLater]

/-- Entries placed one after another. -/
theorem placeAll_perm (position : Pos) (f : SchedEntry → SchedEntry) : ∀ (xs base : List SchedEntry),
    (xs.foldl (fun acc e => placeEntry position (f e) acc) base).Perm (xs.map f ++ base)
  | [], _ => List.Perm.refl _
  | x :: xs, base => (placeAll_perm position f xs _).trans
      (((placeEntry_perm position (f x) base).append_left _).trans List.perm_middle)

theorem placeAll_inOrder {position : Pos} {f : SchedEntry → SchedEntry} :
    ∀ {xs base : List SchedEntry}, InOrder position base →
      ((xs.map f ++ base).map SchedEntry.serial).Nodup →
      InOrder position (xs.foldl (fun acc e => placeEntry position (f e) acc) base)
  | [], _, hs, _ => hs
  | x :: xs, base, hs, hn => by
    have hperm : (xs.map f ++ placeEntry position (f x) base).Perm ((x :: xs).map f ++ base) :=
      ((placeEntry_perm position (f x) base).append_left _).trans List.perm_middle
    have hne : ∀ y ∈ base, y.serial ≠ (f x).serial := by
      intro y hy heq
      refine (List.nodup_cons.1 hn).1 (heq ▸ List.mem_map_of_mem (List.mem_append_right _ hy))
    exact placeAll_inOrder (xs := xs) (placeEntry_inOrder hs hne) ((hperm.map SchedEntry.serial).nodup_iff.2 hn)

theorem bringForward_perm (position : Pos) (g : Gate) (openDue : Pos) (xs : List SchedEntry) :
    (bringForward position g openDue xs).Perm (xs.map (movedOpen g openDue)) := by
  have hmoved : (xs.filter (opensLater g openDue)).map (fun e => { e with due := openDue, fresh := true }) =
      (xs.filter (opensLater g openDue)).map (movedOpen g openDue) :=
    List.map_congr_left fun e he =>
      (if_pos ((opensLater_iff g openDue e).1 (List.mem_filter.1 he).2)).symm
  have hkept : xs.filter (fun e => !opensLater g openDue e) =
      (xs.filter fun e => !opensLater g openDue e).map (movedOpen g openDue) := by
    conv_lhs => rw [← List.map_id (xs.filter _)]
    refine List.map_congr_left fun e he => (if_neg ?_).symm
    rw [← opensLater_iff]
    simpa using (List.mem_filter.1 he).2
  refine (placeAll_perm position _ _ _).trans ?_
  rw [hmoved, hkept, ← List.map_append]
  exact (List.filter_append_perm _ xs).map _

theorem serials_movedOpen (g : Gate) (openDue : Pos) (xs : List SchedEntry) :
    (xs.map (movedOpen g openDue)).map SchedEntry.serial = xs.map SchedEntry.serial := by
  rw [List.map_map]
  exact List.map_congr_left fun e _ => movedOpen_serial g openDue e

theorem bringForward_ordered (g : Gate) (openDue : Pos) (h : Ordered s) :
    Ordered { s with schedule := bringForward s.belt.position g openDue s.schedule } := by
  obtain ⟨hs, hlt, hnodup⟩ := h
  have hperm := bringForward_perm s.belt.position g openDue s.schedule
  have hserials := hperm.map SchedEntry.serial
  rw [serials_movedOpen] at hserials
  refine ⟨placeAll_inOrder (List.Pairwise.sublist List.filter_sublist hs) ?_, fun e he => ?_,
    hserials.nodup_iff.2 hnodup⟩
  · refine List.Perm.nodup ?_ hnodup
    rw [List.map_append, List.map_map]
    change (s.schedule.map SchedEntry.serial).Perm ((s.schedule.filter _).map SchedEntry.serial ++ _)
    rw [← List.map_append]
    exact ((List.filter_append_perm _ s.schedule).map _).symm
  · have hmem := hserials.mem_iff.1 (List.mem_map_of_mem (f := SchedEntry.serial) he)
    obtain ⟨x, hx, heq⟩ := List.mem_map.1 hmem
    rw [← heq]; exact hlt x hx

theorem insertGate_ordered (g : Gate) (openDue closeDue : Pos) (n : LocalNo) (h : Ordered s) :
    Ordered (insertGate g openDue closeDue n s) := by
  unfold insertGate; split
  · exact addEntry_ordered _ _ _ (addEntry_ordered _ _ _ h)
  · exact bringForward_ordered g openDue (addEntry_ordered _ _ _ (h.sublist List.filter_sublist))

/-- An interval that meets no pending close is inserted as an open and a close (R113). -/
theorem insertGate_apart {g : Gate} {openDue closeDue : Pos} {n : LocalNo}
    (h : ∀ e ∈ s.schedule, e.action = .gateClose g → posDiff e.due openDue < 0) :
    insertGate g openDue closeDue n s =
      addEntry (.gateClose g) closeDue [n] (addEntry (.gateOpen g) openDue [n] s) := by
  have hnone : mergeTarget g openDue s.schedule = none := by
    unfold mergeTarget
    rw [List.getLast?_eq_none_iff, List.filter_eq_nil_iff]
    intro e he hc
    simp only [Bool.and_eq_true, decide_eq_true_eq, reached] at hc
    have := h e he hc.1
    omega
  unfold insertGate
  rw [hnone]

theorem addEntry_pair_perm (a b : Action) (x y : Pos) (ps qs : List LocalNo) (s : State) :
    (addEntry b y qs (addEntry a x ps s)).schedule.Perm
      (⟨x, a, ps, s.nextSerial, true⟩ :: ⟨y, b, qs, s.nextSerial + 1, true⟩ :: s.schedule) :=
  ((addEntry_perm b y qs _).trans ((addEntry_perm a x ps s).cons _)).trans (List.Perm.swap _ _ _)

/-- The close a new interval joins: the last of those that stand at its open or later (R116). -/
theorem mergeTarget_append {g : Gate} {openDue : Pos} {before after : List SchedEntry} {old : SchedEntry}
    (hold : old.action = .gateClose g) (hdue : 0 ≤ posDiff old.due openDue)
    (hafter : ∀ e ∈ after, e.action = .gateClose g → posDiff e.due openDue < 0) :
    mergeTarget g openDue (before ++ old :: after) = some old := by
  have hnil : after.filter (fun e => decide (e.action = .gateClose g) && reached e.due openDue) = [] := by
    rw [List.filter_eq_nil_iff]
    intro e he hc
    simp only [Bool.and_eq_true, decide_eq_true_eq, reached] at hc
    have := hafter e he hc.1
    omega
  unfold mergeTarget
  rw [List.filter_append, List.filter_cons_of_pos (by simp [hold, reached, hdue]), hnil]
  simp

theorem filter_serial_append {before after : List SchedEntry} {old : SchedEntry}
    (h : ∀ e ∈ before ++ after, e.serial ≠ old.serial) :
    (before ++ old :: after).filter (fun e => e.serial != old.serial) = before ++ after := by
  rw [List.filter_append, List.filter_cons_of_neg (by simp), ← List.filter_append]
  exact List.filter_eq_self.2 fun e he => by simpa using h e he

/-- Settles O29: the two arms of `insertGate`. -/
theorem gateIntervalsMerge : Obligations.GateIntervalsMerge := by
  intro s g openDue closeDue n
  refine ⟨fun h => ?_, fun before old after hsched hold hdue hafter hserial => ?_⟩
  · rw [insertGate_apart h]; exact addEntry_pair_perm _ _ _ _ _ _ s
  · let s1 : State := { s with schedule := before ++ after }
    let close : SchedEntry := ⟨closeDue, .gateClose g, old.pieces ++ [n], s.nextSerial, true⟩
    have hinsert : (insertGate g openDue closeDue n s).schedule =
        bringForward s.belt.position g openDue
          (addEntry (.gateClose g) closeDue (old.pieces ++ [n]) s1).schedule := by
      unfold insertGate
      rw [hsched, mergeTarget_append hold hdue hafter]
      dsimp only
      rw [filter_serial_append hserial]
      rfl
    rw [hinsert]
    refine (bringForward_perm _ _ _ _).trans ?_
    refine ((addEntry_perm (.gateClose g) closeDue (old.pieces ++ [n]) s1).map _).trans ?_
    have hclose : movedOpen g openDue close = close := if_neg (by simp [close])
    rw [List.map_cons, hclose]
    exact List.Perm.refl _

/-! ## The entries of a planning -/

/-- The fires a planning stores before the entries of its route (R113). -/
def firesOf (w : Work) (serial : Nat) : List SchedEntry :=
  match w.info.fold with
  | some f => [⟨f.due, .jetFire f.jet, [w.info.localNo], serial, true⟩]
  | none => []

/-- The state once the fire of a kept fold is stored. -/
def afterFire (w : Work) (s : State) : State :=
  match w.info.fold with
  | some f => addEntry (.jetFire f.jet) f.due [w.info.localNo] s
  | none => s

theorem afterFire_spec (w : Work) (h : s.schedule = []) :
    afterFire w s = { s with
      schedule := firesOf w s.nextSerial, nextSerial := s.nextSerial + (firesOf w s.nextSerial).length } := by
  unfold afterFire firesOf; split
  · simp [addEntry, h, placeEntry]
  · cases s; cases h; rfl

theorem stageInsert_eq (w : Work) (s : State) : stageInsert w s =
    match w.info.route with
    | some (.bay b) => planGate (.bay b) (w.openDue s.settings s.belt.v (.bay b)) w (afterFire w s)
    | some .reject => planGate .reject (rejectOpenDue w s) w (afterFire w s)
    | some .exit =>
      addEntry .exitCheck
        (exitCheckDue s.settings (exitPosOf s.settings w.info.pLead w.offset) (w.pNow s.settings))
        [w.info.localNo] (afterFire w s)
    | none => afterFire w s := rfl

/-- A gate's two entries behind the fires (R103 to R106). -/
theorem planGate_perm (w : Work) (g : Gate) (openDue : Pos) (h : s.schedule = []) :
    (planGate g openDue w (afterFire w s)).schedule.Perm (firesOf w s.nextSerial ++
      [⟨openDue, .gateOpen g, [w.info.localNo], s.nextSerial + (firesOf w s.nextSerial).length, true⟩,
        ⟨closeDueOf s w (gateDist s.settings g) openDue, .gateClose g, [w.info.localNo],
          s.nextSerial + (firesOf w s.nextSerial).length + 1, true⟩]) := by
  have hapart : ∀ e ∈ (afterFire w s).schedule, e.action = .gateClose g → posDiff e.due openDue < 0 := by
    rw [afterFire_spec w h]
    intro e he hc
    unfold firesOf at he; split at he
    · rw [List.mem_singleton.1 he] at hc; cases hc
    · cases he
  have hdue : gateCloseDue (afterFire w s).settings g w.info.pLead w.offset w.lx openDue
      (afterFire w s).belt.position = closeDueOf s w (gateDist s.settings g) openDue := by
    rw [afterFire_spec w h]; rfl
  unfold planGate
  rw [hdue, insertGate_apart hapart]
  refine (addEntry_pair_perm _ _ _ _ _ _ _).trans ?_
  rw [afterFire_spec w h]
  exact (List.perm_append_comm (l₁ := [_, _]) (l₂ := firesOf w s.nextSerial))

/-- Settles O27: `stageInsert` by the route. -/
theorem plannedEntriesAreDue : Obligations.PlannedEntriesAreDue := by
  intro s w hempty c n pNow fires next
  have hfires : fires = firesOf w s.nextSerial := by
    simp only [fires, firesOf]; cases w.info.fold <;> rfl
  have hnext : next = s.nextSerial + (firesOf w s.nextSerial).length := by simp only [next, hfires]
  rw [hfires, hnext]
  refine ⟨fun b hroute => ?_, fun hroute => ?_, fun hroute => ?_,
    stageInsert_keeps w s⟩
  · rw [stageInsert_eq, hroute]
    exact planGate_perm w (.bay b) _ hempty
  · intro onTime openDue
    have hopen : rejectOpenDue w s = openDue := by
      unfold rejectOpenDue
      simp only [isLate, decide_eq_true_eq]
      rfl
    rw [stageInsert_eq, hroute]
    dsimp only
    rw [hopen]
    exact planGate_perm w .reject _ hempty
  · rw [stageInsert_eq, hroute]
    refine (addEntry_perm _ _ _ _).trans ?_
    rw [afterFire_spec w hempty]
    exact (List.perm_append_comm (l₁ := [_]) (l₂ := firesOf w s.nextSerial))

end Sys2Proof.Machine
end

section
/-! SUPPORT. Every step keeps the schedule in order (R2, R111): each operation keeps `Ordered`, and a pulse
carries it to the next belt position. -/

namespace Sys2Proof.Machine

variable {s t : State}

theorem KeepsBut.ordered {ps : List Part} (h : KeepsBut ps s t) (hp : Part.position ∉ ps)
    (hs : Part.schedule ∉ ps) (hn : Part.nextSerial ∉ ps) (ho : Ordered s) : Ordered t := by
  have h1 : t.belt.position = s.belt.position := h .position hp
  have h2 : t.schedule = s.schedule := h .schedule hs
  have h3 : t.nextSerial = s.nextSerial := h .nextSerial hn
  unfold Ordered SerialsOk
  rw [h1, h2, h3]; exact ho

/-- What leaves the schedule, the belt position and the serials as they stand keeps the order. -/
theorem Ordered.frame {ps : List Part} (h : KeepsBut ps s t) (ho : Ordered s)
    (hp : ∀ p ∈ [Part.position, .schedule, .nextSerial], p ∉ ps := by decide) : Ordered t :=
  h.ordered (hp _ (by decide)) (hp _ (by decide)) (hp _ (by decide)) ho

/-! ## Fates and firing -/

theorem entryWithout_keeps {n : LocalNo} {e e' : SchedEntry} (h : entryWithout n e = some e') :
    e'.due = e.due ∧ e'.serial = e.serial := by
  unfold entryWithout at h; split at h
  · split at h
    · dsimp only at h; split at h
      · cases h
      · cases h; exact ⟨rfl, rfl⟩
    · cases h
    · cases h
    · cases h
  · cases h; exact ⟨rfl, rfl⟩

theorem dropPiece_ordered (n : LocalNo) (h : Ordered s) :
    Ordered { s with schedule := dropPiece n s.schedule } := h.filterMap fun _ _ => entryWithout_keeps

/-- A fate takes its piece out of the schedule, or is none (R82, R123). -/
theorem endPiece_schedule (f : Fate) (n : LocalNo) (s : State) :
    (endPiece f n s).schedule = s.schedule ∨ (endPiece f n s).schedule = dropPiece n s.schedule := by
  unfold endPiece; split
  · exact Or.inl rfl
  · exact Or.inr ((lookAtHead_keeps _ .schedule (by decide)).trans (takeOut_keeps _ n .schedule (by decide)))

/-- What the taking out of a piece keeps of a schedule, a fate keeps. -/
theorem endPiece_schedule_law {P : List SchedEntry → Prop} (hdrop : ∀ n xs, P xs → P (dropPiece n xs))
    (f : Fate) (n : LocalNo) (h : P s.schedule) : P (endPiece f n s).schedule := by
  rcases endPiece_schedule f n s with hs | hs <;> rw [hs]
  · exact h
  · exact hdrop n _ h

/-- What each element keeps, a run over a list keeps. -/
theorem foldl_keeps_law {α β : Type} {P : β → Prop} {f : β → α → β} (hf : ∀ x a, P x → P (f x a)) :
    ∀ (l : List α) {x : β}, P x → P (l.foldl f x)
  | [], _, h => h
  | a :: l, _, h => foldl_keeps_law hf l (hf _ a h)

/-- What the taking out of a piece keeps of a schedule, the firing of an entry keeps (R118 to R123). -/
theorem fireEntry_schedule_law {P : List SchedEntry → Prop} (hdrop : ∀ n xs, P xs → P (dropPiece n xs))
    (e : SchedEntry) (h : P s.schedule) : P (fireEntry e s).schedule := by
  have hgate : ∀ g o, P (setGate g o s).schedule := fun g o => by
    rw [show (setGate g o s).schedule = s.schedule from setGate_keeps s g o .schedule (by decide)]
    exact h
  unfold fireEntry; split
  · rw [show (fireJet _ s).schedule = s.schedule from fireJet_keeps s _ .schedule (by decide)]
    exact h
  · exact hgate _ _
  next g _ =>
    refine foldl_keeps_law (P := fun u : State => P u.schedule) (fun u n hu => ?_) _ (hgate g false)
    cases g with
    | bay b =>
      change P (stackPiece b n u).schedule
      unfold stackPiece; split
      · exact hu
      · refine endPiece_schedule_law hdrop _ n ?_
        rw [show (landPiece b u).schedule = u.schedule from landPiece_keeps u b .schedule (by decide)]
        exact hu
    | reject => exact endPiece_schedule_law hdrop _ n hu
  · refine foldl_keeps_law (P := fun u : State => P u.schedule) (fun u n hu => ?_) _ h
    unfold checkExit; split
    · split
      · exact hu
      · exact endPiece_schedule_law hdrop _ n hu
    · exact hu

/-- The order rests on the schedule, the belt position and the serials alone. -/
theorem ordered_of_schedule {ps : List Part} (hk : KeepsBut ps s t)
    (h : Ordered { s with schedule := t.schedule }) (hp : Part.position ∉ ps := by decide)
    (hn : Part.nextSerial ∉ ps := by decide) : Ordered t := by
  have h1 : t.belt.position = s.belt.position := hk .position hp
  have h2 : t.nextSerial = s.nextSerial := hk .nextSerial hn
  unfold Ordered SerialsOk
  rw [h1, h2]; exact h

theorem fireEntry_ordered (e : SchedEntry) (h : Ordered s) : Ordered (fireEntry e s) :=
  ordered_of_schedule (fireEntry_keeps s e)
    (fireEntry_schedule_law (P := fun xs => Ordered { s with schedule := xs })
      (fun n _ hx => dropPiece_ordered n hx) e h)

theorem endPiece_ordered (f : Fate) (n : LocalNo) (h : Ordered s) : Ordered (endPiece f n s) :=
  ordered_of_schedule (endPiece_keeps s f n)
    (endPiece_schedule_law (P := fun xs => Ordered { s with schedule := xs })
      (fun n _ hx => dropPiece_ordered n hx) f n h)

theorem passPiece_ordered (n : LocalNo) (h : Ordered s) : Ordered (passPiece n s) := by
  unfold passPiece; split
  · exact h
  · exact endPiece_ordered _ n (.frame (queueHandover_keeps s _) h)

theorem fireReached_ordered (n : Nat) : ∀ {s : State}, Ordered s → Ordered (fireReached n s) := by
  induction n with
  | zero => exact fun h => h
  | succ n ih =>
    intro s h; unfold fireReached; split
    · exact h
    · split
      · exact ih (fireEntry_ordered _ (h.sublist List.eraseP_sublist))
      · exact h

/-! ## Planning and the eyes -/

theorem planGate_ordered (g : Gate) (openDue : Pos) (w : Work) (h : Ordered s) :
    Ordered (planGate g openDue w s) := insertGate_ordered _ _ _ _ h

theorem stageInsert_ordered (w : Work) (h : Ordered s) : Ordered (stageInsert w s) := by
  have hfire : Ordered (afterFire w s) := by
    unfold afterFire; split
    · exact addEntry_ordered _ _ _ h
    · exact h
  rw [stageInsert_eq]; split
  · exact planGate_ordered _ _ w hfire
  · exact planGate_ordered _ _ w hfire
  · exact addEntry_ordered _ _ _ hfire
  · exact hfire

theorem planStages_ordered (w : Work) (h : Ordered s) : Ordered (planStages w s) := by
  unfold planStages; dsimp only
  refine .frame (setTracks_keeps _ _) (stageInsert_ordered _ ?_)
  exact .frame (stageRoute_keeps _ _) (.frame (stageFold_keeps _ _) (.frame (stageResolve_keeps _ _)
    (.frame (stageJudge_keeps s _) h)))

theorem planPiece_ordered (p : Pos) (h : Ordered s) : Ordered (planPiece p s) := by
  unfold planPiece; split
  · exact h
  · exact planStages_ordered _ h

theorem putEye_ordered (e : Eye) (ch : EyeChannel) (h : Ordered s) : Ordered (putEye e ch s) :=
  .frame (putEye_keeps s e ch) h (by cases e <;> decide)

theorem testJam_ordered (e : Eye) (h : Ordered s) : Ordered (testJam e s) :=
  .frame (testJam_keeps s e) h (by cases e <;> decide)

theorem judgeExit_ordered (q : Pos) (h : Ordered s) : Ordered (judgeExit q s) := by
  unfold judgeExit; split
  · exact .frame (strayEdge_keeps s) h
  · split
    · exact h.sublist List.filter_sublist
    · exact .frame (strayEdge_keeps s) h

theorem recogniseEdge_ordered (e : Eye) (p : PendingEdge) (h : Ordered s) : Ordered (recogniseEdge e p s) := by
  unfold recogniseEdge; dsimp only; split
  · unfold leadingEdge; dsimp only; split
    · exact testJam_ordered e (putEye_ordered e _ (putEye_ordered e _ h))
    · have hput := fun ch => putEye_ordered e ch (putEye_ordered e { eyeOf e s with
        level := p.level, pendingEdge := none } h)
      cases e with
      | entry => exact .frame (arrive_keeps _ _) (hput _)
      | exit => exact judgeExit_ordered _ (hput _)
  · exact putEye_ordered e _ h

theorem reportConfirmed_ordered (e : Eye) (p : Pos) (h : Ordered s) : Ordered (reportConfirmed e p s) := by
  cases e with
  | entry =>
    change Ordered (confirmEntry p s)
    unfold confirmEntry; split
    · exact .frame (clearUntracked_keeps s) h
    · exact planPiece_ordered p h
  | exit =>
    change Ordered (setOwner none (passOwned s))
    refine .frame (setOwner_keeps _ none) ?_
    unfold passOwned; split
    · exact passPiece_ordered _ h
    · exact h
    · exact h

theorem testEyeKeys_ordered (e : Eye) (h : Ordered s) : Ordered (testEyeKeys e s) := by
  refine testJam_ordered e ?_
  unfold testConfirm; dsimp only; split
  · exact h
  · split
    · exact reportConfirmed_ordered e _ (putEye_ordered e _ h)
    · exact h

/-! ## The advance of the belt -/

/-- One pulse brings every due nearer by one, but for a due at the far end of the signed range (R2). -/
theorem posDiff_advance {due position : Pos} (h : -2147483648 < posDiff due position) :
    posDiff due (position + 1#32) = posDiff due position - 1 := by
  unfold posDiff at *
  have hx : due - (position + 1#32) = (due - position) - 1#32 := by
    rw [← BitVec.sub_sub]
  rw [hx]
  generalize due - position = d at *
  have hd := BitVec.toInt_lt (x := d)
  rw [BitVec.toInt_sub]
  have h1 : (1#32).toInt = 1 := by decide
  rw [h1]
  refine Int.bmod_eq_of_le ?_ ?_ <;> norm_num at * <;> omega

theorem advancePulse_position (s : State) : (advancePulse s).belt.position = s.belt.position + 1#32 := by
  simp only [advancePulse, countPulse]; split <;> rfl

theorem ageEntries_inOrder {xs : List SchedEntry} {position : Pos} (hs : InOrder position xs)
    (hfar : ∀ e ∈ xs, -2147483648 < posDiff e.due position) :
    InOrder (position + 1#32) (ageEntries xs) := by
  refine List.pairwise_map.2 (List.Pairwise.imp_of_mem (R := EntryBefore position) (fun {x y} hx hy hxy => ?_) hs)
  unfold EntryBefore at hxy
  rw [posDiff_advance (hfar x hx), posDiff_advance (hfar y hy)]
  dsimp only
  omega

theorem ageEntries_serials (xs : List SchedEntry) :
    (ageEntries xs).map SchedEntry.serial = xs.map SchedEntry.serial := by
  unfold ageEntries; rw [List.map_map]; rfl

theorem advancePulse_ordered (h : Ordered s)
    (hfar : ∀ e ∈ s.schedule, -2147483648 < posDiff e.due s.belt.position) : Ordered (advancePulse s) := by
  obtain ⟨hs, hlt, hnodup⟩ := h
  have hsched : (advancePulse s).schedule = ageEntries s.schedule := rfl
  have hnext : (advancePulse s).nextSerial = s.nextSerial := rfl
  unfold Ordered SerialsOk
  rw [advancePulse_position, hsched, hnext, ageEntries_serials]
  refine ⟨ageEntries_inOrder hs hfar, fun e he => ?_, hnodup⟩
  obtain ⟨x, hx, rfl⟩ := List.mem_map.1 he
  exact hlt x hx

theorem fireSchedule_ordered (h : Ordered s) : Ordered (fireSchedule s) := fireReached_ordered _ h

theorem pulseInOrder_ordered (o : PulseOrder) (h : Ordered (advancePulse s)) :
    Ordered (pulseInOrder o s) :=
  reachKeys_keeps_law (P := Ordered) (fun e _ => testEyeKeys_ordered e) (fun _ => fireSchedule_ordered) o h

theorem execEncoderPulse_ordered (ho : Ordered s)
    (hfar : ∀ e ∈ s.schedule, -2147483648 < posDiff e.due s.belt.position) :
    LawIn Ordered (execEncoderPulse s) :=
  .guarded ho fun _ => pulseInOrder_ordered _ (advancePulse_ordered ho hfar)

/-! ## Every step -/

/-- A command that leaves the schedule, the belt position and the serials alone. -/
theorem exec_ordered_frame {i : Instr} (hi : isRestart i = false) (h : exec i s = .next t) (ho : Ordered s)
    (hp : ∀ p ∈ [Part.position, .schedule, .nextSerial], p ∉ commandParts i) : Ordered t :=
  .frame (exec_keeps s hi h) ho hp

theorem execLoadComplete_ordered {img : List Byte} (h : execLoadComplete img s = .next t) (ho : Ordered s) :
    Ordered t := by
  rcases execLoadComplete_cases h with ⟨_, _, _, -, -, ht⟩ | ⟨c, table, map, counters, -, -, ht⟩ | ⟨-, ht⟩
  · rw [ht]; exact ordered_of_empty (s := enterFault _ _ _ s) rfl
  · rw [ht]; exact .frame (enterActive_keeps c table map counters s)
      (ordered_of_empty (s := startBlocks c table map counters s) rfl)
  · rw [ht]; exact ho

theorem purge_ordered (s : State) : Ordered (purge s) := by
  have hempty : Ordered (purgeSchedule (purgePieces s)) := ordered_of_empty rfl
  have hbays : Ordered (purgeBays (purgeSchedule (purgePieces s))) := .frame (purgeBays_keeps _) hempty
  have heyes : Ordered (purgeEyeChannels (purgeBays (purgeSchedule (purgePieces s)))) :=
    .frame (purgeEyeChannels_keeps _) hbays
  exact .frame (evalPace_keeps _) (.frame (lookAtHead_keeps _) heyes)

theorem execPurgeHoldExpiry_ordered (ho : Ordered s) : LawIn Ordered (execPurgeHoldExpiry s) := by
  unfold execPurgeHoldExpiry; split
  · exact .next ho
  · split
    · exact .next (purge_ordered _)
    · exact .next (.frame (endHold_keeps s) ho)

theorem exec_ordered {i : Instr} (ho : Ordered s)
    (hfar : ∀ e ∈ s.schedule, -2147483648 < posDiff e.due s.belt.position) (h : exec i s = .next t) :
    Ordered t := by
  cases i with
  | reset =>
    have ht : afterReset s = t := Host.Outcome.next.inj h
    rw [← ht]; exact ordered_of_empty (s := afterReset s) rfl
  | loadComplete img => exact execLoadComplete_ordered (s := s) (t := t) (img := img) h ho
  | encoderPulse =>
    exact execEncoderPulse_ordered ho hfar t h
  | edgeRecognition e =>
    have hedge : LawIn Ordered (execEdgeRecognition e s) := by
      unfold execEdgeRecognition; split
      · exact .next ho
      · exact .guarded ho fun _ => recogniseEdge_ordered e _ ho
    exact hedge t h
  | purgeHoldExpiry => exact execPurgeHoldExpiry_ordered ho t h
  | eyeRawChange e l => exact exec_ordered_frame rfl h ho (by cases e <;> simp [commandParts, eyePart])
  | windowEnd => exact exec_ordered_frame rfl h ho (by decide)
  | _ => exact exec_ordered_frame rfl h ho (by simp [commandParts, stopParts, sendParts, bayParts,
      markerParts, receiveParts, acceptParts])

theorem step_ordered (ho : Ordered s)
    (hfar : ∀ e ∈ s.schedule, -2147483648 < posDiff e.due s.belt.position) (h : step s = .next t) :
    Ordered t := by
  unfold step at h; split at h
  · rw [← Host.Outcome.next.inj h]; exact ho
  next c rest hpending =>
    have hpend : Ordered { s with pending := rest } := ho
    exact exec_ordered hpend hfar h

theorem insertGate_position (g : Gate) (openDue closeDue : Pos) (n : LocalNo) (s : State) :
    (insertGate g openDue closeDue n s).belt.position = s.belt.position := by
  unfold insertGate; split <;> rfl

/-- Settles O28: the insertions, and `exec_ordered` for a step. -/
theorem insertionKeepsScheduleOrder : Obligations.InsertionKeepsScheduleOrder := by
  intro s hs hserials
  have ho : Ordered s := ⟨hs, hserials⟩
  refine ⟨fun a due pieces => ?_, fun g openDue closeDue n => ?_, fun t hfar hstep => ?_⟩
  · exact addEntry_ordered a due pieces ho
  · obtain ⟨hin, hok⟩ := insertGate_ordered g openDue closeDue n ho
    rw [insertGate_position] at hin
    exact ⟨hin, hok⟩
  · exact step_ordered ho hfar hstep

end Sys2Proof.Machine
end

section
/-! SUPPORT. Encoder pulses (R1 to R5, R22 to R24, R86 to R88, R117 to R122): what a pulse does of its own,
what a quiet eye leaves, what fires, and the fates of the pieces a fired entry lists. -/

namespace Sys2Proof.Machine

variable {s t u : State}

/-! ## The count of a pulse -/

theorem exec_encoderPulse (hs : s.station = .active) :
    exec .encoderPulse s = .next (reachKeys (Config.pulseOrder s.openCount) (advancePulse s)) :=
  if_pos ((isActive_iff s).2 hs)

theorem advancePulse_window (s : State) :
    (s.belt.windowCount < 4095 → (advancePulse s).belt.windowCount = s.belt.windowCount + 1
        ∧ (advancePulse s).belt.windowSaturated = s.belt.windowSaturated)
      ∧ (4095 ≤ s.belt.windowCount → (advancePulse s).belt.windowCount = s.belt.windowCount
        ∧ (advancePulse s).belt.windowSaturated = true) := by
  have hmax : Config.maxCount = 4095 := rfl
  simp only [advancePulse, countPulse, hmax]
  refine ⟨fun h => ?_, fun h => ?_⟩
  · rw [if_neg (Nat.not_le.2 h)]; exact ⟨rfl, rfl⟩
  · rw [if_pos h]; exact ⟨rfl, rfl⟩

/-- Settles O6: no unit that holds keys touches the position or the window. -/
theorem pulseAdvancesBelt : Obligations.PulseAdvancesBelt := by
  intro s hs
  let o := Config.pulseOrder s.openCount
  have hkeep := reachKeys_keeps (advancePulse s) o
  obtain ⟨hcount, hsat⟩ := hkeep .window (by decide)
  obtain ⟨hbelow, habove⟩ := advancePulse_window s
  refine ⟨_, exec_encoderPulse hs, (hkeep .position (by decide)).trans (advancePulse_position s),
    fun h => ?_, fun h => ?_, (pulseInOrder_keeps s o).mono (by decide)⟩
  · exact ⟨hcount.trans (hbelow h).1, hsat.trans (hbelow h).2⟩
  · exact ⟨hcount.trans (habove h).1, hsat.trans (habove h).2⟩

/-! ## Eyes that wait -/

/-- At the present belt position no key of the eye is reached that would act. -/
def EyeIdle (e : Eye) (s : State) : Prop :=
  (∀ pt, (eyeOf e s).mergePending = some pt → posDiff s.belt.position (confirmKey s.settings pt) < 0)
    ∧ ((eyeOf e s).jamRequested = true ∨ (eyeOf e s).level = .clear
      ∨ ∀ since, (eyeOf e s).coveredSince = some since →
        posDiff s.belt.position (jamKey s.settings since) < 0)

theorem testConfirm_waits {e : Eye}
    (h : ∀ pt, (eyeOf e s).mergePending = some pt → posDiff s.belt.position (confirmKey s.settings pt) < 0) :
    testConfirm e s = s := by
  unfold testConfirm; dsimp only; split
  · rfl
  next pt hpt =>
    refine if_neg ?_
    have := h pt hpt
    simp only [reached, decide_eq_true_eq]; omega

theorem testEyeKeys_idle {e : Eye} (h : EyeIdle e s) : testEyeKeys e s = s := by
  unfold testEyeKeys
  rw [testConfirm_waits h.1, testJam_waits h.2]

theorem eyeOf_advance (e : Eye) (s : State) : eyeOf e (advancePulse s) = eyeOf e s := by cases e <;> rfl

theorem EyeIdle.of_waits {e : Eye} (h : EyeWaits e s) : EyeIdle e (advancePulse s) := by
  obtain ⟨hconfirm, hjam⟩ := h
  unfold EyeIdle
  rw [eyeOf_advance, advancePulse_position]
  refine ⟨hconfirm, ?_⟩
  cases hlevel : (eyeOf e s).level with
  | clear => exact Or.inr (Or.inl rfl)
  | covered =>
    cases hreq : (eyeOf e s).jamRequested with
    | true => exact Or.inl rfl
    | false => exact Or.inr (Or.inr fun since hsince => hjam since hsince hlevel hreq)

/-- The keys of an eye are read off its channel, the belt position and the settings. -/
theorem EyeIdle.congr {e : Eye} (h : EyeIdle e s) (h1 : eyeOf e t = eyeOf e s)
    (h2 : t.belt.position = s.belt.position) (h3 : t.settings = s.settings) : EyeIdle e t := by
  unfold EyeIdle
  rw [h1, h2, h3]; exact h

theorem KeepsBut.eyeOf {ps : List Part} (h : KeepsBut ps s t) (e : Eye) (he : eyePart e ∉ ps) :
    eyeOf e t = eyeOf e s := by
  cases e with
  | entry => exact h .entryEye he
  | exit => exact h .exitEye he

theorem EyeIdle.frame {ps : List Part} {e : Eye} (hk : KeepsBut ps s t) (h : EyeIdle e s)
    (he : eyePart e ∉ ps) (hp : Part.position ∉ ps) (hs : Part.settings ∉ ps) : EyeIdle e t :=
  h.congr (hk.eyeOf e he) (hk .position hp) (hk .settings hs)

theorem fireSchedule_idle (h : ∀ e, EyeIdle e s) (e : Eye) : EyeIdle e (fireSchedule s) :=
  (h e).frame (fireSchedule_keeps s) (by cases e <;> decide) (by decide) (by decide)

/-- With both eyes idle a pulse is what its schedule fires, in whatever order the units are taken. -/
theorem reachKeys_idle (o : PulseOrder) (h : ∀ e, EyeIdle e s) : reachKeys o s = fireSchedule s := by
  have hk : ∀ e, testEyeKeys e s = s := fun e => testEyeKeys_idle (h e)
  have hf : ∀ e, testEyeKeys e (fireSchedule s) = fireSchedule s :=
    fun e => testEyeKeys_idle (fireSchedule_idle h e)
  cases o <;> simp only [reachKeys, hk, hf]

theorem exec_pulse_quiet (hs : s.station = .active) (hq : EyesQuiet s) :
    exec .encoderPulse s = .next (fireSchedule (advancePulse s)) := by
  rw [exec_encoderPulse hs, reachKeys_idle _ fun e => .of_waits (hq e)]

/-! ## What fires -/

/-- Nothing that may fire at this pulse is reached: nothing fires (R2, R117; log 8). -/
theorem fireSchedule_waits
    (h : ∀ e ∈ s.schedule, e.fresh = false → posDiff s.belt.position e.due < 0) : fireSchedule s = s := by
  unfold fireSchedule
  cases s.schedule.length with
  | zero => rfl
  | succ n =>
    unfold fireReached; split
    · rfl
    next e he =>
      refine if_neg ?_
      have hfresh : e.fresh = false := by simpa using List.find?_some he
      have := h e (List.mem_of_find?_eq_some he) hfresh
      simp only [reached, decide_eq_true_eq]; omega

theorem fireSchedule_ahead (h : ∀ e ∈ s.schedule, posDiff s.belt.position e.due < 0) : fireSchedule s = s :=
  fireSchedule_waits fun e he _ => h e he

/-- Where no entry is fresh, the head of what may fire is the first entry (log 8). -/
theorem headEntry_cons {e : SchedEntry} {rest : List SchedEntry} (hs : s.schedule = e :: rest)
    (he : e.fresh = false) : headEntry s = some e ∧ withoutHead s.schedule = rest := by
  simp [headEntry, withoutHead, hs, he]

/-- Entries that may fire at this pulse, at most `n` of them. -/
def Ripe (n : Nat) (xs : List SchedEntry) : Prop := xs.length ≤ n ∧ ∀ e ∈ xs, e.fresh = false

theorem entryWithout_fresh {n : LocalNo} {e e' : SchedEntry} (h : entryWithout n e = some e') :
    e'.fresh = e.fresh := by
  unfold entryWithout at h; split at h
  · split at h
    · dsimp only at h; split at h
      · cases h
      · cases h; rfl
    · cases h
    · cases h
    · cases h
  · cases h; rfl

theorem dropPiece_ripe {k : Nat} (n : LocalNo) (xs : List SchedEntry) (h : Ripe k xs) :
    Ripe k (dropPiece n xs) := by
  refine ⟨(List.length_filterMap_le _ _).trans h.1, fun e he => ?_⟩
  obtain ⟨x, hx, hxe⟩ := List.mem_filterMap.1 he
  rw [entryWithout_fresh hxe]; exact h.2 x hx

theorem fireReached_firesTo (n : Nat) : ∀ {s : State}, Ripe n s.schedule → FiresTo s (fireReached n s) := by
  induction n with
  | zero =>
    intro s h
    have hnil : s.schedule = [] := List.length_eq_zero_iff.1 (Nat.le_zero.1 h.1)
    exact .done s fun e rest hs => by rw [hnil] at hs; cases hs
  | succ n ih =>
    intro s h
    cases hs : s.schedule with
    | nil =>
      have hstop : fireReached (n + 1) s = s := by simp [fireReached, headEntry, hs]
      rw [hstop]
      exact .done s fun e rest h' => by rw [hs] at h'; cases h'
    | cons e rest =>
      have hripe : Ripe (n + 1) (e :: rest) := hs ▸ h
      obtain ⟨hhead, hwithout⟩ := headEntry_cons hs (hripe.2 e List.mem_cons_self)
      unfold fireReached
      rw [hhead]
      dsimp only
      rw [hwithout]
      split
      next hdue =>
        have hdue : 0 ≤ posDiff s.belt.position e.due := by simpa [reached] using hdue
        refine .fire e rest hs hdue (ih ?_)
        exact fireEntry_schedule_law (s := { s with schedule := rest }) dropPiece_ripe e
          ⟨Nat.le_of_succ_le_succ hripe.1, fun x hx => hripe.2 x (List.mem_cons_of_mem _ hx)⟩
      next hdue =>
        refine .done s fun e' rest' h' => ?_
        rw [hs] at h'
        obtain ⟨rfl, rfl⟩ := List.cons.inj h'
        simpa [reached] using hdue

theorem mem_advance_schedule {e : SchedEntry} (h : e ∈ (advancePulse s).schedule) :
    ∃ x ∈ s.schedule, { x with fresh := false } = e := List.mem_map.1 h

/-- Settles O7: with both eyes quiet the schedule alone acts, and none of its entries is fresh. -/
theorem pulseFiresNothingBeforeDue : Obligations.PulseFiresNothingBeforeDue := by
  intro s hs hq
  have hexec := exec_pulse_quiet hs hq
  refine ⟨fun h => ?_, _, hexec, fireReached_firesTo _ ⟨le_rfl, fun e he => ?_⟩⟩
  · rw [fireSchedule_ahead] at hexec
    · exact ⟨_, hexec, rfl, advancePulse_position s, advancePulse_keeps s⟩
    · intro e he
      obtain ⟨x, hx, rfl⟩ := mem_advance_schedule he
      rw [advancePulse_position]; exact h x hx
  · obtain ⟨x, -, rfl⟩ := mem_advance_schedule he
    rfl

/-- The state in which a lone reached entry has its effect. -/
def atFiring (s : State) : State := { advancePulse s with schedule := [] }

/-- A pulse that reaches the lone entry of the schedule, and no eye's key. -/
theorem exec_pulse_single {e : SchedEntry} (hs : s.station = .active) (hq : EyesQuiet s)
    (hsched : s.schedule = [e]) (hdue : 0 ≤ posDiff (s.belt.position + 1) e.due) :
    exec .encoderPulse s = .next (fireEntry { e with fresh := false } (atFiring s)) := by
  have hage : (advancePulse s).schedule = [{ e with fresh := false }] := by
    change ageEntries s.schedule = _
    rw [hsched]; rfl
  obtain ⟨hhead, hwithout⟩ := headEntry_cons hage rfl
  have hreach : reached (advancePulse s).belt.position e.due = true := by
    rw [advancePulse_position]; exact decide_eq_true hdue
  rw [exec_pulse_quiet hs hq]
  unfold fireSchedule
  rw [hage]
  change Host.Outcome.next (fireReached 1 (advancePulse s)) = _
  unfold fireReached
  rw [hhead]
  dsimp only
  rw [hwithout, if_pos hreach]
  rfl

theorem atFiring_keeps (s : State) : KeepsBut pulseParts s (atFiring s) :=
  (advancePulse_keeps s).trans ((setSchedule_keeps _ []).mono (by decide))

/-- Settles O8: a fire and an open touch their own output alone. -/
theorem pulseFiresJetOrGateOpen : Obligations.PulseFiresJetOrGateOpen := by
  intro s e hs hq hsched hdue
  have hexec := exec_pulse_single hs hq hsched hdue
  have hset : (atFiring s).settings = s.settings := rfl
  have houtputs : (atFiring s).outputs = s.outputs := rfl
  refine ⟨fun j hj => ?_, fun g hg => ?_⟩
  · have hfire : fireEntry { e with fresh := false } (atFiring s) = fireJet j (atFiring s) := by
      simp [fireEntry, hj]
    rw [hfire] at hexec
    refine ⟨_, hexec, ?_, ?_, ?_⟩
    · cases j <;> rfl
    · cases j <;> rfl
    · refine ((atFiring_keeps s).mono (by simp +contextual)).trans ?_
      intro p hp; cases j <;> cases p <;> simp_all [Part.same, fireJet]
  · have hfire : fireEntry { e with fresh := false } (atFiring s) = setGate g true (atFiring s) := by
      simp [fireEntry, hg]
    rw [hfire] at hexec
    refine ⟨_, hexec, ?_, ?_, ?_⟩
    · cases g <;> rfl
    · cases g <;> rfl
    · refine ((atFiring_keeps s).mono (by simp +contextual)).trans ?_
      intro p hp; cases g <;> cases p <;> simp_all [Part.same, setGate]

end Sys2Proof.Machine
end

section
/-! SUPPORT. Fates, markers and handovers with places left in the queue (R66, R67, R82 to R88, R130, R135):
exactly what they leave. -/

namespace Sys2Proof.Machine

variable {s t u : State}

/-- The tally unit as a whole. -/
theorem KeepsBut.tally {ps : List Part} (h : KeepsBut ps s t)
    (hp : ∀ p ∈ [Part.fates, .events, .drops, .counters], p ∉ ps := by decide) : t.tally = s.tally := by
  have hcounts := h.counts (hp .fates (by decide)) (hp .events (by decide))
  have hdrop : t.tally.counts.linkDrop = s.tally.counts.linkDrop := h .drops (hp .drops (by decide))
  have hcounters : t.tally.counters = s.tally.counters := h .counters (hp .counters (by decide))
  rw [hdrop] at hcounts
  cases hx : t.tally; cases hy : s.tally
  simp_all

/-! ## Bays that close or land -/

/-- Bays have changed and the pace was evaluated: no frame but a PACE came or went. -/
structure BayChange (n : Nat) (s t : State) : Prop where
  keeps : KeepsBut [.bays, .lamp, .pace, .queue] s t
  room : Room n t
  mem_iff : ∀ f : QFrame, frameGroup f.body ≠ .pace → (f ∈ t.link.queue ↔ f ∈ s.link.queue)

theorem BayChange.refl {n : Nat} (h : Room n s) : BayChange n s s :=
  ⟨KeepsBut.refl _ _, h, fun _ _ => Iff.rfl⟩

theorem BayChange.trans {n : Nat} (h1 : BayChange n s t) (h2 : BayChange n t u) : BayChange n s u :=
  ⟨h1.keeps.trans h2.keeps, h2.room, fun f hf => (h2.mem_iff f hf).trans (h1.mem_iff f hf)⟩

theorem putBay_change {n : Nat} (hn : n ≤ 11) (h : Room n s) (b : BayNo) (x : Bay) :
    BayChange n s (putBay b x s) := by
  obtain ⟨hkeep, hroom, hmem⟩ := putBay_room hn h b x
  exact ⟨hkeep, hroom, hmem⟩

section
variable {n : Nat} (hn : n ≤ 11)
include hn

/-- With a settle time a closing sends nothing (R137). -/
theorem closeBay_change (h : Room n s) (hset : s.settings.settle ≠ 0) (b : BayNo) (r : CloseReason) :
    BayChange n s (closeBay b r s) := by
  unfold closeBay; dsimp only; split
  · have hput := putBay_change hn h b { s.bays.get b with state := .closing, reason := some r }
    split
    · have hsettings := hput.keeps .settings (by decide)
      rw [startSettle_running (by rw [hsettings]; exact hset)]
      exact hput.trans (putBay_change hn hput.room b _)
    · exact hput
  · exact BayChange.refl h

/-- What a marker's lot leaves of a bay (R135, R137). -/
def lotClosed (c : Settings) (lot : Lot) (b : BayNo) (y : Bay) : Bay :=
  if b.num ≤ c.bayCount ∧ y.lot = some lot ∧ y.state = .filling then
    { y with
      state := .closing, reason := some .lotEnd
      settle := if y.reserved = 0 then some c.settle else y.settle }
  else y

omit hn in
theorem closeLotBay_bays (hset : s.settings.settle ≠ 0) (lot : Lot) (b : BayNo) :
    (closeLotBay lot b s).bays = s.bays.set b (lotClosed s.settings lot b (s.bays.get b)) := by
  have hclosed := closeBay_closed b .lotEnd s
  unfold ClosedBay at hclosed
  obtain ⟨hother, hreserved, hsettles, -, -⟩ := hclosed
  unfold closeLotBay lotClosed
  simp only [isConfigured, decide_eq_true_eq]
  by_cases hc : b.num ≤ s.settings.bayCount ∧ (s.bays.get b).lot = some lot
  · rw [if_pos hc]
    by_cases hf : (s.bays.get b).state = .filling
    · rw [if_pos ⟨hc.1, hc.2, hf⟩]
      rcases Nat.eq_zero_or_pos (s.bays.get b).reserved with hr | hr
      · rw [(hsettles hf hr hset).1, if_pos hr]
      · rw [(hreserved hf hr).1, if_neg hr.ne']
    · rw [(hother hf).1, if_neg (fun h => hf h.2.2), Four.set_get]
  · rw [if_neg hc, if_neg (fun h => hc ⟨h.1, h.2.1⟩), Four.set_get]

theorem closeLotBay_change (h : Room n s) (hset : s.settings.settle ≠ 0) (lot : Lot) (b : BayNo) :
    BayChange n s (closeLotBay lot b s) := by
  unfold closeLotBay; split
  · exact closeBay_change hn h hset b _
  · exact BayChange.refl h

/-- A marker's lot at the four bays (R135). -/
theorem closeLot_spec (h : Room n s) (hset : s.settings.settle ≠ 0) (lot : Lot) :
    BayChange n s (closeLot lot s)
      ∧ ∀ b, (closeLot lot s).bays.get b = lotClosed s.settings lot b (s.bays.get b) := by
  let s1 := closeLotBay lot .b1 s
  let s2 := closeLotBay lot .b2 s1
  let s3 := closeLotBay lot .b3 s2
  have h1 : BayChange n s s1 := closeLotBay_change hn h hset lot .b1
  have hs1 : s1.settings = s.settings := h1.keeps .settings (by decide)
  have h2 : BayChange n s1 s2 := closeLotBay_change hn h1.room (by rwa [hs1]) lot .b2
  have hs2 : s2.settings = s.settings := (h2.keeps .settings (by decide)).trans hs1
  have h3 : BayChange n s2 s3 := closeLotBay_change hn h2.room (by rwa [hs2]) lot .b3
  have hs3 : s3.settings = s.settings := (h3.keeps .settings (by decide)).trans hs2
  have h4 := closeLotBay_change hn h3.room (by rwa [hs3]) lot .b4
  refine ⟨((h1.trans h2).trans h3).trans h4, fun b => ?_⟩
  change (closeLotBay lot .b4 s3).bays.get b = _
  rw [closeLotBay_bays (by rwa [hs3]), closeLotBay_bays (s := s2) (by rwa [hs2]),
    closeLotBay_bays (s := s1) (by rwa [hs1]), closeLotBay_bays hset, hs3, hs2, hs1]
  cases b <;> simp [Four.get_set]

end

/-- A landing is seen by the bay alone (R130, R137). -/
theorem landPiece_eq {b : BayNo}
    (hstate : (s.bays.get b).state = .filling ∨ (s.bays.get b).state = .closing)
    (hres : 0 < (s.bays.get b).reserved) (hset : s.settings.settle ≠ 0) :
    landPiece b s = { s with bays := s.bays.set b { s.bays.get b with
      landed := (s.bays.get b).landed + 1
      reserved := (s.bays.get b).reserved - 1
      settle := if (s.bays.get b).state = .closing ∧ (s.bays.get b).reserved = 1
        then some s.settings.settle else (s.bays.get b).settle } } := by
  let y : Bay := { s.bays.get b with
    landed := (s.bays.get b).landed + 1, reserved := (s.bays.get b).reserved - 1 }
  let s1 : State := { s with bays := s.bays.set b y }
  have hput : putBay b y s = s1 := putBay_same rfl
  have hget : s1.bays.get b = y := Four.get_set_same _ _ _
  have hland : landPiece b s =
      if (s.bays.get b).state = .closing ∧ (s.bays.get b).reserved = 1 then startSettle b s1 else s1 := by
    rw [← hput]; exact if_pos ⟨hstate, hres⟩
  rw [hland]
  by_cases hc : (s.bays.get b).state = .closing ∧ (s.bays.get b).reserved = 1
  · rw [if_pos hc, startSettle_running (s := s1) (b := b) hset]
    refine (putBay_same (s := s1) (b := b) (x := { s1.bays.get b with settle := some s.settings.settle }) rfl).trans ?_
    rw [hget]
    simp only [s1, Four.set_set, if_pos hc, y]
  · rw [if_neg hc]
    simp only [s1, if_neg hc, y]

/-! ## Handovers and markers -/

/-- A handover joins with the own next seq (R67, R83, R85). -/
theorem queueHandover_room {n : Nat} (hn : n ≤ 10) (h : Room n s) (hdown : s.settings.downstream ≠ 0)
    {frame : Seq → FrameBody} (hf : ∀ q, frameGroup (frame q) = .kept) :
    KeepsBut [.ownSeq, .pace, .queue] s (queueHandover frame s) ∧ Room (n + 1) (queueHandover frame s)
      ∧ (queueHandover frame s).link.ownSeq = s.link.ownSeq + 1#8
      ∧ (⟨frame s.link.ownSeq, s.link.nextAge⟩ : QFrame) ∈ (queueHandover frame s).link.queue := by
  let s1 : State := { s with link := { s.link with ownSeq := s.link.ownSeq + 1#8 } }
  have hset : KeepsBut [.ownSeq] s s1 := by intro p hp; cases p <;> simp_all [Part.same, s1]
  have hask : queueHandover frame s = askFrame (frame s.link.ownSeq) s1 := if_neg hdown
  have hgroup := hf s.link.ownSeq
  obtain ⟨hkeep, hroom, hmem⟩ := askFrame_joins (s := s1) hn h (by rw [hgroup]; rfl)
  rw [hask]
  exact ⟨(hset.mono (by decide)).trans (hkeep.mono (by decide)), hroom, hkeep .ownSeq (by decide),
    (hmem _ (by rw [hgroup]; decide)).2 (Or.inl rfl)⟩

theorem latchTally_keeps (lot : Lot) (s : State) :
    KeepsBut [.counters] s { s with tally := latchTally lot s.tally } := by
  intro p hp; cases p <;> simp_all [Part.same, latchTally]

/-- A marker processed: the bays of its lot close, the counters latch, a LOT_END goes on (R67). -/
theorem processMarker_room {n : Nat} (hn : n ≤ 10) (h : Room n s) (hset : s.settings.settle ≠ 0)
    (hdown : s.settings.downstream ≠ 0) (lot : Lot) :
    KeepsBut [.bays, .lamp, .pace, .queue, .ownSeq, .counters] s (processMarker lot s)
      ∧ Room (n + 1) (processMarker lot s)
      ∧ (processMarker lot s).link.ownSeq = s.link.ownSeq + 1#8
      ∧ (∃ age, (⟨.lotEnd s.link.ownSeq lot, age⟩ : QFrame) ∈ (processMarker lot s).link.queue)
      ∧ (processMarker lot s).tally = latchTally lot s.tally
      ∧ ∀ b, (processMarker lot s).bays.get b = lotClosed s.settings lot b (s.bays.get b) := by
  let s1 := closeLot lot s
  let s2 : State := { s1 with tally := latchTally lot s1.tally }
  obtain ⟨hclose, hbays⟩ := closeLot_spec (by omega) h hset lot
  have hsettings : s2.settings = s.settings := hclose.keeps .settings (by decide)
  have hown : s2.link.ownSeq = s.link.ownSeq := hclose.keeps .ownSeq (by decide)
  have hroom : Room n s2 := hclose.room
  obtain ⟨hkeep, hroom', hseq, hmem⟩ := queueHandover_room (frame := fun q => .lotEnd q lot) hn hroom
    (by rwa [hsettings]) fun _ => rfl
  rw [hown] at hseq hmem
  refine ⟨((hclose.keeps.mono (by decide)).trans ((latchTally_keeps lot s1).mono (by decide))).trans
    (hkeep.mono (by decide)), hroom', hseq, ⟨_, hmem⟩, ?_, fun b => ?_⟩
  · have hs1 : s1.tally = s.tally := hclose.keeps.tally
    have : (processMarker lot s).tally = s2.tally := hkeep.tally
    rw [this]
    exact congrArg (latchTally lot) hs1
  · rw [← hbays b]
    exact congrArg (fun f : Four Bay => f.get b) (hkeep.bays (by decide))

/-- One MARKER at the head, none behind it (R66). -/
theorem lookAtHead_oneMarker {q : Seq} {lot : Lot} {rest : List Record} (h : s.tracks = .marker q lot :: rest)
    (hrest : NoMarkerFirst rest) : lookAtHead s = setTracks rest (processMarker lot s) := by
  have hlen : s.tracks.length = rest.length + 1 := by rw [h]; rfl
  unfold lookAtHead
  rw [hlen]
  unfold processHeads
  rw [h]
  exact processHeads_noMarker (s := setTracks rest (processMarker lot s)) _ hrest

/-! ## Fates -/

/-- The piece's entries dealt with, its fate counted, its record gone, the pace evaluated; the head of the
list not yet looked at (R82). -/
def ended (f : Fate) (n : LocalNo) (p : Piece) (s : State) : State :=
  takeOut n (countPiece (fateEvent f) p.lot p.code { s with schedule := dropPiece n s.schedule })

theorem endPiece_eq {f : Fate} {n : LocalNo} {p : Piece} {i : BeltInfo}
    (h : findLocal n s.tracks = some (p, i)) : endPiece f n s = lookAtHead (ended f n p s) := by
  unfold endPiece
  rw [h]
  rfl

/-- The state a fate leaves where the queue has places: nothing but a PACE came or went there. -/
structure Ended (f : Fate) (n : LocalNo) (p : Piece) (s t : State) : Prop where
  tracks : t.tracks = s.tracks.eraseP (hasLocal n)
  schedule : t.schedule = dropPiece n s.schedule
  tally : t.tally = offerTally (fateEvent f) 1 (some (p.lot, p.code)) s.tally
  keeps : KeepsBut [.schedule, .tracks, .fates, .counters, .pace, .queue] s t
  room : ∀ {k}, Room k s → Room k t
  mem_iff : ∀ x : QFrame, frameGroup x.body ≠ .pace → (x ∈ t.link.queue ↔ x ∈ s.link.queue)

theorem countFate_keeps (f : Fate) (l : Lot) (c : Code) (s : State) :
    KeepsBut [.fates, .counters] s (countPiece (fateEvent f) l c s) := by
  intro p hp; cases f <;> cases p <;> simp_all [Part.same, countPiece, offerTally, bumpCounts, fateEvent]

theorem ended_spec {k : Nat} (hk : k ≤ 11) (h : Room k s) (f : Fate) (n : LocalNo) (p : Piece) :
    Ended f n p s (ended f n p s) := by
  let s1 : State := { s with schedule := dropPiece n s.schedule }
  let s2 := countPiece (fateEvent f) p.lot p.code s1
  let s3 := setTracks (s2.tracks.eraseP (hasLocal n)) s2
  have hpaced : Paced s3 (ended f n p s) := evalPace_paced (s := s3) hk h
  exact {
    tracks := hpaced.keeps .tracks (by decide)
    schedule := hpaced.keeps .schedule (by decide)
    tally := hpaced.keeps.tally
    keeps := ((((setSchedule_keeps s _).mono (by decide)).trans
      ((countFate_keeps f p.lot p.code s1).mono (by decide))).trans
        ((setTracks_keeps _ s2).mono (by decide))).trans (hpaced.keeps.mono (by decide))
    room := fun hr => hpaced.room (s := s3) hr
    mem_iff := fun x hx => hpaced.mem_iff hx }

/-- A fate with no MARKER behind it (R66, R82). -/
theorem endPiece_room {k : Nat} (hk : k ≤ 11) (h : Room k s) {f : Fate} {n : LocalNo} {p : Piece}
    {i : BeltInfo} (hfind : findLocal n s.tracks = some (p, i))
    (hhead : NoMarkerFirst (s.tracks.eraseP (hasLocal n))) : Ended f n p s (endPiece f n s) := by
  have hended := ended_spec hk h f n p
  rw [endPiece_eq hfind, lookAtHead_noMarker (by rw [hended.tracks]; exact hhead)]
  exact hended

/-- The record of another number is not touched by the leaving of one. -/
theorem findLocal_erase {n m : LocalNo} (hne : n ≠ m) (tracks : List Record) :
    findLocal m (tracks.eraseP (hasLocal n)) = findLocal m tracks := by
  have hfind : ∀ xs : List Record, (xs.eraseP (hasLocal n)).find? (hasLocal m) = xs.find? (hasLocal m) := by
    intro xs
    induction xs with
    | nil => rfl
    | cons r rs ih =>
      by_cases hr : hasLocal n r = true
      · have hm : ¬ hasLocal m r = true := by
          simp only [hasLocal, beq_iff_eq] at hr ⊢
          rw [hr]; simpa using hne
        rw [List.eraseP_cons_of_pos hr, List.find?_cons_of_neg hm]
      · rw [List.eraseP_cons_of_neg hr]
        simp only [List.find?_cons, ih]
  unfold findLocal
  rw [hfind]

theorem noMarkerFirst_of_none {xs : List Record} (h : ∀ r ∈ xs, isMarker r = false) : NoMarkerFirst xs := by
  rintro q l rest rfl
  have := h _ List.mem_cons_self
  simp [isMarker] at this

/-! ## The bay gate -/

/-- A bay in which one of its reserved pieces has landed (R130, R137). -/
def landedBay (c : Settings) (y : Bay) : Bay :=
  { y with
    landed := y.landed + 1
    reserved := y.reserved - 1
    settle := if y.state = .closing ∧ y.reserved = 1 then some c.settle else y.settle }

/-- A landing and the fate behind it (R86). -/
theorem stackPiece_room {k : Nat} (hk : k ≤ 11) (h : Room k s) {b : BayNo} {n : LocalNo} {p : Piece}
    {i : BeltInfo} (hfind : findLocal n s.tracks = some (p, i))
    (hhead : NoMarkerFirst (s.tracks.eraseP (hasLocal n)))
    (hstate : (s.bays.get b).state = .filling ∨ (s.bays.get b).state = .closing)
    (hres : 0 < (s.bays.get b).reserved) (hset : s.settings.settle ≠ 0) :
    Ended .stacked n p { s with bays := s.bays.set b (landedBay s.settings (s.bays.get b)) }
      (stackPiece b n s) := by
  have hstack : stackPiece b n s = endPiece .stacked n (landPiece b s) := by
    unfold stackPiece; rw [hfind]
  rw [hstack, landPiece_eq hstate hres hset]
  exact endPiece_room (s := { s with bays := s.bays.set b (landedBay s.settings (s.bays.get b)) })
    hk h hfind hhead

theorem Ended.bays {f : Fate} {n : LocalNo} {p : Piece} (h : Ended f n p s t) : t.bays = s.bays :=
  h.keeps.bays (by decide)

/-- A lone GATE_CLOSE on a bay gate: the gate goes off and the listed pieces are stacked one by one. -/
theorem exec_pulse_gateClose {e : SchedEntry} {g : Gate} (hs : s.station = .active) (hq : EyesQuiet s)
    (hsched : s.schedule = [e]) (he : e.action = .gateClose g)
    (hdue : 0 ≤ posDiff (s.belt.position + 1) e.due) :
    exec .encoderPulse s = .next (e.pieces.foldl (closeFate g) (setGate g false (atFiring s))) := by
  rw [exec_pulse_single hs hq hsched hdue]
  unfold fireEntry
  dsimp only
  rw [he]

theorem setGate_bay_keeps (b : BayNo) (o : Bool) : KeepsBut [.gates] s (setGate (.bay b) o s) := by
  intro p hp; cases p <;> simp_all [Part.same, setGate]

theorem setGate_reject_keeps (o : Bool) : KeepsBut [.reject] s (setGate .reject o s) := by
  intro p hp; cases p <;> simp_all [Part.same, setGate]

theorem noMarkerFirst_erase {xs : List Record} (h : ∀ r ∈ xs, isMarker r = false) (n : LocalNo) :
    NoMarkerFirst (xs.eraseP (hasLocal n)) :=
  noMarkerFirst_of_none fun r hr => h r (List.mem_of_mem_eraseP hr)

/-- The state in which the pieces of a bay gate's GATE_CLOSE get their fates. -/
def gateShut (b : BayNo) (s : State) : State := setGate (.bay b) false (atFiring s)

theorem gateShut_keeps (b : BayNo) (s : State) : KeepsBut (.gates :: pulseParts) s (gateShut b s) :=
  ((atFiring_keeps s).mono (by decide)).trans ((setGate_bay_keeps b false).mono (by decide))

theorem setBay_keeps (b : BayNo) (y : Bay) (s : State) :
    KeepsBut [.bays] s { s with bays := s.bays.set b y } := setBays_keeps s _

theorem bump_stacked_twice (c : FixedCounts) :
    bumpCounts .stacked (bumpCounts .stacked c) = { c with stacked := c.stacked + 2 } := by
  simp only [bumpCounts, BitVec.add_assoc]
  rfl

/-- Settles O9: a landing touches the bay alone, and the fate behind it the record and the count. -/
theorem pulseBayGateCloseStacks : Obligations.PulseBayGateCloseStacks := by
  refine ⟨?_, ?_⟩
  · intro s e b n p i hs hq hsched he hpieces hdue hfind hhead hstate hres hset hlen
    have hexec := exec_pulse_gateClose hs hq hsched he hdue
    rw [hpieces] at hexec
    have hroom : Room 11 (gateShut b s) := room_of_length (Nat.le_of_lt_succ hlen)
    have hend := stackPiece_room (s := gateShut b s) le_rfl hroom hfind hhead hstate hres hset
    refine ⟨_, hexec, hend.schedule, hend.keeps .gates (by decide), hend.bays, hend.tracks,
      congrArg Tally.counts hend.tally, congrArg Tally.counters hend.tally, ?_⟩
    exact (((gateShut_keeps b s).mono (by decide)).trans ((setBay_keeps b _ _).mono (by decide))).trans
      (hend.keeps.mono (by decide))
  · intro s e b n m p q i j hs hq hsched he hpieces hne hdue hfind hfind' hmarkers hstate hres hset hlen
    have hexec := exec_pulse_gateClose hs hq hsched he hdue
    rw [hpieces] at hexec
    have hroom : Room 11 (gateShut b s) := room_of_length (Nat.le_of_lt_succ hlen)
    have hfirst := stackPiece_room (s := gateShut b s) le_rfl hroom hfind (noMarkerFirst_erase hmarkers n)
      hstate (Nat.lt_of_lt_of_le Nat.two_pos hres) hset
    let t1 := stackPiece b n (gateShut b s)
    have hbays : t1.bays = s.bays.set b (landedBay s.settings (s.bays.get b)) := hfirst.bays
    have hbay : t1.bays.get b = landedBay s.settings (s.bays.get b) := by rw [hbays, Four.get_set_same]
    have htracks : t1.tracks = s.tracks.eraseP (hasLocal n) := hfirst.tracks
    have hsettings : t1.settings = s.settings := hfirst.keeps .settings (by decide)
    have hsecond := stackPiece_room (s := t1) le_rfl (hfirst.room (s := { gateShut b s with bays := _ }) hroom)
      (b := b) (n := m) (p := q) (i := j)
      (by rw [htracks, findLocal_erase hne]; exact hfind')
      (by
        rw [htracks]
        exact noMarkerFirst_erase (fun r hr => hmarkers r (List.mem_of_mem_eraseP hr)) m)
      (by rw [hbay]; exact hstate)
      (by rw [hbay]; exact Nat.sub_pos_of_lt hres)
      (by rwa [hsettings])
    have hnot : ¬ ((s.bays.get b).state = .closing ∧ (s.bays.get b).reserved = 1) := fun h => by omega
    have htwice : landedBay s.settings (landedBay s.settings (s.bays.get b)) =
        { s.bays.get b with
          landed := (s.bays.get b).landed + 2
          reserved := (s.bays.get b).reserved - 2
          settle := if (s.bays.get b).state = .closing ∧ (s.bays.get b).reserved = 2
            then some s.settings.settle else (s.bays.get b).settle } := by
      have hsub : (s.bays.get b).reserved - 1 = 1 ↔ (s.bays.get b).reserved = 2 := by omega
      simp only [landedBay, if_neg hnot, hsub, Nat.sub_sub, Nat.add_assoc]
    have htally := hsecond.tally
    rw [show ({ t1 with bays := _ } : State).tally = t1.tally from rfl, hfirst.tally] at htally
    refine ⟨_, hexec, ?_, ?_, ?_, ?_, (congrArg Tally.counts htally).trans (bump_stacked_twice s.tally.counts),
      congrArg Tally.counters htally, ?_⟩
    · refine hsecond.schedule.trans ?_
      rw [show ({ t1 with bays := _ } : State).schedule = t1.schedule from rfl, hfirst.schedule]
      rfl
    · exact (hsecond.keeps .gates (by decide)).trans (hfirst.keeps .gates (by decide))
    · refine hsecond.bays.trans ?_
      change t1.bays.set b (landedBay t1.settings (t1.bays.get b)) = _
      rw [hbay, hbays, hsettings, Four.set_set, htwice]
    · exact hsecond.tracks.trans (congrArg (List.eraseP (hasLocal m)) htracks)
    · exact ((((gateShut_keeps b s).mono (by decide)).trans ((setBay_keeps b _ _).mono (by decide))).trans
        (hfirst.keeps.mono (by decide))).trans
          (((setBay_keeps b _ t1).mono (by decide)).trans (hsecond.keeps.mono (by decide)))

end Sys2Proof.Machine
end

section
/-! SUPPORT. Fates at the reject gate and at the exit (R83 to R88, R121, R122), with the marker a fate
releases between two of them. -/

namespace Sys2Proof.Machine

variable {s t u : State}

/-! ## The record a local number finds -/

theorem hasLocal_piece {p : Piece} {i : BeltInfo} (h : p.stage = .onBelt i) (n : LocalNo) :
    hasLocal n (.piece p) = decide (i.localNo = n) := by
  rw [Bool.eq_iff_iff]; simp [hasLocal, beltOf, h]

theorem findLocal_piece_head {p : Piece} {i : BeltInfo} (h : p.stage = .onBelt i) (rest : List Record) :
    findLocal i.localNo (.piece p :: rest) = some (p, i) := by
  unfold findLocal
  rw [List.find?_cons_of_pos (by simp [hasLocal_piece h])]
  simp [beltOf, h]

theorem eraseP_piece_head {p : Piece} {i : BeltInfo} (h : p.stage = .onBelt i) (rest : List Record) :
    (Record.piece p :: rest).eraseP (hasLocal i.localNo) = rest :=
  List.eraseP_cons_of_pos (by simp [hasLocal_piece h])

theorem noMarkerFirst_piece (p : Piece) (rest : List Record) : NoMarkerFirst (.piece p :: rest) := nofun

/-! ## Two fates with a marker between -/

theorem Room.setTracks {n : Nat} (h : Room n s) (xs : List Record) : Room n (setTracks xs s) := h

/-- The state behind a fate that releases one marker, with `rest` behind it (R66, R67; log 12). -/
def markerReleased (f : Fate) (n : LocalNo) (p : Piece) (lot : Lot) (rest : List Record) (s : State) : State :=
  setTracks rest (processMarker lot (ended f n p s))

theorem endPiece_releases {f : Fate} {p : Piece} {i : BeltInfo} {seq : Seq} {lot : Lot}
    {rest : List Record} (hroom : Room 10 s) (htracks : s.tracks = Record.piece p :: .marker seq lot :: rest)
    (hp : p.stage = .onBelt i) (hrest : NoMarkerFirst rest) :
    endPiece f i.localNo s = markerReleased f i.localNo p lot rest s := by
  have hfind : findLocal i.localNo s.tracks = some (p, i) := by
    rw [htracks]; exact findLocal_piece_head hp _
  have hhead : (ended f i.localNo p s).tracks = .marker seq lot :: rest := by
    rw [(ended_spec (k := 10) (by omega) hroom f i.localNo p).tracks, htracks]
    exact eraseP_piece_head hp _
  exact (endPiece_eq hfind).trans (lookAtHead_oneMarker hhead hrest)

/-- What such a fate leaves (R67, R82). -/
theorem markerReleased_spec (f : Fate) {n : LocalNo} {p : Piece} (lot : Lot) (rest : List Record)
    (hroom : Room 10 s) (hset : s.settings.settle ≠ 0) (hdown : s.settings.downstream ≠ 0) :
    KeepsBut [.schedule, .tracks, .fates, .counters, .pace, .queue, .ownSeq, .bays, .lamp] s
        (markerReleased f n p lot rest s)
      ∧ Room 11 (markerReleased f n p lot rest s)
      ∧ (markerReleased f n p lot rest s).tracks = rest
      ∧ (markerReleased f n p lot rest s).schedule = dropPiece n s.schedule
      ∧ (markerReleased f n p lot rest s).tally
        = latchTally lot (offerTally (fateEvent f) 1 (some (p.lot, p.code)) s.tally)
      ∧ (markerReleased f n p lot rest s).link.ownSeq = s.link.ownSeq + 1
      ∧ ∃ age, (⟨.lotEnd s.link.ownSeq lot, age⟩ : QFrame)
        ∈ (markerReleased f n p lot rest s).link.queue := by
  unfold markerReleased
  have hended := ended_spec (k := 10) (by omega) hroom f n p
  have hsettings : (ended f n p s).settings = s.settings := hended.keeps .settings (by decide)
  have hown : (ended f n p s).link.ownSeq = s.link.ownSeq := hended.keeps .ownSeq (by decide)
  obtain ⟨hkeep, hroom', hseq, hmem, htally, -⟩ := processMarker_room (s := ended f n p s) (n := 10)
    (by omega) (hended.room hroom) (by rwa [hsettings]) (by rwa [hsettings]) lot
  rw [hown] at hseq hmem
  rw [hended.tally] at htally
  generalize processMarker lot (ended f n p s) = y at *
  refine ⟨?_, ?_, ?_, ?_, ?_, ?_, ?_⟩
  · exact ((hended.keeps.mono (by decide)).trans (hkeep.mono (by decide))).trans
      ((setTracks_keeps rest _).mono (by decide))
  · exact hroom'.setTracks rest
  · rfl
  · exact (hkeep .schedule (by decide)).trans hended.schedule
  · exact htally
  · exact hseq
  · exact hmem

theorem bump_rejected_twice (c : FixedCounts) :
    bumpCounts .rejected (bumpCounts .rejected c) = { c with rejected := c.rejected + 2 } := by
  simp only [bumpCounts, BitVec.add_assoc]
  rfl

/-- The state in which the pieces of the reject gate's GATE_CLOSE get their fates. -/
def rejectShut (s : State) : State := setGate .reject false (atFiring s)

theorem rejectShut_keeps (s : State) : KeepsBut (.reject :: pulseParts) s (rejectShut s) :=
  ((atFiring_keeps s).mono (by decide)).trans ((setGate_reject_keeps false).mono (by decide))

theorem exec_pulse_exitCheck {e : SchedEntry} (hs : s.station = .active) (hq : EyesQuiet s)
    (hsched : s.schedule = [e]) (he : e.action = .exitCheck)
    (hdue : 0 ≤ posDiff (s.belt.position + 1) e.due) :
    exec .encoderPulse s = .next (e.pieces.foldl checkExit (atFiring s)) := by
  rw [exec_pulse_single hs hq hsched hdue]
  unfold fireEntry
  dsimp only
  rw [he]

/-- Settles O10: each fate by itself, and of two the second in the state that the marker leaves. -/
theorem pulseRejectCloseAndExitCheck : Obligations.PulseRejectCloseAndExitCheck := by
  refine ⟨?_, ?_⟩
  · intro s e n p i hs hq hsched hpieces hdue hfind hhead hlen
    have hroom : Room 11 (atFiring s) := room_of_length (Nat.le_of_lt_succ hlen)
    refine ⟨fun he => ?_, fun he hseen => ?_, fun he hseen => ?_⟩
    · have hexec := exec_pulse_gateClose hs hq hsched he hdue
      rw [hpieces] at hexec
      have hend := endPiece_room (s := rejectShut s) (f := .rejected) le_rfl hroom hfind hhead
      refine ⟨_, hexec, hend.schedule, hend.keeps .reject (by decide), hend.tracks,
        congrArg Tally.counts hend.tally, congrArg Tally.counters hend.tally, ?_⟩
      exact ((rejectShut_keeps s).mono (by decide)).trans (hend.keeps.mono (by decide))
    · have hexec := exec_pulse_exitCheck hs hq hsched he hdue
      have hcheck : checkExit (atFiring s) n = endPiece .lost n (atFiring s) := by
        have hfind' : findLocal n (atFiring s).tracks = some (p, i) := hfind
        simp [checkExit, hfind', hseen]
      rw [hpieces, List.foldl_cons, List.foldl_nil, hcheck] at hexec
      have hend := endPiece_room (s := atFiring s) (f := .lost) le_rfl hroom hfind hhead
      refine ⟨_, hexec, hend.schedule, hend.tracks, congrArg Tally.counts hend.tally,
        congrArg Tally.counters hend.tally, ?_⟩
      exact ((atFiring_keeps s).mono (by decide)).trans (hend.keeps.mono (by decide))
    · have hexec := exec_pulse_exitCheck hs hq hsched he hdue
      have hcheck : checkExit (atFiring s) n = atFiring s := by
        have hfind' : findLocal n (atFiring s).tracks = some (p, i) := hfind
        simp [checkExit, hfind', hseen]
      rw [hpieces, List.foldl_cons, List.foldl_nil, hcheck] at hexec
      exact ⟨_, hexec, rfl, atFiring_keeps s⟩
  · intro s e p q i j seq lot rest hs hq hsched he hpieces hne hdue htracks hp hqj hrest hset hdown hlen
    have hexec := exec_pulse_gateClose hs hq hsched he hdue
    have hroom : Room 10 (rejectShut s) := room_of_length hlen
    have hset' : (rejectShut s).settings = s.settings := rfl
    have hfirst := endPiece_releases (s := rejectShut s) (f := .rejected) hroom htracks hp
      (noMarkerFirst_piece q rest)
    obtain ⟨hkeep, hroom', hleft, hsched', htally, hseq, age, hmem⟩ := markerReleased_spec (s := rejectShut s)
      (n := i.localNo) (p := p) .rejected lot (.piece q :: rest) hroom hset hdown
    generalize markerReleased .rejected i.localNo p lot (.piece q :: rest) (rejectShut s) = y at *
    have hsecond : Ended .rejected j.localNo q y (endPiece .rejected j.localNo y) :=
      endPiece_room le_rfl hroom' (by rw [hleft]; exact findLocal_piece_head hqj rest)
        (by rw [hleft, eraseP_piece_head hqj]; exact hrest)
    rw [hpieces, List.foldl_cons, List.foldl_cons, List.foldl_nil] at hexec
    change exec .encoderPulse s =
      .next (endPiece .rejected j.localNo (endPiece .rejected i.localNo (rejectShut s))) at hexec
    rw [hfirst] at hexec
    have hcounts : y.tally.counts = bumpCounts .rejected s.tally.counts := congrArg Tally.counts htally
    have hcounters : y.tally.counters =
        (s.tally.counters.map (offerCounter .rejected 1 (some (p.lot, p.code)))).map (latchCounter lot) :=
      congrArg Tally.counters htally
    refine ⟨_, hexec, ?_, ?_, ?_, ?_, ?_, ?_, ?_, ?_⟩
    · exact hsecond.schedule.trans (congrArg (dropPiece j.localNo) hsched')
    · exact (hsecond.keeps .reject (by decide)).trans (hkeep .reject (by decide))
    · rw [hsecond.tracks, hleft]; exact eraseP_piece_head hqj rest
    · refine (congrArg Tally.counts hsecond.tally).trans ?_
      exact (congrArg (bumpCounts .rejected) hcounts).trans (bump_rejected_twice _)
    · exact (congrArg Tally.counters hsecond.tally).trans
        (congrArg (List.map (offerCounter .rejected 1 (some (q.lot, q.code)))) hcounters)
    · exact (hsecond.keeps .ownSeq (by decide)).trans hseq
    · exact ⟨age, (hsecond.mem_iff ⟨.lotEnd s.link.ownSeq lot, age⟩ QGroup.noConfusion).2 hmem⟩
    · exact (((rejectShut_keeps s).mono (by decide)).trans (hkeep.mono (by decide))).trans
        (hsecond.keeps.mono (by decide))

end Sys2Proof.Machine
end

section
/-! SUPPORT. Pulses at which one eye's key is reached (R23, R24, R28, R32). -/

namespace Sys2Proof.Machine

variable {s t u : State}

/-! ## One eye alone -/

/-- Where the other eye and the schedule leave what they find, a pulse is what the one eye does, in whatever
order the units are taken. -/
theorem reachKeys_alone {e : Eye} (o : PulseOrder)
    (hother : testEyeKeys (otherEye e) s = s)
    (hother' : testEyeKeys (otherEye e) (testEyeKeys e s) = testEyeKeys e s)
    (hfire : fireSchedule s = s) (hfire' : fireSchedule (testEyeKeys e s) = testEyeKeys e s) :
    reachKeys o s = testEyeKeys e s := by
  cases e <;> simp only [otherEye] at hother hother' <;> cases o <;>
    simp only [reachKeys, hother, hother', hfire, hfire']

/-- What the report of a confirmed trailing edge may change (R28, R32). -/
def reportParts : List Part := [.untracked, .exitOwner] ++ planParts ++ fateParts

theorem reportConfirmed_confined (e : Eye) (pt : Pos) : KeepsBut reportParts s (reportConfirmed e pt s) := by
  cases e
  case entry =>
    change KeepsBut reportParts s (confirmEntry pt s)
    unfold confirmEntry; split
    · exact (clearUntracked_keeps s).mono (by decide)
    · exact (planPiece_keeps s pt).mono (by decide)
  case exit =>
    exact ((passOwned_keeps s).mono (by decide)).trans ((setOwner_keeps _ none).mono (by decide))

theorem eyePart_not_reported (e : Eye) : eyePart e ∉ reportParts := by cases e <;> decide

theorem testConfirm_confined (e : Eye) : KeepsBut (eyePart e :: reportParts) s (testConfirm e s) := by
  unfold testConfirm; dsimp only; split
  · exact KeepsBut.refl _ _
  · split
    · exact ((putEye_keeps s e _).mono (by simp)).trans
        ((reportConfirmed_confined e _).mono fun p hp => List.mem_cons_of_mem _ hp)
    · exact KeepsBut.refl _ _

theorem testConfirm_otherEye (e : Eye) (s : State) :
    eyeOf (otherEye e) (testConfirm e s) = eyeOf (otherEye e) s :=
  (testConfirm_confined (s := s) e).eyeOf _ (by cases e <;> decide)

/-- The other eye's channel is nothing an eye touches. -/
theorem testEyeKeys_otherEye (e : Eye) (s : State) :
    eyeOf (otherEye e) (testEyeKeys e s) = eyeOf (otherEye e) s :=
  ((testJam_keeps _ e).eyeOf _ (by cases e <;> decide)).trans (testConfirm_otherEye e s)

/-- An eye that is idle stays so when the other acts. -/
theorem EyeIdle.beside {e : Eye} (h : EyeIdle (otherEye e) s) : EyeIdle (otherEye e) (testEyeKeys e s) :=
  h.congr (testEyeKeys_otherEye e s) ((testEyeKeys_keeps s e) .position (by decide))
    ((testEyeKeys_keeps s e) .settings (by decide))

theorem fireSchedule_nil (h : s.schedule = []) : fireSchedule s = s :=
  fireSchedule_ahead (by rw [h]; exact nofun)

/-! ## A confirmed trailing edge -/

/-- The channel stays as the confirmation puts it. -/
theorem eyeOf_confirm (e : Eye) (ch : EyeChannel) (pt : Pos) (s : State) :
    eyeOf e (reportConfirmed e pt (putEye e ch s)) = ch :=
  ((reportConfirmed_confined e pt).eyeOf e (eyePart_not_reported e)).trans (eyeOf_putEye e ch s)

/-- A reached confirmation key: the edge is reported, and no jam key is left to reach. -/
theorem testEyeKeys_confirms {e : Eye} {pt : Pos} (hpend : (eyeOf e s).mergePending = some pt)
    (hreach : 0 ≤ posDiff s.belt.position (confirmKey s.settings pt)) :
    testEyeKeys e s = reportConfirmed e pt (putEye e (confirmedChannel (eyeOf e s)) s) := by
  have hconfirm : testConfirm e s = reportConfirmed e pt (putEye e (confirmedChannel (eyeOf e s)) s) := by
    unfold testConfirm; dsimp only; rw [hpend]
    exact if_pos (decide_eq_true hreach)
  unfold testEyeKeys
  rw [hconfirm]
  refine testJam_waits (Or.inr (Or.inr fun since h => ?_))
  rw [eyeOf_confirm] at h
  cases h

/-! ## Passing -/

/-- PASSED with no MARKER behind it: the ANNOUNCE joins and the record leaves (R83, R84). -/
theorem passPiece_room {n : LocalNo} {p : Piece} {i : BeltInfo} (hroom : Room 10 s)
    (hdown : s.settings.downstream ≠ 0) (hfind : findLocal n s.tracks = some (p, i))
    (hhead : NoMarkerFirst (s.tracks.eraseP (hasLocal n))) :
    KeepsBut [.schedule, .tracks, .fates, .counters, .pace, .queue, .ownSeq] s (passPiece n s)
      ∧ (passPiece n s).tracks = s.tracks.eraseP (hasLocal n)
      ∧ (passPiece n s).schedule = dropPiece n s.schedule
      ∧ (passPiece n s).tally = offerTally .passed 1 (some (p.lot, p.code)) s.tally
      ∧ (passPiece n s).link.ownSeq = s.link.ownSeq + 1
      ∧ (⟨announceOf s.settings p i s.link.ownSeq, s.link.nextAge⟩ : QFrame) ∈ (passPiece n s).link.queue := by
  obtain ⟨hkeep, hroom', hseq, hmem⟩ := queueHandover_room (frame := announceOf s.settings p i) le_rfl hroom
    hdown fun _ => rfl
  have htracks : (queueHandover (announceOf s.settings p i) s).tracks = s.tracks := hkeep .tracks (by decide)
  have hend := endPiece_room (f := .passed) le_rfl hroom' (by rw [htracks]; exact hfind)
    (by rw [htracks]; exact hhead)
  have hpass : passPiece n s = endPiece .passed n (queueHandover (announceOf s.settings p i) s) := by
    unfold passPiece; rw [hfind]
  rw [hpass]
  have htally := hend.tally
  rw [hkeep.tally] at htally
  have hleft := hend.tracks
  rw [htracks] at hleft
  have hsched := hend.schedule
  rw [hkeep .schedule (by decide)] at hsched
  exact ⟨(hkeep.mono (by decide)).trans (hend.keeps.mono (by decide)), hleft, hsched, htally,
    (hend.keeps .ownSeq (by decide)).trans hseq, (hend.mem_iff _ QGroup.noConfusion).2 hmem⟩

/-- The state in which a pulse reports the exit eye's confirmed trailing edge. -/
def exitConfirmed (s : State) : State := putEye .exit (confirmedChannel s.eyes.exit) (advancePulse s)

theorem exitConfirmed_keeps (s : State) : KeepsBut (.exitEye :: pulseParts) s (exitConfirmed s) :=
  ((advancePulse_keeps s).mono (by decide)).trans ((putEye_keeps _ .exit _).mono (by decide))

/-- Settles O11: the exit eye alone acts, its owner is passed, and the owner becomes absent. -/
theorem pulseExitConfirmationPasses : Obligations.PulseExitConfirmationPasses := by
  intro s pt n p i hs hsched hpend hsince hmerge hreach howner hfind hhead hdown hlen
  let a := advancePulse s
  let b := exitConfirmed s
  have hidle : EyeIdle .entry a := by
    refine ⟨fun q hq => ?_, Or.inr (Or.inr fun q hq => ?_)⟩
    · cases hpend.symm.trans hq
    · cases hsince.symm.trans hq
  have hconfirm : testEyeKeys .exit a = setOwner none (passPiece n b) := by
    refine (testEyeKeys_confirms (e := .exit) (s := a) hmerge ?_).trans ?_
    · rw [advancePulse_position]; exact hreach
    · change setOwner none (passOwned b) = _
      have hb : b.eyes.exitOwner = some (.piece n) := howner
      unfold passOwned
      rw [hb]
  have hroom : Room 10 b := room_of_length hlen
  obtain ⟨hkeep, htracks, hsched', htally, hseq, hmem⟩ := passPiece_room (s := b) hroom hdown hfind hhead
  have hnil : a.schedule = [] := by change ageEntries s.schedule = []; rw [hsched]; rfl
  have hnil' : (testEyeKeys .exit a).schedule = [] := by
    rw [hconfirm]
    exact hsched'.trans (congrArg (dropPiece n) hnil)
  have hreach : reachKeys (Config.pulseOrder s.openCount) a = setOwner none (passPiece n b) := by
    rw [← hconfirm]
    exact reachKeys_alone (e := .exit) _ (testEyeKeys_idle hidle) (testEyeKeys_idle (EyeIdle.beside (e := .exit) hidle))
      (fireSchedule_nil hnil) (fireSchedule_nil hnil')
  refine ⟨_, (exec_encoderPulse hs).trans (congrArg _ hreach), hmem, hseq, htracks,
    congrArg Tally.counts htally, congrArg Tally.counters htally, rfl, ?_, ?_⟩
  · exact (hkeep .exitEye (by decide))
  · exact (((exitConfirmed_keeps s).mono (by decide)).trans (hkeep.mono (by decide))).trans
      ((setOwner_keeps _ none).mono (by decide))

end Sys2Proof.Machine
end

section
/-! SUPPORT. Jam requests (R21, R24): what an eye's jam key asks for, whatever else a pulse reaches. -/

namespace Sys2Proof.Machine

variable {s t u : State}

/-! ## One eye among the others -/

/-- Whatever the units before the eye's keep, and the units behind it keep of what the eye makes of it. -/
theorem reachKeys_around {P Q : State → Prop} (e : Eye) (o : PulseOrder)
    (hother : ∀ x, P x → P (testEyeKeys (otherEye e) x)) (hother' : ∀ x, Q x → Q (testEyeKeys (otherEye e) x))
    (hfire : ∀ x, P x → P (fireSchedule x)) (hfire' : ∀ x, Q x → Q (fireSchedule x))
    (hact : ∀ x, P x → Q (testEyeKeys e x)) (h : P s) : Q (reachKeys o s) := by
  cases e
  case entry =>
    cases o
    case nxs => exact hfire' _ (hother' _ (hact _ h))
    case nsx => exact hother' _ (hfire' _ (hact _ h))
    case xns => exact hfire' _ (hact _ (hother _ h))
    case xsn => exact hact _ (hfire _ (hother _ h))
    case snx => exact hother' _ (hact _ (hfire _ h))
    case sxn => exact hact _ (hother _ (hfire _ h))
  case exit =>
    cases o
    case nxs => exact hfire' _ (hact _ (hother _ h))
    case nsx => exact hact _ (hfire _ (hother _ h))
    case xns => exact hfire' _ (hother' _ (hact _ h))
    case xsn => exact hother' _ (hfire' _ (hact _ h))
    case snx => exact hact _ (hother _ (hfire _ h))
    case sxn => exact hother' _ (hact _ (hfire _ h))

/-- What the keys of an eye are read off. -/
def SameKeys (e : Eye) (s x : State) : Prop :=
  eyeOf e x = eyeOf e s ∧ x.belt.position = s.belt.position ∧ x.settings = s.settings

theorem SameKeys.refl (e : Eye) (s : State) : SameKeys e s s := ⟨rfl, rfl, rfl⟩

theorem SameKeys.fire {e : Eye} {x : State} (h : SameKeys e s x) : SameKeys e s (fireSchedule x) := by
  obtain ⟨heye, hpos, hset⟩ := h
  have hk := fireSchedule_keeps x
  exact ⟨(hk.eyeOf e (by cases e <;> decide)).trans heye, (hk .position (by decide)).trans hpos,
    (hk .settings (by decide)).trans hset⟩

theorem SameKeys.other {e : Eye} {x : State} (h : SameKeys e s x) :
    SameKeys e s (testEyeKeys (otherEye e) x) := by
  obtain ⟨heye, hpos, hset⟩ := h
  have hk := testEyeKeys_keeps x (otherEye e)
  have heye' : eyeOf e (testEyeKeys (otherEye e) x) = eyeOf e x := by
    have := testEyeKeys_otherEye (otherEye e) x
    cases e <;> exact this
  exact ⟨heye'.trans heye, (hk .position (by decide)).trans hpos, (hk .settings (by decide)).trans hset⟩

/-! ## The reasons -/

theorem jamOf_eq (e : Eye) : jamOf e = jamReason e := by cases e <;> rfl

/-- An eye's keys ask for no other reason than its own jam. -/
theorem testJam_own (e : Eye) (s : State) : (testJam e s).stops.own = s.stops.own
    ∨ (testJam e s).stops.own = insertReason s.stops.own (jamReason e) := by
  unfold testJam; dsimp only; split
  · exact Or.inl rfl
  · split
    · refine Or.inr ((addReason_own _ _).trans ?_)
      cases e <;> rfl
    · exact Or.inl rfl

theorem testConfirm_own (e : Eye) (s : State) : (testConfirm e s).stops.own = s.stops.own :=
  testConfirm_confined (s := s) e .own (by cases e <;> decide)

theorem hasReason_otherKeys (e : Eye) (s : State) :
    hasReason (testEyeKeys (otherEye e) s).stops.own (jamReason e) = hasReason s.stops.own (jamReason e) := by
  have hconfirm := testConfirm_own (otherEye e) s
  unfold testEyeKeys
  rcases testJam_own (otherEye e) (testConfirm (otherEye e) s) with h | h
  · rw [h, hconfirm]
  · rw [h, hconfirm]; cases e <;> rfl

theorem hasReason_fire (r : StopReason) (s : State) :
    hasReason (fireSchedule s).stops.own r = hasReason s.stops.own r := by
  have h : (fireSchedule s).stops.own = s.stops.own := fireSchedule_keeps s .own (by decide)
  rw [h]

/-! ## The jam key -/

/-- The key of a covering that has not asked is reached (R24). -/
structure JamDue (e : Eye) (since : Pos) (s : State) : Prop where
  begun : (eyeOf e s).coveredSince = some since
  level : (eyeOf e s).level = .covered
  first : (eyeOf e s).jamRequested = false
  reach : 0 ≤ posDiff s.belt.position (jamKey s.settings since)

theorem testJam_asks {e : Eye} {since : Pos} (h : JamDue e since s) :
    testJam e s = addReason (jamReason e) (putEye e { eyeOf e s with jamRequested := true } s) := by
  unfold testJam; dsimp only; rw [h.begun]
  exact if_pos ⟨h.level, h.first, decide_eq_true h.reach⟩

/-- What a jam request leaves (R24, R146). -/
theorem testJam_asks_spec {e : Eye} {since : Pos} (h : JamDue e since s) :
    eyeOf e (testJam e s) = { eyeOf e s with jamRequested := true }
      ∧ (testJam e s).stops.own = insertReason s.stops.own (jamReason e)
      ∧ KeepsBut (eyePart e :: stopParts) s (testJam e s) := by
  rw [testJam_asks h]
  have hput := putEye_keeps s e { eyeOf e s with jamRequested := true }
  have hadd := addReason_keeps (putEye e { eyeOf e s with jamRequested := true } s) (jamReason e)
  refine ⟨(hadd.eyeOf e (by cases e <;> decide)).trans (eyeOf_putEye e _ s), (addReason_own _ _).trans ?_, ?_⟩
  · have : (putEye e { eyeOf e s with jamRequested := true } s).stops.own = s.stops.own :=
      hput .own (by cases e <;> decide)
    exact congrArg (insertReason · (jamReason e)) this
  · exact (hput.mono (by simp)).trans (hadd.mono fun p hp => List.mem_cons_of_mem _ hp)

theorem JamDue.congr {e : Eye} {since : Pos} {x : State} (h : JamDue e since s) (hx : SameKeys e s x) :
    JamDue e since x := by
  obtain ⟨heye, hpos, hset⟩ := hx
  exact ⟨heye ▸ h.begun, heye ▸ h.level, heye ▸ h.first, by rw [hpos, hset]; exact h.reach⟩

/-- With no trailing edge pending an eye's keys are its jam key. -/
theorem testEyeKeys_jam {e : Eye} (h : (eyeOf e s).mergePending = none) : testEyeKeys e s = testJam e s := by
  unfold testEyeKeys
  rw [testConfirm_waits]
  intro pt hpt
  cases h.symm.trans hpt

/-- An eye whose jam key is not due asks for nothing, and stands where no trailing edge is pending. -/
theorem testEyeKeys_silent {e : Eye} (h : (eyeOf e s).jamRequested = true ∨ (eyeOf e s).level = .clear
      ∨ ∀ since, (eyeOf e s).coveredSince = some since →
        posDiff s.belt.position (jamKey s.settings since) < 0) :
    (testEyeKeys e s).stops.own = s.stops.own
      ∧ ((eyeOf e s).mergePending = none → testEyeKeys e s = s) := by
  refine ⟨?_, fun hm => (testEyeKeys_jam hm).trans (testJam_waits h)⟩
  by_cases hdue : ∃ pt, (eyeOf e s).mergePending = some pt
      ∧ 0 ≤ posDiff s.belt.position (confirmKey s.settings pt)
  · obtain ⟨pt, hpt, hreach⟩ := hdue
    have hkey : testEyeKeys e s = testConfirm e s := by
      have hconfirm : testConfirm e s =
          reportConfirmed e pt (putEye e (confirmedChannel (eyeOf e s)) s) := by
        unfold testConfirm; dsimp only; rw [hpt]
        exact if_pos (decide_eq_true hreach)
      rw [testEyeKeys_confirms hpt hreach, hconfirm]
    rw [hkey, testConfirm_own]
  · have hwaits : testConfirm e s = s := testConfirm_waits fun pt hpt => by
      by_contra hc
      exact hdue ⟨pt, hpt, by omega⟩
    unfold testEyeKeys
    rw [hwaits, testJam_waits h]

/-! ## At a pulse -/

theorem JamDue.at_pulse {e : Eye} {since : Pos} (hsince : (eyeOf e s).coveredSince = some since)
    (hlevel : (eyeOf e s).level = .covered) (hfirst : (eyeOf e s).jamRequested = false)
    (hreach : 0 ≤ posDiff (s.belt.position + 1) (posAdd since (s.settings.jamLength + 1))) :
    JamDue e since (advancePulse s) := by
  refine ⟨?_, ?_, ?_, ?_⟩
  · rw [eyeOf_advance]; exact hsince
  · rw [eyeOf_advance]; exact hlevel
  · rw [eyeOf_advance]; exact hfirst
  · rw [advancePulse_position]; exact hreach

/-- A due jam key asks, in whatever order the units are taken and whatever they do. -/
theorem reachKeys_jam {e : Eye} {since : Pos} (o : PulseOrder) (h : JamDue e since s)
    (hm : (eyeOf e s).mergePending = none) :
    eyeOf e (reachKeys o s) = { eyeOf e s with jamRequested := true }
      ∧ hasReason (reachKeys o s).stops.own (jamReason e) = true := by
  let ch : EyeChannel := { eyeOf e s with jamRequested := true }
  refine reachKeys_around (P := SameKeys e s)
    (Q := fun x => eyeOf e x = ch ∧ hasReason x.stops.own (jamReason e) = true) e o
    (fun _ hx => hx.other) (fun x hx => ?_) (fun _ hx => hx.fire) (fun x hx => ?_) (fun x hx => ?_)
    (.refl e s)
  · obtain ⟨heye, hown⟩ := hx
    exact ⟨((SameKeys.refl e x).other.1).trans heye, (hasReason_otherKeys e x).trans hown⟩
  · obtain ⟨heye, hown⟩ := hx
    exact ⟨((SameKeys.refl e x).fire.1).trans heye, (hasReason_fire _ x).trans hown⟩
  · have heye : eyeOf e x = eyeOf e s := hx.1
    obtain ⟨hasked, hown, -⟩ := testJam_asks_spec (h.congr hx)
    rw [testEyeKeys_jam (by rw [heye]; exact hm)]
    exact ⟨hasked.trans (by rw [heye]), by rw [hown]; exact hasReason_insertReason _ _⟩

/-- A jam key that is not due asks for nothing, whatever else the pulse reaches. -/
theorem reachKeys_noJam {e : Eye} (o : PulseOrder)
    (h : (eyeOf e s).jamRequested = true ∨ (eyeOf e s).level = .clear
      ∨ ∀ since, (eyeOf e s).coveredSince = some since →
        posDiff s.belt.position (jamKey s.settings since) < 0) :
    hasReason (reachKeys o s).stops.own (jamReason e) = hasReason s.stops.own (jamReason e)
      ∧ ((eyeOf e s).mergePending = none → eyeOf e (reachKeys o s) = eyeOf e s) := by
  let R := fun x : State => hasReason x.stops.own (jamReason e) = hasReason s.stops.own (jamReason e)
  refine reachKeys_around (P := fun x => SameKeys e s x ∧ R x)
    (Q := fun x => R x ∧ ((eyeOf e s).mergePending = none → eyeOf e x = eyeOf e s)) e o
    (fun x hx => ⟨hx.1.other, (hasReason_otherKeys e x).trans hx.2⟩) (fun x hx => ?_)
    (fun x hx => ⟨hx.1.fire, (hasReason_fire _ x).trans hx.2⟩) (fun x hx => ?_) (fun x hx => ?_)
    ⟨.refl e s, rfl⟩
  · obtain ⟨hown, heye⟩ := hx
    exact ⟨(hasReason_otherKeys e x).trans hown, fun hm => ((SameKeys.refl e x).other.1).trans (heye hm)⟩
  · obtain ⟨hown, heye⟩ := hx
    exact ⟨(hasReason_fire _ x).trans hown, fun hm => ((SameKeys.refl e x).fire.1).trans (heye hm)⟩
  · obtain ⟨⟨heye, hpos, hset⟩, hown⟩ := hx
    obtain ⟨hstand, hquiet⟩ := testEyeKeys_silent (e := e) (s := x) (by rw [heye, hpos, hset]; exact h)
    refine ⟨?_, fun hm => ?_⟩
    · have : R x := hown
      simp only [R, hstand]; exact this
    · rw [hquiet (by rw [heye]; exact hm)]; exact heye

/-- A due jam key is all a pulse reaches. -/
theorem reachKeys_jamAlone {e : Eye} {since : Pos} (o : PulseOrder) (h : JamDue e since s)
    (hm : (eyeOf e s).mergePending = none) (hother : EyeIdle (otherEye e) s) (hsched : s.schedule = []) :
    reachKeys o s = testJam e s := by
  rw [← testEyeKeys_jam hm]
  have hkept : (testEyeKeys e s).schedule = s.schedule := by
    rw [testEyeKeys_jam hm]
    obtain ⟨-, -, hk⟩ := testJam_asks_spec h
    exact hk .schedule (by cases e <;> decide)
  exact reachKeys_alone o (testEyeKeys_idle hother) (testEyeKeys_idle hother.beside) (fireSchedule_nil hsched)
    (fireSchedule_nil (hkept.trans hsched))

/-- Settles O15: only the eye's own jam key touches its reason, and only once. -/
theorem jamIsRequestedOnce : Obligations.JamIsRequestedOnce := by
  intro s e hs hrun
  rw [jamOf_eq]
  let o := Config.pulseOrder s.openCount
  have heye := eyeOf_advance e s
  have hown : (advancePulse s).stops.own = s.stops.own := rfl
  refine ⟨fun since hsince hm hlevel hfirst hreach => ?_, fun h => ?_,
    fun since q timer hp hm hsince hfirst hreach => ?_⟩
  · have hdue := JamDue.at_pulse hsince hlevel hfirst hreach
    have hm' : (eyeOf e (advancePulse s)).mergePending = none := by rw [heye]; exact hm
    obtain ⟨hasked, hreason⟩ := reachKeys_jam o hdue hm'
    rw [heye] at hasked
    have hrun' : RunLaw (reachKeys o (advancePulse s)) := (pulseInOrder_follows (s := s) o).run hrun
    refine ⟨_, exec_encoderPulse hs, hasked, hreason, hrun'.run_off hreason, fun hother hsched => ?_⟩
    have hnil : (advancePulse s).schedule = [] := by
      change ageEntries s.schedule = []; rw [hsched]; rfl
    rw [reachKeys_jamAlone o hdue hm' (.of_waits hother) hnil]
    obtain ⟨-, hinsert, hkeep⟩ := testJam_asks_spec hdue
    exact ⟨hinsert, ((advancePulse_keeps s).mono fun p hp =>
      List.mem_cons_of_mem _ (List.mem_append_right _ hp)).trans (hkeep.mono (by cases e <;> decide))⟩
  · have h' := reachKeys_noJam (e := e) (s := advancePulse s) o
      (by rw [heye, advancePulse_position]; exact h)
    rw [heye] at h'
    exact ⟨_, exec_encoderPulse hs, h'⟩
  · let x := putEye e { eyeOf e s with level := .covered, pendingEdge := none, mergePending := none } s
    have hx : eyeOf e x = { eyeOf e s with level := .covered, pendingEdge := none, mergePending := none } :=
      eyeOf_putEye e _ s
    have hput : KeepsBut [eyePart e] s x := putEye_keeps s e _
    have hdue : JamDue e since x := by
      refine ⟨by rw [hx]; exact hsince, by rw [hx], by rw [hx]; exact hfirst, ?_⟩
      have hpos : x.belt.position = s.belt.position := hput .position (by cases e <;> decide)
      have hset : x.settings = s.settings := hput .settings (by cases e <;> decide)
      rw [hpos, hset]; exact hreach
    obtain ⟨hasked, hinsert, hkeep⟩ := testJam_asks_spec hdue
    have hown' : x.stops.own = s.stops.own := hput .own (by cases e <;> decide)
    have hexec := exec_edgeRecognition hs hp
    rw [recogniseEdge_merge hm] at hexec
    rw [hx] at hasked
    refine ⟨_, hexec, hasked, hinsert.trans (by rw [hown']), ?_, (hput.mono (by simp)).trans hkeep⟩
    rw [testJam_asks hdue]
    exact addReason_run _ _ ((Follows.of_keeps ((putEye_keeps x e _).mono (qs := [.entryEye, .exitEye])
      (by cases e <;> decide)) (by decide)).run
        ((Follows.of_keeps (hput.mono (qs := [.entryEye, .exitEye]) (by cases e <;> decide)) (by decide)).run
          hrun))

end Sys2Proof.Machine
end

section
/-! SUPPORT. Windows that run out, the markers a removal releases, and the purge (R57, R58, R66, R68, R89,
R125, R144). -/

namespace Sys2Proof.Machine

variable {s t u : State}

/-! ## The head of the list -/

theorem processMarker_tracks (lot : Lot) (s : State) : (processMarker lot s).tracks = s.tracks :=
  processMarker_keeps s lot .tracks (by decide)

theorem processHeads_tracks (n : Nat) : ∀ s : State, s.tracks.length ≤ n →
    (processHeads n s).tracks = s.tracks.dropWhile isMarker := by
  induction n with
  | zero =>
    intro s h
    have hnil : s.tracks = [] := List.length_eq_zero_iff.1 (Nat.le_zero.1 h)
    simp [processHeads, hnil]
  | succ n ih =>
    intro s h
    unfold processHeads; split
    next q lot rest ht =>
      rw [ht] at h
      rw [ih _ (Nat.le_of_succ_le_succ h), ht]
      rfl
    next hne =>
      cases hs : s.tracks with
      | nil => rfl
      | cons r rest =>
        cases r with
        | marker q lot => exact absurd hs (hne q lot rest)
        | piece p => rfl

/-- The markers at the head leave (R66). -/
theorem lookAtHead_tracks (s : State) : (lookAtHead s).tracks = s.tracks.dropWhile isMarker :=
  processHeads_tracks _ s le_rfl

/-- The records that are no MARKER. -/
def piecesOf (xs : List Record) : List Record := xs.filter fun r => !isMarker r

theorem piecesOf_dropWhile (xs : List Record) : piecesOf (xs.dropWhile isMarker) = piecesOf xs := by
  induction xs with
  | nil => rfl
  | cons x xs ih =>
    cases hx : isMarker x with
    | true => simpa [piecesOf, List.dropWhile, hx] using ih
    | false => simp [List.dropWhile, hx]

theorem lookAtHead_pieces (s : State) : piecesOf (lookAtHead s).tracks = piecesOf s.tracks := by
  rw [lookAtHead_tracks, piecesOf_dropWhile]

/-! ## Windows -/

theorem lowerWindow_eq (r : Record) : lowerWindow r = windowDown r := by
  unfold lowerWindow windowDown
  cases r with
  | marker q l => rfl
  | piece p => rfl

theorem windowOf_zero (r : Record) : (windowOf r == some 0) = hasRunOut r := by
  cases r with
  | marker q l => rfl
  | piece p =>
    cases hp : p.stage <;> simp [windowOf, hasRunOut, hp, BEq.beq, Option.instBEq.beq]

theorem windowOf_ne_zero (r : Record) : (windowOf r != some 0) = !hasRunOut r := by
  rw [bne, windowOf_zero]

theorem hasRunOut_piece {r : Record} (h : hasRunOut r = true) : ∃ p, r = .piece p := by
  cases r with
  | marker q l => cases h
  | piece p => exact ⟨p, rfl⟩

theorem not_marker_of_runOut {r : Record} (h : hasRunOut r = true) : isMarker r = false := by
  obtain ⟨p, rfl⟩ := hasRunOut_piece h; rfl

/-- The oldest record that has run out, at its place in the list. -/
theorem ghostOldest_at {before after : List Record} {p : Piece} (hs : s.tracks = before ++ .piece p :: after)
    (hbefore : ∀ r ∈ before, hasRunOut r = false) (hp : hasRunOut (.piece p) = true) :
    ghostOldest s = lookAtHead (countPiece .ghost p.lot p.code (setTracks (before ++ after) s)) := by
  have hneg : ∀ r ∈ before, ¬ hasRunOut r = true := fun r hr => by rw [hbefore r hr]; decide
  have hfind : s.tracks.find? hasRunOut = some (.piece p) := by
    rw [hs, List.find?_append, List.find?_eq_none.2 hneg, List.find?_cons_of_pos hp]; rfl
  have herase : s.tracks.eraseP hasRunOut = before ++ after := by
    rw [hs, List.eraseP_append_right _ hneg, List.eraseP_cons_of_pos hp]
  unfold ghostOldest
  rw [hfind]
  dsimp only
  rw [herase]

/-- With no record run out nothing is removed. -/
theorem ghostOldest_none (h : ∀ r ∈ s.tracks, hasRunOut r = false) : ghostOldest s = s := by
  unfold ghostOldest
  rw [List.find?_eq_none.2 fun r hr => by rw [h r hr]; decide]

theorem countGhost_keeps (l : Lot) (c : Code) (s : State) :
    KeepsBut [.events, .counters] s (countPiece .ghost l c s) := by
  intro p hp; cases p <;> simp_all [Part.same, countPiece, offerTally, bumpCounts]

/-- One running out: its record leaves the pieces, and GHOST counts it. -/
theorem ghostOldest_spec (h : s.tracks.any hasRunOut = true) :
    ∃ before p after, s.tracks = before ++ .piece p :: after ∧ hasRunOut (.piece p) = true
      ∧ (∀ r ∈ before, hasRunOut r = false)
      ∧ piecesOf (ghostOldest s).tracks = piecesOf (before ++ after)
      ∧ (ghostOldest s).tally.counts.ghost = s.tally.counts.ghost + 1 := by
  obtain ⟨r, hr, hrun⟩ := List.any_eq_true.1 h
  obtain ⟨a, ha⟩ : ∃ a, s.tracks.find? hasRunOut = some a := by
    cases hf : s.tracks.find? hasRunOut with
    | some a => exact ⟨a, rfl⟩
    | none => exact absurd hrun (List.find?_eq_none.1 hf r hr)
  obtain ⟨hrun', before, after, hs, hbefore⟩ := List.find?_eq_some_iff_append.1 ha
  obtain ⟨p, rfl⟩ := hasRunOut_piece hrun'
  have hbefore' : ∀ r ∈ before, hasRunOut r = false := fun r hr => by simpa using hbefore r hr
  refine ⟨before, p, after, hs, hrun', hbefore', ?_, ?_⟩
  · rw [ghostOldest_at hs hbefore' hrun', lookAtHead_pieces]; rfl
  · rw [ghostOldest_at hs hbefore' hrun']
    obtain ⟨-, hghost, -⟩ := lookAtHead_keeps
      (countPiece .ghost p.lot p.code (setTracks (before ++ after) s)) .events (by decide)
    exact hghost

/-- All that has run out is removed, and GHOST counts each (R58). -/
theorem ghostAll_spec (n : Nat) : ∀ s : State, (piecesOf s.tracks).countP hasRunOut ≤ n →
    piecesOf (ghostAll n s).tracks = (piecesOf s.tracks).filter (fun r => !hasRunOut r)
      ∧ (ghostAll n s).tally.counts.ghost =
        s.tally.counts.ghost + BitVec.ofNat 32 ((piecesOf s.tracks).countP hasRunOut) := by
  induction n with
  | zero =>
    intro s h
    have hzero := Nat.le_zero.1 h
    refine ⟨?_, by rw [hzero]; simp [ghostAll]⟩
    refine (List.filter_eq_self.2 fun r hr => ?_).symm
    simpa using List.countP_eq_zero.1 hzero r hr
  | succ n ih =>
    intro s h
    unfold ghostAll; split
    next hany =>
      obtain ⟨before, p, after, hs, hrun, hbefore, hpieces, hghost⟩ := ghostOldest_spec hany
      have hsplit : piecesOf s.tracks = piecesOf before ++ .piece p :: piecesOf after := by
        rw [hs]; simp [piecesOf, isMarker]
      have hrest : piecesOf (ghostOldest s).tracks = piecesOf before ++ piecesOf after := by
        rw [hpieces]; simp [piecesOf]
      have hcount : (piecesOf s.tracks).countP hasRunOut =
          (piecesOf (ghostOldest s).tracks).countP hasRunOut + 1 := by
        rw [hsplit, hrest, List.countP_append, List.countP_append, List.countP_cons_of_pos hrun]; omega
      obtain ⟨hleft, hcounted⟩ := ih (ghostOldest s) (by omega)
      refine ⟨?_, ?_⟩
      · rw [hleft, hrest, hsplit]
        simp [hrun]
      · rw [hcounted, hghost, hcount, BitVec.ofNat_add]
        ac_rfl
    next hany =>
      have hnone : ∀ r ∈ s.tracks, hasRunOut r = false := by simpa using hany
      have hpieces : ∀ r ∈ piecesOf s.tracks, hasRunOut r = false :=
        fun r hr => hnone r (List.mem_of_mem_filter hr)
      refine ⟨(List.filter_eq_self.2 fun r hr => by simp [hpieces r hr]).symm, ?_⟩
      rw [List.countP_eq_zero.2 fun r hr => by simp [hpieces r hr]]
      simp

theorem countP_piecesOf (xs : List Record) : (piecesOf xs).countP hasRunOut = xs.countP hasRunOut := by
  unfold piecesOf
  rw [List.countP_filter]
  refine List.countP_congr fun r _ => ?_
  cases h : hasRunOut r with
  | true => simp [not_marker_of_runOut h]
  | false => simp

/-- Settles O37: a running out takes the oldest record whose window stands at 0, and a tick takes them all. -/
theorem windowsRunOutAsGhosts : Obligations.WindowsRunOutAsGhosts := by
  intro s hs
  have hactive := (isActive_iff s).2 hs
  have hghost : exec .ghost s = .next (ghostOldest s) := if_pos hactive
  refine ⟨fun hrun => if_neg (by simp [hrun]), fun hrun => ?_, ?_, fun h => ?_⟩
  · have hexec : exec .timeBaseTick s = .next (tickWindows s) := if_pos ⟨hactive, hrun⟩
    let s1 := setTracks (s.tracks.map lowerWindow) s
    have hs1 : s1.tracks = s.tracks.map windowDown := List.map_congr_left fun r _ => lowerWindow_eq r
    have hle : (piecesOf s1.tracks).countP hasRunOut ≤ s.tracks.length := by
      rw [countP_piecesOf, hs1]
      exact (List.countP_le_length).trans (by simp)
    obtain ⟨hleft, hcount⟩ := ghostAll_spec s.tracks.length s1 hle
    refine ⟨_, hexec, ?_, ?_, tickWindows_keeps s⟩
    · refine hleft.trans ?_
      simp only [hs1, piecesOf, windowOf_ne_zero, List.filter_filter, Bool.and_comm]
    · refine hcount.trans ?_
      rw [countP_piecesOf, hs1]
      simp only [windowOf_zero]
      rfl
  · intro before after p htracks hbefore hp hhead
    have hrun : hasRunOut (.piece p) = true := by rw [← windowOf_zero, hp]; rfl
    have hneg : ∀ r ∈ before, hasRunOut r = false := fun r hr => by
      rw [← windowOf_zero]; simpa using hbefore r hr
    have hlook := lookAtHead_noMarker
      (s := countPiece .ghost p.lot p.code (setTracks (before ++ after) s)) hhead
    rw [ghostOldest_at htracks hneg hrun, hlook] at hghost
    exact ⟨_, hghost, rfl, rfl, rfl, ((setTracks_keeps _ s).mono (by decide)).trans
      ((countGhost_keeps p.lot p.code _).mono (by decide))⟩
  · rw [hghost, ghostOldest_none fun r hr => by rw [← windowOf_zero]; simpa using h r hr]

end Sys2Proof.Machine
end

section
/-! SUPPORT. The purge (R31, R68, R89, R125, R144, R153, R154). -/

namespace Sys2Proof.Machine

variable {s t u : State}

/-! ## The pieces -/

/-- The first ON_BELT record is the one its local number finds; its leaving touches no other. -/
theorem first_onBelt {n : LocalNo} {l : List LocalNo} : ∀ {xs : List Record}, heldLocals xs = n :: l →
    (∃ x, findLocal n xs = some x) ∧ heldLocals (xs.eraseP (hasLocal n)) = l
      ∧ (xs.eraseP (hasLocal n)).filter (fun r => !isOnBelt r) = xs.filter fun r => !isOnBelt r
  | [], h => by cases h
  | r :: rs, h => by
    cases hr : beltOf r with
    | none =>
      have hnot : hasLocal n r = false := by simp [hasLocal, hr]
      have hheld : heldLocals (r :: rs) = heldLocals rs := by simp [heldLocals, hr]
      obtain ⟨hfind, hrest, hfilter⟩ := first_onBelt (hheld ▸ h)
      rw [List.eraseP_cons_of_neg (by simp [hnot])]
      refine ⟨?_, ?_, ?_⟩
      · unfold findLocal
        rw [List.find?_cons_of_neg (by simp [hnot])]
        exact hfind
      · simpa [heldLocals, hr] using hrest
      · simp only [List.filter_cons, hfilter]
    | some x =>
      have hheld : heldLocals (r :: rs) = x.2.localNo :: heldLocals rs := by simp [heldLocals, hr]
      obtain ⟨hx, hrs⟩ := List.cons.inj (hheld.symm.trans h)
      have hyes : hasLocal n r = true := by simp [hasLocal, hr, hx]
      rw [List.eraseP_cons_of_pos hyes]
      refine ⟨⟨x, ?_⟩, hrs, ?_⟩
      · unfold findLocal
        rw [List.find?_cons_of_pos hyes]
        exact hr
      · simp [onBelt_of_hasLocal hyes]

theorem purgePiece_spec {n : LocalNo} {x : Piece × BeltInfo} (h : findLocal n s.tracks = some x) :
    (purgePiece s n).tracks = s.tracks.eraseP (hasLocal n)
      ∧ (purgePiece s n).tally.counts.purged = s.tally.counts.purged + 1
      ∧ (purgePiece s n).tally.counts.entered = s.tally.counts.entered := by
  obtain ⟨p, i⟩ := x
  let s1 := countPiece .purged p.lot p.code s
  have hpiece : purgePiece s n = evalPace (setTracks (s1.tracks.eraseP (hasLocal n)) s1) := by
    unfold purgePiece; rw [h]; rfl
  rw [hpiece]
  have hk := evalPace_keeps (setTracks (s1.tracks.eraseP (hasLocal n)) s1)
  obtain ⟨hentered, -, -, -, -, hpurged⟩ := hk .fates (by decide)
  exact ⟨hk .tracks (by decide), hpurged, hentered⟩

/-- Every ON_BELT record leaves, the oldest first, and PURGED counts it (R89). -/
theorem purgeLocals_spec (l : List LocalNo) : ∀ s : State, heldLocals s.tracks = l →
    (l.foldl purgePiece s).tracks = s.tracks.filter (fun r => !isOnBelt r)
      ∧ (l.foldl purgePiece s).tally.counts.purged = s.tally.counts.purged + BitVec.ofNat 32 l.length
      ∧ (l.foldl purgePiece s).tally.counts.entered = s.tally.counts.entered := by
  induction l with
  | nil =>
    intro s h
    have hzero : onBeltCount s.tracks = 0 := by rw [← length_heldLocals, h]; rfl
    refine ⟨(List.filter_eq_self.2 fun r hr => ?_).symm, by simp, rfl⟩
    simpa using List.countP_eq_zero.1 hzero r hr
  | cons n l ih =>
    intro s h
    obtain ⟨⟨x, hx⟩, hrest, hfilter⟩ := first_onBelt h
    obtain ⟨htracks, hpurged, hentered⟩ := purgePiece_spec hx
    obtain ⟨ihtracks, ihpurged, ihentered⟩ := ih (purgePiece s n) (by rw [htracks]; exact hrest)
    refine ⟨?_, ?_, ihentered.trans hentered⟩
    · rw [List.foldl_cons, ihtracks, htracks, hfilter]
    · rw [List.foldl_cons, ihpurged, hpurged, List.length_cons, BitVec.ofNat_add]
      ac_rfl

theorem purgePieces_spec (s : State) :
    (purgePieces s).tracks = s.tracks.filter (fun r => !isOnBelt r)
      ∧ (purgePieces s).tally.counts.purged =
        s.tally.counts.purged + BitVec.ofNat 32 (onBeltCount s.tracks)
      ∧ (purgePieces s).tally.counts.entered = s.tally.counts.entered := by
  rw [← length_heldLocals]
  exact purgeLocals_spec _ s rfl

/-! ## The bays -/

/-- What a bay keeps through settling and closing: it takes no reservation, and EMPTY it stands. -/
def Released (y z : Bay) : Prop := (y.reserved = 0 → z.reserved = 0) ∧ (y = Bay.cleared → z = Bay.cleared)

theorem Released.refl (y : Bay) : Released y y := ⟨id, id⟩

theorem Released.trans {x y z : Bay} (h1 : Released x y) (h2 : Released y z) : Released x z :=
  ⟨h2.1 ∘ h1.1, h2.2 ∘ h1.2⟩

/-- A change of bay `c` alone, which it keeps through settling and closing. -/
def SetsReleased (c : BayNo) (s t : State) : Prop :=
  ∃ z, t.bays = s.bays.set c z ∧ Released (s.bays.get c) z

theorem SetsReleased.bay {c : BayNo} (h : SetsReleased c s t) (b : BayNo) :
    Released (s.bays.get b) (t.bays.get b) := by
  obtain ⟨z, hz, hr⟩ := h
  rw [hz, Four.get_set]; split
  next hb => rw [hb]; exact hr
  · exact .refl _

theorem SetsReleased.refl (c : BayNo) (s : State) : SetsReleased c s s :=
  ⟨_, (Four.set_get s.bays c).symm, .refl _⟩

/-- A CLOSING bay settles (R137). -/
theorem startSettle_released {c : BayNo} (h : (s.bays.get c).state = .closing) :
    SetsReleased c s (startSettle c s) := by
  have hne : s.bays.get c ≠ Bay.cleared := fun hc => by rw [hc] at h; cases h
  by_cases hset : s.settings.settle = 0
  · by_cases hl : (s.bays.get c).landed = 0
    · rw [startSettle_empties hset hl]
      exact ⟨_, putBay_bays c _ s, fun _ => rfl, fun hc => absurd hc hne⟩
    · rw [startSettle_discharges hset hl]
      exact ⟨_, discharge_bays c s, id, fun hc => absurd hc hne⟩
  · rw [startSettle_running hset]
    exact ⟨_, putBay_bays c _ s, id, fun hc => absurd hc hne⟩

theorem closeBay_released (c : BayNo) (r : CloseReason) (s : State) : SetsReleased c s (closeBay c r s) := by
  let closing : Bay := { s.bays.get c with state := .closing, reason := some r }
  by_cases hf : (s.bays.get c).state = .filling
  · have hne : s.bays.get c ≠ Bay.cleared := fun hc => by rw [hc] at hf; cases hf
    have hclose : closeBay c r s =
        if (s.bays.get c).reserved = 0 then startSettle c (putBay c closing s) else putBay c closing s :=
      if_pos hf
    have hget : (putBay c closing s).bays.get c = closing := by rw [putBay_bays, Four.get_set_same]
    rw [hclose]; split
    · obtain ⟨z, hz, hres, -⟩ := startSettle_released (s := putBay c closing s) (c := c) (by rw [hget])
      rw [hget] at hres
      exact ⟨z, by rw [hz, putBay_bays, Four.set_set], hres, fun hc => absurd hc hne⟩
    · exact ⟨closing, putBay_bays c _ s, id, fun hc => absurd hc hne⟩
  · have hclose : closeBay c r s = s := if_neg hf
    rw [hclose]
    exact .refl c s

theorem closeLotBay_released (lot : Lot) (c : BayNo) (s : State) : SetsReleased c s (closeLotBay lot c s) := by
  unfold closeLotBay; split
  · exact closeBay_released c _ s
  · exact .refl c s

theorem closeLot_released (lot : Lot) (b : BayNo) (s : State) :
    Released (s.bays.get b) ((closeLot lot s).bays.get b) :=
  ((((closeLotBay_released lot .b1 s).bay b).trans ((closeLotBay_released lot .b2 _).bay b)).trans
    ((closeLotBay_released lot .b3 _).bay b)).trans ((closeLotBay_released lot .b4 _).bay b)

theorem processMarker_released (lot : Lot) (b : BayNo) (s : State) :
    Released (s.bays.get b) ((processMarker lot s).bays.get b) := by
  let s1 := closeLot lot s
  let s2 : State := { s1 with tally := latchTally lot s1.tally }
  have hsends : (queueHandover (fun q => .lotEnd q lot) s2).bays = s2.bays :=
    (queueHandover_keeps s2 _).bays (by decide)
  have hbays : (processMarker lot s).bays = s1.bays := hsends
  rw [hbays]
  exact closeLot_released lot b s

theorem setTracks_bays (xs : List Record) (s : State) : (setTracks xs s).bays = s.bays := rfl

theorem processHeads_released (n : Nat) (b : BayNo) : ∀ s : State,
    Released (s.bays.get b) ((processHeads n s).bays.get b) := by
  induction n with
  | zero => exact fun s => .refl _
  | succ n ih =>
    intro s; unfold processHeads; split
    next q lot rest h =>
      have hrest := ih (setTracks rest (processMarker lot s))
      rw [setTracks_bays] at hrest
      exact (processMarker_released lot b s).trans hrest
    · exact .refl _

/-- One bay at a purge (R144). -/
theorem purgeBay_spec (c : BayNo) (s : State) : ∃ z, (purgeBay c s).bays = s.bays.set c z
    ∧ Released (s.bays.get c) z ∧ (isConfigured s c = true → Released (purgedBay (s.bays.get c)) z) := by
  have hpurged : Released (s.bays.get c) (purgedBay (s.bays.get c)) := by
    unfold purgedBay; split
    · exact ⟨fun _ => rfl, fun _ => rfl⟩
    · exact ⟨fun _ => rfl, fun hc => by rw [hc]; rfl⟩
  have hget : (putBay c (purgedBay (s.bays.get c)) s).bays.get c = purgedBay (s.bays.get c) := by
    rw [putBay_bays, Four.get_set_same]
  unfold purgeBay; dsimp only; split
  · split
    next hc =>
      have hstate : (purgedBay (s.bays.get c)).state = .closing := by
        unfold purgedBay
        rw [if_neg (by rw [hc.1]; simp)]
        exact hc.1
      obtain ⟨z, hz, hr⟩ := startSettle_released (s := putBay c (purgedBay (s.bays.get c)) s) (c := c)
        (by rw [hget]; exact hstate)
      rw [hget] at hr
      exact ⟨z, by rw [hz, putBay_bays, Four.set_set], hpurged.trans hr, fun _ => hr⟩
    · exact ⟨_, putBay_bays c _ s, hpurged, fun _ => .refl _⟩
  next hn => exact ⟨_, (Four.set_get s.bays c).symm, .refl _, fun h => absurd h hn⟩

theorem purgeBay_released (c b : BayNo) (s : State) : Released (s.bays.get b) ((purgeBay c s).bays.get b) := by
  obtain ⟨z, hz, hr, -⟩ := purgeBay_spec c s
  exact SetsReleased.bay ⟨z, hz, hr⟩ b

theorem purgeBay_self {b : BayNo} (h : isConfigured s b = true) :
    Released (purgedBay (s.bays.get b)) ((purgeBay b s).bays.get b) := by
  obtain ⟨z, hz, -, hr⟩ := purgeBay_spec b s
  rw [hz, Four.get_set_same]
  exact hr h

theorem purgeBay_other {b c : BayNo} (h : b ≠ c) (s : State) : (purgeBay c s).bays.get b = s.bays.get b := by
  obtain ⟨z, hz, -⟩ := purgeBay_spec c s
  rw [hz, Four.get_set_other _ _ h]

theorem purgeBay_configured (c b : BayNo) (s : State) : isConfigured (purgeBay c s) b = isConfigured s b := by
  have h : (purgeBay c s).settings = s.settings := purgeBay_keeps c s .settings (by decide)
  simp only [isConfigured, h]

/-- Every configured bay has been purged, in whatever place of the order it stands. -/
theorem purgeBays_spec {b : BayNo} (h : isConfigured s b = true) :
    Released (purgedBay (s.bays.get b)) ((purgeBays s).bays.get b) := by
  let s1 := purgeBay .b1 s
  let s2 := purgeBay .b2 s1
  let s3 := purgeBay .b3 s2
  have hc1 : isConfigured s1 b = true := (purgeBay_configured .b1 b s).trans h
  have hc2 : isConfigured s2 b = true := (purgeBay_configured .b2 b s1).trans hc1
  have hc3 : isConfigured s3 b = true := (purgeBay_configured .b3 b s2).trans hc2
  have r2 := purgeBay_released .b2 b s1
  have r3 := purgeBay_released .b3 b s2
  have r4 := purgeBay_released .b4 b s3
  change Released _ ((purgeBay .b4 s3).bays.get b)
  cases b with
  | b1 => exact (((purgeBay_self h).trans r2).trans r3).trans r4
  | b2 =>
    rw [← purgeBay_other (c := .b1) (by decide) s]
    exact ((purgeBay_self hc1).trans r3).trans r4
  | b3 =>
    rw [← purgeBay_other (c := .b1) (by decide) s, ← purgeBay_other (c := .b2) (by decide) s1]
    exact (purgeBay_self hc2).trans r4
  | b4 =>
    rw [← purgeBay_other (c := .b1) (by decide) s, ← purgeBay_other (c := .b2) (by decide) s1,
      ← purgeBay_other (c := .b3) (by decide) s2]
    exact purgeBay_self hc3

/-! ## The whole purge -/

/-- The purge up to the head of the list: pieces, schedule and outputs, bays, eye channels. -/
def purgedState (s : State) : State := purgeEyeChannels (purgeBays (purgeSchedule (purgePieces s)))

theorem purge_eq (s : State) : purge s = evalPace (lookAtHead (purgedState s)) := rfl

/-- What the head of the list and the pace leave of a purge. -/
theorem purge_from_purged (s : State) : KeepsBut markerParts (purgedState s) (purge s) :=
  (lookAtHead_keeps _).trans ((evalPace_keeps _).mono (by decide))

theorem purge_tracks (s : State) :
    (purge s).tracks = (s.tracks.filter fun r => !isOnBelt r).dropWhile isMarker := by
  have hpieces : (purgedState s).tracks = (purgePieces s).tracks :=
    purgeBays_keeps (purgeSchedule (purgePieces s)) .tracks (by decide)
  have hpace : (purge s).tracks = (lookAtHead (purgedState s)).tracks :=
    purge_eq s ▸ evalPace_keeps (lookAtHead (purgedState s)) .tracks (by decide)
  rw [hpace, lookAtHead_tracks, hpieces, (purgePieces_spec s).1]

theorem purge_counts (s : State) :
    (purge s).tally.counts.purged = s.tally.counts.purged + BitVec.ofNat 32 (onBeltCount s.tracks)
      ∧ (purge s).tally.counts.entered = s.tally.counts.entered := by
  obtain ⟨hentered, -, -, -, -, hpurged⟩ := purge_from_purged s .fates (by decide)
  obtain ⟨hentered', -, -, -, -, hpurged'⟩ :=
    purgeBays_keeps (purgeSchedule (purgePieces s)) .fates (by decide)
  obtain ⟨-, hcount, hstand⟩ := purgePieces_spec s
  exact ⟨hpurged.trans (hpurged'.trans hcount), hentered.trans (hentered'.trans hstand)⟩

theorem purge_schedule (s : State) : (purge s).schedule = [] :=
  (purge_from_purged s .schedule (by decide)).trans
    (purgeBays_keeps (purgeSchedule (purgePieces s)) .schedule (by decide))

/-- The outputs of the schedule as one. -/
theorem KeepsBut.outputs {ps : List Part} (h : KeepsBut ps s t)
    (hp : ∀ p ∈ [Part.jetA, .jetB, .gates, .reject], p ∉ ps := by decide) : t.outputs = s.outputs := by
  have hA : t.outputs.jetA = s.outputs.jetA := h .jetA (hp .jetA (by decide))
  have hB : t.outputs.jetB = s.outputs.jetB := h .jetB (hp .jetB (by decide))
  have hg : t.outputs.gates = s.outputs.gates := h .gates (hp .gates (by decide))
  have hr : t.outputs.reject = s.outputs.reject := h .reject (hp .reject (by decide))
  cases hx : t.outputs; cases hy : s.outputs
  simp_all

theorem purge_outputs (s : State) :
    (purge s).outputs = ⟨⟨false, none⟩, ⟨false, none⟩, Four.all false, false⟩ := by
  rw [(purge_from_purged s).outputs]
  exact (purgeBays_keeps (purgeSchedule (purgePieces s))).outputs

theorem purge_eyes (s : State) : (purge s).eyes.untracked = (purgeEyes s.eyes).untracked
    ∧ (purge s).eyes.exitOwner = (purgeEyes s.eyes).exitOwner := by
  have hpieces := purgePieces_keeps s
  have hbays := purgeBays_keeps (purgeSchedule (purgePieces s))
  have huntracked : (purgeBays (purgeSchedule (purgePieces s))).eyes.untracked = s.eyes.untracked :=
    (hbays .untracked (by decide)).trans (hpieces .untracked (by decide))
  have howner : (purgeBays (purgeSchedule (purgePieces s))).eyes.exitOwner = s.eyes.exitOwner :=
    (hbays .exitOwner (by decide)).trans (hpieces .exitOwner (by decide))
  have hentry : (purgeBays (purgeSchedule (purgePieces s))).eyes.entry = s.eyes.entry :=
    (hbays .entryEye (by decide)).trans (hpieces .entryEye (by decide))
  refine ⟨(purge_from_purged s .untracked (by decide)).trans ?_,
    (purge_from_purged s .exitOwner (by decide)).trans ?_⟩
  · simp only [purgedState, purgeEyeChannels, purgeEyes, huntracked, hentry]
  · simp only [purgedState, purgeEyeChannels, purgeEyes, howner]

theorem purge_bays {b : BayNo} (h : isConfigured s b = true) :
    Released (purgedBay (s.bays.get b)) ((purge s).bays.get b) := by
  have hkeep := purgePieces_keeps s
  have hstart : (purgeSchedule (purgePieces s)).bays = s.bays := hkeep.bays (by decide)
  have hsettings : (purgeSchedule (purgePieces s)).settings = s.settings := hkeep .settings (by decide)
  have hbays := purgeBays_spec (s := purgeSchedule (purgePieces s)) (b := b)
    (by simpa only [isConfigured, hsettings] using h)
  rw [hstart] at hbays
  have hpace : (purge s).bays = (lookAtHead (purgedState s)).bays :=
    (evalPace_keeps _).bays (by decide)
  rw [hpace]
  exact hbays.trans (processHeads_released _ b (purgedState s))

theorem purge_keepsHold (s : State) : (purge s).panel.purgeHold = s.panel.purgeHold
    ∧ (purge s).panel.awaitStop = s.panel.awaitStop ∧ (purge s).panel.awaitRun = s.panel.awaitRun := by
  obtain ⟨h1, h2, h3⟩ := purge_from_purged s .purgeHold (by decide)
  obtain ⟨h4, h5, h6⟩ := purgeBays_keeps (purgeSchedule (purgePieces s)) .purgeHold (by decide)
  obtain ⟨h7, h8, h9⟩ := purgePieces_keeps s .purgeHold (by decide)
  exact ⟨h1.trans (h4.trans h7), h2.trans (h5.trans h8), h3.trans (h6.trans h9)⟩

/-- Settles O36: the purge part by part, each kept by the parts behind it. -/
theorem purgeClearsTheBelt : Obligations.PurgeClearsTheBelt := by
  intro s h hs hhold
  have hactive := (isActive_iff s).2 hs
  refine ⟨fun hnoted hstop hrun => ?_, fun hno => ?_⟩
  · let s0 : State := { endHold s with panel := { (endHold s).panel with awaitStop := true, awaitRun := true } }
    have hexec : exec .purgeHoldExpiry s = .next (purge s0) := by
      change execPurgeHoldExpiry s = _
      simp only [execPurgeHoldExpiry, hhold, hactive, hnoted, bothReleased, hstop, hrun]
      rfl
    have hkeeps : KeepsBut purgeParts s (purge s0) := by
      refine KeepsBut.after (purge_keeps _) ?_
      intro p hp; cases p <;> simp_all [Part.same, purgeParts, endHold, s0]
    obtain ⟨hpurged, hentered⟩ := purge_counts s0
    obtain ⟨huntracked, howner⟩ := purge_eyes s0
    obtain ⟨hheld, hastop, harun⟩ := purge_keepsHold s0
    refine ⟨_, hexec, purge_tracks s0, hpurged, hentered, purge_schedule s0, purge_outputs s0,
      fun b hb => ?_, ?_, fun n hn => ?_, hheld, hastop, harun, hkeeps⟩
    · obtain ⟨hres, hcleared⟩ := purge_bays (s := s0) (b := b) (decide_eq_true hb)
      refine ⟨hres ?_, fun hf hl => hcleared (if_pos ⟨hf, hl⟩)⟩
      unfold purgedBay; split <;> rfl
    · rw [huntracked]
      rfl
    · rw [howner]
      have hn' : s0.eyes.exitOwner = some (.piece n) := hn
      simp [purgeEyes, hn']
  · change execPurgeHoldExpiry s = _
    simp only [execPurgeHoldExpiry, hhold]
    refine if_neg fun hall => ?_
    obtain ⟨-, hnoted, hboth⟩ := hall
    simp only [bothReleased, Bool.and_eq_true, Bool.not_eq_true'] at hboth
    rcases hno with hno | hno | hno
    · rw [hnoted] at hno; cases hno
    · rw [hboth.1] at hno; cases hno
    · rw [hboth.2] at hno; cases hno

end Sys2Proof.Machine
end

section
/-! SUPPORT. Admission from upstream (R52 to R56, R66, R67): what the sequence check files. -/

namespace Sys2Proof.Machine

variable {s t u : State}

/-! ## Filing -/

/-- A frame of the upstream peer is taken: the line is busy, the expected seq moves on. -/
def taken (received : Seq) (s : State) : State :=
  { s with link := { s.link with line := .busy, expectedSeq := some (received + 1#8) } }

/-- Such a frame is taken and records are filed behind those that stand. -/
def filed (received : Seq) (xs : List Record) (s : State) : State :=
  setTracks (s.tracks ++ xs) (taken received s)

theorem filed_keeps (q : Seq) (xs : List Record) (s : State) :
    KeepsBut [.tracks, .line, .expectedSeq] s (filed q xs s) := by
  intro p hp; cases p <;> simp_all [Part.same, filed, taken, setTracks]

theorem taken_keeps (q : Seq) (s : State) : KeepsBut [.line, .expectedSeq] s (taken q s) := by
  intro p hp; cases p <;> simp_all [Part.same, taken]

/-- A list that reads the same after all. -/
theorem KeepsBut.without_tracks {ps : List Part} (h : KeepsBut (.tracks :: ps) s t)
    (ht : t.tracks = s.tracks) : KeepsBut ps s t := by
  intro p hp
  by_cases htr : p = .tracks
  · rw [htr]; exact ht
  · exact h p (by simp [htr, hp])

theorem setLine_keeps_line (l : LineView) (s : State) : KeepsBut [.line] s (setLine l s) := by
  intro p hp; cases p <;> simp_all [Part.same, setLine]

theorem countLine_keeps_counters {ev : TallyEvent} (n : Nat) (s : State)
    (h : ∀ c, bumpCounts ev c = c) : KeepsBut [.counters] s (countLine ev n s) := by
  intro p hp; cases p <;> simp_all [Part.same, countLine, offerTally]

theorem noMarkerFirst_append {xs ys : List Record} (hx : NoMarkerFirst xs)
    (hy : ∀ r ∈ ys, isMarker r = false) : NoMarkerFirst (xs ++ ys) := by
  cases xs with
  | nil => exact noMarkerFirst_of_none hy
  | cons r rs =>
    intro q l rest h
    exact hx q l rs (by rw [(List.cons.inj h).1])

theorem appendRecord_room {r : Record} (h : s.tracks.length < 24) :
    appendRecord r s = { s with tracks := s.tracks ++ [r] } := if_pos h

theorem appendRecord_full {r : Record} (h : 24 ≤ s.tracks.length) :
    appendRecord r s = countLine .expectOverflow 1 s := if_neg (Nat.not_lt.2 h)

/-! ## Placeholders -/

theorem standIns_succ (w : Nat) (q : Seq) (n : Nat) :
    standIns w q (n + 1) = .piece ⟨some q, 0, 0, none, ⟨false, false, false⟩, .placeholder w⟩
      :: standIns w (q + 1#8) n := by
  unfold standIns
  rw [List.range_succ_eq_map, List.map_cons, List.map_map]
  refine congrArg₂ List.cons (by simp) (List.map_congr_left fun k _ => ?_)
  simp only [Function.comp_apply]
  have : q + BitVec.ofNat 8 (k + 1) = q + 1#8 + BitVec.ofNat 8 k := by
    rw [BitVec.ofNat_add]; ac_rfl
  rw [this]

/-- With room the stand-ins of a gap are appended one behind the other (R54). -/
theorem appendPlaceholders_room (n : Nat) : ∀ (q : Seq) (s : State), s.tracks.length + n ≤ 24 →
    appendPlaceholders n q s = { s with tracks := s.tracks ++ standIns s.settings.transferWindow q n } := by
  induction n with
  | zero => intro q s h; simp [appendPlaceholders, standIns]
  | succ n ih =>
    intro q s h
    unfold appendPlaceholders
    rw [appendRecord_room (by omega), ih _ _ (by simp; omega), standIns_succ, List.append_assoc]
    rfl

theorem standIns_no_marker (w : Nat) (q : Seq) (n : Nat) : ∀ r ∈ standIns w q n, isMarker r = false := by
  intro r hr
  obtain ⟨k, -, rfl⟩ := List.mem_map.1 hr
  rfl

/-! ## The sequence check -/

theorem takeHandover_repeat {q : Seq} {r : Record} (h : seqStep q s.link.expectedSeq = 255) :
    takeHandover q r s = s := if_pos h

theorem appendChecked_expected (q : Seq) (r : Record) (s : State) :
    (appendChecked q r s).link.expectedSeq = some (q + 1) := by
  have hrec : ∀ x : State, (appendRecord r x).link.expectedSeq = x.link.expectedSeq :=
    fun x => appendRecord_keeps x r .expectedSeq (by decide)
  unfold appendChecked; dsimp only; split
  · exact hrec _
  · split
    · rw [hrec, appendPlaceholders_keeps _ _ _ .expectedSeq (by decide)]; rfl
    · rw [hrec]; rfl

theorem takeHandover_expected {q : Seq} {r : Record} (h : seqStep q s.link.expectedSeq ≠ 255) :
    (takeHandover q r s).link.expectedSeq = some (q + 1) := by
  have htake : takeHandover q r s = lookAtHead (appendChecked q r s) := if_neg h
  rw [htake, lookAtHead_keeps _ .expectedSeq (by decide), appendChecked_expected]

theorem appendChecked_eq (q : Seq) (r : Record) (s : State) : appendChecked q r (setLine .busy s) =
    if seqStep q s.link.expectedSeq = 0 then appendRecord r (taken q s)
    else if seqStep q s.link.expectedSeq ≤ 8 then
      appendRecord r (appendPlaceholders (seqStep q s.link.expectedSeq)
        (q - BitVec.ofNat 8 (seqStep q s.link.expectedSeq))
        (countLine .seqGap (seqStep q s.link.expectedSeq) (taken q s)))
    else appendRecord r (countLine .syncLoss 1 (taken q s)) := rfl

/-- The frame the sequence check expects, with room. -/
theorem appendChecked_next {q : Seq} {r : Record} (h : seqStep q s.link.expectedSeq = 0)
    (hlen : s.tracks.length < 24) : appendChecked q r (setLine .busy s) = filed q [r] s := by
  rw [appendChecked_eq, if_pos h, appendRecord_room (s := taken q s) hlen]
  rfl

theorem appendChecked_full {q : Seq} {r : Record} (h : seqStep q s.link.expectedSeq = 0)
    (hlen : 24 ≤ s.tracks.length) :
    appendChecked q r (setLine .busy s) = countLine .expectOverflow 1 (taken q s) := by
  rw [appendChecked_eq, if_pos h, appendRecord_full (s := taken q s) hlen]

theorem appendChecked_gap {q e : Seq} {r : Record} (he : s.link.expectedSeq = some e)
    (h1 : 1 ≤ (q - e).toNat) (h8 : (q - e).toNat ≤ 8) (hlen : s.tracks.length + (q - e).toNat < 24) :
    appendChecked q r (setLine .busy s) = countLine .seqGap (q - e).toNat
      (filed q (standIns s.settings.transferWindow e (q - e).toNat ++ [r]) s) := by
  have hstep : seqStep q s.link.expectedSeq = (q - e).toNat := by rw [he]; rfl
  have hfirst : q - BitVec.ofNat 8 (q - e).toNat = e := by
    rw [BitVec.ofNat_toNat, BitVec.setWidth_eq]
    bv_omega
  let x := countLine .seqGap (q - e).toNat (taken q s)
  have hplace : appendPlaceholders (q - e).toNat e x =
      setTracks (s.tracks ++ standIns s.settings.transferWindow e (q - e).toNat) x :=
    appendPlaceholders_room (q - e).toNat e x (Nat.le_of_lt hlen)
  have hroom : (s.tracks ++ standIns s.settings.transferWindow e (q - e).toNat).length < 24 := by
    simpa [standIns] using hlen
  rw [appendChecked_eq, hstep, if_neg (by omega), if_pos h8, hfirst, hplace,
    appendRecord_room (s := setTracks _ x) hroom]
  simp only [filed, ← List.append_assoc]
  rfl

theorem appendChecked_loss {q : Seq} {r : Record} (h : 9 ≤ seqStep q s.link.expectedSeq)
    (hlen : s.tracks.length < 24) :
    appendChecked q r (setLine .busy s) = countLine .syncLoss 1 (filed q [r] s) := by
  rw [appendChecked_eq, if_neg (by omega), if_neg (by omega),
    appendRecord_room (s := countLine .syncLoss 1 (taken q s)) hlen]
  rfl

/-- A handover that files no MARKER behind a list without one at its head. -/
theorem takeHandover_files {q : Seq} {r : Record} {x : State} (h : seqStep q s.link.expectedSeq ≠ 255)
    (hx : appendChecked q r s = x) (hhead : NoMarkerFirst x.tracks) : takeHandover q r s = x := by
  have htake : takeHandover q r s = lookAtHead (appendChecked q r s) := if_neg h
  rw [htake, hx, lookAtHead_noMarker hhead]

/-- An upstream handover is one admission. -/
theorem exec_announceFrame {sender : BitVec 5} {seq : Seq} {lot : Lot} {code : Code} {length : BitVec 16}
    {flags : Byte} (hs : Hears s sender) (hup : sender.toNat = s.settings.upstream) :
    exec (.announceFrame sender seq lot code length flags) s = .next (takeHandover seq
      (announceRecord s.settings.transferWindow seq lot code length flags) (setLine .busy s)) := by
  change Host.Outcome.next (receiveFrame sender (.announce seq lot code length flags) s) = _
  rw [receiveFrame_heard hs]
  exact congrArg _ (if_pos hup)

theorem exec_lotEndFrame {sender : BitVec 5} {seq : Seq} {lot : Lot} (hs : Hears s sender)
    (hup : sender.toNat = s.settings.upstream) : exec (.lotEndFrame sender seq lot) s =
      .next (takeHandover seq (.marker seq lot) (setLine .busy s)) := by
  change Host.Outcome.next (receiveFrame sender (.lotEnd seq lot) s) = _
  rw [receiveFrame_heard hs]
  exact congrArg _ (if_pos hup)

/-- Settles O44: the sequence check case by case; no MARKER comes to the head. -/
theorem announceRunsSequenceCheck : Obligations.AnnounceRunsSequenceCheck := by
  unfold Obligations.AnnounceRunsSequenceCheck
  intro s sender seq lot code length flags hs hup hhead d r
  have hstep : seqStep seq (setLine .busy s).link.expectedSeq = d := rfl
  have hline : (takeHandover seq r (setLine .busy s)).link.line = .busy :=
    takeHandover_keeps (setLine .busy s) seq r .line (by decide)
  have hrecord : ∀ x ∈ [r], isMarker x = false := by simp [r, announceRecord, isMarker]
  refine ⟨_, exec_announceFrame hs hup, hline, fun hd => takeHandover_expected (hstep ▸ hd), fun hd => ?_,
    fun hd hlen => ?_, fun hd hlen => ?_, fun e he h1 h8 hlen => ?_, fun h9 h254 hlen => ?_⟩
  · rw [takeHandover_repeat (hstep.trans hd)]
    exact setLine_keeps_line .busy s
  · rw [takeHandover_files (hstep ▸ (by omega)) (appendChecked_next hd hlen)
      (noMarkerFirst_append hhead hrecord)]
    exact ⟨rfl, filed_keeps seq [r] s⟩
  · rw [takeHandover_files (hstep ▸ (by omega)) (appendChecked_full hd hlen)
      hhead]
    exact ⟨rfl, rfl, ((taken_keeps seq s).mono (by decide)).trans
      ((countLine_keeps_counters 1 _ fun _ => rfl).mono (by decide))⟩
  · have hd : d = (seq - e).toNat := by simp only [d, he]
    rw [hd] at h1 h8 hlen ⊢
    rw [takeHandover_files (hstep ▸ (by omega)) (appendChecked_gap he h1 h8 hlen)
      (noMarkerFirst_append hhead fun x hx => (List.mem_append.1 hx).elim (standIns_no_marker _ _ _ x)
        (hrecord x))]
    exact ⟨(List.append_assoc _ _ _).symm, rfl, ((filed_keeps seq _ s).mono (by decide)).trans
      ((countLine_keeps_counters _ _ fun _ => rfl).mono (by decide))⟩
  · rw [takeHandover_files (hstep ▸ (by omega)) (appendChecked_loss h9 hlen)
      (noMarkerFirst_append hhead hrecord)]
    exact ⟨rfl, rfl, ((filed_keeps seq _ s).mono (by decide)).trans
      ((countLine_keeps_counters 1 _ fun _ => rfl).mono (by decide))⟩

/-- Settles O45: behind other records the marker is filed, in an empty list it is at the head at once. -/
theorem lotEndFilesOrProcessesMarker : Obligations.LotEndFilesOrProcessesMarker := by
  intro s sender seq lot hs hup hexpected
  have hexec := exec_lotEndFrame (seq := seq) (lot := lot) hs hup
  have hstep : seqStep seq s.link.expectedSeq = 0 := by
    rcases hexpected with h | h <;> rw [h] <;> simp [seqStep]
  have hnot : seqStep seq (setLine .busy s).link.expectedSeq ≠ 255 := by
    change seqStep seq s.link.expectedSeq ≠ 255; omega
  refine ⟨fun first rest htracks hfirst hlen => ?_, fun htracks hset hdown hlen => ?_⟩
  · have hhead : NoMarkerFirst (filed seq [.marker seq lot] s).tracks := by
      intro q l rest' h
      change s.tracks ++ [_] = _ at h
      rw [htracks] at h
      rw [(List.cons.inj h).1] at hfirst
      cases hfirst
    rw [takeHandover_files hnot (appendChecked_next hstep hlen) hhead] at hexec
    exact ⟨_, hexec, rfl, rfl, rfl, filed_keeps seq _ s⟩
  · let x := filed seq [.marker seq lot] s
    have hlen' : s.tracks.length < 24 := by rw [htracks]; decide
    have hx : x.tracks = [.marker seq lot] := by
      change s.tracks ++ _ = _; rw [htracks]; rfl
    have htake : takeHandover seq (.marker seq lot) (setLine .busy s) = setTracks [] (processMarker lot x) := by
      refine (if_neg hnot).trans ?_
      rw [appendChecked_next hstep hlen']
      exact lookAtHead_oneMarker hx nofun
    rw [htake] at hexec
    have hroom : Room 10 x := room_of_length hlen
    obtain ⟨hkeep, -, hseq, hmem, htally, hbays⟩ := processMarker_room (s := x) (n := 10) le_rfl hroom hset
      hdown lot
    have hcounters : (processMarker lot x).tally.counters = s.tally.counters.map (latchCounter lot) :=
      congrArg Tally.counters htally
    generalize processMarker lot x = y at *
    have hset' : x.settings = s.settings := rfl
    have hbays' : x.bays = s.bays := rfl
    refine ⟨_, hexec, rfl, hkeep .expectedSeq (by decide), hseq, hmem, fun b hb hf hl => ?_, fun b hb => ?_,
      hcounters, ?_⟩
    · refine (hbays b).trans ?_
      rw [hbays']
      exact if_pos ⟨hb, hl, hf⟩
    · refine (hbays b).trans ?_
      rw [hbays']
      exact if_neg fun h => hb.elim (fun hn => hn h.2.2) fun hn => hn h.2.1
    · exact (((filed_keeps seq _ s).mono (by decide)).trans (hkeep.mono (by decide))).trans
        ((setTracks_keeps [] y).mono (by decide)) |>.without_tracks htracks.symm

end Sys2Proof.Machine
end

section
/-! SUPPORT. The pace law of R156 and R157 along a step: where the records, the bays or the queue change, the
pace unit evaluates; where they stand, so does the law. -/

namespace Sys2Proof.Machine

variable {s t u : State}

/-! ## What the law reads -/

/-- Station, settings, pace, and what the need of R156 is read off. -/
def paceView (s : State) : Station × Settings × Pace × Nat × Nat × (BayNo → BayState) :=
  (s.station, s.settings, s.pace, onBeltCount s.tracks, keptCount s, fun b => (s.bays.get b).state)

theorem PaceLaw.of_view (h : paceView t = paceView s) (hl : PaceLaw s) : PaceLaw t := by
  simp only [paceView, Prod.mk.injEq] at h
  obtain ⟨hstation, hsettings, hpace, hbelt, hkept, hbays⟩ := h
  have hbay : ∀ b, (t.bays.get b).state = (s.bays.get b).state := congrFun hbays
  have hcrowded : isCrowded t = isCrowded s := by
    simp only [isCrowded, isConfigured, isBusy, hbelt, hkept, hsettings, hbay]
  have hneed : paceNeed t = paceNeed s := by simp only [paceNeed, hcrowded, hsettings]
  rw [paceLaw_iff] at hl ⊢
  rw [hstation, hpace, hneed]
  exact hl

/-- The parts the law reads, the track list aside. -/
def paceReads : List Part := [.station, .settings, .bays, .pace, .queue]

/-- A change that leaves the number of ON_BELT records and what else the law reads. -/
theorem KeepsBut.paceLaw_count {ps : List Part} (h : KeepsBut ps s t)
    (hc : onBeltCount t.tracks = onBeltCount s.tracks) (hl : PaceLaw s)
    (hp : ∀ p ∈ paceReads, p ∉ ps := by decide) : PaceLaw t := by
  have hstation : t.station = s.station := h .station (hp .station (by decide))
  have hsettings : t.settings = s.settings := h .settings (hp .settings (by decide))
  have hpace : t.pace = s.pace := h .pace (hp .pace (by decide))
  have hqueue : t.link.queue = s.link.queue := (h .queue (hp .queue (by decide))).1
  have hbays : t.bays = s.bays := h.bays (hp .bays (by decide))
  refine .of_view ?_ hl
  simp only [paceView, keptCount, hstation, hsettings, hpace, hc, hqueue, hbays]

/-- A change of nothing that the law reads. -/
theorem KeepsBut.paceLaw {ps : List Part} (h : KeepsBut ps s t) (hl : PaceLaw s)
    (hp : ∀ p ∈ Part.tracks :: paceReads, p ∉ ps := by decide) : PaceLaw t :=
  h.paceLaw_count (congrArg onBeltCount (h .tracks (hp .tracks (by decide)))) hl
    fun p hm => hp p (List.mem_cons_of_mem _ hm)

theorem PaceLaw.ite {c : Prop} [Decidable c] (hl : PaceLaw s) (h : PaceLaw t) :
    PaceLaw (if c then t else s) := by
  split
  · exact h
  · exact hl

theorem setTracks_paceLaw {xs : List Record} (hc : onBeltCount xs = onBeltCount s.tracks) (hl : PaceLaw s) :
    PaceLaw (setTracks xs s) := (setTracks_keeps xs s).paceLaw_count hc hl

/-! ## Evaluations -/

/-- pace_out stands by R157 in an ACTIVE station. -/
def OutLaw (s : State) : Prop := s.station = .active → s.pace.paceOut = paceResult s.pace

theorem PaceLaw.out (hl : PaceLaw s) : OutLaw s := fun ha => ((paceLaw_iff s).1 hl ha).2

theorem OutLaw.congr (h1 : t.station = s.station) (h2 : t.pace = s.pace) (hl : OutLaw s) : OutLaw t := by
  unfold OutLaw
  rw [h1, h2]; exact hl

/-- An evaluation brings the law about from whatever pace_own it finds. -/
theorem evalPace_law (h : OutLaw s) : PaceLaw (evalPace s) := by
  by_cases ha : s.station = .active
  · exact evalPace_paceLaw (h ha)
  · have hstation : (evalPace s).station = s.station := evalPace_keeps s .station (by decide)
    intro hactive
    exact absurd (hstation.symm.trans hactive) ha

/-- A change that leaves the station and the pace is evaluated. -/
theorem evalPace_after {ps : List Part} (h : KeepsBut ps s t) (hl : PaceLaw s)
    (hp : ∀ p ∈ [Part.station, .pace], p ∉ ps := by decide) : PaceLaw (evalPace t) :=
  evalPace_law (hl.out.congr (h .station (hp .station (by decide))) (h .pace (hp .pace (by decide))))

/-- A change of the queue is evaluated where the number of kept frames has changed (R156). -/
theorem evalIfKeptChanged_paceLaw {ps : List Part} (h : KeepsBut ps s t) (hl : PaceLaw s)
    (hp : ∀ p ∈ [Part.tracks, .station, .settings, .bays, .pace], p ∉ ps := by decide) :
    PaceLaw (evalIfKeptChanged s t) := by
  have hstation : t.station = s.station := h .station (hp .station (by decide))
  have hpace : t.pace = s.pace := h .pace (hp .pace (by decide))
  unfold evalIfKeptChanged; split
  next hkept =>
    have hsettings : t.settings = s.settings := h .settings (hp .settings (by decide))
    have htracks : t.tracks = s.tracks := h .tracks (hp .tracks (by decide))
    have hbays : t.bays = s.bays := h.bays (hp .bays (by decide))
    refine .of_view ?_ hl
    simp only [paceView, hstation, hsettings, hpace, htracks, hkept, hbays]
  · exact evalPace_law (hl.out.congr hstation hpace)

theorem askFrame_paceLaw (body : FrameBody) (hl : PaceLaw s) : PaceLaw (askFrame body s) :=
  evalIfKeptChanged_paceLaw (askRaw_keeps s body) hl

/-- A new pace_in is relayed, and evaluated where the relay pushes a kept frame out (R155, R157, R167). -/
theorem setPaceIn_paceLaw (gap : Nat) (hl : PaceLaw s) : PaceLaw (setPaceIn gap s) := by
  let x : State := { s with pace := { s.pace with paceIn := gap } }
  obtain ⟨hown, hin, hout, -, -⟩ := relayPace_spec x
  have hkeep : KeepsBut sendParts x (relayPace x) := relayPace_keeps x
  have hstation : (relayPace x).station = s.station := hkeep .station (by decide)
  have hsettings : (relayPace x).settings = s.settings := hkeep .settings (by decide)
  have htracks : (relayPace x).tracks = s.tracks := hkeep .tracks (by decide)
  have hbays : (relayPace x).bays = s.bays := hkeep.bays (by decide)
  have hresult : (relayPace x).pace.paceOut = paceResult (relayPace x).pace := by
    rw [hout]; simp only [paceResult, hown, hin]
  have hset : setPaceIn gap s =
      if gap = s.pace.paceIn then s else evalIfKeptChanged s (relayPace x) := rfl
  rw [hset]
  generalize relayPace x = y at *
  split
  · exact hl
  · unfold evalIfKeptChanged; split
    next hkept =>
      rw [paceLaw_iff] at hl ⊢
      intro ha
      have hneed : paceNeed y = paceNeed s := paceNeed_congr htracks hbays hsettings hkept
      exact ⟨by rw [hneed, hown]; exact (hl (hstation.symm.trans ha)).1, hresult⟩
    · exact evalPace_law fun _ => hresult

/-! ## Stops -/

theorem setStops_paceLaw (st : Stops) (hl : PaceLaw s) : PaceLaw (setStops st s) :=
  (setStops_keeps s st).paceLaw hl

theorem addReason_paceLaw (r : StopReason) (hl : PaceLaw s) : PaceLaw (addReason r s) := by
  unfold addReason; dsimp only; split
  · exact hl
  · split
    · exact askFrame_paceLaw _ (setStops_paceLaw _ hl)
    · exact setStops_paceLaw _ hl

theorem clearReasons_paceLaw (hl : PaceLaw s) : PaceLaw (clearReasons s) := by
  unfold clearReasons; dsimp only; split
  · exact askFrame_paceLaw _ (setStops_paceLaw _ hl)
  · exact setStops_paceLaw _ hl

/-! ## Bays -/

theorem putBay_paceLaw (b : BayNo) (x : Bay) (hl : PaceLaw s) : PaceLaw (putBay b x s) := by
  have hset := setBays_keeps s (s.bays.set b x)
  unfold putBay; dsimp only; split
  next hstate =>
    refine .of_view ?_ hl
    have hstates : (fun c => ((s.bays.set b x).get c).state) = fun c => (s.bays.get c).state := by
      funext c
      rw [Four.get_set]; split
      next hc => rw [hc, hstate]
      · rfl
    simp only [paceView, keptCount, hstates]
  · exact (followLamp_keeps _).paceLaw (evalPace_after hset hl)

theorem discharge_paceLaw (b : BayNo) (hl : PaceLaw s) : PaceLaw (discharge b s) :=
  putBay_paceLaw b _ (askFrame_paceLaw _ (setPushers_keeps s _ |>.paceLaw hl))

theorem settleExpire_paceLaw (b : BayNo) (hl : PaceLaw s) : PaceLaw (settleExpire b s) := by
  unfold settleExpire; split
  · exact putBay_paceLaw b _ hl
  · exact discharge_paceLaw b hl

theorem startSettle_paceLaw (b : BayNo) (hl : PaceLaw s) : PaceLaw (startSettle b s) := by
  unfold startSettle; split
  · exact settleExpire_paceLaw b hl
  · exact putBay_paceLaw b _ hl

/-- A bay replaced, and settled under a condition. -/
theorem putBay_settle_paceLaw (b : BayNo) (x : Bay) (c : Prop) [Decidable c] (hl : PaceLaw s) :
    PaceLaw (if c then startSettle b (putBay b x s) else putBay b x s) :=
  .ite (putBay_paceLaw b x hl) (startSettle_paceLaw b (putBay_paceLaw b x hl))

theorem closeBay_paceLaw (b : BayNo) (r : CloseReason) (hl : PaceLaw s) : PaceLaw (closeBay b r s) :=
  .ite hl (putBay_settle_paceLaw b _ _ hl)

theorem landPiece_paceLaw (b : BayNo) (hl : PaceLaw s) : PaceLaw (landPiece b s) :=
  .ite hl (putBay_settle_paceLaw b _ _ hl)

theorem purgeBay_paceLaw (b : BayNo) (hl : PaceLaw s) : PaceLaw (purgeBay b s) :=
  .ite hl (putBay_settle_paceLaw b _ _ hl)

theorem closeLotBay_paceLaw (lot : Lot) (b : BayNo) (hl : PaceLaw s) : PaceLaw (closeLotBay lot b s) :=
  .ite hl (closeBay_paceLaw b _ hl)

theorem closeLot_paceLaw (lot : Lot) (hl : PaceLaw s) : PaceLaw (closeLot lot s) :=
  closeLotBay_paceLaw lot .b4 (closeLotBay_paceLaw lot .b3 (closeLotBay_paceLaw lot .b2
    (closeLotBay_paceLaw lot .b1 hl)))

theorem reserveBay_paceLaw (b : BayNo) (hl : PaceLaw s) : PaceLaw (reserveBay b s) := by
  unfold reserveBay; dsimp only; split <;> exact putBay_paceLaw b _ hl

theorem claimBay_paceLaw (b : BayNo) (lot : Lot) (code : Code) (target : Nat) (hl : PaceLaw s) :
    PaceLaw (claimBay b lot code target s) := .ite hl (putBay_paceLaw b _ hl)

theorem clearBay_paceLaw (b : BayNo) (hl : PaceLaw s) : PaceLaw (clearBay b s) :=
  .ite hl (putBay_paceLaw b _ hl)

/-! ## Markers and fates -/

theorem queueHandover_paceLaw (frame : Seq → FrameBody) (hl : PaceLaw s) :
    PaceLaw (queueHandover frame s) := by
  unfold queueHandover; split
  · exact hl
  · exact askFrame_paceLaw _ (.of_view (s := s) rfl hl)

theorem processMarker_paceLaw (lot : Lot) (hl : PaceLaw s) : PaceLaw (processMarker lot s) := by
  unfold processMarker; dsimp only
  refine queueHandover_paceLaw _ ?_
  exact (latchTally_keeps lot (closeLot lot s)).paceLaw (closeLot_paceLaw lot hl)

theorem processHeads_paceLaw (n : Nat) : ∀ s : State, PaceLaw s → PaceLaw (processHeads n s) := by
  induction n with
  | zero => exact fun _ hl => hl
  | succ n ih =>
    intro s hl; unfold processHeads; split
    next q lot rest htracks =>
      refine ih _ (setTracks_paceLaw ?_ (processMarker_paceLaw lot hl))
      rw [processMarker_tracks, htracks]
      simp [onBeltCount, isOnBelt]
    · exact hl

theorem lookAtHead_paceLaw (hl : PaceLaw s) : PaceLaw (lookAtHead s) := processHeads_paceLaw _ s hl

theorem takeOut_paceLaw (n : LocalNo) (hl : PaceLaw s) : PaceLaw (takeOut n s) :=
  evalPace_after (setTracks_keeps _ s) hl

theorem countPiece_paceLaw (ev : TallyEvent) (l : Lot) (c : Code) (hl : PaceLaw s) :
    PaceLaw (countPiece ev l c s) := .of_view (s := s) rfl hl

theorem countLine_paceLaw (ev : TallyEvent) (n : Nat) (hl : PaceLaw s) : PaceLaw (countLine ev n s) :=
  .of_view (s := s) rfl hl

theorem endPiece_paceLaw (f : Fate) (n : LocalNo) (hl : PaceLaw s) : PaceLaw (endPiece f n s) := by
  unfold endPiece; split
  · exact hl
  next p i _ =>
    have hdrop : PaceLaw { s with schedule := dropPiece n s.schedule } := .of_view (s := s) rfl hl
    exact lookAtHead_paceLaw (takeOut_paceLaw n (countPiece_paceLaw _ _ _ hdrop))

theorem stackPiece_paceLaw (b : BayNo) (n : LocalNo) (hl : PaceLaw s) : PaceLaw (stackPiece b n s) := by
  unfold stackPiece; split
  · exact hl
  · exact endPiece_paceLaw _ n (landPiece_paceLaw b hl)

theorem passPiece_paceLaw (n : LocalNo) (hl : PaceLaw s) : PaceLaw (passPiece n s) := by
  unfold passPiece; split
  · exact hl
  · exact endPiece_paceLaw _ n (queueHandover_paceLaw _ hl)

/-! ## The schedule -/

theorem closeFate_paceLaw (g : Gate) (n : LocalNo) (hl : PaceLaw s) : PaceLaw (closeFate g s n) := by
  cases g
  case bay b => exact stackPiece_paceLaw b n hl
  case reject => exact endPiece_paceLaw _ n hl

theorem checkExit_paceLaw (n : LocalNo) (hl : PaceLaw s) : PaceLaw (checkExit s n) := by
  unfold checkExit; split
  · split
    · exact hl
    · exact endPiece_paceLaw _ n hl
  · exact hl

theorem fireEntry_paceLaw (e : SchedEntry) (hl : PaceLaw s) : PaceLaw (fireEntry e s) := by
  have hgate : ∀ g o, PaceLaw (setGate g o s) := fun g o => (setGate_keeps s g o).paceLaw hl
  unfold fireEntry; split
  · exact (fireJet_keeps s _).paceLaw hl
  · exact hgate _ _
  · exact foldl_keeps_law (fun _ n => closeFate_paceLaw _ n) _ (hgate _ _)
  · exact foldl_keeps_law (fun _ n => checkExit_paceLaw n) _ hl

theorem fireReached_paceLaw (n : Nat) : ∀ s : State, PaceLaw s → PaceLaw (fireReached n s) := by
  induction n with
  | zero => exact fun _ hl => hl
  | succ n ih =>
    intro s hl; unfold fireReached; split
    · exact hl
    next e _ =>
      split
      · have hpopped : PaceLaw { s with schedule := withoutHead s.schedule } := .of_view (s := s) rfl hl
        exact ih _ (fireEntry_paceLaw e hpopped)
      · exact hl

/-! ## Planning and arrival -/

theorem eraseUnseen_paceLaw {p : Record → Bool} (hp : ∀ r, p r = true → isUnseen r = true)
    (hl : PaceLaw s) : PaceLaw (setTracks (s.tracks.eraseP p) s) :=
  setTracks_paceLaw (onBeltCount_eraseP (fun r hr => isOnBelt_of_unseen (hp r hr)) _) hl

theorem stageJudge_paceLaw (w : Work) (hl : PaceLaw s) : PaceLaw (stageJudge w s).2 := by
  unfold stageJudge; split
  · exact hl
  · split
    · exact hl
    · split
      · exact hl
      · split
        · split
          · exact lookAtHead_paceLaw (countPiece_paceLaw _ _ _ (countPiece_paceLaw _ _ _
              (eraseUnseen_paceLaw (fun _ h => h) hl)))
          · exact countPiece_paceLaw _ _ _ hl
        · exact hl

theorem stageRoute_paceLaw (w : Work) (hl : PaceLaw s) : PaceLaw (stageRoute w s).2 := by
  unfold stageRoute; split
  · exact hl
  · split
    · exact hl
    · dsimp only; split
      · exact reserveBay_paceLaw _ (claimBay_paceLaw _ _ _ _ hl)
      · exact hl

theorem planStages_paceLaw (w : Work) (hl : PaceLaw s) : PaceLaw (planStages w s) := by
  unfold planStages; dsimp only
  refine setTracks_paceLaw (count_kinds (updateLocal_kinds _ _ (fun _ _ => rfl) _)) ?_
  refine (stageInsert_keeps _ _).paceLaw ?_
  refine stageRoute_paceLaw _ ?_
  refine (stageFold_keeps _ _).paceLaw ?_
  refine (stageResolve_keeps _ _).paceLaw ?_
  exact stageJudge_paceLaw _ hl

theorem planPiece_paceLaw (p : Pos) (hl : PaceLaw s) : PaceLaw (planPiece p s) := by
  unfold planPiece; split
  · exact hl
  · exact planStages_paceLaw _ hl

theorem consumeOldest_paceLaw (hl : PaceLaw s) : PaceLaw (consumeOldest s) :=
  .ite hl (lookAtHead_paceLaw (eraseUnseen_paceLaw (fun _ h => h) hl))

theorem overrun_paceLaw (hl : PaceLaw s) : PaceLaw (overrun s) := by
  have hmarked : PaceLaw (markUntracked (countOverrun (consumeOldest s))) :=
    .of_view (s := consumeOldest s) rfl (consumeOldest_paceLaw hl)
  exact addReason_paceLaw _ hmarked

/-- A paired piece and an orphan are evaluated, an overrun leaves the number of ON_BELT records. -/
theorem arrive_paceLaw (q : Pos) (hl : PaceLaw s) : PaceLaw (arrive q s) := by
  unfold arrive; dsimp only; split
  · exact overrun_paceLaw hl
  · split
    · exact evalPace_law (hl.out.congr rfl rfl)
    · split
      · exact overrun_paceLaw hl
      · exact evalPace_law (hl.out.congr rfl rfl)

/-! ## Eyes and pulses -/

theorem putEye_paceLaw (e : Eye) (ch : EyeChannel) (hl : PaceLaw s) : PaceLaw (putEye e ch s) :=
  (putEye_keeps s e ch).paceLaw hl (by cases e <;> decide)

theorem testJam_paceLaw (e : Eye) (hl : PaceLaw s) : PaceLaw (testJam e s) := by
  unfold testJam; dsimp only; split
  · exact hl
  · split
    · exact addReason_paceLaw _ (putEye_paceLaw e _ hl)
    · exact hl

theorem judgeExit_paceLaw (q : Pos) (hl : PaceLaw s) : PaceLaw (judgeExit q s) := by
  unfold judgeExit; split
  · exact (strayEdge_keeps s).paceLaw hl
  next i _ =>
    split
    · have hseen : PaceLaw (setTracks (updateLocal i.localNo markSeen s.tracks) s) :=
        setTracks_paceLaw (count_kinds (updateLocal_kinds _ _ (fun _ _ => rfl) _)) hl
      exact .of_view (s := setTracks (updateLocal i.localNo markSeen s.tracks) s) rfl hseen
    · exact (strayEdge_keeps s).paceLaw hl

theorem leadingEdge_paceLaw (e : Eye) (q : Pos) (hl : PaceLaw s) : PaceLaw (leadingEdge e q s) := by
  unfold leadingEdge; dsimp only; split
  · exact testJam_paceLaw e (putEye_paceLaw e _ hl)
  · have hput := putEye_paceLaw e { eyeOf e s with coveredSince := some q } hl
    cases e
    case entry => exact arrive_paceLaw q hput
    case exit => exact judgeExit_paceLaw q hput

theorem recogniseEdge_paceLaw (e : Eye) (p : PendingEdge) (hl : PaceLaw s) :
    PaceLaw (recogniseEdge e p s) := by
  unfold recogniseEdge; dsimp only; split
  · exact leadingEdge_paceLaw e _ (putEye_paceLaw e _ hl)
  · exact putEye_paceLaw e _ hl

theorem reportConfirmed_paceLaw (e : Eye) (p : Pos) (hl : PaceLaw s) :
    PaceLaw (reportConfirmed e p s) := by
  cases e
  case entry =>
    change PaceLaw (confirmEntry p s)
    unfold confirmEntry; split
    · exact (clearUntracked_keeps s).paceLaw hl
    · exact planPiece_paceLaw p hl
  case exit =>
    refine (setOwner_keeps (passOwned s) none).paceLaw ?_
    unfold passOwned; split
    · exact passPiece_paceLaw _ hl
    · exact hl
    · exact hl

theorem testConfirm_paceLaw (e : Eye) (hl : PaceLaw s) : PaceLaw (testConfirm e s) := by
  unfold testConfirm; dsimp only; split
  · exact hl
  · split
    · exact reportConfirmed_paceLaw e _ (putEye_paceLaw e _ hl)
    · exact hl

theorem pulseInOrder_paceLaw (o : PulseOrder) (hl : PaceLaw s) : PaceLaw (pulseInOrder o s) :=
  reachKeys_keeps_law (fun e _ h => testJam_paceLaw e (testConfirm_paceLaw e h))
    (fun _ => fireReached_paceLaw _ _) o ((advancePulse_keeps s).paceLaw hl)

theorem windowEnd_paceLaw (hl : PaceLaw s) : PaceLaw (windowEnd s) := by
  let u := highAlarm s.settings (closeWindow s.belt)
  have hstall : PaceLaw (stallTest (followLamp (setBelt u s))) := by
    have hlamp : PaceLaw (followLamp (setBelt u s)) :=
      (followLamp_keeps (setBelt u s)).paceLaw (.of_view (s := s) rfl hl)
    unfold stallTest; split
    · exact addReason_paceLaw _ (.of_view (s := followLamp (setBelt u s)) rfl hlamp)
    · exact .of_view (s := followLamp (setBelt u s)) rfl hlamp
  exact .of_view (s := stallTest (followLamp (setBelt u s))) rfl hstall

/-! ## Windows and admission -/

theorem ghostOldest_paceLaw (hl : PaceLaw s) : PaceLaw (ghostOldest s) := by
  unfold ghostOldest; split
  · exact lookAtHead_paceLaw (countPiece_paceLaw _ _ _
      (eraseUnseen_paceLaw (fun _ => isUnseen_of_hasRunOut) hl))
  · exact hl

theorem ghostAll_paceLaw (n : Nat) : ∀ s : State, PaceLaw s → PaceLaw (ghostAll n s) := by
  induction n with
  | zero => exact fun _ hl => hl
  | succ n ih => exact fun s hl => .ite hl (ih _ (ghostOldest_paceLaw hl))

theorem tickWindows_paceLaw (hl : PaceLaw s) : PaceLaw (tickWindows s) :=
  ghostAll_paceLaw _ _ (setTracks_paceLaw (count_kinds (lowerWindow_kinds _)) hl)

theorem appendRecord_paceLaw {r : Record} (hr : isOnBelt r = false) (hl : PaceLaw s) :
    PaceLaw (appendRecord r s) := by
  have hc : onBeltCount (s.tracks ++ [r]) = onBeltCount s.tracks := by
    simp [onBeltCount, List.countP_append, hr]
  exact .ite (countLine_paceLaw _ _ hl) (setTracks_paceLaw hc hl)

theorem appendPlaceholders_paceLaw (n : Nat) : ∀ (q : Seq) (s : State), PaceLaw s →
    PaceLaw (appendPlaceholders n q s) := by
  induction n with
  | zero => exact fun _ _ hl => hl
  | succ n ih => exact fun q s hl => ih _ _ (appendRecord_paceLaw rfl hl)

theorem takeHandover_paceLaw {r : Record} (q : Seq) (hr : isOnBelt r = false) (hl : PaceLaw s) :
    PaceLaw (takeHandover q r s) := by
  have hexpected : PaceLaw { s with link := { s.link with expectedSeq := some (q + 1#8) } } :=
    .of_view (s := s) rfl hl
  have happend : PaceLaw (appendChecked q r s) := by
    unfold appendChecked; dsimp only; split
    · exact appendRecord_paceLaw hr hexpected
    · split
      · exact appendRecord_paceLaw hr (appendPlaceholders_paceLaw _ _ _ (countLine_paceLaw _ _ hexpected))
      · exact appendRecord_paceLaw hr (countLine_paceLaw _ _ hexpected)
  unfold takeHandover; split
  · exact hl
  · exact lookAtHead_paceLaw happend

/-! ## The link -/

theorem upstreamRestart_paceLaw (hl : PaceLaw s) : PaceLaw (upstreamRestart s) := by
  have hexpected : PaceLaw { s with link := { s.link with expectedSeq := none } } := .of_view (s := s) rfl hl
  unfold upstreamRestart; dsimp only; split
  · exact hexpected
  · exact askFrame_paceLaw _ hexpected

theorem takeStart_paceLaw (n : Nat) (hl : PaceLaw s) : PaceLaw (takeStart n s) := by
  have hrun : PaceLaw (takeRun n s) := setStops_paceLaw _ hl
  have hup : PaceLaw (if n = s.settings.upstream then upstreamRestart (takeRun n s) else takeRun n s) :=
    .ite hrun (upstreamRestart_paceLaw hrun)
  exact .ite hup (setPaceIn_paceLaw 0 hup)

theorem acceptFrame_paceLaw (n : Nat) (body : FrameBody) (hl : PaceLaw s) :
    PaceLaw (acceptFrame n body s) := by
  cases body
  case stop => exact setStops_paceLaw _ hl
  case run => exact setStops_paceLaw _ hl
  case start => exact takeStart_paceLaw n hl
  case announce => exact .ite hl (takeHandover_paceLaw _ rfl hl)
  case lotEnd => exact .ite hl (takeHandover_paceLaw _ rfl hl)
  case pace => exact .ite hl (setPaceIn_paceLaw _ hl)
  case stack => exact hl
  case tallyQuery => exact .ite hl (askFrame_paceLaw _ hl)
  case tally => exact hl

theorem receiveFrame_paceLaw (n : BitVec 5) (body : FrameBody) (hl : PaceLaw s) :
    PaceLaw (receiveFrame n body s) := by
  have hline : PaceLaw (setLine .busy s) := .of_view (s := s) rfl hl
  unfold receiveFrame; dsimp only; split
  · split
    · exact countLine_paceLaw _ _ hline
    · split
      · exact hline
      · exact acceptFrame_paceLaw _ _ hline
  · exact hl

theorem receiveBits_paceLaw (bits : List Bool) (hl : PaceLaw s) : PaceLaw (receiveBits bits s) := by
  unfold receiveBits; split
  · split
    · exact receiveFrame_paceLaw _ _ hl
    · exact (KeepsBut.ite (discardFrame_keeps s)).paceLaw hl
    · exact (KeepsBut.ite (discardFrame_keeps s)).paceLaw hl
  · exact hl

/-! ## The panel and the purge -/

theorem pressStop_paceLaw (hl : PaceLaw s) : PaceLaw (pressStop s) := by
  have hadd : PaceLaw (addReason .operator (putButton .stop (recognised true) s)) :=
    addReason_paceLaw _ ((putButton_keeps s .stop _).paceLaw hl)
  unfold pressStop; dsimp only; split
  · exact (startHold_keeps _ _).paceLaw hadd
  · exact hadd

theorem pressRun_paceLaw (hl : PaceLaw s) : PaceLaw (pressRun s) := by
  have hput := (putButton_keeps s .run (recognised true)).paceLaw hl
  unfold pressRun; dsimp only; split
  · exact (startHold_keeps _ _).paceLaw hput
  · exact clearReasons_paceLaw hput

theorem pressClose_paceLaw (hl : PaceLaw s) : PaceLaw (pressClose s) := by
  have hput := (putButton_keeps s .close (recognised true)).paceLaw hl
  unfold pressClose; dsimp only; split
  · exact closeBay_paceLaw _ _ hput
  · exact hput

theorem purgePiece_paceLaw (n : LocalNo) (hl : PaceLaw s) : PaceLaw (purgePiece s n) := by
  unfold purgePiece; split
  · exact hl
  · exact takeOut_paceLaw n (countPiece_paceLaw _ _ _ hl)

theorem purge_paceLaw (hl : PaceLaw s) : PaceLaw (purge s) := by
  have hpieces : PaceLaw (purgePieces s) := foldl_keeps_law (fun _ n => purgePiece_paceLaw n) _ hl
  have hsched := (purgeSchedule_keeps (purgePieces s)).paceLaw hpieces
  have hbays : PaceLaw (purgeBays (purgeSchedule (purgePieces s))) :=
    purgeBay_paceLaw .b4 (purgeBay_paceLaw .b3 (purgeBay_paceLaw .b2 (purgeBay_paceLaw .b1 hsched)))
  have heyes := (purgeEyeChannels_keeps _).paceLaw hbays
  exact evalPace_law (lookAtHead_paceLaw heyes).out

/-! ## Every command -/

theorem paceLaw_of_inactive (h : s.station ≠ .active) : PaceLaw s := fun ha => absurd ha h

theorem afterReset_paceLaw (s : State) : PaceLaw (afterReset s) := by
  have hstation : (afterReset s).station = .loading := rfl
  exact paceLaw_of_inactive (by rw [hstation]; decide)

theorem enterActive_paceLaw (c : Settings) (table : List CategoryEntry) (map : List (Option Nat))
    (counters : List Counter) (s : State) : PaceLaw (enterActive c table map counters s) := by
  unfold enterActive
  rw [restart_started]
  exact evalPace_law fun _ => rfl

theorem execLoadComplete_paceLaw {img : List Byte} (hl : PaceLaw s) (h : execLoadComplete img s = .next t) :
    PaceLaw t := by
  rcases execLoadComplete_cases h with
    ⟨code, table, map, -, -, ht⟩ | ⟨c, table, map, counters, -, -, ht⟩ | ⟨-, ht⟩
  · rw [ht]; exact paceLaw_of_inactive nofun
  · rw [ht]; exact enterActive_paceLaw c table map counters s
  · rw [ht]; exact hl

theorem execEdgeRecognition_paceLaw (e : Eye) (hl : PaceLaw s) :
    LawIn PaceLaw (execEdgeRecognition e s) := by
  unfold execEdgeRecognition; split
  · exact .next hl
  · exact .guarded hl fun _ => recogniseEdge_paceLaw _ _ hl

theorem execPurgeHoldExpiry_paceLaw (hl : PaceLaw s) : LawIn PaceLaw (execPurgeHoldExpiry s) := by
  have hend : PaceLaw (endHold s) := (endHold_keeps s).paceLaw hl
  unfold execPurgeHoldExpiry; split
  · exact .next hl
  · split
    · exact .next (purge_paceLaw (.of_view (s := endHold s) rfl hend))
    · exact .next hend

theorem exec_paceLaw (i : Instr) (s t : State) (hl : PaceLaw s) (h : exec i s = .next t) : PaceLaw t := by
  have hkeep : isRestart i = false → (∀ p ∈ Part.tracks :: paceReads, p ∉ commandParts i) → PaceLaw t :=
    fun hi hp => (exec_keeps s hi h).paceLaw hl hp
  have hrecv := fun n body => LawIn.next (receiveFrame_paceLaw n body hl)
  cases i with
  | reset => exact LawIn.next (P := PaceLaw) (t := afterReset s) (afterReset_paceLaw s) t h
  | loadComplete img => exact execLoadComplete_paceLaw (s := s) (t := t) (img := img) hl h
  | encoderPulse => exact LawIn.guarded hl (fun _ => pulseInOrder_paceLaw _ hl) t h
  | windowEnd => exact LawIn.guarded hl (fun _ => windowEnd_paceLaw hl) t h
  | edgeRecognition e => exact execEdgeRecognition_paceLaw e hl t h
  | stopPress => exact LawIn.guarded hl (fun _ => pressStop_paceLaw hl) t h
  | runPress => exact LawIn.guarded hl (fun _ => pressRun_paceLaw hl) t h
  | closePress => exact LawIn.guarded hl (fun _ => pressClose_paceLaw hl) t h
  | bayHighRise b =>
    exact LawIn.guarded hl (fun _ => closeBay_paceLaw b _ ((setBayInput_keeps s .high b true).paceLaw hl)) t h
  | bayClearRise b =>
    exact LawIn.guarded hl (fun _ => clearBay_paceLaw b ((setBayInput_keeps s .clear b true).paceLaw hl)) t h
  | purgeHoldExpiry => exact execPurgeHoldExpiry_paceLaw hl t h
  | timeBaseTick => exact LawIn.guarded hl (fun _ => tickWindows_paceLaw hl) t h
  | ghost => exact LawIn.guarded hl (fun _ => ghostOldest_paceLaw hl) t h
  | settleTimerExpiry b =>
    refine LawIn.guarded (c := bayLive s b = true ∧ _) hl (fun _ => settleExpire_paceLaw b ?_) t h
    rw [← putBay_same (s := s) (b := b) (x := { s.bays.get b with settle := none }) rfl]
    exact putBay_paceLaw b _ hl
  | dischargeTimeout b => exact LawIn.guarded hl (fun _ => putBay_paceLaw b _ hl) t h
  | damagedFrame bits => exact LawIn.next (receiveBits_paceLaw bits hl) t h
  | stopFrame n r => exact hrecv n _ t h
  | runFrame n => exact hrecv n _ t h
  | startFrame n up down => exact hrecv n _ t h
  | announceFrame n seq lot code len flags => exact hrecv n _ t h
  | lotEndFrame n seq lot => exact hrecv n _ t h
  | paceFrame n gap => exact hrecv n _ t h
  | tallyQuery n target item index => exact hrecv n _ t h
  | framePassedOver n body => exact hrecv n body t h
  | frameSent => exact LawIn.guarded hl (fun _ => evalIfKeptChanged_paceLaw (dequeueSent_keeps s) hl) t h
  | eyeRawChange e l => exact hkeep rfl (by cases e <;> simp [paceReads, commandParts, eyePart])
  | _ => exact hkeep rfl (by simp [paceReads, commandParts])

theorem step_paceLaw (hl : PaceLaw s) (h : step s = .next t) : PaceLaw t :=
  step_keeps_law (P := PaceLaw) (fun s _ hs => .of_view (s := s) rfl hs) exec_paceLaw hl h

/-! ## A PACE frame -/

/-- The state once a PACE frame's gap is taken and relayed, no frame being lost (R155, R157). -/
def relayed (gap : Nat) (s : State) : State :=
  let out := min (max gap s.pace.paceOwn) 5000
  { s with
    pace := ⟨gap, s.pace.paceOwn, out⟩
    link := if out = s.pace.paceOut ∨ s.settings.upstream = 0 then s.link
      else { s.link with
        queue := insertFrame ⟨.pace (BitVec.ofNat 16 out), s.link.nextAge⟩ (otherFrames s.link.queue)
        nextAge := s.link.nextAge + 1 } }

theorem keptCount_relayed (gap : Nat) (s : State) : keptCount (relayed gap s) = keptCount s := by
  unfold keptCount relayed; dsimp only; split
  · rfl
  · dsimp only
    rw [countP_insertFrame, countP_kept_otherFrames]
    rfl

/-- With places left a new pace_in is relayed and no kept frame leaves; an old one changes nothing. -/
theorem setPaceIn_room {n : Nat} (hn : n ≤ 11) (h : Room n s) (gap : Nat)
    (hout : s.pace.paceOut = min (max s.pace.paceIn s.pace.paceOwn) 5000) :
    setPaceIn gap s = relayed gap s := by
  unfold setPaceIn; split
  next hgap =>
    unfold relayed
    rw [hgap, ← hout]
    simp
  · have hrelay : relayPace { s with pace := { s.pace with paceIn := gap } } = relayed gap s :=
      relayPace_room hn (s := { s with pace := { s.pace with paceIn := gap } }) h
    rw [hrelay]
    exact if_pos (keptCount_relayed gap s)

theorem relayed_keeps (gap : Nat) (s : State) : KeepsBut [.pace, .queue] s (relayed gap s) := by
  intro p hp
  cases p <;> simp only [Part.same, List.mem_cons, List.not_mem_nil, or_false, not_true_eq_false,
    reduceCtorEq, or_true, and_self, relayed] at hp ⊢ <;> split <;> rfl

/-- Settles O46: every command keeps the law, and a PACE frame is one relay. -/
theorem paceFrameSetsAndRelays : Obligations.PaceFrameSetsAndRelays := by
  refine ⟨fun _ _ => step_paceLaw, fun s sender gap hs hdown hlen hout => ?_⟩
  let x := setLine .busy s
  have hexec : exec (.paceFrame sender gap) s = .next (setPaceIn gap.toNat x) := by
    change Host.Outcome.next (receiveFrame sender (.pace gap) s) = _
    rw [receiveFrame_heard hs]
    exact congrArg _ (if_pos hdown)
  rw [setPaceIn_room (s := x) le_rfl (room_of_length (Nat.le_of_lt_succ hlen)) _ hout] at hexec
  refine ⟨_, hexec, rfl, rfl, rfl, relayed_keeps gap.toNat x .line (by decide), fun hne hup => ?_,
    fun h => ?_, ?_⟩
  · have hlink : (relayed gap.toNat x).link = _ := if_neg (not_or.2 ⟨hne, hup⟩)
    rw [hlink]
    exact mem_insertFrame.2 (Or.inl rfl)
  · have hlink : (relayed gap.toNat x).link = x.link := if_pos h
    change (relayed gap.toNat x).link.queue = _ ∧ (relayed gap.toNat x).link.nextAge = _
    rw [hlink]
    exact ⟨rfl, rfl⟩
  · exact ((setLine_keeps_line .busy s).mono (by decide)).trans ((relayed_keeps _ x).mono (by decide))

end Sys2Proof.Machine
end

section
/-! SUPPORT. The bits of a frame (R160 to R162, R168): what is written on the line is read back. -/

namespace Sys2Proof.Machine

/-! ## Fields -/

@[simp] theorem length_bitsMsb {w : Nat} (x : BitVec w) : (bitsMsb x).length = w := by simp [bitsMsb]

theorem ofBits_append_bit (bs : List Bool) (b : Bool) : ofBits (bs ++ [b]) = 2 * ofBits bs + b.toNat := by
  simp [ofBits]

/-- The first `k` bits of a field spell its number without the bits behind them. -/
theorem ofBits_first {w : Nat} (x : BitVec w) (k : Nat) (hk : k ≤ w) :
    ofBits ((List.range k).map fun i => x.getMsbD i) = x.toNat / 2 ^ (w - k) := by
  induction k with
  | zero => rw [Nat.sub_zero, Nat.div_eq_of_lt x.isLt]; rfl
  | succ k ih =>
    have hbit : x.getMsbD k = x.toNat.testBit (w - (k + 1)) := by
      rw [BitVec.getMsbD, decide_eq_true (Nat.lt_of_succ_le hk), Bool.true_and, BitVec.getLsbD,
        Nat.sub_sub, Nat.add_comm 1 k]
    have hpow : 2 ^ (w - k) = 2 ^ (w - (k + 1)) * 2 := by
      rw [← Nat.pow_succ]; congr 1; omega
    rw [List.range_succ, List.map_append, List.map_singleton, ofBits_append_bit, ih (Nat.le_of_succ_le hk),
      hbit, hpow, ← Nat.div_div_eq_div_mul, Nat.toNat_testBit]
    omega

theorem ofBits_bitsMsb {w : Nat} (x : BitVec w) : ofBits (bitsMsb x) = x.toNat := by
  rw [bitsMsb, ofBits_first x w le_rfl]
  simp

theorem ofNat_ofBits_bitsMsb {w : Nat} (x : BitVec w) : BitVec.ofNat w (ofBits (bitsMsb x)) = x := by
  rw [ofBits_bitsMsb, BitVec.ofNat_toNat, BitVec.setWidth_eq]

/-! ## Bytes and bodies -/

theorem bytesOfBits_flatMap (bytes : List Byte) :
    bytesOfBits bytes.length (bytes.flatMap bitsMsb) = bytes := by
  induction bytes with
  | nil => rfl
  | cons x xs ih =>
    have htake : (bitsMsb x ++ xs.flatMap bitsMsb).take 8 = bitsMsb x :=
      List.take_left' (length_bitsMsb x)
    have hdrop : (bitsMsb x ++ xs.flatMap bitsMsb).drop 8 = xs.flatMap bitsMsb :=
      List.drop_left' (length_bitsMsb x)
    rw [List.length_cons, List.flatMap_cons, bytesOfBits, htake, hdrop, ofNat_ofBits_bitsMsb, ih]

theorem length_flatMap_bitsMsb (bytes : List Byte) : (bytes.flatMap bitsMsb).length = 8 * bytes.length := by
  induction bytes with
  | nil => rfl
  | cons x xs ih =>
    rw [List.flatMap_cons, List.length_append, length_bitsMsb, ih, List.length_cons]; omega

theorem twoBytes_hi_lo (x : BitVec 16) : twoBytes (hiByte x) (loByte x) = x := by
  unfold twoBytes hiByte loByte
  exact (BitVec.extractLsb'_append_extractLsb'_eq_extractLsb' (by omega)).trans BitVec.extractLsb'_eq_self

theorem fourBytes_append (x : BitVec 32) :
    x.extractLsb' 24 8 ++ x.extractLsb' 16 8 ++ x.extractLsb' 8 8 ++ x.extractLsb' 0 8 = x := by
  rw [BitVec.extractLsb'_append_extractLsb'_eq_extractLsb' (by omega),
    BitVec.extractLsb'_append_extractLsb'_eq_extractLsb' (by omega),
    BitVec.extractLsb'_append_extractLsb'_eq_extractLsb' (by omega)]
  exact BitVec.extractLsb'_eq_self

/-- Kind and bytes of a body spell the body (R162). -/
theorem parseBody_bodyBytes (body : FrameBody) : parseBody (frameKind body) (bodyBytes body) = some body := by
  cases body <;> simp [parseBody, frameKind, bodyBytes, twoBytes_hi_lo, fourBytes_append]

/-- No body is longer than seven bytes (R162). -/
theorem length_bodyBytes_le (body : FrameBody) : (bodyBytes body).length ≤ 7 := by
  cases body <;> simp [bodyBytes]

/-! ## Marks -/

theorem length_addMarks (xs : List Bool) : ∀ n, n ≤ 7 →
    (addMarks n xs).length = xs.length + (n + xs.length) / 8 := by
  induction xs with
  | nil => intro n hn; simp [addMarks]; omega
  | cons b bs ih =>
    intro n hn
    unfold addMarks; split
    · rw [List.length_cons, List.length_cons, ih 0 (by omega), List.length_cons]; omega
    · rw [List.length_cons, ih (n + 1) (by omega), List.length_cons]; omega

/-- The reading of content takes out the marks its writing put in. -/
theorem readContent_addMarks (xs ys zs : List Bool) : ∀ n, n ≤ 7 →
    readContent xs.length n (addMarks n (xs ++ ys) ++ zs) =
      some (xs, (n + xs.length) % 8, addMarks ((n + xs.length) % 8) ys ++ zs) := by
  induction xs with
  | nil =>
    intro n hn
    have hmod : n % 8 = n := Nat.mod_eq_of_lt (by omega)
    simp [readContent, hmod]
  | cons b bs ih =>
    intro n hn
    by_cases h7 : n = 7
    · subst h7
      have hmod : (0 + bs.length) % 8 = (7 + (b :: bs).length) % 8 := by
        rw [List.length_cons]; omega
      simp only [List.cons_append, addMarks, List.length_cons, readContent, if_true, List.headD_cons,
        List.drop_succ_cons, List.drop_zero, ih 0 (by omega), Option.map_some, Bool.false_eq_true, if_false]
      rw [hmod, List.length_cons]
    · have hmod : (n + 1 + bs.length) % 8 = (n + (b :: bs).length) % 8 := by
        rw [List.length_cons]; congr 1; omega
      simp only [List.cons_append, addMarks, List.length_cons, readContent, if_neg h7, List.headD_cons,
        List.drop_succ_cons, List.drop_zero, ih (n + 1) (by omega), Option.map_some]
      rw [hmod, List.length_cons]

/-! ## Frames -/

/-- Kind, sender and body length as bits (R160). -/
def headerBits (sender : BitVec 5) (body : FrameBody) : List Bool :=
  bitsMsb (frameKind body) ++ bitsMsb sender ++ bitsMsb (BitVec.ofNat 4 (bodyBytes body).length)

theorem length_headerBits (sender : BitVec 5) (body : FrameBody) : (headerBits sender body).length = 13 := by
  simp [headerBits]

/-- The three fields of a header, each read from its place. -/
theorem headerBits_fields (sender : BitVec 5) (body : FrameBody) :
    (headerBits sender body).take 4 = bitsMsb (frameKind body)
      ∧ ((headerBits sender body).drop 4).take 5 = bitsMsb sender
      ∧ (headerBits sender body).drop 9 = bitsMsb (BitVec.ofNat 4 (bodyBytes body).length) := by
  have hkind := length_bitsMsb (frameKind body)
  have hsender := length_bitsMsb sender
  unfold headerBits
  refine ⟨?_, ?_, ?_⟩
  · rw [List.append_assoc, List.take_left' hkind]
  · rw [List.append_assoc, List.drop_left' hkind, List.take_left' hsender]
  · exact List.drop_left' (by simp)

/-- The length field spells the number of body bytes. -/
theorem ofBits_length_field (body : FrameBody) :
    ofBits (bitsMsb (BitVec.ofNat 4 (bodyBytes body).length)) = (bodyBytes body).length := by
  have := length_bodyBytes_le body
  rw [ofBits_bitsMsb, BitVec.toNat_ofNat, Nat.mod_eq_of_lt (by omega)]

/-- The judgement of what the line gave back: the check fits, and kind, sender and bytes spell the frame. -/
theorem judgeContent_frame {sender : BitVec 5} (h : validSender sender = true) (body : FrameBody) :
    judgeContent (headerBits sender body) ((bodyBytes body).flatMap bitsMsb) (bodyBytes body).length
      (bitsMsb (crcBits (headerBodyBits sender body))) = .wellFormed sender body := by
  obtain ⟨hkind, hsender, -⟩ := headerBits_fields sender body
  have hcheck : headerBits sender body ++ (bodyBytes body).flatMap bitsMsb = headerBodyBits sender body := rfl
  unfold judgeContent
  rw [hcheck, if_neg (not_not.2 rfl), hkind, hsender, ofNat_ofBits_bitsMsb, ofNat_ofBits_bitsMsb,
    bytesOfBits_flatMap, parseBody_bodyBytes]
  exact if_pos h

theorem contentBits_eq (sender : BitVec 5) (body : FrameBody) : contentBits sender body =
    headerBits sender body ++ ((bodyBytes body).flatMap bitsMsb ++
      bitsMsb (crcBits (headerBodyBits sender body))) := by
  unfold contentBits
  rw [← List.append_assoc]
  rfl

theorem judgeBits_frame {sender : BitVec 5} (h : validSender sender = true) (body : FrameBody) :
    judgeBits (addMarks 0 (contentBits sender body) ++ [false]) = .wellFormed sender body := by
  let bodyBits := (bodyBytes body).flatMap bitsMsb
  let check := bitsMsb (crcBits (headerBodyBits sender body))
  have hbody : bodyBits.length = 8 * (bodyBytes body).length := length_flatMap_bitsMsb _
  have hheader : readContent 13 0 (addMarks 0 (contentBits sender body) ++ [false]) =
      some (headerBits sender body, 5, addMarks 5 (bodyBits ++ check) ++ [false]) := by
    have := readContent_addMarks (headerBits sender body) (bodyBits ++ check) [false] 0 (by omega)
    rw [length_headerBits] at this
    rw [contentBits_eq]
    exact this
  have hrest : readContent (8 * (bodyBytes body).length + 16) 5 (addMarks 5 (bodyBits ++ check) ++ [false]) =
      some (bodyBits ++ check, (5 + (bodyBits ++ check).length) % 8, [false]) := by
    have := readContent_addMarks (bodyBits ++ check) [] [false] 5 (by omega)
    rw [List.append_nil, List.length_append, hbody, length_bitsMsb] at this
    rw [this, List.length_append, hbody, length_bitsMsb]
    rfl
  have hlen := length_bodyBytes_le body
  unfold judgeBits
  rw [hheader]
  dsimp only
  rw [(headerBits_fields sender body).2.2, ofBits_length_field, if_neg (by omega), hrest]
  dsimp only
  rw [if_neg (by simp), List.take_left' hbody, List.drop_left' hbody]
  exact judgeContent_frame h body

theorem length_frameBits (sender : BitVec 5) (body : FrameBody) :
    (frameBits sender body).length = 34 + 9 * (bodyBytes body).length := by
  have hcontent : (contentBits sender body).length = 29 + 8 * (bodyBytes body).length := by
    rw [contentBits_eq, List.length_append, List.length_append, length_headerBits, length_flatMap_bitsMsb,
      length_bitsMsb]
    omega
  unfold frameBits
  rw [List.length_cons, List.length_append, length_addMarks _ 0 (by omega), hcontent, List.length_singleton]
  omega

/-- Settles O53: the marks are taken out again, and the fields spell the frame. -/
theorem frameBitsReadBack : Obligations.FrameBitsReadBack := by
  intro sender body h1 h30
  exact ⟨judgeBits_frame (decide_eq_true ⟨h1, h30⟩) body, rfl, length_frameBits sender body⟩

end Sys2Proof.Machine
end

section
/-! SUPPORT. The stages of planning one by one (R70 to R78): what each makes of the piece's belt fields, in
the order of `planStages`. -/

namespace Sys2Proof.Machine

variable {s t u : State} {w : Work}

/-! ## Reject reasons -/

/-- The first reject reason found stands (R77). -/
theorem Work.reject_eq (w : Work) (r : RejectReason) : w.reject r =
    { w with info := { w.info with rejectReason := some (w.info.rejectReason.getD r) } } := by
  unfold Work.reject
  cases h : w.info.rejectReason with
  | none => rfl
  | some x =>
    rw [Option.getD_some, ← h]; exact if_pos (by rw [h]; rfl)

theorem Work.reject_first (h : w.info.rejectReason = none) (r : RejectReason) :
    w.reject r = { w with info := { w.info with rejectReason := some r } } := by
  rw [Work.reject_eq, h]; rfl

/-! ## Stage 2 -/

theorem isDouble_iff {p : Piece} {a mm : Nat} (ha : p.announcedLen = some a) (hpos : a ≠ 0) :
    isDouble s.settings.tol mm a = true ↔ MeasuresDouble s p mm := by
  simp [isDouble, MeasuresDouble, ha, Nat.pos_of_ne_zero hpos]

theorem disagrees_iff {p : Piece} {a mm : Nat} (ha : p.announcedLen = some a) (hpos : a ≠ 0) :
    disagrees s.settings.tol mm a = true ↔ MeasuresOther s p mm := by
  simp only [disagrees, lengthGap, MeasuresOther, ha, Option.some.injEq, exists_eq_left', Nat.pos_of_ne_zero hpos,
    true_and]
  exact decide_eq_true_iff

theorem not_measures {p : Piece} {mm : Nat} (h : p.announcedLen = none ∨ p.announcedLen = some 0) :
    ¬ MeasuresDouble s p mm ∧ ¬ MeasuresOther s p mm := by
  constructor <;> (rintro ⟨a, ha, hpos, -⟩; rcases h with h | h <;> simp_all)

/-- The four arms of the judgement of a length (R64, R72, R108, R109). -/
theorem stageJudge_cases (w : Work) (s : State) :
    (MeasuresDouble s w.piece w.lmm ∧ stageJudge w s = (w.reject .double, s))
      ∨ (¬ MeasuresDouble s w.piece w.lmm ∧ ¬ MeasuresOther s w.piece w.lmm ∧ stageJudge w s = (w, s))
      ∨ (¬ MeasuresDouble s w.piece w.lmm ∧ MeasuresOther s w.piece w.lmm
        ∧ ∃ cand, skipCandidate s.settings w.info.localNo w.lmm s.tracks = some cand
          ∧ stageJudge w s = skipAhead cand w s)
      ∨ (¬ MeasuresDouble s w.piece w.lmm ∧ MeasuresOther s w.piece w.lmm
        ∧ stageJudge w s = ({ w with info := { w.info with disagree := true } },
          countPiece .lengthDisagree w.piece.lot w.piece.code s)) := by
  have hquiet : w.piece.announcedLen = none ∨ w.piece.announcedLen = some 0 → stageJudge w s = (w, s) := by
    rintro (h | h) <;> simp [stageJudge, h]
  cases ha : w.piece.announcedLen with
  | none =>
    obtain ⟨hd, ho⟩ := not_measures (s := s) (mm := w.lmm) (Or.inl ha)
    exact Or.inr (Or.inl ⟨hd, ho, hquiet (Or.inl ha)⟩)
  | some a =>
    by_cases hzero : a = 0
    · obtain ⟨hd, ho⟩ := not_measures (s := s) (mm := w.lmm) (Or.inr (hzero ▸ ha))
      exact Or.inr (Or.inl ⟨hd, ho, hquiet (Or.inr (hzero ▸ ha))⟩)
    · have hdouble := isDouble_iff (s := s) (mm := w.lmm) ha hzero
      have hother := disagrees_iff (s := s) (mm := w.lmm) ha hzero
      have hstage : stageJudge w s =
          if isDouble s.settings.tol w.lmm a then (w.reject .double, s)
          else if disagrees s.settings.tol w.lmm a then
            match skipCandidate s.settings w.info.localNo w.lmm s.tracks with
            | some cand => skipAhead cand w s
            | none =>
              ({ w with info := { w.info with disagree := true } },
                countPiece .lengthDisagree w.piece.lot w.piece.code s)
          else (w, s) := by
        unfold stageJudge
        rw [ha]
        exact if_neg hzero
      by_cases hd : MeasuresDouble s w.piece w.lmm
      · exact Or.inl ⟨hd, hstage.trans (if_pos (hdouble.2 hd))⟩
      · rw [if_neg (mt hdouble.1 hd)] at hstage
        by_cases ho : MeasuresOther s w.piece w.lmm
        · rw [if_pos (hother.2 ho)] at hstage
          cases hc : skipCandidate s.settings w.info.localNo w.lmm s.tracks with
          | some cand =>
            rw [hc] at hstage
            exact Or.inr (Or.inr (Or.inl ⟨hd, ho, cand, rfl, hstage⟩))
          | none =>
            rw [hc] at hstage
            exact Or.inr (Or.inr (Or.inr ⟨hd, ho, hstage⟩))
        · exact Or.inr (Or.inl ⟨hd, ho, hstage.trans (if_neg (mt hother.1 ho))⟩)

/-- What stage 2 leaves of a piece that no stage has rejected. -/
structure Judged (s : State) (w w' : Work) : Prop where
  info : w'.info = { w.info with disagree := w'.info.disagree, rejectReason := w'.info.rejectReason }
  plan : w'.plan = w.plan
  double : MeasuresDouble s w.piece w.lmm → w'.info.rejectReason = some .double
  single : ¬ MeasuresDouble s w.piece w.lmm → w'.info.rejectReason = none
  same : MeasuresDouble s w.piece w.lmm ∨ ¬ MeasuresOther s w.piece w.lmm →
    w'.piece = w.piece ∧ w'.info.disagree = w.info.disagree
  alone : ¬ MeasuresDouble s w.piece w.lmm → MeasuresOther s w.piece w.lmm →
    (∀ r ∈ s.tracks, isUnseen r = false) → w'.piece = w.piece ∧ w'.info.disagree = true
  identity : w'.piece.stage = w.piece.stage

theorem skipCandidate_none {c : Settings} {n : LocalNo} {mm : Nat} {tracks : List Record}
    (h : ∀ r ∈ tracks, isUnseen r = false) : skipCandidate c n mm tracks = none := by
  have hfind : oldestUnseen tracks = none := List.find?_eq_none.2 fun r hr => by simp [h r hr]
  unfold skipCandidate
  rw [hfind]

theorem stageJudge_judged (h : w.info.rejectReason = none) : Judged s w (stageJudge w s).1 := by
  rcases stageJudge_cases w s with ⟨hd, hj⟩ | ⟨hd, ho, hj⟩ | ⟨hd, ho, cand, hcand, hj⟩ | ⟨hd, ho, hj⟩
  · rw [hj, Work.reject_first h]
    exact ⟨rfl, rfl, fun _ => rfl, fun hn => absurd hd hn, fun _ => ⟨rfl, rfl⟩, fun hn => absurd hd hn, rfl⟩
  · rw [hj]
    exact ⟨rfl, rfl, fun hc => absurd hc hd, fun _ => h, fun _ => ⟨rfl, rfl⟩, fun _ hc => absurd hc ho, rfl⟩
  · rw [hj]
    refine ⟨rfl, rfl, fun hc => absurd hc hd, fun _ => h, fun hc => hc.elim (fun hc => absurd hc hd)
      fun hc => absurd ho hc, fun _ _ hnone => ?_, rfl⟩
    rw [skipCandidate_none hnone] at hcand
    cases hcand
  · rw [hj]
    exact ⟨rfl, rfl, fun hc => absurd hc hd, fun _ => h, fun hc => hc.elim (fun hc => absurd hc hd)
      fun hc => absurd ho hc, fun _ _ _ => ⟨rfl, rfl⟩, rfl⟩

theorem countDisagree_keeps (l : Lot) (c : Code) (s : State) :
    KeepsBut [.counters] s (countPiece .lengthDisagree l c s) := by
  intro p hp; cases p <;> simp_all [Part.same, countPiece, offerTally, bumpCounts]

theorem countSkipped_keeps (l l' : Lot) (c c' : Code) (s : State) :
    KeepsBut [.events, .counters] s (countPiece .skipAhead l c (countPiece .ghost l' c' s)) := by
  intro p hp; cases p <;> simp_all [Part.same, countPiece, offerTally, bumpCounts]

/-- The record of a local number is not what an unseen record's leaving takes. -/
theorem findLocal_eraseUnseen (n : LocalNo) (xs : List Record) :
    findLocal n (xs.eraseP isUnseen) = findLocal n xs := by
  unfold findLocal
  congr 1
  induction xs with
  | nil => rfl
  | cons r rs ih =>
    by_cases hr : isUnseen r = true
    · have hnot : ¬ hasLocal n r = true := fun h => by
        have := isOnBelt_of_unseen hr
        rw [onBelt_of_hasLocal h] at this; cases this
      rw [List.eraseP_cons_of_pos hr, List.find?_cons_of_neg hnot]
    · rw [List.eraseP_cons_of_neg hr]
      simp only [List.find?_cons, ih]

/-- With an ON_BELT record at the head, stage 2 releases no marker. -/
theorem stageJudge_room {first : Record} {rest : List Record} (hs : s.tracks = first :: rest)
    (hfirst : isOnBelt first = true) :
    KeepsBut [.tracks, .events, .counters] s (stageJudge w s).2
      ∧ ∀ n, findLocal n (stageJudge w s).2.tracks = findLocal n s.tracks := by
  rcases stageJudge_cases w s with ⟨-, hj⟩ | ⟨-, -, hj⟩ | ⟨-, -, cand, -, hj⟩ | ⟨-, -, hj⟩
  · rw [hj]; exact ⟨KeepsBut.refl _ _, fun _ => rfl⟩
  · rw [hj]; exact ⟨KeepsBut.refl _ _, fun _ => rfl⟩
  · have hhead : NoMarkerFirst (s.tracks.eraseP isUnseen) := by
      have hseen : ¬ isUnseen first = true := fun hu => by
        rw [isOnBelt_of_unseen hu] at hfirst; cases hfirst
      rw [hs, List.eraseP_cons_of_neg hseen]
      intro q l rest' h
      rw [(List.cons.inj h).1] at hfirst
      cases hfirst
    rw [hj, skipAhead_keeps_noMarker hhead]
    exact ⟨((setTracks_keeps _ s).mono (by decide)).trans ((countSkipped_keeps _ _ _ _ _).mono (by decide)),
      fun n => findLocal_eraseUnseen n s.tracks⟩
  · rw [hj]
    exact ⟨(countDisagree_keeps _ _ s).mono (by decide), fun _ => rfl⟩

/-! ## Stage 3 -/

theorem stageResolve_rejected (h : w.piece.flags.reject = true) :
    stageResolve w s = (w.reject .upstreamReject, s) := if_pos h

theorem stageResolve_resolved (h : w.piece.flags.reject = false) :
    (stageResolve w s).1 = { w with
        info := { w.info with planCode := some (resolveCode w.piece.code s.table).code }
        plan := planOf (resolveCode w.piece.code s.table).code s.table }
      ∧ (stageResolve w s).2.table = (resolveCode w.piece.code s.table).table := by
  unfold stageResolve
  rw [if_neg (by simp [h])]
  dsimp only
  rw [planOf_resolveCode_table]
  refine ⟨rfl, ?_⟩
  split <;> rfl

/-! ## Stage 4 -/

/-- Stage 4 finds a reject reason at most. -/
theorem stageRange_reason (w : Work) : ∃ reason, stageRange w =
    { w with info := { w.info with rejectReason := reason } }
      ∧ ∀ r, w.info.rejectReason = some r → reason = some r := by
  have hfound : ∀ x, ∃ reason, w.reject x = { w with info := { w.info with rejectReason := reason } }
      ∧ ∀ r, w.info.rejectReason = some r → reason = some r :=
    fun x => ⟨_, Work.reject_eq w x, fun r h => by rw [h]; rfl⟩
  have hnone : ∃ reason, w = { w with info := { w.info with rejectReason := reason } }
      ∧ ∀ r, w.info.rejectReason = some r → reason = some r := ⟨_, rfl, fun _ h => h⟩
  unfold stageRange; split
  · exact hnone
  · split
    · exact hfound _
    · split
      · exact hfound _
      · exact hnone

theorem stageRange_plan_eq {plan : PlanFields} (h : w.plan = some plan) : stageRange w =
    if w.lmm < plan.minLen then w.reject .short
    else if plan.maxLen < w.lmm then w.reject .long else w := by
  unfold stageRange; rw [h]

/-! ## Stage 5 -/

/-- Stage 5 keeps a fold of a piece that nothing rejects, or finds a reject reason. -/
theorem stageFold_result (w : Work) (s : State) : ∃ reason fold, (stageFold w s).1 =
    { w with info := { w.info with rejectReason := reason, fold := fold } }
      ∧ (∀ r, w.info.rejectReason = some r → reason = some r)
      ∧ (∀ r, reason = some r → fold = w.info.fold)
      ∧ (w.info.rejectReason = none → reason = none ∨ reason = some .late ∨ reason = some .jetBusy) := by
  unfold stageFold; split
  · exact ⟨_, _, rfl, fun _ h => h, fun _ _ => rfl, Or.inl⟩
  · split
    next hsome =>
      exact ⟨_, _, rfl, fun _ h => h, fun _ _ => rfl, fun h => by rw [h] at hsome; cases hsome⟩
    next hnone =>
      have hreject : w.info.rejectReason = none := by simpa using hnone
      have habsurd : ∀ x r, w.info.rejectReason = some r → x = some r := fun x r h => by
        rw [hreject] at h; cases h
      dsimp only; split
      · rw [Work.reject_first hreject]
        exact ⟨_, _, rfl, habsurd _, fun _ _ => rfl, fun _ => Or.inr (Or.inl rfl)⟩
      · split
        · rw [Work.reject_first hreject]
          exact ⟨_, _, rfl, habsurd _, fun _ _ => rfl, fun _ => Or.inr (Or.inr rfl)⟩
        · refine ⟨w.info.rejectReason, some _, rfl, fun _ h => h, fun r h => ?_, Or.inl⟩
          rw [hreject] at h; cases h

/-- What stage 5 comes to for a plan, by the lengths in pulses. -/
theorem stageFold_planned {plan : PlanFields} (hplan : w.plan = some plan)
    (hreject : w.info.rejectReason = none) (hfold : w.info.fold = none) :
    FoldPlanned s plan (w.pNow s.settings) w.lp (stageFold w s).1.info := by
  obtain ⟨hfolds, hstands⟩ := keptFoldIsInTimeAndGuarded s w
  obtain ⟨reason, fold, hresult, -⟩ := stageFold_result w s
  have hlead : (stageFold w s).1.info.pLead = w.info.pLead := by rw [hresult]
  unfold FoldPlanned
  rw [hlead]
  refine ⟨fun hnone => ?_, fun f hf => ?_⟩
  · rw [hstands (Or.inr fun p hp => by rw [hplan] at hp; cases hp; exact hnone)]
    simp [hfold, hreject]
  · obtain ⟨hlate, hbusy, hkept⟩ := hfolds plan f hplan hf hreject
    refine ⟨fun h => ?_, fun h hb => ?_, fun h hb => ?_⟩
    · rw [(hlate h).1]; exact ⟨hfold, rfl⟩
    · rw [(hbusy h hb).1]; exact ⟨hfold, rfl⟩
    · rw [hkept h hb]
      simp [hreject]

/-! ## Stage 6 -/

theorem alternateRoute_result (c : Settings) (alt : Alternate) (w : Work) : ∃ reason route,
    alternateRoute c alt w = { w with info := { w.info with rejectReason := reason, route := some route } }
      ∧ (∀ b, route ≠ .bay b)
      ∧ (∀ r, w.info.rejectReason = some r → reason = some r)
      ∧ (w.info.rejectReason = none → reason.isSome = true → route = rejectRoute c)
      ∧ (∀ r, reason = some r → r ≠ .noRoute → w.info.rejectReason = some r) := by
  have hbay : ∀ b, rejectRoute c ≠ .bay b := fun b => by unfold rejectRoute; split <;> simp
  unfold alternateRoute; split
  · refine ⟨w.info.rejectReason, .exit, rfl, fun _ => by simp, fun _ h => h, fun h hs => ?_, fun _ h _ => h⟩
    rw [h] at hs; cases hs
  · rw [Work.reject_eq]
    refine ⟨_, _, rfl, hbay, fun r h => by rw [h]; rfl, fun _ _ => rfl, fun r h hr => ?_⟩
    cases hx : w.info.rejectReason with
    | none => rw [hx] at h; exact absurd (Option.some.inj h).symm hr
    | some x => rw [hx] at h; exact h

/-- Stage 6 gives a route, and finds NO_ROUTE at most; a rejected piece takes the reject route. -/
theorem stageRoute_result (w : Work) (s : State) : ∃ reason route, (stageRoute w s).1 =
    { w with info := { w.info with rejectReason := reason, route := some route } }
      ∧ (∀ r, w.info.rejectReason = some r → reason = some r)
      ∧ (reason.isSome = true → route = rejectRoute s.settings)
      ∧ (∀ r, reason = some r → r ≠ .noRoute → w.info.rejectReason = some r) := by
  unfold stageRoute; split
  · exact ⟨_, _, rfl, fun _ h => h, fun _ => rfl, fun _ h _ => h⟩
  next hnone =>
    have hreject : w.info.rejectReason = none := by simpa using hnone
    have halt : ∀ alt, ∃ reason route, alternateRoute s.settings alt w =
        { w with info := { w.info with rejectReason := reason, route := some route } }
          ∧ (∀ r, w.info.rejectReason = some r → reason = some r)
          ∧ (reason.isSome = true → route = rejectRoute s.settings)
          ∧ (∀ r, reason = some r → r ≠ .noRoute → w.info.rejectReason = some r) := fun alt => by
      obtain ⟨reason, route, heq, -, hkeep, hrej, hnew⟩ := alternateRoute_result s.settings alt w
      exact ⟨reason, route, heq, hkeep, hrej hreject, hnew⟩
    split
    · dsimp only; exact halt _
    · dsimp only; split
      · refine ⟨w.info.rejectReason, .bay _, rfl, fun _ h => h, fun h => ?_, fun _ h _ => h⟩
        rw [hreject] at h; cases h
      · dsimp only; exact halt _

/-- The bay a piece is routed to holds one reservation more; no other bay changes (R128, R129). -/
theorem stageRoute_bays (w : Work) (s : State) :
    (∀ b, (stageRoute w s).1.info.route = some (.bay b) →
        ((stageRoute w s).2.bays.get b).reserved = (s.bays.get b).reserved + 1
          ∧ ∀ c : BayNo, c ≠ b → (stageRoute w s).2.bays.get c = s.bays.get c)
      ∧ ((∀ b, (stageRoute w s).1.info.route ≠ some (.bay b)) → (stageRoute w s).2.bays = s.bays) := by
  have hclaimed : ∀ b lot code n, ((claimBay b lot code n s).bays.get b).reserved = (s.bays.get b).reserved := by
    intro b lot code n
    unfold claimBay; dsimp only; split
    · rw [putBay_bays, Four.get_set_same]
    · rfl
  have halt : ∀ alt, (∀ b, (alternateRoute s.settings alt w).info.route ≠ some (.bay b)) := fun alt b => by
    obtain ⟨reason, route, heq, hbay, -⟩ := alternateRoute_result s.settings alt w
    rw [heq]
    exact fun h => hbay b (Option.some.inj h)
  unfold stageRoute; split
  · refine ⟨fun b h => ?_, fun _ => rfl⟩
    have hroute : rejectRoute s.settings = .bay b := Option.some.inj h
    unfold rejectRoute at hroute; split at hroute <;> cases hroute
  · split
    · exact ⟨fun b h => absurd h (halt _ b), fun _ => rfl⟩
    · dsimp only; split
      next b _ =>
        refine ⟨fun b' h => ?_, fun h => absurd rfl (h b)⟩
        have hb : b = b' := by simpa [Work.routed] using h
        subst hb
        rw [reserveBay_get]
        refine ⟨?_, fun c hc => ?_⟩
        · rw [Four.get_set_same, hclaimed]
        · rw [Four.get_set_other _ _ hc, claimBay_other hc]
      · exact ⟨fun b h => absurd h (halt _ b), fun _ => rfl⟩

/-- What stage 6 comes to for a piece no earlier stage rejected. -/
theorem stageRoute_planned {plan : PlanFields} (hplan : w.plan = some plan)
    (hreject : w.info.rejectReason = none) :
    RoutePlanned s plan (w.pNow s.settings) w.piece.lot (w.info.planCode.getD 0#8) (stageRoute w s).1.info := by
  let openDue : BayNo → Pos := fun b => w.openDue s.settings s.belt.v (.bay b)
  have hstage : stageRoute w s =
      match chooseBay s plan w.piece.lot (w.info.planCode.getD 0#8) openDue (w.pNow s.settings) with
      | some b => (w.routed (.bay b),
          reserveBay b (claimBay b w.piece.lot (w.info.planCode.getD 0#8) plan.target s))
      | none => (alternateRoute s.settings plan.alternate w, s) := by
    unfold stageRoute
    rw [hplan]
    exact if_neg (by simp [hreject])
  obtain ⟨reason, route, hresult, -⟩ := stageRoute_result w s
  have hdues : (fun b : BayNo => (stageRoute w s).1.info.pLead
        + BitVec.ofNat 32 (((stageRoute w s).1.info.fold.map Fold.offset).getD 0 + s.settings.gate.get b)
        - BitVec.ofNat 32 ((speedForLeads s * s.settings.tG + 100) / 200)) = openDue := by
    rw [hresult]; rfl
  unfold RoutePlanned
  rw [hdues]
  refine ⟨fun b hb hlow => ?_, fun hnone => ?_⟩
  · rw [hstage, chooseBay_eq_some_iff.2 ⟨hb, hlow⟩]
    exact ⟨rfl, hreject⟩
  · rw [hstage, chooseBay_eq_none_iff.2 hnone]
    dsimp only [alternateRoute]
    split
    · exact ⟨rfl, hreject⟩
    · rw [Work.reject_first hreject]; rfl

/-! ## Stage 8 -/

/-- An insertion leaves of the entries that are not fresh only such as stood before (R2; log 8). -/
theorem addEntry_fresh {a : Action} {due : Pos} {ps : List LocalNo} {e : SchedEntry}
    (h : e ∈ (addEntry a due ps s).schedule) : e.fresh = true ∨ e ∈ s.schedule := by
  rcases List.mem_cons.1 ((addEntry_perm a due ps s).mem_iff.1 h) with rfl | he
  · exact Or.inl rfl
  · exact Or.inr he

theorem insertGate_fresh {g : Gate} {openDue closeDue : Pos} {n : LocalNo} {e : SchedEntry}
    (h : e ∈ (insertGate g openDue closeDue n s).schedule) : e.fresh = true ∨ e ∈ s.schedule := by
  unfold insertGate at h; split at h
  · exact (addEntry_fresh h).elim Or.inl addEntry_fresh
  next old _ =>
    obtain ⟨x, hx, hxe⟩ := List.mem_map.1 ((bringForward_perm _ _ _ _).mem_iff.1 h)
    unfold movedOpen at hxe; split at hxe
    · exact Or.inl (by rw [← hxe])
    · rw [← hxe]
      exact (addEntry_fresh hx).imp_right fun hf => List.mem_of_mem_filter hf

theorem stageInsert_fresh {e : SchedEntry} (h : e ∈ (stageInsert w s).schedule) :
    e.fresh = true ∨ e ∈ s.schedule := by
  have hfire : ∀ {x}, x ∈ (afterFire w s).schedule → x.fresh = true ∨ x ∈ s.schedule := fun hx => by
    unfold afterFire at hx; split at hx
    · exact addEntry_fresh hx
    · exact Or.inr hx
  rw [stageInsert_eq] at h; split at h
  · exact (insertGate_fresh h).elim Or.inl hfire
  · exact (insertGate_fresh h).elim Or.inl hfire
  · exact (addEntry_fresh h).elim Or.inl hfire
  · exact hfire h

end Sys2Proof.Machine
end

section
/-! SUPPORT. The eight stages together: what planning makes of the piece under measurement (R63, R70). -/

namespace Sys2Proof.Machine

variable {s t u : State} {w : Work}

/-! ## What a planning reads -/

/-- Two states in which the fold and the route of a piece come out alike. -/
structure PlansLike (s t : State) : Prop where
  settings : t.settings = s.settings
  speed : t.belt.v = s.belt.v
  bays : t.bays = s.bays
  busy : ∀ j due, JetIsBusy t j due ↔ JetIsBusy s j due

theorem PlansLike.trans (h : PlansLike s t) (h' : PlansLike t u) : PlansLike s u :=
  ⟨h'.settings.trans h.settings, h'.speed.trans h.speed, h'.bays.trans h.bays,
    fun j due => (h'.busy j due).trans (h.busy j due)⟩

theorem KeepsBut.plansLike {ps : List Part} (h : KeepsBut ps s t) (hset : Part.settings ∉ ps)
    (hspeed : Part.speed ∉ ps) (hbays : Part.bays ∉ ps) (hsched : Part.schedule ∉ ps) : PlansLike s t := by
  have hsame : t.schedule = s.schedule := h .schedule hsched
  have hsettings : t.settings = s.settings := h .settings hset
  refine ⟨hsettings, (h .speed hspeed).1, h .bays hbays, fun j due => ?_⟩
  unfold JetIsBusy
  rw [hsame, hsettings]

theorem PlansLike.leadSpeed (h : PlansLike s t) : speedForLeads t = speedForLeads s := by
  unfold speedForLeads
  rw [h.speed, h.settings]

theorem PlansLike.foldPlanned (h : PlansLike s t) {plan : PlanFields} {pNow : Pos} {lp : Nat} {i : BeltInfo}
    (hf : FoldPlanned t plan pNow lp i) : FoldPlanned s plan pNow lp i := by
  unfold FoldPlanned jetDueOf IsLateAt at hf
  simp only [h.busy, h.leadSpeed, h.settings] at hf
  exact hf

theorem PlansLike.routePlanned (h : PlansLike s t) {plan : PlanFields} {pNow : Pos} {lot : Lot} {code : Code}
    {i : BeltInfo} (hr : RoutePlanned t plan pNow lot code i) : RoutePlanned s plan pNow lot code i := by
  unfold RoutePlanned MayTake at hr
  simp only [h.bays, h.leadSpeed, h.settings] at hr
  exact hr

/-! ## Stages 4 to 6 -/

/-- The length range, the fold and the route of a resolved piece. -/
def stageSettle (w : Work) (s : State) : Work × State :=
  stageRoute (stageFold (stageRange w) s).1 (stageFold (stageRange w) s).2

/-- Stages 4 to 6 find a reject reason, a fold and a route; the first reason stands, and of a rejected
piece no fold is kept but where the route alone was missing. -/
theorem stageSettle_result (w : Work) (s : State) : ∃ reason fold route, (stageSettle w s).1 =
    { w with info := { w.info with rejectReason := reason, fold := fold, route := some route } }
      ∧ (∀ r, w.info.rejectReason = some r → reason = some r)
      ∧ (reason.isSome = true → route = rejectRoute s.settings)
      ∧ (∀ r, reason = some r → r ≠ .noRoute → fold = w.info.fold) := by
  obtain ⟨r4, h4, hkeep4⟩ := stageRange_reason w
  obtain ⟨r5, fold, h5, hkeep5, hfold, -⟩ := stageFold_result (stageRange w) s
  obtain ⟨r6, route, h6, hkeep6, hroute, hnew⟩ :=
    stageRoute_result (stageFold (stageRange w) s).1 (stageFold (stageRange w) s).2
  have hsettings : (stageFold (stageRange w) s).2.settings = s.settings :=
    stageFold_keeps (stageRange w) s .settings (by decide)
  rw [hsettings] at hroute
  rw [h5] at hkeep6 hnew
  rw [h4] at hkeep5 hfold
  refine ⟨r6, fold, route, ?_, fun r h => hkeep6 r (hkeep5 r (hkeep4 r h)), hroute,
    fun r h hr => hfold r (hnew r h hr)⟩
  unfold stageSettle
  rw [h6, h5, h4]

theorem foldPlanned_after {plan : PlanFields} {pNow : Pos} {lp : Nat} {i i' : BeltInfo}
    (h : FoldPlanned s plan pNow lp i) (hlead : i'.pLead = i.pLead) (hfold : i'.fold = i.fold)
    (hkeep : ∀ r, i.rejectReason = some r → i'.rejectReason = some r)
    (hnew : ∀ r, i'.rejectReason = some r → r ≠ .noRoute → i.rejectReason = some r) :
    FoldPlanned s plan pNow lp i' := by
  obtain ⟨hnone, hsome⟩ := h
  have hlate : i.rejectReason ≠ some .late → i'.rejectReason ≠ some .late :=
    mt fun h => hnew _ h RejectReason.noConfusion
  have hbusy : i.rejectReason ≠ some .jetBusy → i'.rejectReason ≠ some .jetBusy :=
    mt fun h => hnew _ h RejectReason.noConfusion
  unfold FoldPlanned
  rw [hlead, hfold]
  refine ⟨fun h => ?_, fun f hf => ?_⟩
  · obtain ⟨h1, h2, h3⟩ := hnone h
    exact ⟨h1, hlate h2, hbusy h3⟩
  · obtain ⟨h1, h2, h3⟩ := hsome f hf
    refine ⟨fun h => ⟨(h1 h).1, hkeep _ (h1 h).2⟩, fun h hb => ⟨(h2 h hb).1, hkeep _ (h2 h hb).2⟩,
      fun h hb => ?_⟩
    obtain ⟨k1, k2, k3⟩ := h3 h hb
    exact ⟨k1, hlate k2, hbusy k3⟩

/-- Stages 4 to 6 of a piece with a plan that nothing has rejected so far (R74 to R77, R107). -/
theorem stageSettle_planned {plan : PlanFields} (hplan : w.plan = some plan)
    (hreject : w.info.rejectReason = none) (hfold : w.info.fold = none) :
    let i := (stageSettle w s).1.info
    (w.lmm < plan.minLen → i.rejectReason = some .short)
      ∧ (plan.minLen ≤ w.lmm → plan.maxLen < w.lmm → i.rejectReason = some .long)
      ∧ (plan.minLen ≤ w.lmm → w.lmm ≤ plan.maxLen → FoldPlanned s plan (w.pNow s.settings) w.lp i
        ∧ (i.rejectReason ≠ some .late → i.rejectReason ≠ some .jetBusy →
          RoutePlanned s plan (w.pNow s.settings) w.piece.lot (w.info.planCode.getD 0#8) i)) := by
  have hrange := stageRange_plan_eq hplan
  have hfound : ∀ r, stageRange w = w.reject r → (stageSettle w s).1.info.rejectReason = some r := fun r h => by
    obtain ⟨r5, fold, h5, hkeep5, -⟩ := stageFold_result (stageRange w) s
    obtain ⟨r6, route, h6, hkeep6, -⟩ :=
      stageRoute_result (stageFold (stageRange w) s).1 (stageFold (stageRange w) s).2
    unfold stageSettle
    rw [h6]
    refine hkeep6 r ?_
    rw [h5]
    refine hkeep5 r ?_
    rw [h, Work.reject_first hreject]
  refine ⟨fun hshort => ?_, fun hmin hlong => ?_, fun hmin hmax => ?_⟩
  · exact hfound _ (hrange.trans (if_pos hshort))
  · exact hfound _ ((hrange.trans (if_neg (Nat.not_lt.2 hmin))).trans (if_pos hlong))
  · have hin : stageRange w = w :=
      (hrange.trans (if_neg (Nat.not_lt.2 hmin))).trans (if_neg (Nat.not_lt.2 hmax))
    have hf := stageFold_planned (s := s) hplan hreject hfold
    have hk := stageFold_keeps w s
    obtain ⟨r5, fold, h5, -, -, hthree⟩ := stageFold_result w s
    obtain ⟨r6, route, h6, hkeep6, -, hnew⟩ := stageRoute_result (stageFold w s).1 (stageFold w s).2
    unfold stageSettle
    rw [hin]
    refine ⟨foldPlanned_after hf (by rw [h6]) (by rw [h6]) (by rw [h6]; exact hkeep6) (by rw [h6]; exact hnew),
      fun hlate hbusy => ?_⟩
    have hnone : (stageFold w s).1.info.rejectReason = none := by
      rw [h6] at hlate hbusy
      rw [h5] at hkeep6 ⊢
      rcases hthree hreject with h | h | h
      · exact h
      · exact absurd (hkeep6 _ h) hlate
      · exact absurd (hkeep6 _ h) hbusy
    have hr := stageRoute_planned (s := (stageFold w s).2) (plan := plan) (by rw [h5]; exact hplan) hnone
    have hlike : PlansLike s (stageFold w s).2 := hk.plansLike (by decide) (by decide) (by decide) (by decide)
    have hr' := hlike.routePlanned hr
    rw [hlike.settings] at hr'
    have hnow : (stageFold w s).1.pNow s.settings = w.pNow s.settings := by rw [h5]; rfl
    have hlot : (stageFold w s).1.piece.lot = w.piece.lot := by rw [h5]
    have hcode : (stageFold w s).1.info.planCode = w.info.planCode := by rw [h5]
    rw [hnow, hlot, hcode] at hr'
    exact hr'

/-! ## All stages -/

/-- The piece and the state as stage 2 leaves them. -/
def afterJudge (w : Work) (s : State) : Work × State := stageJudge (stageMeasure s.settings w) s

/-- The piece and the state as stage 3 leaves them. -/
def afterResolve (w : Work) (s : State) : Work × State := stageResolve (afterJudge w s).1 (afterJudge w s).2

/-- The piece and the state as stage 6 leaves them. -/
def afterRoute (w : Work) (s : State) : Work × State := stageSettle (afterResolve w s).1 (afterResolve w s).2

/-- The planned piece, with what stage 7 writes. -/
def plannedWork (w : Work) (s : State) : Work := stageExit (afterRoute w s).2.settings (afterRoute w s).1

theorem planStages_eq (w : Work) (s : State) : planStages w s =
    let inserted := stageInsert (plannedWork w s) (afterRoute w s).2
    setTracks (updateLocal (plannedWork w s).info.localNo (fun _ _ => (plannedWork w s).record) inserted.tracks)
      inserted := rfl

/-! ## The planned record -/

/-- The piece under measurement as planning takes it up, its trailing edge written (R63, R70). -/
def startWork (pt : Pos) (p : Piece) (i : BeltInfo) : Work :=
  { piece := p, info := { i with pTrail := some pt }, plan := none }

theorem Judged.frame {w' : Work} (h : Judged t w w') (hc : t.settings = s.settings)
    (ht : t.tracks = s.tracks) : Judged s w w' := by
  have hdouble : ∀ p mm, MeasuresDouble t p mm = MeasuresDouble s p mm := fun p mm => by
    unfold MeasuresDouble; rw [hc]
  have hother : ∀ p mm, MeasuresOther t p mm = MeasuresOther s p mm := fun p mm => by
    unfold MeasuresOther; rw [hc]
  obtain ⟨h1, h2, h3, h4, h5, h6, h7⟩ := h
  rw [hdouble] at h3 h4 h5 h6
  rw [hother] at h5 h6
  rw [ht] at h6
  exact ⟨h1, h2, h3, h4, h5, h6, h7⟩

/-- Stage 3 gives a plan code and a plan, or the reject reason of upstream (R41 to R43, R73). -/
theorem stageResolve_result (w : Work) (s : State) : ∃ code reason plan, (stageResolve w s).1 =
    { w with info := { w.info with planCode := code, rejectReason := reason }, plan := plan }
      ∧ (∀ r, w.info.rejectReason = some r → reason = some r)
      ∧ (w.piece.flags.reject = true → code = w.info.planCode
        ∧ (w.info.rejectReason = none → reason = some .upstreamReject)
        ∧ (stageResolve w s).2.table = s.table)
      ∧ (w.piece.flags.reject = false → code = some (resolveCode w.piece.code s.table).code
        ∧ plan = planOf (resolveCode w.piece.code s.table).code s.table
        ∧ reason = w.info.rejectReason
        ∧ (stageResolve w s).2.table = (resolveCode w.piece.code s.table).table) := by
  cases hf : w.piece.flags.reject with
  | true =>
    rw [stageResolve_rejected hf, Work.reject_eq]
    exact ⟨_, _, _, rfl, fun r h => by rw [h]; rfl, fun _ => ⟨rfl, fun h => by rw [h]; rfl, rfl⟩, nofun⟩
  | false =>
    obtain ⟨hw, htable⟩ := stageResolve_resolved (s := s) hf
    rw [hw]
    exact ⟨_, w.info.rejectReason, _, rfl, fun _ h => h, nofun, fun _ => ⟨rfl, rfl, rfl, htable⟩⟩

/-- The record that stages 3 to 7 make of a judged piece. -/
theorem plannedRecord_of_judged {pt : Pos} {p : Piece} {i : BeltInfo} {w2 : Work} {s2 : State}
    (hj : Judged s (stageMeasure s.settings (startWork pt p i)) w2) (hlike : PlansLike s s2)
    (htable : s2.table = s.table) (hfold : i.fold = none) :
    let w3 := stageResolve w2 s2
    let w7 := stageExit s.settings (stageSettle w3.1 w3.2).1
    PlannedRecord s pt p { w7.piece with stage := .onBelt w7.info } i w7.info := by
  obtain ⟨hinfo, hplan, hdouble, hsingle, hsame, halone, -⟩ := hj
  obtain ⟨p2, i2, plan2⟩ := w2
  dsimp only at hinfo hplan hdouble hsingle hsame halone
  generalize i2.disagree = d at *
  generalize i2.rejectReason = r2 at *
  subst hinfo
  intro w3 w7
  obtain ⟨code, r3, plan3, h3, hkeep3, hupstream, hresolved⟩ := stageResolve_result
    { piece := p2, info := { (stageMeasure s.settings (startWork pt p i)).info with
        disagree := d, rejectReason := r2 }, plan := plan2 } s2
  have hlike3 : PlansLike s w3.2 := hlike.trans
    ((stageResolve_keeps _ s2).plansLike (by decide) (by decide) (by decide) (by decide))
  obtain ⟨r6, fold, route, h6, hkeep6, hroute, hkept⟩ := stageSettle_result w3.1 w3.2
  have hplanned := fun plan => stageSettle_planned (s := w3.2) (w := w3.1) (plan := plan)
  rw [hlike3.settings] at hroute
  change w3.1 = _ at h3
  rw [h6, h3, hlike3.settings] at hplanned
  rw [h3] at hkeep6 hkept
  dsimp only at hupstream hresolved hkeep3 hkeep6 hkept
  have hend : w7 = stageExit s.settings _ := congrArg (stageExit s.settings) (h6.trans (by rw [h3]))
  rw [hend]
  clear hend h6 w7
  rw [htable] at hresolved
  refine ⟨rfl, rfl, rfl, rfl, rfl, rfl, rfl, ?_, rfl, fun h => ?_, fun hd ho hn => ?_,
    fun h => hkeep6 _ (hkeep3 _ (hdouble h)), fun hd hr => hkeep6 _ ((hupstream hr).2.1 (hsingle hd)), ?_,
    fun plan hd hr hp => ?_, fun h => congrArg some (hroute h), fun r h hr => (hkept r h hr).trans hfold, rfl⟩
  · cases fold <;> rfl
  · obtain ⟨rfl, hdis⟩ := hsame h
    exact ⟨rfl, hdis⟩
  · obtain ⟨rfl, hdis⟩ := halone hd ho hn
    exact ⟨rfl, hdis⟩
  · cases hr : p2.flags.reject with
    | true => exact (hupstream hr).1.trans (if_pos hr).symm
    | false => exact (hresolved hr).1.trans (if_neg fun h => Bool.noConfusion (hr.symm.trans h)).symm
  · obtain ⟨hcode, hplan3, hr3, -⟩ := hresolved hr
    obtain ⟨hshort, hlong, hin⟩ := hplanned plan (hplan3.trans hp) (hr3.trans (hsingle hd)) hfold
    refine ⟨hshort, hlong, fun hmin hmax => ?_⟩
    obtain ⟨hf, hroute'⟩ := hin hmin hmax
    rw [hcode] at hroute'
    exact ⟨foldPlanned_after (hlike3.foldPlanned hf) rfl rfl (fun _ h => h) fun _ h _ => h,
      fun hl hb => hlike3.routePlanned (hroute' hl hb)⟩

/-! ## What planning leaves of the state -/

theorem plannedWork_piece (w : Work) (s : State) : (plannedWork w s).piece = (afterJudge w s).1.piece := by
  obtain ⟨_, _, _, h6, -⟩ := stageSettle_result (afterResolve w s).1 (afterResolve w s).2
  obtain ⟨_, _, _, h3, -⟩ := stageResolve_result (afterJudge w s).1 (afterJudge w s).2
  change (stageSettle (afterResolve w s).1 (afterResolve w s).2).1.piece = _
  rw [h6]
  change (stageResolve (afterJudge w s).1 (afterJudge w s).2).1.piece = _
  rw [h3]

theorem stageSettle_keeps (w : Work) (s : State) :
    KeepsBut ([.events, .bays, .lamp] ++ sendParts) s (stageSettle w s).2 :=
  ((stageFold_keeps (stageRange w) s).mono (by decide)).trans ((stageRoute_keeps _ _).mono (by decide))

/-- The bay a piece is routed to holds one reservation more; no other bay changes (R128, R129). -/
theorem stageSettle_bays (w : Work) (s : State) :
    (∀ b, (stageSettle w s).1.info.route = some (.bay b) →
        ((stageSettle w s).2.bays.get b).reserved = (s.bays.get b).reserved + 1
          ∧ ∀ c : BayNo, c ≠ b → (stageSettle w s).2.bays.get c = s.bays.get c)
      ∧ ((∀ b, (stageSettle w s).1.info.route ≠ some (.bay b)) → (stageSettle w s).2.bays = s.bays) := by
  have hsame : (stageFold (stageRange w) s).2.bays = s.bays := stageFold_keeps (stageRange w) s .bays (by decide)
  rw [← hsame]
  exact stageRoute_bays _ _

/-- The parts a planning may change that releases no marker. -/
def roomParts : List Part := [.tracks, .table, .bays, .lamp, .events] ++ sendParts

theorem afterJudge_room {first : Record} {rest : List Record} (w : Work) (hs : s.tracks = first :: rest)
    (hfirst : isOnBelt first = true) :
    KeepsBut [.tracks, .events, .counters] s (afterJudge w s).2
      ∧ ∀ n, findLocal n (afterJudge w s).2.tracks = findLocal n s.tracks :=
  stageJudge_room hs hfirst

theorem afterRoute_room {first : Record} {rest : List Record} (w : Work) (hs : s.tracks = first :: rest)
    (hfirst : isOnBelt first = true) :
    KeepsBut roomParts s (afterRoute w s).2
      ∧ ∀ n, findLocal n (afterRoute w s).2.tracks = findLocal n s.tracks := by
  obtain ⟨hjudge, hfind⟩ := afterJudge_room w hs hfirst
  have hresolve : KeepsBut [.table, .events, .counters] (afterJudge w s).2 (afterResolve w s).2 :=
    stageResolve_keeps _ _
  have hsettle : KeepsBut ([.events, .bays, .lamp] ++ sendParts) (afterResolve w s).2 (afterRoute w s).2 :=
    stageSettle_keeps _ _
  have htracks : (afterRoute w s).2.tracks = (afterJudge w s).2.tracks :=
    (hsettle .tracks (by decide)).trans (hresolve .tracks (by decide))
  refine ⟨((hjudge.mono (by decide)).trans (hresolve.mono (by decide))).trans (hsettle.mono (by decide)),
    fun n => ?_⟩
  rw [htracks]
  exact hfind n

theorem updateLocal_cons (n : LocalNo) (f : Piece → BeltInfo → Record) (r : Record) (xs : List Record) :
    updateLocal n f (r :: xs) = (match beltOf r with
      | some (p, i) => if i.localNo = n then f p i else r
      | none => r) :: updateLocal n f xs := rfl

/-- The record put in the place of a local piece number's is found under that number. -/
theorem findLocal_updateLocal {n : LocalNo} {q : Piece} {j : BeltInfo} (hq : q.stage = .onBelt j)
    (hj : j.localNo = n) : ∀ {xs : List Record}, findLocal n xs ≠ none →
      findLocal n (updateLocal n (fun _ _ => .piece q) xs) = some (q, j)
  | [], h => absurd rfl h
  | r :: rs, h => by
    rw [updateLocal_cons]
    cases hb : beltOf r with
    | none =>
      have hr : ¬ hasLocal n r = true := by simp [hasLocal, hb]
      have hstep : ∀ xs, findLocal n (r :: xs) = findLocal n xs := fun xs => by
        unfold findLocal; rw [List.find?_cons_of_neg hr]
      rw [hstep] at h ⊢
      exact findLocal_updateLocal hq hj h
    | some x =>
      obtain ⟨p, i⟩ := x
      by_cases hi : i.localNo = n
      · dsimp only
        rw [if_pos hi, ← hj]
        exact findLocal_piece_head hq _
      · have hr : ¬ hasLocal n r = true := by simp [hasLocal, hb, hi]
        have hstep : ∀ xs, findLocal n (r :: xs) = findLocal n xs := fun xs => by
          unfold findLocal; rw [List.find?_cons_of_neg hr]
        dsimp only
        rw [if_neg hi]
        rw [hstep] at h ⊢
        exact findLocal_updateLocal hq hj h

/-- What the eight stages make of the state `t`, told by a state `s` in which a planning reads the same. -/
theorem planStages_room {pt : Pos} {p : Piece} {i : BeltInfo} {first : Record} {rest : List Record}
    (hlike : PlansLike s t) (htable : t.table = s.table) (htracks : t.tracks = s.tracks)
    (hfold : i.fold = none) (hreject : i.rejectReason = none) (hfind : findLocal i.localNo s.tracks ≠ none)
    (hs : s.tracks = first :: rest) (hfirst : isOnBelt first = true) :
    let t' := planStages (startWork pt p i) t
    ∃ p' i', findLocal i.localNo t'.tracks = some (p', i') ∧ PlannedRecord s pt p p' i i'
      ∧ t'.table = (if p'.flags.reject = true then s.table else (resolveCode p'.code s.table).table)
      ∧ (∀ b, i'.route = some (.bay b) → (t'.bays.get b).reserved = (s.bays.get b).reserved + 1
        ∧ ∀ c : BayNo, c ≠ b → t'.bays.get c = s.bays.get c)
      ∧ ((∀ b, i'.route ≠ some (.bay b)) → t'.bays = s.bays)
      ∧ KeepsBut (.schedule :: .nextSerial :: roomParts) t t'
      ∧ ∀ e ∈ t'.schedule, e.fresh = true ∨ e ∈ t.schedule := by
  let w := startWork pt p i
  let w7 := plannedWork w t
  let inserted := stageInsert w7 (afterRoute w t).2
  let p' : Piece := { w7.piece with stage := .onBelt w7.info }
  intro t'
  have ht' : t' = setTracks (updateLocal w7.info.localNo (fun _ _ => .piece p') inserted.tracks) inserted :=
    planStages_eq w t
  rw [ht']
  obtain ⟨hjudge, -⟩ := afterJudge_room w (htracks.trans hs) hfirst
  obtain ⟨hroute, hfinds⟩ := afterRoute_room w (htracks.trans hs) hfirst
  have hinsert : KeepsBut [.schedule, .nextSerial] (afterRoute w t).2 inserted := stageInsert_keeps _ _
  have hresolve : KeepsBut [.table, .events, .counters] (afterJudge w t).2 (afterResolve w t).2 :=
    stageResolve_keeps _ _
  have hsettle : KeepsBut ([.events, .bays, .lamp] ++ sendParts) (afterResolve w t).2 (afterRoute w t).2 :=
    stageSettle_keeps _ _
  have hjtable : (afterJudge w t).2.table = s.table := (hjudge .table (by decide)).trans htable
  have hjudged : Judged s (stageMeasure s.settings w) (afterJudge w t).1 := by
    rw [← hlike.settings]
    exact (stageJudge_judged hreject).frame hlike.settings htracks
  have hrecord : PlannedRecord s pt p p' i w7.info := by
    have hsettings : (afterRoute w t).2.settings = s.settings :=
      (hroute .settings (by decide)).trans hlike.settings
    have h := plannedRecord_of_judged hjudged
      (hlike.trans (hjudge.plansLike (by decide) (by decide) (by decide) (by decide))) hjtable hfold
    dsimp only at h
    rw [← hsettings] at h
    exact h
  have hlocal : w7.info.localNo = i.localNo := hrecord.1
  have hbays : (afterResolve w t).2.bays = s.bays :=
    ((hresolve .bays (by decide)).trans (hjudge .bays (by decide))).trans hlike.bays
  obtain ⟨hbay, hnobay⟩ := stageSettle_bays (afterResolve w t).1 (afterResolve w t).2
  rw [hbays] at hbay hnobay
  refine ⟨p', w7.info, ?_, hrecord, ?_, ?_, ?_, ?_, ?_⟩
  · have hins : inserted.tracks = (afterRoute w t).2.tracks := hinsert .tracks (by decide)
    change findLocal i.localNo (updateLocal w7.info.localNo (fun _ _ => .piece p') inserted.tracks) = _
    rw [hlocal]
    refine findLocal_updateLocal rfl hlocal ?_
    rw [hins, hfinds, htracks]
    exact hfind
  · have hpiece : w7.piece = (afterJudge w t).1.piece := plannedWork_piece w t
    have htable' : inserted.table = (afterResolve w t).2.table :=
      (hinsert .table (by decide)).trans (hsettle .table (by decide))
    obtain ⟨_, _, _, -, -, hup, hres⟩ := stageResolve_result (afterJudge w t).1 (afterJudge w t).2
    rw [hjtable] at hup hres
    change inserted.table = if w7.piece.flags.reject = true then _ else (resolveCode w7.piece.code s.table).table
    rw [htable', hpiece]
    split
    next h => exact (hup h).2.2
    next h => exact (hres (Bool.eq_false_of_not_eq_true h)).2.2.2
  · intro b hb
    have hsame : inserted.bays = (afterRoute w t).2.bays := hinsert .bays (by decide)
    change (inserted.bays.get b).reserved = _ ∧ ∀ c : BayNo, c ≠ b → inserted.bays.get c = _
    rw [hsame]
    exact hbay b hb
  · intro hb
    exact (hinsert .bays (by decide)).trans (hnobay hb)
  · exact ((hroute.mono (by decide)).trans (hinsert.mono (by decide))).trans
      ((setTracks_keeps _ inserted).mono (by decide))
  · intro e he
    rw [← show (afterRoute w t).2.schedule = t.schedule from hroute .schedule (by decide)]
    exact stageInsert_fresh (w := w7) he

/-! ## The piece under measurement -/

theorem underMeasurement_none {xs : List Record}
    (h : ∀ r ∈ xs, ∀ q j, beltOf r = some (q, j) → j.pTrail.isSome = true) : underMeasurement xs = none := by
  have hnil : (xs.filterMap beltOf).filter (fun x => x.2.pTrail.isNone) = [] := by
    rw [List.filter_eq_nil_iff]
    rintro ⟨q, j⟩ hx
    obtain ⟨r, hr, hb⟩ := List.mem_filterMap.1 hx
    simp [Option.isSome_iff_ne_none.1 (h r hr q j hb)]
  unfold underMeasurement
  rw [hnil]; rfl

theorem underMeasurement_newest {before after : List Record} {p : Piece} {i : BeltInfo}
    (hp : p.stage = .onBelt i) (hi : i.pTrail = none)
    (h : ∀ r ∈ after, ∀ q j, beltOf r = some (q, j) → j.pTrail.isSome = true) :
    underMeasurement (before ++ .piece p :: after) = some (p, i) := by
  have hafter := underMeasurement_none h
  have hbelt : beltOf (.piece p) = some (p, i) := by simp [beltOf, hp]
  unfold underMeasurement at hafter ⊢
  rw [List.getLast?_eq_none_iff] at hafter
  rw [List.filterMap_append, List.filterMap_cons_some hbelt, List.filter_append,
    List.filter_cons_of_pos (by simp [hi]), hafter, List.getLast?_append]
  rfl

theorem findLocal_among {before after : List Record} {p : Piece} {i : BeltInfo} (hp : p.stage = .onBelt i) :
    findLocal i.localNo (before ++ .piece p :: after) ≠ none := by
  intro h
  unfold findLocal at h
  cases hf : (before ++ Record.piece p :: after).find? (hasLocal i.localNo) with
  | none =>
    have := List.find?_eq_none.1 hf (.piece p) (by simp)
    exact this (by simp [hasLocal_piece hp])
  | some r =>
    have hr := List.find?_some hf
    rw [hf] at h
    cases hb : beltOf r with
    | none => simp [hasLocal, hb] at hr
    | some x => rw [Option.bind_some, hb] at h; cases h

/-! ## The pulse -/

/-- The state in which a pulse reports the entry eye's confirmed trailing edge. -/
def entryConfirmed (s : State) : State := putEye .entry (confirmedChannel s.eyes.entry) (advancePulse s)

theorem entryConfirmed_keeps (s : State) : KeepsBut (.entryEye :: pulseParts) s (entryConfirmed s) :=
  ((advancePulse_keeps s).mono (by decide)).trans ((putEye_keeps _ .entry _).mono (by decide))

theorem entryConfirmed_plansLike (s : State) : PlansLike s (entryConfirmed s) := by
  have hk := entryConfirmed_keeps s
  refine ⟨hk .settings (by decide), (hk .speed (by decide)).1, hk .bays (by decide), fun j due => ?_⟩
  constructor
  · rintro ⟨e, he, h⟩
    obtain ⟨x, hx, rfl⟩ := mem_advance_schedule he
    exact ⟨x, hx, h⟩
  · rintro ⟨x, hx, h⟩
    exact ⟨_, List.mem_map_of_mem hx, h⟩

/-- A pulse at which the entry eye's confirmation key is the only one reached, and what the confirmation
inserts is fresh: the confirmation is all the pulse does. -/
theorem exec_pulse_confirmsEntry {pt : Pos} (hs : s.station = .active)
    (hmerge : s.eyes.entry.mergePending = some pt)
    (hreach : 0 ≤ posDiff (s.belt.position + 1) (posAdd pt s.settings.mergeGap)) (hexit : EyeWaits .exit s)
    (hahead : ∀ e ∈ s.schedule, posDiff (s.belt.position + 1) e.due < 0)
    (hfresh : ∀ e ∈ (confirmEntry pt (entryConfirmed s)).schedule,
      e.fresh = true ∨ e ∈ (entryConfirmed s).schedule) :
    exec .encoderPulse s = .next (confirmEntry pt (entryConfirmed s))
      ∧ (confirmEntry pt (entryConfirmed s)).eyes.entry = confirmedChannel s.eyes.entry := by
  let a := advancePulse s
  have hconfirm : testEyeKeys .entry a = confirmEntry pt (entryConfirmed s) := by
    refine testEyeKeys_confirms (e := .entry) (s := a) hmerge ?_
    rw [advancePulse_position]; exact hreach
  have hidle : EyeIdle .exit a := .of_waits hexit
  have hwait : ∀ e ∈ a.schedule, posDiff a.belt.position e.due < 0 := fun e he => by
    obtain ⟨x, hx, rfl⟩ := mem_advance_schedule he
    rw [advancePulse_position]; exact hahead x hx
  have hposition : (testEyeKeys .entry a).belt.position = a.belt.position :=
    testEyeKeys_keeps a .entry .position (by decide)
  have hwait' : ∀ e ∈ (testEyeKeys .entry a).schedule, e.fresh = false →
      posDiff (testEyeKeys .entry a).belt.position e.due < 0 := fun e he hf => by
    rw [hposition]
    rw [hconfirm] at he
    rcases hfresh e he with h | h
    · rw [hf] at h; cases h
    · exact hwait e h
  refine ⟨(exec_encoderPulse hs).trans (congrArg _ ?_), eyeOf_confirm .entry _ pt a⟩
  rw [← hconfirm]
  exact reachKeys_alone (e := .entry) _ (testEyeKeys_idle hidle)
    (testEyeKeys_idle (EyeIdle.beside (e := .entry) hidle)) (fireSchedule_ahead hwait) (fireSchedule_waits hwait')

/-- Settles O26: the entry eye alone acts, and what a planning inserts is fresh and waits for the next
pulse; the eight stages are taken one by one. -/
theorem planningCompletesTheRecord : Obligations.PlanningCompletesTheRecord := by
  intro s pt hs hmerge hreach hexit hahead confirmed
  let b := entryConfirmed s
  have hkb : KeepsBut (.entryEye :: pulseParts) s b := entryConfirmed_keeps s
  have hpulse := exec_pulse_confirmsEntry hs hmerge hreach hexit hahead
  refine ⟨fun hunt => ?_, fun hunt hall => ?_,
    fun before after p i hunt htracks hp hi hafter _ hfold hreject hfirst => ?_⟩
  · have hclear : confirmEntry pt b = { b with eyes := { b.eyes with untracked := false } } := if_pos hunt
    obtain ⟨hexec, heye⟩ := hpulse (by rw [hclear]; exact fun e he => Or.inr he)
    refine ⟨_, hexec, heye, by rw [hclear], by rw [hclear]; rfl, ?_⟩
    rw [hclear]
    exact (hkb.mono (by decide)).trans ((clearUntracked_keeps b).mono (by decide))
  · have hplan : confirmEntry pt b = b := by
      refine (if_neg (by rw [show b.eyes.untracked = false from hunt]; exact Bool.noConfusion)).trans ?_
      unfold planPiece
      rw [show underMeasurement b.tracks = none from underMeasurement_none hall]
    obtain ⟨hexec, heye⟩ := hpulse (by rw [hplan]; exact fun e he => Or.inr he)
    refine ⟨_, hexec, heye, by rw [hplan]; rfl, ?_⟩
    rw [hplan]
    exact hkb
  · obtain ⟨first, rest, hcons, hbelt⟩ := hfirst
    have hplan : confirmEntry pt b = planStages (startWork pt p i) b := by
      refine (if_neg (by rw [show b.eyes.untracked = false from hunt]; exact Bool.noConfusion)).trans ?_
      have hunder : underMeasurement b.tracks = some (p, i) := by
        rw [show b.tracks = before ++ .piece p :: after from htracks]
        exact underMeasurement_newest hp hi hafter
      unfold planPiece
      rw [hunder]; rfl
    obtain ⟨p', i', hfind, hrecord, htable, hbay, hnobay, hkeep, hfresh⟩ :=
      planStages_room (t := b) (pt := pt) (p := p) (entryConfirmed_plansLike s) (hkb .table (by decide))
        (hkb .tracks (by decide)) hfold hreject (by rw [htracks]; exact findLocal_among hp) hcons hbelt
    rw [← hplan] at hfind htable hbay hnobay hkeep hfresh
    obtain ⟨hexec, heye⟩ := hpulse hfresh
    exact ⟨_, p', i', hexec, heye, hfind, hrecord, htable, hbay, hnobay,
      (hkb.mono (by decide)).trans (hkeep.mono (by decide))⟩

end Sys2Proof.Machine
end
